-- ==== Sys2Proof/Word.lean ====
section
/-! DEFINITION. The word types of the descriptor-ring controller (widths of spec/00_scope.md R9 and R11). -/

namespace Sys2Proof

/-- One byte of descriptor memory (R80). -/
abbrev Byte := BitVec 8

/-- A cursor, a queue index or a slot number: 16 bits (R25, R26, R37, R59). -/
abbrev Half := BitVec 16

/-- A register, a descriptor word or a buffer reference: 32 bits (R30, R44). -/
abbrev Word := BitVec 32

/-- A 48-bit MAC address; bits 7:0 are the byte first on the wire (R83). -/
abbrev Mac := BitVec 48

/-- A bucket index of the multicast table: `HASH_W = 6` bits (R9, R200). -/
abbrev Bucket := BitVec 6

end Sys2Proof
end

