-- ==== Sys2Proof/Config.lean ====
section
/-! DEFINITION. What is fixed when the hardware is built: the open parameters of R9 as one record, the fixed ones as constants,
and the two free values (inputs the spec says the model does not choose). -/

namespace Sys2Proof

/-- `HASH_MODE` (R205): which hash function locates a bucket. -/
inductive HashMode where
  | xor6
  | crc6
  deriving DecidableEq, Repr

/-- The OPEN parameters of R9. No command changes them; a model takes them as arguments. -/
structure Params where
  /-- `N_RX`, number of Rx descriptors. -/
  nRx : Nat
  /-- `N_TX`, number of Tx descriptors. -/
  nTx : Nat
  /-- `Q_CAP`, capacity of the overflow queue. -/
  qCap : Nat
  /-- `HASH_MODE`. -/
  hashMode : HashMode
  /-- `MIN_FRAME`, the smallest valid frame length in bytes. -/
  minFrame : Nat
  /-- `MAX_FRAME`, the largest valid frame length, and the size asked of the allocator. -/
  maxFrame : Nat
  /-- `COHERENT`. -/
  coherent : Bool
  deriving DecidableEq, Repr

namespace Config

/-- The reference configuration of R9 (the numbers 64 and 1518 are the spec's own reference values, R10). -/
def reference : Params :=
  { nRx := 4, nTx := 4, qCap := 2, hashMode := .xor6, minFrame := 64, maxFrame := 1518, coherent := true }

/-- `LEN_MAX`, the largest value of the 14-bit length field (R9). -/
def lenMax : Nat := 16383

/-- `REF_MAX`, the largest value of an 8-bit bucket counter (R9). -/
def refMax : BitVec 8 := 255#8

/-- `RING_ALIGN`, the alignment of a ring base in bytes (R9, R84). -/
def ringAlign : Nat := 8

/-- `DESC_SIZE`, the bytes of one descriptor (R9, R30). -/
def descSize : Nat := 8

/-- `NULL`, the buffer reference that means no buffer (R9, R30). -/
def null : Word := 0#32

/-- One past the last byte address (R80, R88). -/
def memTop : Nat := 2 ^ 32

/-- FREE VALUE (R18, R60): the allocator's answer to its `seq`-th request for `size` bytes beyond the answers that
`State.allocIn` lists. Nothing is known of it. Log 3. -/
opaque allocAnswer (size seq : Nat) : Option Word

/-- FREE VALUE (R18, R61, U11): the backpressure bit of the `seq`-th `Post` beyond the bits that `State.bpIn` lists. Log 4. -/
opaque backpressure (seq : Nat) : Bool

end Config

end Sys2Proof
end

