-- ==== Sys2Proof/Syntax.lean ====
section
/-! DEFINITION. The command set: one constructor for each row of spec/opcode_table.json (R110). -/

namespace Sys2Proof

/-- A command of the DRC. Only REPLENISH has a field in its word (R112); every other operand comes from `ARG0`, `ARG1` (R113).
A word that is none of these is answered `ILLEGAL_CMD` by the step (R117). -/
inductive Instr where
  /-- START, opcode 0x01 (R220). -/
  | start
  /-- STOP, opcode 0x02 (R226). -/
  | stop
  /-- SUBMIT, opcode 0x10 (R170). -/
  | submit
  /-- ON_TX_COMPLETE, opcode 0x11 (R176). -/
  | onTxComplete
  /-- HARVEST, opcode 0x20 (R144). -/
  | harvest
  /-- REPLENISH, opcode 0x21, with the Rx slot of bits 23:8 (R148). -/
  | replenish (slot : Nat)
  /-- RX_SERVICE, opcode 0x22 (R151). -/
  | rxService
  /-- ON_RX_READY, opcode 0x23 (R153). -/
  | onRxReady
  /-- MC_ADD, opcode 0x30 (R207). -/
  | mcAdd
  /-- MC_REMOVE, opcode 0x31 (R208). -/
  | mcRemove
  /-- MC_LOOKUP, opcode 0x32 (R209). -/
  | mcLookup
  deriving DecidableEq, Repr

end Sys2Proof
end

