-- ==== Sys2Proof/WellFormed.lean ====
section
/-! DEFINITION. The checks on terms: an instruction that a command word can hold, and a parameter record inside the ranges of R9. -/

namespace Sys2Proof

/-- A slot index that fits the 16-bit field of format S (R111, R112). -/
def Instr.slotFits (slot : Nat) : Bool := decide (slot < 2 ^ 16)

/-- The instruction is one a 32-bit command word can hold. (A slot at or above `N_RX` is well formed: REPLENISH answers it
`BAD_ARG`, R148.) -/
def Instr.wellFormed : Instr → Bool
  | .start => true
  | .stop => true
  | .submit => true
  | .onTxComplete => true
  | .harvest => true
  | .replenish slot => Instr.slotFits slot
  | .rxService => true
  | .onRxReady => true
  | .mcAdd => true
  | .mcRemove => true
  | .mcLookup => true

/-- A ring size or queue capacity is 1 to 65535 (R9). -/
def Params.sizeOk (n : Nat) : Bool := decide (1 ≤ n) && decide (n ≤ 65535)

/-- `1 <= MIN_FRAME <= MAX_FRAME <= LEN_MAX` (R10). -/
def Params.frameOk (p : Params) : Bool :=
  decide (1 ≤ p.minFrame) && decide (p.minFrame ≤ p.maxFrame) && decide (p.maxFrame ≤ Config.lenMax)

/-- The parameters lie in the ranges of R9 and R10. -/
def Params.wellFormed (p : Params) : Bool :=
  Params.sizeOk p.nRx && Params.sizeOk p.nTx && Params.sizeOk p.qCap && p.frameOk

end Sys2Proof
end

