-- ==== Sys2Proof/Decode.lean ====
section
/-! DEFINITION. The decoder of command words (R111, R112, R116, R117) and the encoder written from the same table. -/

namespace Sys2Proof

/-- Why a word written to `CMD` is no command (R117). -/
inductive DecodeError where
  /-- `w[7:0]` is none of the eleven opcodes of R110. -/
  | unknownOpcode (op : Byte)
  /-- A bit that the opcode's format requires to be 0 is 1. -/
  | mustBeZero (op : Byte)
  /-- The bytes given are not one 32-bit word. -/
  | notOneWord
  deriving DecidableEq, Repr

/-- The formats of R111. -/
inductive Format where
  /-- No field but the opcode: bits 31:8 must be 0. -/
  | n
  /-- Slot in bits 23:8: bits 31:24 must be 0. -/
  | s
  deriving DecidableEq, Repr

/-- Bits 7:0 of a command word (R112). -/
def opcodeOf (w : Word) : Byte := w.extractLsb' 0 8

/-- Bits 23:8 of a command word, unsigned (R112). -/
def slotOf (w : Word) : Half := w.extractLsb' 8 16

/-- The must-be-zero bits of a format are 0 (R116: format N masks 31:8, format S masks 31:24). -/
def formatOk : Format → Word → Bool
  | .n, w => w.extractLsb' 8 24 == 0#24
  | .s, w => w.extractLsb' 24 8 == 0#8

/-- The opcode map of R110 and R116: the format and the instruction of an opcode, given the word's slot field. -/
def opcodeRow (op : Byte) (slot : Half) : Option (Format × Instr) :=
  if op = 0x01#8 then some (.n, .start)
  else if op = 0x02#8 then some (.n, .stop)
  else if op = 0x10#8 then some (.n, .submit)
  else if op = 0x11#8 then some (.n, .onTxComplete)
  else if op = 0x20#8 then some (.n, .harvest)
  else if op = 0x21#8 then some (.s, .replenish slot.toNat)
  else if op = 0x22#8 then some (.n, .rxService)
  else if op = 0x23#8 then some (.n, .onRxReady)
  else if op = 0x30#8 then some (.n, .mcAdd)
  else if op = 0x31#8 then some (.n, .mcRemove)
  else if op = 0x32#8 then some (.n, .mcLookup)
  else none

/-- Decoding a word written to `CMD` (R116), total; what is refused is named (R117). -/
def decode (w : Word) : Except DecodeError Instr :=
  match opcodeRow (opcodeOf w) (slotOf w) with
  | none => .error (.unknownOpcode (opcodeOf w))
  | some (f, i) => if formatOk f w then .ok i else .error (.mustBeZero (opcodeOf w))

/-- A 32-bit word from its four bytes, lowest address first (little-endian, R82; D9 for registers). -/
def wordOfBytes (b0 b1 b2 b3 : Byte) : Word := b3 ++ b2 ++ b1 ++ b0

/-- Byte `k` of a word, `k = 0` the one at the lowest address (R82). -/
def byteOf (w : Word) (k : Nat) : Byte := w.extractLsb' (8 * k) 8

/-- Decoding any bytes: exactly four of them make a word. -/
def decodeBytes : List Byte → Except DecodeError Instr
  | [b0, b1, b2, b3] => decode (wordOfBytes b0 b1 b2 b3)
  | _ => .error .notOneWord

/-- The instruction decoded from the `nbits` bits of `w`, the bits above them 0 (the host's numbering: bit 0 is the least
significant of the one word a command has). -/
def decodeTableWord (nbits w : Nat) : Option Instr :=
  let v : Word := BitVec.ofNat 32 (w % 2 ^ nbits)
  match decodeBytes [byteOf v 0, byteOf v 1, byteOf v 2, byteOf v 3] with
  | .ok i => some i
  | .error _ => none

/-- The opcode of R110. -/
def Instr.opcode : Instr → Byte
  | .start => 0x01#8
  | .stop => 0x02#8
  | .submit => 0x10#8
  | .onTxComplete => 0x11#8
  | .harvest => 0x20#8
  | .replenish _ => 0x21#8
  | .rxService => 0x22#8
  | .onRxReady => 0x23#8
  | .mcAdd => 0x30#8
  | .mcRemove => 0x31#8
  | .mcLookup => 0x32#8

/-- The 16 bits 23:8 of the word: the slot of format S, 0 in format N (R111). -/
def Instr.slotField : Instr → Half
  | .replenish slot => BitVec.ofNat 16 slot
  | .start => 0#16
  | .stop => 0#16
  | .submit => 0#16
  | .onTxComplete => 0#16
  | .harvest => 0#16
  | .rxService => 0#16
  | .onRxReady => 0#16
  | .mcAdd => 0#16
  | .mcRemove => 0#16
  | .mcLookup => 0#16

/-- The command word of an instruction (R111): bits 31:24 zero, then the slot field, then the opcode. -/
def encode (i : Instr) : Word := 0#8 ++ i.slotField ++ i.opcode

end Sys2Proof
end

