-- ==== Sys2Proof/Machine/State.lean ====
section
/-! DEFINITION. The state of the machine (R20), its parts, the reasons a step can stop, and the state after hardware reset (R66). -/

namespace Sys2Proof.Machine

/-- `run_state` (R21). The value 3 is never produced, so there are three. -/
inductive RunState where
  | stopped
  | running
  | faulted
  deriving DecidableEq, Repr

/-- Which ring (`fault.ring`, R49): 0 Rx, 1 Tx. -/
inductive Ring where
  | rx
  | tx
  deriving DecidableEq, Repr

/-- `fault.cause` (R265): 0 none, 1 `FC_RX_DECODE`, 2 `FC_OWNERSHIP`. -/
inductive FaultCause where
  | none
  | rxDecode
  | ownership
  deriving DecidableEq, Repr

/-- The DeviceFault latch `fault.cause`, `fault.ring`, `fault.slot` (R20, R49). -/
structure FaultLatch where
  cause : FaultCause
  ring : Ring
  slot : Half
  deriving DecidableEq, Repr

/-- `fault = {cause = 0, ring = 0, slot = 0}` (R66, R220). -/
def FaultLatch.clear : FaultLatch := { cause := .none, ring := .rx, slot := 0#16 }

/-- The result codes of R120, in the order of their numbers 0 to 12. -/
inductive ResultCode where
  | ok
  | queued
  | busy
  | empty
  | frame
  | error
  | deviceFault
  | noResource
  | badState
  | badArg
  | notFound
  | dropped
  | illegalCmd
  deriving DecidableEq, Repr

/-- A descriptor's two words (R30): `buf` is word 0, `st` the length-or-status word 1. -/
structure Desc where
  buf : Word
  st : Word
  deriving DecidableEq, Repr

/-- The decoded state of a slot (R33). -/
inductive SlotState where
  | free
  | hwOwned
  | swCompleted
  | invalid
  deriving DecidableEq, Repr

/-- An overflow entry (R37). -/
structure QEntry where
  buf : Word
  len : BitVec 14
  deriving DecidableEq, Repr

/-- An event of the output trace (R61, R62). -/
inductive Event where
  /-- `Post(b)` on the deallocation port. -/
  | post (b : Word)
  /-- `FRAME_AVAIL`. -/
  | frameAvail
  /-- `TX_AVAIL`. -/
  | txAvail
  /-- `DMA_TX_START`. -/
  | dmaTxStart
  deriving DecidableEq, Repr

/-- The width of a host register access; only `word` is defined by the spec (R58). -/
inductive AccessWidth where
  | byte
  | half
  | word
  deriving DecidableEq, Repr

/-- A transition (R14): one host register access (a command is a write of `CMD`, R45), one DMA-engine step, the platform's
reset (R300), or a host store of one byte to memory the DRC does not own (R104, R230). -/
inductive Transition where
  /-- The host writes `value` to the register at `offset`. -/
  | write (width : AccessWidth) (offset : Nat) (value : Word)
  /-- The host reads the register at `offset`. -/
  | read (width : AccessWidth) (offset : Nat)
  /-- The step DMA_RX_DONE(`len`, `err`) of R242. -/
  | dmaRxDone (len : BitVec 14) (err : BitVec 4)
  /-- The step DMA_TX_DONE of R245. -/
  | dmaTxDone
  /-- The host stores a byte at a memory address. -/
  | hostStore (addr : Word) (value : Byte)
  /-- Hardware reset. -/
  | reset
  deriving DecidableEq, Repr

/-- Descriptor memory (R80): the bytes that something has written, addresses strictly rising. A byte that is not listed has no
value: the spec leaves it unspecified and says that a model gives it none (R66, R67). -/
abbrev Memory := List Host.Cell

/-- The address of every cell is above `a`, and addresses rise strictly. -/
def Memory.risesFrom (a : Nat) : Memory → Bool
  | [] => true
  | c :: m => decide (a < c.1) && Memory.risesFrom c.1 m

/-- Addresses rise strictly from cell to cell. -/
def Memory.rising : Memory → Bool
  | [] => true
  | c :: m => Memory.risesFrom c.1 m

/-- Every cell lies in the 32-bit address space (R80, R88). -/
def Memory.inRange (m : Memory) : Bool := m.all (fun c => decide (c.1 < Config.memTop))

/-- The canonical form. No cell can equal what an unlisted address reads as, because an unlisted address has no value. -/
def Memory.wf (m : Memory) : Bool := Memory.rising m && Memory.inRange m

/-- Why the machine stops. No state that a run from reset reaches meets either of them (the statement
`SessionInvariantRulesOutFaults`). -/
inductive Fault where
  /-- Raised by every descriptor access: the address is at or above `2^32`, where nothing exists (R80, R88). Safe: START lets no
  ring reach that far (R222). -/
  | addressOutside (addr : Nat)
  /-- Raised by every descriptor read: the byte has never been written, so the spec gives it no value (R66, R67). Safe: START
  writes every descriptor before any rule reads one (R224). -/
  | unwritten (addr : Nat)
  deriving DecidableEq, Repr

/-- Why a step is given no meaning. -/
inductive Refusal where
  /-- Raised by a row of the opcode table that has no meaning yet. Safe: nothing is claimed of it. -/
  | notModelled (mnemonic : String)
  /-- Raised by a host register access that is not an aligned 32-bit access inside 0x00 to 0x7C: "not defined by this spec; a
  model refuses it" (R58, U3). Safe. -/
  | registerAccess (offset : Nat)
  /-- Raised by a host store to a byte of either ring while `run_state` is not `STOPPED`: "a model gives the host no such step"
  (R104, U4). Safe. -/
  | hostStoreInSession (addr : Nat)
  /-- Raised by an allocator answer that is `NULL` or a buffer the DRC holds: the model's allocator input is constrained (R60, U7).
  Safe. -/
  | allocatorContract (answer : Word)
  deriving DecidableEq, Repr

/-- The machine. The fields from `runState` to `trace` are R20's table; those after `trace` are the model's own. -/
structure State where
  /-- `run_state` (R21). -/
  runState : RunState
  /-- `rx_en` (R22). -/
  rxEn : Bool
  /-- `tx_en` (R22). -/
  txEn : Bool
  /-- `tx_running` (R23). -/
  txRunning : Bool
  /-- Descriptor memory, which holds `rx_desc` and `tx_desc` (R28 to R35, R81). -/
  mem : Memory
  /-- `rx_cur` (R25). -/
  rxCur : Half
  /-- `tx_fill` (R26). -/
  txFill : Half
  /-- `tx_reclaim` (R26). -/
  txReclaim : Half
  /-- `hw_rx_cur` (R59). -/
  hwRxCur : Half
  /-- `hw_tx_cur` (R59). -/
  hwTxCur : Half
  /-- `q_ent` (R37), `Q_CAP` entries. -/
  qEnt : List QEntry
  /-- `q_front` (R37). -/
  qFront : Half
  /-- `q_back` (R37). -/
  qBack : Half
  /-- `q_len` (R37). -/
  qLen : Half
  /-- `mc_ref` (R39). -/
  mcRef : Vector (BitVec 8) 64
  /-- `mc_bit` (R39): bit `b` is `mc_bit[b]`. -/
  mcBit : BitVec 64
  /-- `bcast_en` (R54). -/
  bcastEn : Bool
  /-- `int_pend.RXR` (R47). -/
  pendRxr : Bool
  /-- `int_pend.TXC` (R47). -/
  pendTxc : Bool
  /-- `int_en.RXR` (R48). -/
  enRxr : Bool
  /-- `int_en.TXC` (R48). -/
  enTxc : Bool
  /-- `fault` (R49). -/
  fault : FaultLatch
  /-- `cnt_rx_runt` (R53). -/
  cntRxRunt : Word
  /-- `cnt_rx_oversize` (R53). -/
  cntRxOversize : Word
  /-- `cnt_rx_flagged` (R53). -/
  cntRxFlagged : Word
  /-- `cnt_rx_nobuf` (R53). -/
  cntRxNobuf : Word
  /-- `cnt_post_bp` (R53, R61). -/
  cntPostBp : Word
  /-- `ARG0` (R41). -/
  arg0 : Word
  /-- `ARG1` (R41). -/
  arg1 : Word
  /-- `RESP0` (R42). -/
  resp0 : Word
  /-- `RESP1` (R42). -/
  resp1 : Word
  /-- `RESP2` (R42). -/
  resp2 : Word
  /-- `RX_BASE` (R50). -/
  rxBase : Word
  /-- `TX_BASE` (R50). -/
  txBase : Word
  /-- `MC_REF_IDX` (R56). -/
  mcRefIdx : Bucket
  /-- The output trace (R62), oldest event first. -/
  trace : List Event
  /-- The instance's parameters (R9), which no transition changes. Model's own, log 1. -/
  params : Params
  /-- The transitions still to come, the next one first (R14, R18). Model's own, log 2. -/
  agenda : List Transition
  /-- The allocator's next answers (R18, R60). Model's own, log 3. -/
  allocIn : List (Option Word)
  /-- The next backpressure bits of `Post` (R18, R61). Model's own, log 4. -/
  bpIn : List Bool
  /-- How many inputs were drawn from the free values of Config. Model's own, logs 3 and 4. -/
  inputSeq : Nat
  /-- What the last register read returned (R18). Model's own, log 7. -/
  readValue : Word
  /-- The `sent(buf, len)` labels of DMA_TX_DONE (R245), oldest first. Model's own, log 7. -/
  sent : List (Word × BitVec 14)
  deriving DecidableEq, Repr

/-- The state after hardware reset of an instance with parameters `p` (R66, R300), no input listed. `q_ent`, which R66 leaves
unspecified, holds zeros (DESIGN CHOICE, log 6). -/
def State.resetWith (p : Params) : State :=
  { runState := .stopped
    rxEn := false
    txEn := false
    txRunning := false
    mem := []
    rxCur := 0#16
    txFill := 0#16
    txReclaim := 0#16
    hwRxCur := 0#16
    hwTxCur := 0#16
    qEnt := List.replicate p.qCap { buf := 0#32, len := 0#14 }
    qFront := 0#16
    qBack := 0#16
    qLen := 0#16
    mcRef := Vector.replicate 64 0#8
    mcBit := 0#64
    bcastEn := false
    pendRxr := false
    pendTxc := false
    enRxr := false
    enTxc := false
    fault := FaultLatch.clear
    cntRxRunt := 0#32
    cntRxOversize := 0#32
    cntRxFlagged := 0#32
    cntRxNobuf := 0#32
    cntPostBp := 0#32
    arg0 := 0#32
    arg1 := 0#32
    resp0 := 0#32
    resp1 := 0#32
    resp2 := 0#32
    rxBase := 0#32
    txBase := 0#32
    mcRefIdx := 0#6
    trace := []
    params := p
    agenda := []
    allocIn := []
    bpIn := []
    inputSeq := 0
    readValue := 0#32
    sent := [] }

/-- The machine right after reset, in the reference configuration (R9, R66; log 1). -/
def State.reset : State := State.resetWith Config.reference

end Sys2Proof.Machine
end

