-- ==== Sys2Proof/Machine/Ops.lean ====
section
/-! DEFINITION. The named operations over memory, descriptors, the overflow queue, the ports and the response registers, and the
entry into a DeviceFault with the clearing of its latch beside it. Every command is written over these. -/

namespace Sys2Proof.Machine

/-! ### Sequencing -/

/-- What a step or a part of one can answer. -/
abbrev Res (α : Type) := Host.Outcome α Fault Refusal

/-- Go on with the value of a part that answered; a stop ends the whole. -/
def andThen {α β : Type} (o : Res α) (k : α → Res β) : Res β :=
  match o with
  | .next a => k a
  | .fault r => .fault r
  | .refused r => .refused r

/-- Perform `f` for each element in order, from state to state. -/
def forEach {α σ : Type} (f : α → σ → Res σ) : List α → σ → Res σ
  | [], s => .next s
  | a :: as, s => andThen (f a s) (forEach f as)

/-! ### Bytes and words of descriptor memory -/

/-- The byte at an address; none where nothing has written it (R66, R67). -/
def readByte : Memory → Nat → Option Byte
  | [], _ => none
  | c :: m, a => if c.1 = a then some c.2 else readByte m a

/-- Store a byte, keeping addresses strictly rising. -/
def writeByte (a : Nat) (v : Byte) : Memory → Memory
  | [] => [(a, v)]
  | c :: m => if a < c.1 then (a, v) :: c :: m else if a = c.1 then (a, v) :: m else c :: writeByte a v m

/-- The byte at an address, or the stop that names the address: outside the address space (R88) or never written (R67). -/
def loadByte (m : Memory) (a : Nat) : Res Byte :=
  if Config.memTop ≤ a then .fault (.addressOutside a)
  else match readByte m a with
    | some v => .next v
    | none => .fault (.unwritten a)

/-- `MemRead(addr, 4)` (R82): the byte at `addr` is bits 7:0, the byte at `addr + 3` bits 31:24. -/
def loadWord (m : Memory) (a : Nat) : Res Word :=
  andThen (loadByte m a) fun b0 =>
  andThen (loadByte m (a + 1)) fun b1 =>
  andThen (loadByte m (a + 2)) fun b2 =>
  andThen (loadByte m (a + 3)) fun b3 =>
  .next (wordOfBytes b0 b1 b2 b3)

/-- The four bytes of a word stored little-endian from `a` on (R82). -/
def writeWord (a : Nat) (v : Word) (m : Memory) : Memory :=
  writeByte (a + 3) (byteOf v 3) (writeByte (a + 2) (byteOf v 2) (writeByte (a + 1) (byteOf v 1) (writeByte a (byteOf v 0) m)))

/-- `MemWrite(addr, 4, v)` (R82); an address outside the space stops (R88). -/
def storeWord (a : Nat) (v : Word) (m : Memory) : Res Memory :=
  if Config.memTop < a + 4 then .fault (.addressOutside a) else .next (writeWord a v m)

/-! ### Ordering and cache primitives -/

/-- What a command does to descriptor memory, one action at a time (R90, R93). -/
inductive MemAction where
  /-- `MemWrite(addr, 4, v)`. -/
  | write (addr : Nat) (v : Word)
  /-- `Barrier()`: orders the caller's accesses before it ahead of those after it (R92). -/
  | barrier
  /-- `CacheClean(addr, n)`: writes back cached copies (R93). -/
  | cacheClean (addr n : Nat)
  /-- `CacheInvalidate(addr, n)`: discards cached copies (R94). -/
  | cacheInvalidate (addr n : Nat)
  deriving DecidableEq, Repr

/-- One action. Barrier and cache primitives change no state of the model, whatever `COHERENT` is (R92, R102, R251; log 11). -/
def memAction : MemAction → Memory → Res Memory
  | .write a v, m => storeWord a v m
  | .barrier, m => .next m
  | .cacheClean _ _, m => .next m
  | .cacheInvalidate _ _, m => .next m

/-- Actions in the order of the list. -/
def memActions : List MemAction → Memory → Res Memory := forEach memAction

/-! ### Descriptors -/

/-- The byte address of a ring's slot 0 (R50). -/
def ringBase (g : Ring) (s : State) : Word :=
  match g with
  | .rx => s.rxBase
  | .tx => s.txBase

/-- The number of a ring's descriptors (R9, R24). -/
def ringSize (g : Ring) (p : Params) : Nat :=
  match g with
  | .rx => p.nRx
  | .tx => p.nTx

/-- The effective address of word 0 of slot `i`: `BASE + 8*i` (R30, R103). -/
def descAddr (base : Word) (i : Nat) : Nat := base.toNat + Config.descSize * i

/-- `d.LEN`, bits 13:0 of the status word (R31). -/
def Desc.len (d : Desc) : BitVec 14 := d.st.extractLsb' 0 14

/-- `d.ERR`, bits 19:16 (R31). -/
def Desc.err (d : Desc) : BitVec 4 := d.st.extractLsb' 16 4

/-- `d.WRAP`, bit 30 (R31). -/
def Desc.wrap (d : Desc) : Bool := d.st.getLsbD 30

/-- `d.OWN`, bit 31: 1 software-owned, 0 hardware-owned (R31, R32). -/
def Desc.own (d : Desc) : Bool := d.st.getLsbD 31

/-- A status word from its fields, the reserved bits 15:14 and 29:20 zero (R31). -/
def statusWord (own wrap : Bool) (err : BitVec 4) (len : BitVec 14) : Word :=
  BitVec.ofBool own ++ BitVec.ofBool wrap ++ 0#10 ++ err ++ 0#2 ++ len

/-- `st` with `OWN` set and every other bit kept (R226, R245). -/
def setOwn (st : Word) : Word := st ||| 0x80000000#32

/-- `slot_state(d)` (R33): `OWN` and `buf = NULL` alone decide. -/
def slotState (d : Desc) : SlotState :=
  match d.own, d.buf == Config.null with
  | true, true => .free
  | false, false => .hwOwned
  | true, false => .swCompleted
  | false, true => .invalid

/-- Read a descriptor the take-back way (R90, R94): invalidate, word 1, barrier, word 0. -/
def loadDesc (base : Word) (i : Nat) (m : Memory) : Res Desc :=
  andThen (memAction (.cacheInvalidate (descAddr base i) Config.descSize) m) fun m1 =>
  andThen (loadWord m1 (descAddr base i + 4)) fun st =>
  andThen (memAction .barrier m1) fun m2 =>
  andThen (loadWord m2 (descAddr base i)) fun buf =>
  .next { buf := buf, st := st }

/-- Read slot `i` of a ring of the machine. -/
def loadSlot (g : Ring) (i : Nat) (s : State) : Res Desc := loadDesc (ringBase g s) i s.mem

/-- Write word 0, the buffer reference, of slot `i`. -/
def storeBuf (g : Ring) (i : Nat) (b : Word) (s : State) : Res State :=
  andThen (storeWord (descAddr (ringBase g s) i) b s.mem) fun m => .next { s with mem := m }

/-- Write word 1, the status word, of slot `i`. -/
def storeStatus (g : Ring) (i : Nat) (st : Word) (s : State) : Res State :=
  andThen (storeWord (descAddr (ringBase g s) i + 4) st s.mem) fun m => .next { s with mem := m }

/-- The hand-over of R90: `buf`; the status word with `OWN` still 1; clean and barrier; the same with `OWN = 0`; clean. -/
def handOverActions (a : Nat) (wrap : Bool) (b : Word) (len : BitVec 14) : List MemAction :=
  [ .write a b
  , .write (a + 4) (statusWord true wrap 0#4 len)
  , .cacheClean a Config.descSize
  , .barrier
  , .write (a + 4) (statusWord false wrap 0#4 len)
  , .cacheClean a Config.descSize ]

/-- Give slot `i` of a ring to the DMA engine with buffer `b` and length `len`, keeping `WRAP` (R90). -/
def handOver (g : Ring) (i : Nat) (b : Word) (len : BitVec 14) (s : State) : Res State :=
  andThen (loadWord s.mem (descAddr (ringBase g s) i + 4)) fun st =>
  andThen (memActions (handOverActions (descAddr (ringBase g s) i) (st.getLsbD 30) b len) s.mem) fun m =>
  .next { s with mem := m }

/-- `InstallRx(s, b)` (R143). -/
def installRx (i : Nat) (b : Word) (s : State) : Res State := handOver .rx i b 0#14 s

/-- `FillTx(t, b, l)` (R171). -/
def fillTx (i : Nat) (b : Word) (len : BitVec 14) (s : State) : Res State := handOver .tx i b len s

/-! ### Cursors -/

/-- The cursor step `(c + 1) mod N` (R36). -/
def nextIndex (n : Nat) (c : Half) : Half := BitVec.ofNat 16 ((c.toNat + 1) % n)

/-- `next_rx` (R36). -/
def nextRx (p : Params) (c : Half) : Half := nextIndex p.nRx c

/-- `next_tx` (R36). -/
def nextTx (p : Params) (c : Half) : Half := nextIndex p.nTx c

/-- `next_q` (R36). -/
def nextQ (p : Params) (c : Half) : Half := nextIndex p.qCap c

/-- The DMA engine's cursor step by the `WRAP` bit of the slot it finished (R247). -/
def nextHw (wrap : Bool) (h : Half) : Half := if wrap then 0#16 else h + 1#16

/-! ### Overflow queue -/

/-- An empty entry: what an index outside the array would read as (never met while `q_front < Q_CAP`, R38). -/
def emptyEntry : QEntry := { buf := 0#32, len := 0#14 }

/-- `Enqueue(b, l)` (R172); the caller has tested `q_len < Q_CAP`. -/
def enqueue (b : Word) (len : BitVec 14) (s : State) : State :=
  { s with
    qEnt := s.qEnt.set s.qBack.toNat { buf := b, len := len }
    qBack := nextQ s.params s.qBack
    qLen := s.qLen + 1#16 }

/-- The entry `Dequeue()` takes: the one at `q_front` (R173). -/
def queueHead (s : State) : QEntry := s.qEnt.getD s.qFront.toNat emptyEntry

/-- `Dequeue()`'s change of state (R173); the caller has tested `q_len > 0`. The entry's storage keeps its bits. -/
def dequeue (s : State) : State :=
  { s with qFront := nextQ s.params s.qFront, qLen := s.qLen - 1#16 }

/-- The occupied entries, oldest first: `q_len` of them from `q_front` on (R37). -/
def queueEntries (s : State) : List QEntry :=
  (List.range s.qLen.toNat).map fun k => s.qEnt.getD ((s.qFront.toNat + k) % s.params.qCap) emptyEntry

/-! ### Response registers -/

/-- The 4-bit code of a result (R120). -/
def ResultCode.code : ResultCode → BitVec 4
  | .ok => 0#4
  | .queued => 1#4
  | .busy => 2#4
  | .empty => 3#4
  | .frame => 4#4
  | .error => 5#4
  | .deviceFault => 6#4
  | .noResource => 7#4
  | .badState => 8#4
  | .badArg => 9#4
  | .notFound => 10#4
  | .dropped => 11#4
  | .illegalCmd => 12#4

/-- The layout of `RESP0` (R42, R114): `SLOT` 23:8, `MORE` 4, `RESULT` 3:0, the rest 0. -/
def resp0Word (res : ResultCode) (more : Bool) (slot : Half) : Word :=
  0#8 ++ slot ++ 0#3 ++ BitVec.ofBool more ++ res.code

/-- `respond(RESULT, MORE, SLOT, r1, r2)` (R13, R114): all three registers are overwritten (R42). -/
def respond (res : ResultCode) (more : Bool) (slot : Half) (r1 r2 : Word) (s : State) : State :=
  { s with resp0 := resp0Word res more slot, resp1 := r1, resp2 := r2 }

/-- `respond` with every field but the result left out, that is 0 (R13, R42). -/
def respondOnly (res : ResultCode) (s : State) : State := respond res false 0#16 0#32 0#32 s

/-- A word that is no command (R117): `respond(ILLEGAL_CMD)` and nothing else. -/
def illegalCommand (s : State) : State := respondOnly .illegalCmd s

/-! ### DeviceFault: the one exception of the DRC, and the clearing of its latch -/

/-- `raise DeviceFault(cause, ring, slot)` (R266): latch the cause, enter `FAULTED`, answer `DEVICE_FAULT`; `n` is 0, or for
ON_TX_COMPLETE the reclaims already done. Nothing else changes: the enables, the pending bits, the cursors and the rings stay
as the command had left them. -/
def raiseDeviceFault (cause : FaultCause) (ring : Ring) (slot : Half) (n : Word) (s : State) : State :=
  respond .deviceFault false slot 0#32 n { s with fault := { cause := cause, ring := ring, slot := slot }, runState := .faulted }

/-- The clearing of the latch, done by a successful START alone (R49, R269): the return from a fault is STOP then START. -/
def clearDeviceFault (s : State) : State := { s with fault := FaultLatch.clear }

/-- The lifecycle gate of the ring commands (R140, R283), `rx_gate()` among them: `BAD_STATE` in `STOPPED`, `DEVICE_FAULT` in `FAULTED`,
else go on. The fields its `respond` leaves out are 0 (R13, R268): the test comes before any operand is read (R270). -/
def ringGate (s : State) (k : State → Res State) : Res State :=
  match s.runState with
  | .stopped => .next (respondOnly .badState s)
  | .faulted => .next (respondOnly .deviceFault s)
  | .running => k s

/-! ### Output trace and ports -/

/-- `emit E`: append an event to the output trace (R13, R62). -/
def emit (e : Event) (s : State) : State := { s with trace := s.trace ++ [e] }

/-- Take the next backpressure bit: the listed one, else a free value (R61, U11; log 4). -/
def takeBp (s : State) : Bool × State :=
  match s.bpIn with
  | bp :: rest => (bp, { s with bpIn := rest })
  | [] => (Config.backpressure s.inputSeq, { s with inputSeq := s.inputSeq + 1 })

/-- `Post(b)` (R61): the event, and one count of `cnt_post_bp` when the channel reports backpressure. -/
def post (b : Word) (s : State) : State :=
  let r := takeBp (emit (.post b) s)
  { r.2 with cntPostBp := if r.1 then r.2.cntPostBp + 1#32 else r.2.cntPostBp }

/-- Post each reference of a list, in order. -/
def postAll (bs : List Word) (s : State) : State := bs.foldl (fun t b => post b t) s

/-- The non-`NULL` buffer references of a ring's readable slots, in slot order (R64). -/
def ringRefs (g : Ring) (s : State) : List Word :=
  (List.range (ringSize g s.params)).filterMap fun i =>
    match loadSlot g i s with
    | .next d => if d.buf = Config.null then none else some d.buf
    | .fault _ => none
    | .refused _ => none

/-- Every buffer reference the DRC holds: in an Rx descriptor, a Tx descriptor or an occupied overflow entry (R64). In `STOPPED`
it holds none, since neither rings nor queue are allocated (R21). -/
def heldRefs (s : State) : List Word :=
  match s.runState with
  | .stopped => []
  | .running => ringRefs .rx s ++ ringRefs .tx s ++ (queueEntries s).map QEntry.buf
  | .faulted => ringRefs .rx s ++ ringRefs .tx s ++ (queueEntries s).map QEntry.buf

/-- Take the allocator's next answer to a request for `size` bytes: the listed one, else a free value (R60; log 3). -/
def takeAnswer (size : Nat) (s : State) : Option Word × State :=
  match s.allocIn with
  | a :: rest => (a, { s with allocIn := rest })
  | [] => (Config.allocAnswer size s.inputSeq, { s with inputSeq := s.inputSeq + 1 })

/-- `AllocGet(MAX_FRAME)` (R60). The contract the DRC relies on is the input's constraint (U7): a buffer answered is not `NULL` and
is held nowhere in the DRC, neither in `heldRefs` nor among `inFlight`, the buffers the running command itself holds; an answer
that breaks it is refused, since the allocator has no such step. -/
def allocGet (inFlight : List Word) (s : State) : Res (Option Word × State) :=
  match (takeAnswer s.params.maxFrame s).1 with
  | none => .next (none, (takeAnswer s.params.maxFrame s).2)
  | some b =>
    if b = Config.null ∨ b ∈ inFlight ∨ b ∈ heldRefs s then .refused (.allocatorContract b)
    else .next (some b, (takeAnswer s.params.maxFrame s).2)

/-! ### Counters and multicast table -/

/-- The reference counter of a bucket (R39). -/
def refCount (s : State) (b : Bucket) : BitVec 8 := s.mcRef[b.toNat]'b.isLt

/-- The hardware-visible bit of a bucket (R39). -/
def bucketBit (s : State) (b : Bucket) : Bool := s.mcBit.getLsbD b.toNat

/-- Write a bucket's reference counter. -/
def setRefCount (b : Bucket) (n : BitVec 8) (s : State) : State := { s with mcRef := s.mcRef.set b.toNat n b.isLt }

/-- Write a bucket's hardware-visible bit. -/
def setBucketBit (b : Bucket) (v : Bool) (s : State) : State :=
  { s with mcBit := if v then s.mcBit ||| (1#64 <<< b.toNat) else s.mcBit &&& ~~~(1#64 <<< b.toNat) }

end Sys2Proof.Machine
end

