-- ==== Sys2Proof/Machine/Operands.lean ====
section
/-! DEFINITION. Every operand form (R113) and the hash functions that turn a MAC operand into a bucket (R203 to R206). -/

namespace Sys2Proof.Machine

/-- The buffer operand of SUBMIT and REPLENISH: `ARG0`, 32 bits (R113). -/
def bufferOperand (s : State) : Word := s.arg0

/-- The length operand of SUBMIT: `ARG1`, all 32 bits (R113). -/
def lengthOperand (s : State) : Word := s.arg1

/-- The length operand is in 1 to `LEN_MAX`, compared as a 32-bit number (R113, R170). -/
def lengthOk (l : Word) : Bool := decide (1 ≤ l.toNat) && decide (l.toNat ≤ Config.lenMax)

/-- The `LEN` field of a length that is in range (R31, R171). -/
def lengthField (l : Word) : BitVec 14 := l.setWidth 14

/-- The slot operand of REPLENISH is below `N_RX` (R113, R148). -/
def slotOk (p : Params) (slot : Nat) : Bool := decide (slot < p.nRx)

/-- The MAC operand (R83, R113): `ARG0` is bits 31:0, `ARG1[15:0]` bits 47:32; `ARG1[31:16]` is ignored. -/
def macOperand (s : State) : Mac := s.arg1.extractLsb' 0 16 ++ s.arg0

/-- Byte `m<k>` of an address, `m0` first on the wire (R83). -/
def macByte (a : Mac) (k : Nat) : Byte := a.extractLsb' (8 * k) 8

/-- The 6-bit group `A[6k+5:6k]` (R203). -/
def macGroup (a : Mac) (k : Nat) : Bucket := a.extractLsb' (6 * k) 6

/-- `XOR6(mac)` (R203): the eight 6-bit groups XORed. -/
def xor6 (a : Mac) : Bucket :=
  macGroup a 0 ^^^ macGroup a 1 ^^^ macGroup a 2 ^^^ macGroup a 3 ^^^ macGroup a 4 ^^^ macGroup a 5 ^^^ macGroup a 6 ^^^ macGroup a 7

/-- One bit of the reflected CRC-32 (R204). -/
def crcBit (c : Word) : Word := if c.getLsbD 0 then (c >>> 1) ^^^ 0xEDB88320#32 else c >>> 1

/-- One byte of the CRC, low bit first (R204): exclusive-or into the register, then eight bit steps. -/
def crcByte (c : Word) (x : Byte) : Word :=
  crcBit (crcBit (crcBit (crcBit (crcBit (crcBit (crcBit (crcBit (c ^^^ x.setWidth 32))))))))

/-- `crc32(bytes)` (R204): start `0xFFFFFFFF`, final inversion. -/
def crc32 (xs : List Byte) : Word := xs.foldl crcByte 0xFFFFFFFF#32 ^^^ 0xFFFFFFFF#32

/-- The six bytes of an address in wire order (R202). -/
def macBytes (a : Mac) : List Byte := [macByte a 0, macByte a 1, macByte a 2, macByte a 3, macByte a 4, macByte a 5]

/-- `CRC6(mac)` (R204): bits 31:26 of the CRC. -/
def crc6 (a : Mac) : Bucket := (crc32 (macBytes a)).extractLsb' 26 6

/-- `HASH_FN(mac)` (R205). -/
def hashFn (mode : HashMode) (a : Mac) : Bucket :=
  match mode with
  | .xor6 => xor6 a
  | .crc6 => crc6 a

/-- `BCAST_BUCKET`: the bucket of the broadcast address (R206). -/
def bcastBucket (mode : HashMode) : Bucket := hashFn mode 0xFFFFFFFFFFFF#48

/-- The bucket of the MAC operand. -/
def operandBucket (s : State) : Bucket := hashFn s.params.hashMode (macOperand s)

end Sys2Proof.Machine
end

