-- ==== Sys2Proof/Machine/Flags.lean ====
section
/-! DEFINITION. The one-bit conditions of the DRC and the values computed from state (R33, R43, R46, R52, R142, R213, R272). -/

namespace Sys2Proof.Machine

/-- The number of `run_state` (R21). -/
def RunState.code : RunState → BitVec 2
  | .stopped => 0#2
  | .running => 1#2
  | .faulted => 2#2

/-- The number of `fault.cause` (R49, R265). -/
def FaultCause.code : FaultCause → BitVec 4
  | .none => 0#4
  | .rxDecode => 1#4
  | .ownership => 2#4

/-- The number of `fault.ring` (R49). -/
def Ring.bit : Ring → Bool
  | .rx => false
  | .tx => true

/-- A session exists: `run_state` is not `STOPPED` (R81). -/
def inSession (s : State) : Bool := s.runState != .stopped

/-- The queue is empty iff `q_len = 0` (R37). -/
def queueEmpty (s : State) : Bool := s.qLen == 0#16

/-- The queue is full iff `q_len = Q_CAP` (R37). -/
def queueFull (s : State) : Bool := decide (s.qLen.toNat = s.params.qCap)

/-- `q_len < Q_CAP` (R170). -/
def queueHasRoom (s : State) : Bool := decide (s.qLen.toNat < s.params.qCap)

/-- `L < MIN_FRAME` (R142). -/
def isRunt (p : Params) (d : Desc) : Bool := decide (d.len.toNat < p.minFrame)

/-- `L > MAX_FRAME` (R142). -/
def isOversize (p : Params) (d : Desc) : Bool := decide (p.maxFrame < d.len.toNat)

/-- `E != 0` (R142). -/
def isFlagged (d : Desc) : Bool := d.err != 0#4

/-- A completed frame is malformed (R142). -/
def isMalformed (p : Params) (d : Desc) : Bool := isFlagged d || isRunt p d || isOversize p d

/-- Add 1 modulo `2^32` where a condition holds (R53). -/
def countIf (c : Bool) (n : Word) : Word := if c then n + 1#32 else n

/-- How many of the listed Tx slots hold a buffer. -/
def countHeld (s : State) : List Nat → Res Nat
  | [] => .next 0
  | i :: is =>
    andThen (loadSlot .tx i s) fun d =>
    andThen (countHeld s is) fun n =>
    .next (if d.buf = Config.null then n else n + 1)

/-- `tx_level` (R52): 0 in `STOPPED`, else the number of Tx slots with `buf != NULL`. -/
def txLevel (s : State) : Res Nat :=
  if inSession s then countHeld s (List.range s.params.nTx) else .next 0

/-- `STATUS.RX_READY` (R46): in a session and the slot at `rx_cur` is `SwCompleted`. -/
def rxReady (s : State) : Res Bool :=
  if inSession s then andThen (loadSlot .rx s.rxCur.toNat s) fun d => .next (slotState d == .swCompleted)
  else .next false

/-- `irq_rx` (R272). -/
def irqRx (s : State) : Bool := s.pendRxr && s.enRxr

/-- `irq_tx` (R272). -/
def irqTx (s : State) : Bool := s.pendTxc && s.enTxc

/-- The bits of `STATUS` (R46) from their values, bit 12 first. -/
def statusBits (bcast irqT irqR ready empty full qFull qEmpty run txE rxE : Bool) (rs : RunState) : Word :=
  0#19 ++ BitVec.ofBool bcast ++ BitVec.ofBool irqT ++ BitVec.ofBool irqR ++ BitVec.ofBool ready ++ BitVec.ofBool empty ++
    BitVec.ofBool full ++ BitVec.ofBool qFull ++ BitVec.ofBool qEmpty ++ BitVec.ofBool run ++ BitVec.ofBool txE ++
    BitVec.ofBool rxE ++ rs.code

/-- `STATUS`, every bit computed at the moment of the read (R46). -/
def statusReg (s : State) : Res Word :=
  andThen (txLevel s) fun level =>
  andThen (rxReady s) fun ready =>
  .next (statusBits s.bcastEn (irqTx s) (irqRx s) ready (inSession s && decide (level = 0))
    (inSession s && decide (level = s.params.nTx)) (queueFull s) (queueEmpty s) s.txRunning s.txEn s.rxEn s.runState)

/-- `McMatch(mac) = mc_bit[HASH_FN(mac)]` (R213): what the receiver's filter decides. -/
def mcMatch (s : State) (a : Mac) : Bool := bucketBit s (hashFn s.params.hashMode a)

/-- The bucket report of R115: the bucket in bits 5:0, its bit in bit 8, all other bits 0. -/
def bucketReport (b : Bucket) (v : Bool) : Word := 0#23 ++ BitVec.ofBool v ++ 0#2 ++ b

end Sys2Proof.Machine
end

