-- ==== Sys2Proof/Machine/Lifecycle.lean ====
section
/-! DEFINITION. The lifecycle commands START and STOP (spec/43_lifecycle.md). -/

namespace Sys2Proof.Machine

/-- `BaseOk(rb, tb)` (R222): both bases aligned, both rings inside the address space, the rings apart. -/
def baseOk (p : Params) (rb tb : Word) : Bool :=
  decide (rb.toNat % Config.ringAlign = 0) && decide (tb.toNat % Config.ringAlign = 0) &&
  decide (rb.toNat + Config.descSize * p.nRx ≤ Config.memTop) && decide (tb.toNat + Config.descSize * p.nTx ≤ Config.memTop) &&
  (decide (rb.toNat + Config.descSize * p.nRx ≤ tb.toNat) || decide (tb.toNat + Config.descSize * p.nTx ≤ rb.toNat))

/-- START's first loop (R220): `left` more buffers from the allocator, `got` those obtained so far in the order obtained. It ends
with all of them and `true`, or at the first `None` with those obtained and `false` (R223). -/
def obtainBuffers : Nat → List Word → State → Res (Bool × List Word × State)
  | 0, got, s => .next (true, got, s)
  | left + 1, got, s =>
    andThen (allocGet got s) fun a =>
    match a.1 with
    | none => .next (false, got, a.2)
    | some b => obtainBuffers left (got ++ [b]) a.2

/-- Write both words of slot `i` as START does, with the engines disabled (R224). -/
def initSlot (g : Ring) (i : Nat) (b st : Word) (s : State) : Res State :=
  andThen (storeBuf g i b s) fun t => storeStatus g i st t

/-- `WRAP` goes on the last slot of a ring and on no other (R35). -/
def lastSlot (g : Ring) (p : Params) (i : Nat) : Bool := decide (i + 1 = ringSize g p)

/-- Rx slot `i` of a new session: hardware-owned, holding `b` (R220). -/
def initRxSlot (bi : Word × Nat) (s : State) : Res State :=
  initSlot .rx bi.2 bi.1 (statusWord false (lastSlot .rx s.params bi.2) 0#4 0#14) s

/-- Tx slot `i` of a new session: software-owned and empty (R220). -/
def initTxSlot (i : Nat) (s : State) : Res State :=
  initSlot .tx i Config.null (statusWord true (lastSlot .tx s.params i) 0#4 0#14) s

/-- What START writes once the rings are written (R220): queue and cursors zeroed, fault latch and pending bits cleared, interrupt
sources enabled, receiver and transmitter last, then `RUNNING`. -/
def openSession (s : State) : State :=
  { clearDeviceFault s with
    qFront := 0#16
    qBack := 0#16
    qLen := 0#16
    rxCur := 0#16
    txFill := 0#16
    txReclaim := 0#16
    hwRxCur := 0#16
    hwTxCur := 0#16
    txRunning := false
    pendRxr := false
    pendTxc := false
    enRxr := true
    enTxc := true
    rxEn := true
    txEn := true
    runState := .running }

/-- START with every buffer obtained (R220, R224): all descriptors of both rings, then the session. -/
def buildSession (bufs : List Word) (s : State) : Res State :=
  andThen (forEach initRxSlot bufs.zipIdx s) fun t =>
  andThen (forEach initTxSlot (List.range s.params.nTx) t) fun u =>
  .next (respondOnly .ok (openSession u))

/-- START on legal bases (R220, R223): when the allocator runs out, what was obtained is posted back and nothing else changes. -/
def startSession (s : State) : Res State :=
  andThen (obtainBuffers s.params.nRx [] s) fun r =>
  if r.1 then buildSession r.2.1 r.2.2
  else .next (respond .noResource false 0#16 0#32 (BitVec.ofNat 32 r.2.1.length) (postAll r.2.1 r.2.2))

/-- START (R220). -/
def execStart (s : State) : Res State :=
  match s.runState with
  | .running => .next (respondOnly .badState s)
  | .faulted => .next (respondOnly .badState s)
  | .stopped => if baseOk s.params s.rxBase s.txBase then startSession s else .next (respondOnly .badArg s)

/-- STOP's first writes (R226, R227): receiver, transmitter, interrupt sources and pending bits off. -/
def disableAll (s : State) : State :=
  { s with
    rxEn := false
    txEn := false
    txRunning := false
    enRxr := false
    enTxc := false
    pendRxr := false
    pendTxc := false }

/-- Post a held buffer and count it; `NULL` is not a buffer (R226). -/
def postHeld (g : Ring) (i : Nat) (d : Desc) (r : Word × State) : Res (Word × State) :=
  if d.buf = Config.null then .next r
  else andThen (storeBuf g i Config.null (post d.buf r.2)) fun t => .next (r.1 + 1#32, t)

/-- STOP on slot `i` of a ring (R226, R229): force software ownership, then post what it holds and clear the reference. -/
def drainSlot (g : Ring) (i : Nat) (r : Word × State) : Res (Word × State) :=
  andThen (loadSlot g i r.2) fun d =>
  andThen (storeStatus g i (setOwn d.st) r.2) fun t => postHeld g i d (r.1, t)

/-- The Tx slots in ring order from `tx_reclaim`, oldest first (R226). -/
def txWalk (s : State) : List Nat := (List.range s.params.nTx).map fun k => (s.txReclaim.toNat + k) % s.params.nTx

/-- STOP's walk over the overflow queue, front to back (R226): `k` entries are left. -/
def drainQueue : Nat → Word × State → Word × State
  | 0, r => r
  | k + 1, r => drainQueue k (r.1 + 1#32, post (queueHead r.2).buf (dequeue r.2))

/-- STOP's end (R226, R230, R269): the session is over; `fault`, cursors and counters stay. -/
def closeSession (r : Word × State) : State :=
  respond .ok false 0#16 0#32 r.1 { r.2 with runState := .stopped }

/-- STOP of a session (R226): the Rx ring in index order, the Tx ring oldest first, the overflow queue front to back. -/
def stopSession (s : State) : Res State :=
  andThen (forEach (drainSlot .rx) (List.range s.params.nRx) (0#32, disableAll s)) fun r =>
  andThen (forEach (drainSlot .tx) (txWalk s) r) fun q =>
  .next (closeSession (drainQueue q.2.qLen.toNat q))

/-- STOP (R226): in `STOPPED` it answers `OK` and nothing changes. -/
def execStop (s : State) : Res State :=
  match s.runState with
  | .stopped => .next (respondOnly .ok s)
  | .running => stopSession s
  | .faulted => stopSession s

end Sys2Proof.Machine
end

