-- ==== Sys2Proof/Machine/Multicast.lean ====
section
/-! DEFINITION. The multicast commands MC_ADD, MC_REMOVE and MC_LOOKUP (spec/42_multicast.md). They look at no lifecycle state (R201,
R283). -/

namespace Sys2Proof.Machine

/-- The response of a multicast command: the bucket report and the counter, both after the command (R114, R115). -/
def respondBucket (res : ResultCode) (b : Bucket) (s : State) : State :=
  respond res false 0#16 (bucketReport b (bucketBit s b)) ((refCount s b).setWidth 32) s

/-- One more reference to a bucket (R207); on the 0 to 1 transition its bit is set. -/
def addRef (b : Bucket) (s : State) : State :=
  let t := setRefCount b (refCount s b + 1#8) s
  if refCount s b = 0#8 then setBucketBit b true t else t

/-- The broadcast exception of R208: the bucket is `BCAST_BUCKET` and broadcast reception is desired. -/
def bcastHolds (b : Bucket) (s : State) : Bool := s.bcastEn && b == bcastBucket s.params.hashMode

/-- One reference fewer to a bucket whose counter is not 0 (R208); on the transition to 0 its bit is cleared, but for the
broadcast exception. -/
def dropRef (b : Bucket) (s : State) : State :=
  let t := setRefCount b (refCount s b - 1#8) s
  if refCount s b = 1#8 ∧ bcastHolds b s = false then setBucketBit b false t else t

/-- MC_ADD (R207). At `REF_MAX` it is refused with `NO_RESOURCE` and changes nothing. -/
def execMcAdd (s : State) : Res State :=
  let b := operandBucket s
  if refCount s b = Config.refMax then .next (respondBucket .noResource b s)
  else .next (respondBucket .ok b (addRef b s))

/-- MC_REMOVE (R208). At 0 it answers `NOT_FOUND` and changes nothing. -/
def execMcRemove (s : State) : Res State :=
  let b := operandBucket s
  if refCount s b = 0#8 then .next (respondBucket .notFound b s)
  else .next (respondBucket .ok b (dropRef b s))

/-- MC_LOOKUP (R209): reads the filter for one address without changing it. -/
def execMcLookup (s : State) : Res State := .next (respondBucket .ok (operandBucket s) s)

end Sys2Proof.Machine
end

