-- ==== Sys2Proof/Machine/RxRing.lean ====
section
/-! DEFINITION. The Rx ring commands HARVEST, REPLENISH, RX_SERVICE and ON_RX_READY (spec/40_rx_ring.md). -/

namespace Sys2Proof.Machine

/-- What HarvestCore hands to its caller (R144). -/
inductive HarvestResult where
  /-- `EMPTY`: the slot at the cursor is `HwOwned`. -/
  | empty (slot : Half)
  /-- `DeviceFault(FC_RX_DECODE)` is to be raised for the slot. -/
  | undecodable (slot : Half)
  /-- `ERROR`: a malformed frame, the slot, its buffer and its status word. -/
  | bad (more : Bool) (slot : Half) (buf st : Word)
  /-- `FRAME`: a good frame, the slot, its buffer and its length. -/
  | good (more : Bool) (slot : Half) (buf : Word) (len : BitVec 14)
  deriving DecidableEq, Repr

/-- `MoreCheck()` (R144, R146): the slot now at the cursor is complete; then `FRAME_AVAIL` is emitted too. -/
def moreCheck (s : State) : Res (Bool × State) :=
  andThen (loadSlot .rx s.rxCur.toNat s) fun d =>
  if slotState d = .swCompleted then .next (true, emit .frameAvail s) else .next (false, s)

/-- The three malformed-frame counters, each counting its own condition (R53, R144). -/
def countMalformed (d : Desc) (s : State) : State :=
  { s with
    cntRxRunt := countIf (isRunt s.params d) s.cntRxRunt
    cntRxOversize := countIf (isOversize s.params d) s.cntRxOversize
    cntRxFlagged := countIf (isFlagged d) s.cntRxFlagged }

/-- `rx_cur <- next_rx(rx_cur)` (R145). -/
def advanceRx (s : State) : State := { s with rxCur := nextRx s.params s.rxCur }

/-- HarvestCore on a completed slot `d` at the cursor (R144): a malformed frame is counted and its descriptor left as it is; a
good one leaves its slot `Free`. The cursor advances before `MORE` is computed (R145). -/
def harvestCompleted (d : Desc) (s : State) : Res (HarvestResult × State) :=
  if isMalformed s.params d then
    andThen (moreCheck (advanceRx (countMalformed d s))) fun r => .next (.bad r.1 s.rxCur d.buf d.st, r.2)
  else
    andThen (storeBuf .rx s.rxCur.toNat Config.null s) fun t =>
    andThen (moreCheck (advanceRx t)) fun r => .next (.good r.1 s.rxCur d.buf d.len, r.2)

/-- HarvestCore() (R141, R144, R147). -/
def harvestCore (s : State) : Res (HarvestResult × State) :=
  andThen (loadSlot .rx s.rxCur.toNat s) fun d =>
  match slotState d with
  | .hwOwned => .next (.empty s.rxCur, s)
  | .free => .next (.undecodable s.rxCur, s)
  | .invalid => .next (.undecodable s.rxCur, s)
  | .swCompleted => harvestCompleted d s

/-- `st AND 0x000F3FFF`: `ERR` and `LEN` alone, as `ERROR` reports them (R114, R144). -/
def errorReport (st : Word) : Word := st &&& 0x000F3FFF#32

/-- HARVEST (R144). -/
def execHarvest (s : State) : Res State :=
  ringGate s fun s =>
  andThen (harvestCore s) fun r =>
  match r.1 with
  | .empty slot => .next (respond .empty false slot 0#32 0#32 r.2)
  | .undecodable slot => .next (raiseDeviceFault .rxDecode .rx slot 0#32 r.2)
  | .bad more slot buf st => .next (respond .error more slot buf (errorReport st) r.2)
  | .good more slot buf len => .next (respond .frame more slot buf (len.setWidth 32) r.2)

/-- REPLENISH on the descriptor `d` of a slot in range, with a buffer that is not `NULL` (R148). -/
def replenishSlot (slot : Nat) (b : Word) (d : Desc) (s : State) : Res State :=
  match slotState d with
  | .hwOwned => .next (raiseDeviceFault .ownership .rx (BitVec.ofNat 16 slot) 0#32 s)
  | .invalid => .next (raiseDeviceFault .ownership .rx (BitVec.ofNat 16 slot) 0#32 s)
  | .swCompleted =>
    if d.buf = b then andThen (installRx slot b s) fun t => .next (respond .ok false (BitVec.ofNat 16 slot) 0#32 0#32 t)
    else .next (respond .badArg false (BitVec.ofNat 16 slot) 0#32 0#32 s)
  | .free => andThen (installRx slot b s) fun t => .next (respond .ok false (BitVec.ofNat 16 slot) 0#32 0#32 t)

/-- REPLENISH (R148): the gate of R140, then the slot range, then the `NULL` test (R270). DEDUCED: the `BAD_STATE` of the gate has
`SLOT` 0 (R13, R140, R148), as the slot operand has not been read yet; R114's row read alone would give the slot field (log 20). -/
def execReplenish (slot : Nat) (s : State) : Res State :=
  ringGate s fun s =>
  if slotOk s.params slot then
    if bufferOperand s = Config.null then .next (respond .badArg false (BitVec.ofNat 16 slot) 0#32 0#32 s)
    else andThen (loadSlot .rx slot s) fun d => replenishSlot slot (bufferOperand s) d s
  else .next (respondOnly .badArg s)

/-- RX_SERVICE after a good frame was harvested (R151): a fresh buffer is installed and the frame handed over, or, with no fresh
buffer, the harvested one goes back and the frame is dropped and counted. -/
def serviceFrame (more : Bool) (slot : Half) (buf : Word) (len : BitVec 14) (s : State) : Res State :=
  andThen (allocGet [buf] s) fun a =>
  match a.1 with
  | none =>
    andThen (installRx slot.toNat buf { a.2 with cntRxNobuf := a.2.cntRxNobuf + 1#32 }) fun t =>
    .next (respond .dropped more slot 0#32 (len.setWidth 32) t)
  | some fresh =>
    andThen (installRx slot.toNat fresh a.2) fun t => .next (respond .frame more slot buf (len.setWidth 32) t)

/-- RX_SERVICE (R151). -/
def execRxService (s : State) : Res State :=
  ringGate s fun s =>
  andThen (harvestCore s) fun r =>
  match r.1 with
  | .empty slot => .next (respond .empty false slot 0#32 0#32 r.2)
  | .undecodable slot => .next (raiseDeviceFault .rxDecode .rx slot 0#32 r.2)
  | .bad more slot buf st =>
    andThen (installRx slot.toNat buf r.2) fun t => .next (respond .error more slot 0#32 (errorReport st) t)
  | .good more slot buf len => serviceFrame more slot buf len r.2

/-- ON_RX_READY (R153): the pending bit is cleared in every lifecycle state, before the gate (R270). -/
def execOnRxReady (s : State) : Res State :=
  ringGate { s with pendRxr := false } fun t =>
  .next (respondOnly .ok (if s.pendRxr then emit .frameAvail t else t))

end Sys2Proof.Machine
end

