-- ==== Sys2Proof/Machine/TxRing.lean ====
section
/-! DEFINITION. The Tx ring commands SUBMIT and ON_TX_COMPLETE (spec/41_tx_ring_queue.md). -/

namespace Sys2Proof.Machine

/-- `if tx_running = 0: tx_running <- 1 ; emit DMA_TX_START` (R170, R183). -/
def restartTx (s : State) : State := if s.txRunning then s else emit .dmaTxStart { s with txRunning := true }

/-- SUBMIT into the free slot at `tx_fill` (R170): fill it, advance, restart the engine if idle, answer `OK` with the slot. -/
def submitToRing (b l : Word) (s : State) : Res State :=
  andThen (fillTx s.txFill.toNat b (lengthField l) s) fun t =>
  .next (respond .ok false s.txFill 0#32 0#32 (restartTx { t with txFill := nextTx s.params s.txFill }))

/-- SUBMIT when the ring does not take the buffer (R170): `QUEUED`, or `BUSY` with nothing changed. -/
def submitToQueue (b l : Word) (s : State) : State :=
  if queueHasRoom s then respondOnly .queued (enqueue b (lengthField l) s) else respondOnly .busy s

/-- SUBMIT with operands in range, on the descriptor `d` of the slot at `tx_fill` (R170, R174). -/
def submitOn (d : Desc) (b l : Word) (s : State) : Res State :=
  match slotState d with
  | .invalid => .next (raiseDeviceFault .ownership .tx s.txFill 0#32 s)
  | .free => if queueEmpty s then submitToRing b l s else .next (submitToQueue b l s)
  | .hwOwned => .next (submitToQueue b l s)
  | .swCompleted => .next (submitToQueue b l s)

/-- SUBMIT (R170). -/
def execSubmit (s : State) : Res State :=
  ringGate s fun s =>
  if bufferOperand s = Config.null ∨ lengthOk (lengthOperand s) = false then .next (respondOnly .badArg s)
  else andThen (loadSlot .tx s.txFill.toNat s) fun d => submitOn d (bufferOperand s) (lengthOperand s) s

/-- The reclaim of the finished slot at `tx_reclaim`, whose descriptor is `d` (R176, R177): the slot becomes `Free` in the form START
gave it, its buffer is posted, `TX_AVAIL` signalled, and the cursor advances. -/
def reclaimSlot (d : Desc) (s : State) : Res State :=
  andThen (storeBuf .tx s.txReclaim.toNat Config.null s) fun t =>
  andThen (storeStatus .tx s.txReclaim.toNat (statusWord true d.wrap 0#4 0#14) t) fun u =>
  .next { emit .txAvail (post d.buf u) with txReclaim := nextTx s.params s.txReclaim }

/-- The refill of the freed slot `r` from the front of a queue that is not empty (R176, R178). -/
def refillSlot (r : Half) (s : State) : Res State :=
  andThen (fillTx r.toNat (queueHead s).buf (queueHead s).len (dequeue s)) fun t =>
  .next { t with txFill := nextTx s.params r }

/-- How the reclaim loop ended. -/
inductive LoopEnd where
  /-- It met a slot that is not finished. -/
  | done
  /-- It is to raise `DeviceFault(FC_OWNERSHIP, 1, slot)`. -/
  | faulted (slot : Half)
  deriving DecidableEq, Repr

/-- The loop of ON_TX_COMPLETE (R176); `n` counts the reclaims. At most `fuel` iterations are begun; with `N_TX + 2` the fuel
never runs out, since every iteration but the last takes one more slot out of `SwCompleted` (R180; log 13). -/
def reclaimLoop : Nat → Word → State → Res (LoopEnd × Word × State)
  | 0, n, s => .next (.done, n, s)
  | fuel + 1, n, s =>
    andThen (loadSlot .tx s.txReclaim.toNat s) fun d =>
    match slotState d with
    | .invalid => .next (.faulted s.txReclaim, n, s)
    | .hwOwned => .next (.done, n, s)
    | .free => .next (.done, n, s)
    | .swCompleted =>
      andThen (reclaimSlot d s) fun t =>
      if queueEmpty t then reclaimLoop fuel (n + 1#32) t
      else if t.txFill = s.txReclaim then
        andThen (refillSlot s.txReclaim t) fun u => reclaimLoop fuel (n + 1#32) u
      else .next (.faulted s.txReclaim, n + 1#32, t)

/-- Step (d) of ON_TX_COMPLETE (R179): with the ring drained and the queue empty the engine is marked idle. -/
def markIdle (s : State) : Res State :=
  andThen (txLevel s) fun level =>
  .next (if level = 0 ∧ queueEmpty s then { s with txRunning := false } else s)

/-- ON_TX_COMPLETE (R176): the pending bit is cleared first, in every lifecycle state (R181, R270). -/
def execOnTxComplete (s : State) : Res State :=
  ringGate { s with pendTxc := false } fun s =>
  andThen (reclaimLoop (s.params.nTx + 2) 0#32 s) fun r =>
  match r.1 with
  | .faulted slot => .next (raiseDeviceFault .ownership .tx slot r.2.1 r.2.2)
  | .done => andThen (markIdle r.2.2) fun t => .next (respond .ok false 0#16 0#32 r.2.1 t)

end Sys2Proof.Machine
end

