-- ==== Sys2Proof/Machine/Dispatch.lean ====
section
/-! DEFINITION. One arm per command, each a direct call of its meaning (R110, R283). -/

namespace Sys2Proof.Machine

def exec (i : Instr) (s : State) : Host.Outcome State Fault Refusal :=
  match i with
  | .start => Sys2Proof.Machine.execStart s
  | .stop => Sys2Proof.Machine.execStop s
  | .submit => Sys2Proof.Machine.execSubmit s
  | .onTxComplete => Sys2Proof.Machine.execOnTxComplete s
  | .harvest => Sys2Proof.Machine.execHarvest s
  | .replenish slot => Sys2Proof.Machine.execReplenish slot s
  | .rxService => Sys2Proof.Machine.execRxService s
  | .onRxReady => Sys2Proof.Machine.execOnRxReady s
  | .mcAdd => Sys2Proof.Machine.execMcAdd s
  | .mcRemove => Sys2Proof.Machine.execMcRemove s
  | .mcLookup => Sys2Proof.Machine.execMcLookup s

end Sys2Proof.Machine
end

