-- ==== Sys2Proof/Machine/Dma.lean ====
section
/-! DEFINITION. The DMA engine as the second agent (R240 to R248): its two steps. A scheduled step whose guard does not hold is not
enabled and changes nothing (R243, U12; log 10). -/

namespace Sys2Proof.Machine

/-- DMA_RX_DONE(`len`, `err`) taken on the descriptor `d` of the slot at `hw_rx_cur` (R242): one write of the status word. -/
def dmaRxGiveBack (len : BitVec 14) (err : BitVec 4) (d : Desc) (s : State) : Res State :=
  andThen (storeStatus .rx s.hwRxCur.toNat (statusWord true d.wrap err len) s) fun t =>
  .next { t with pendRxr := true, hwRxCur := nextHw d.wrap s.hwRxCur }

/-- DMA_RX_DONE with its guard: `rx_en = 1` and the slot at `hw_rx_cur` is `HwOwned` (R242). -/
def dmaRxDone (len : BitVec 14) (err : BitVec 4) (s : State) : Res State :=
  if s.rxEn then
    andThen (loadSlot .rx s.hwRxCur.toNat s) fun d =>
    if slotState d = .hwOwned then dmaRxGiveBack len err d s else .next s
  else .next s

/-- DMA_TX_DONE taken on the descriptor `d` of the slot at `hw_tx_cur` (R245): `OWN` set, every other bit kept; the label
`sent(buf, LEN)` is recorded beside the machine. -/
def dmaTxGiveBack (d : Desc) (s : State) : Res State :=
  andThen (storeStatus .tx s.hwTxCur.toNat (setOwn d.st) s) fun t =>
  .next { t with pendTxc := true, hwTxCur := nextHw d.wrap s.hwTxCur, sent := s.sent ++ [(d.buf, d.len)] }

/-- DMA_TX_DONE with its guard: `tx_en = 1`, `tx_running = 1` and the slot at `hw_tx_cur` is `HwOwned` (R245, R246). -/
def dmaTxDone (s : State) : Res State :=
  if s.txEn && s.txRunning then
    andThen (loadSlot .tx s.hwTxCur.toNat s) fun d =>
    if slotState d = .hwOwned then dmaTxGiveBack d s else .next s
  else .next s

end Sys2Proof.Machine
end

