-- ==== Sys2Proof/Machine/Registers.lean ====
section
/-! DEFINITION. The register map (R44): which register an offset names, what a read returns and what a write changes. A write of
`CMD` is a command and is not here (R45). -/

namespace Sys2Proof.Machine

/-- The registers of R44, in the order of their offsets. -/
inductive Reg where
  | cmd
  | arg0
  | arg1
  | resp0
  | resp1
  | resp2
  | status
  | intPend
  | intEn
  | fault
  | rxBase
  | txBase
  | rxCur
  | txCur
  | txLevel
  | qLevel
  | qPtrs
  | cntRxRunt
  | cntRxOversize
  | cntRxFlagged
  | cntRxNobuf
  | cntPostBp
  | mcCtrl
  | mcHashLo
  | mcHashHi
  | mcRefIdx
  | mcRefData
  | param0
  | param1
  | param2
  /-- Offsets 0x78 and 0x7C: read 0, ignore writes (R44, R58). -/
  | unmapped
  deriving DecidableEq, Repr

/-- The register at a word offset inside the space (R44); none outside the offsets it lists. -/
def regAt (offset : Nat) : Option Reg :=
  match offset with
  | 0x00 => some .cmd
  | 0x04 => some .arg0
  | 0x08 => some .arg1
  | 0x0C => some .resp0
  | 0x10 => some .resp1
  | 0x14 => some .resp2
  | 0x18 => some .status
  | 0x1C => some .intPend
  | 0x20 => some .intEn
  | 0x24 => some .fault
  | 0x28 => some .rxBase
  | 0x2C => some .txBase
  | 0x30 => some .rxCur
  | 0x34 => some .txCur
  | 0x38 => some .txLevel
  | 0x3C => some .qLevel
  | 0x40 => some .qPtrs
  | 0x44 => some .cntRxRunt
  | 0x48 => some .cntRxOversize
  | 0x4C => some .cntRxFlagged
  | 0x50 => some .cntRxNobuf
  | 0x54 => some .cntPostBp
  | 0x58 => some .mcCtrl
  | 0x5C => some .mcHashLo
  | 0x60 => some .mcHashHi
  | 0x64 => some .mcRefIdx
  | 0x68 => some .mcRefData
  | 0x6C => some .param0
  | 0x70 => some .param1
  | 0x74 => some .param2
  | 0x78 => some .unmapped
  | 0x7C => some .unmapped
  | _ => none

/-- The register a host access reaches: an aligned 32-bit access inside the space, else none (R58, U3). -/
def regOf (width : AccessWidth) (offset : Nat) : Option Reg :=
  match width with
  | .word => regAt offset
  | .half => none
  | .byte => none

/-- `INT_PEND` (R47). -/
def intPendReg (s : State) : Word := 0#30 ++ BitVec.ofBool s.pendTxc ++ BitVec.ofBool s.pendRxr

/-- `INT_EN` (R48). -/
def intEnReg (s : State) : Word := 0#30 ++ BitVec.ofBool s.enTxc ++ BitVec.ofBool s.enRxr

/-- `FAULT` (R49). -/
def faultReg (s : State) : Word := 0#8 ++ s.fault.slot ++ 0#3 ++ BitVec.ofBool s.fault.ring.bit ++ s.fault.cause.code

/-- `PARAM0` (R57): `N_TX` above `N_RX`. -/
def param0Reg (p : Params) : Word := BitVec.ofNat 16 p.nTx ++ BitVec.ofNat 16 p.nRx

/-- `PARAM1` (R57): `COHERENT` in bit 17, `HASH_MODE` in bit 16, `Q_CAP` below. -/
def param1Reg (p : Params) : Word :=
  0#14 ++ BitVec.ofBool p.coherent ++ BitVec.ofBool (p.hashMode == .crc6) ++ BitVec.ofNat 16 p.qCap

/-- `PARAM2` (R57): `MAX_FRAME` in bits 29:16, `MIN_FRAME` in bits 13:0. -/
def param2Reg (p : Params) : Word := 0#2 ++ BitVec.ofNat 14 p.maxFrame ++ 0#2 ++ BitVec.ofNat 14 p.minFrame

/-- What a read of a register returns (R44 to R58). Only `STATUS` and `TX_LEVEL` look at descriptor memory (R46, R52). -/
def readReg (r : Reg) (s : State) : Res Word :=
  match r with
  | .cmd => .next 0#32
  | .arg0 => .next s.arg0
  | .arg1 => .next s.arg1
  | .resp0 => .next s.resp0
  | .resp1 => .next s.resp1
  | .resp2 => .next s.resp2
  | .status => statusReg s
  | .intPend => .next (intPendReg s)
  | .intEn => .next (intEnReg s)
  | .fault => .next (faultReg s)
  | .rxBase => .next s.rxBase
  | .txBase => .next s.txBase
  | .rxCur => .next (s.rxCur.setWidth 32)
  | .txCur => .next (s.txReclaim ++ s.txFill)
  | .txLevel => andThen (txLevel s) fun n => .next (BitVec.ofNat 32 n)
  | .qLevel => .next (s.qLen.setWidth 32)
  | .qPtrs => .next (s.qBack ++ s.qFront)
  | .cntRxRunt => .next s.cntRxRunt
  | .cntRxOversize => .next s.cntRxOversize
  | .cntRxFlagged => .next s.cntRxFlagged
  | .cntRxNobuf => .next s.cntRxNobuf
  | .cntPostBp => .next s.cntPostBp
  | .mcCtrl => .next (BitVec.setWidth 32 (BitVec.ofBool s.bcastEn))
  | .mcHashLo => .next (s.mcBit.extractLsb' 0 32)
  | .mcHashHi => .next (s.mcBit.extractLsb' 32 32)
  | .mcRefIdx => .next (s.mcRefIdx.setWidth 32)
  | .mcRefData => .next ((refCount s s.mcRefIdx).setWidth 32)
  | .param0 => .next (param0Reg s.params)
  | .param1 => .next (param1Reg s.params)
  | .param2 => .next (param2Reg s.params)
  | .unmapped => .next 0#32

/-- A write of `INT_PEND`: write one to clear (R47). -/
def writeIntPend (v : Word) (s : State) : State :=
  { s with pendRxr := s.pendRxr && !v.getLsbD 0, pendTxc := s.pendTxc && !v.getLsbD 1 }

/-- A write of `MC_CTRL`: write one to set `bcast_en` and the broadcast bucket's bit (R54, R212). -/
def writeMcCtrl (v : Word) (s : State) : State :=
  if v.getLsbD 0 then setBucketBit (bcastBucket s.params.hashMode) true { s with bcastEn := true } else s

/-- What a write of a register other than `CMD` changes (R44 to R58): nothing for a read-only or unmapped one, and nothing for a
base register outside `STOPPED` (R50). -/
def writeReg (r : Reg) (v : Word) (s : State) : State :=
  match r with
  | .arg0 => { s with arg0 := v }
  | .arg1 => { s with arg1 := v }
  | .intPend => writeIntPend v s
  | .rxBase => if inSession s then s else { s with rxBase := v }
  | .txBase => if inSession s then s else { s with txBase := v }
  | .mcCtrl => writeMcCtrl v s
  | .mcRefIdx => { s with mcRefIdx := v.setWidth 6 }
  | .cmd => s
  | .resp0 => s
  | .resp1 => s
  | .resp2 => s
  | .status => s
  | .intEn => s
  | .fault => s
  | .rxCur => s
  | .txCur => s
  | .txLevel => s
  | .qLevel => s
  | .qPtrs => s
  | .cntRxRunt => s
  | .cntRxOversize => s
  | .cntRxFlagged => s
  | .cntRxNobuf => s
  | .cntPostBp => s
  | .mcHashLo => s
  | .mcHashHi => s
  | .mcRefData => s
  | .param0 => s
  | .param1 => s
  | .param2 => s
  | .unmapped => s

end Sys2Proof.Machine
end

