-- ==== Sys2Proof/Machine/Transitions.lean ====
section
/-! DEFINITION. What each transition does (R14): commands by a write of `CMD`, register accesses, DMA steps, reset, host stores. -/

namespace Sys2Proof.Machine

/-- A write of `w` to `CMD` (R45): the command it encodes, or `ILLEGAL_CMD` for a word that is none (R117). -/
def runCommand (w : Word) (s : State) : Res State :=
  match decode w with
  | .ok i => exec i s
  | .error _ => .next (illegalCommand s)

/-- A host write (R44, R45, R58). -/
def hostWrite (width : AccessWidth) (offset : Nat) (v : Word) (s : State) : Res State :=
  match regOf width offset with
  | none => .refused (.registerAccess offset)
  | some r => if r = .cmd then runCommand v s else .next (writeReg r v s)

/-- A host read (R44, R58): what it returns is kept in `readValue` (R18, log 7); nothing of the DRC changes (R87). -/
def hostRead (width : AccessWidth) (offset : Nat) (s : State) : Res State :=
  match regOf width offset with
  | none => .refused (.registerAccess offset)
  | some r => andThen (readReg r s) fun v => .next { s with readValue := v }

/-- The byte at `addr` belongs to a ring (R80, R221). -/
def inRing (g : Ring) (addr : Nat) (s : State) : Bool :=
  decide ((ringBase g s).toNat ≤ addr) && decide (addr < (ringBase g s).toNat + Config.descSize * ringSize g s.params)

/-- A host store of one byte: refused inside the rings during a session (R104, U4), plain memory otherwise (R230; log 9). -/
def hostStoreByte (addr : Word) (v : Byte) (s : State) : Res State :=
  if inSession s && (inRing .rx addr.toNat s || inRing .tx addr.toNat s) then .refused (.hostStoreInSession addr.toNat)
  else .next { s with mem := writeByte addr.toNat v s.mem }

/-- Hardware reset (R300, R302): every element of R20 as after reset, no `Post`. The parameters stay (they are built in), and so do
the inputs still to come (log 12). -/
def hardwareReset (s : State) : State :=
  { State.resetWith s.params with agenda := s.agenda, allocIn := s.allocIn, bpIn := s.bpIn, inputSeq := s.inputSeq }

/-- One transition. -/
def runTransition (t : Transition) (s : State) : Res State :=
  match t with
  | .write width offset v => hostWrite width offset v s
  | .read width offset => hostRead width offset s
  | .dmaRxDone len err => dmaRxDone len err s
  | .dmaTxDone => dmaTxDone s
  | .hostStore addr v => hostStoreByte addr v s
  | .reset => .next (hardwareReset s)

end Sys2Proof.Machine
end

