-- ==== Sys2Proof/Machine/Step.lean ====
section
/-! DEFINITION. The step: take the next transition of the agenda (R14), or wait for one (R66). -/

namespace Sys2Proof.Machine

/-- The state once the transition at the head of the agenda has been taken off it. -/
def State.popAgenda (s : State) : State := { s with agenda := s.agenda.tail }

/-- One step: the first transition of the agenda, run on the state without it. With none listed the DRC "waits for register
accesses" (R66) and nothing changes. -/
def step (s : State) : Host.Outcome State Fault Refusal :=
  match s.agenda with
  | [] => .next s
  | t :: _ => runTransition t s.popAgenda

/-- `s` with a write of the word `w` (its bits at and above `nbits` 0) to `CMD` as the next transition: what the DRC has in place
of a fetch (R27, R45; log 2). -/
def State.withFetchWord (s : State) (nbits w : Nat) : State :=
  { s with agenda := .write .word 0x00 (BitVec.ofNat 32 (w % 2 ^ nbits)) :: s.agenda }

end Sys2Proof.Machine
end

