-- ==== Sys2Proof/Machine/Script.lean ====
section
/-! DEFINITION. The written forms of commands and the pseudo-commands (R121, R122), as the register accesses they stand for. -/

namespace Sys2Proof.Machine

/-- A line of a host script. The `@` lines of R123 are other agents' transitions and inputs: `Transition.dmaRxDone`,
`Transition.dmaTxDone`, `State.allocIn`, `State.bpIn`. `RX_DRAIN` depends on responses and is `rxDrain` below. -/
inductive Written where
  | harvest
  | replenish (slot : Nat) (buf : Word)
  | rxService
  | onRxReady
  | submit (buf len : Word)
  | onTxComplete
  | mcAdd (mac : Mac)
  | mcRemove (mac : Mac)
  | mcLookup (mac : Mac)
  | start
  | stop
  /-- `WR reg, value`, the register given by its offset. -/
  | wr (offset : Nat) (value : Word)
  /-- `RD reg`. -/
  | rd (offset : Nat)
  /-- `RECYCLE slot, buf`. -/
  | recycle (slot : Nat) (buf : Word)
  /-- `RESTART`. -/
  | restart
  /-- `BCAST_ON`. -/
  | bcastOn
  /-- `ACK mask`. -/
  | ack (mask : Word)
  deriving DecidableEq, Repr

/-- One 32-bit write of a register. -/
def writeAt (offset : Nat) (v : Word) : Transition := .write .word offset v

/-- The write of `CMD` that issues a command (R45, R111). -/
def issue (i : Instr) : Transition := writeAt 0x00 (encode i)

/-- A multicast command on an address (R83, R121): bytes `m0` to `m3` to `ARG0`, `m4` and `m5` to `ARG1`, then the command. -/
def issueMac (i : Instr) (mac : Mac) : List Transition :=
  [writeAt 0x04 (mac.extractLsb' 0 32), writeAt 0x08 ((mac.extractLsb' 32 16).setWidth 32), issue i]

/-- The word `REPLENISH slot, buf` writes to `CMD`, by R121's formula `0x21 OR (slot << 8)`. It is `encode` of the command for a slot of
16 bits. DESIGN CHOICE: for a written slot above 65535, which R112 has no field for, the formula is taken as it stands and the 32 bits of
`CMD` are kept, so that a bit above the field makes the word illegal (R117). Log 21. -/
def replenishWord (slot : Nat) : Word := BitVec.ofNat 32 (0x21 ||| slot <<< 8)

/-- `REPLENISH slot, buf` (R121). -/
def writtenReplenish (slot : Nat) (buf : Word) : List Transition := [writeAt 0x04 buf, writeAt 0x00 (replenishWord slot)]

/-- The register accesses a line stands for, in order (R121, R122). That `RECYCLE` takes any reference, and `WR` and `RD` any offset,
is the model's choice (log 21). -/
def writtenAccesses : Written → List Transition
  | .harvest => [issue .harvest]
  | .replenish slot buf => writtenReplenish slot buf
  | .rxService => [issue .rxService]
  | .onRxReady => [issue .onRxReady]
  | .submit buf len => [writeAt 0x04 buf, writeAt 0x08 len, issue .submit]
  | .onTxComplete => [issue .onTxComplete]
  | .mcAdd mac => issueMac .mcAdd mac
  | .mcRemove mac => issueMac .mcRemove mac
  | .mcLookup mac => issueMac .mcLookup mac
  | .start => [issue .start]
  | .stop => [issue .stop]
  | .wr offset value => [writeAt offset value]
  | .rd offset => [.read .word offset]
  | .recycle slot buf => writtenReplenish slot buf
  | .restart => [issue .stop, issue .start]
  | .bcastOn => [writeAt 0x58 1#32]
  | .ack mask => [writeAt 0x1C mask]

/-- `RX_DRAIN` is over (R122): the result is `EMPTY`, `DEVICE_FAULT` or `BAD_STATE`, or `MORE` is 0. -/
def drainOver (resp0 : Word) : Bool :=
  resp0.extractLsb' 0 4 == ResultCode.empty.code || !resp0.getLsbD 4 || resp0.extractLsb' 0 4 == ResultCode.deviceFault.code ||
    resp0.extractLsb' 0 4 == ResultCode.badState.code

/-- `RX_DRAIN` (R122): RX_SERVICE repeated until `drainOver`. DESIGN CHOICE: at most `fuel` times, with no transition of another agent
between two of them; a host may also issue the commands one by one on the agenda. Log 21. -/
def rxDrain : Nat → State → Res State
  | 0, s => .next s
  | fuel + 1, s => andThen (runCommand (encode .rxService) s) fun t => if drainOver t.resp0 then .next t else rxDrain fuel t

end Sys2Proof.Machine
end

