-- ==== Sys2Proof/Safety.lean ====
section
/-! DEFINITION. What a good state is, in the terms the statements use: the invariants of R35, R38, R40 and R65, and the views of a state
(held buffers, the transmit pipeline) that the properties of R175 and R228 speak of. -/

namespace Sys2Proof.Safety

open Sys2Proof.Machine

/-! ### Views -/

/-- Slot `i` of a ring is readable and its descriptor satisfies `p`. -/
def slotIs (p : Desc → Bool) (g : Ring) (i : Nat) (s : State) : Bool :=
  match loadSlot g i s with
  | .next d => p d
  | .fault _ => false
  | .refused _ => false

/-- How many slots of a ring satisfy `p`. -/
def countSlots (p : Desc → Bool) (g : Ring) (s : State) : Nat :=
  ((List.range (ringSize g s.params)).filter fun i => slotIs p g i s).length

/-- The number of Tx slots with `buf != NULL` (R52). -/
def txHeld (s : State) : Nat := countSlots (fun d => d.buf != Config.null) .tx s

/-- The number of finished Tx slots that are not reclaimed yet. -/
def txFinished (s : State) : Nat := countSlots (fun d => slotState d == .swCompleted) .tx s

/-- Tx slot number `j` in ring order from `tx_reclaim` (R65). -/
def txSlot (s : State) (j : Nat) : Nat := (s.txReclaim.toNat + j) % s.params.nTx

/-- The buffer and length of a readable slot that holds a buffer. -/
def slotLoad (g : Ring) (i : Nat) (s : State) : Option (Word × BitVec 14) :=
  match loadSlot g i s with
  | .next d => if d.buf = Config.null then none else some (d.buf, d.len)
  | .fault _ => none
  | .refused _ => none

/-- What the transmit side holds, oldest first: the Tx ring in ring order from `tx_reclaim`, then the overflow queue front to back
(R175, R226). -/
def txPipeline (s : State) : List (Word × BitVec 14) :=
  ((List.range s.params.nTx).filterMap fun j => slotLoad .tx (txSlot s j) s) ++
    (queueEntries s).map fun e => (e.buf, e.len)

/-- Every buffer STOP will post, in its order (R226): Rx slots by index, then the transmit pipeline. -/
def stopRefs (s : State) : List Word := ringRefs .rx s ++ (txPipeline s).map Prod.fst

/-- The buffers a trace shows posted, oldest first (R61). -/
def posted (tr : List Event) : List Word :=
  tr.filterMap fun e =>
    match e with
    | .post b => some b
    | .frameAvail => none
    | .txAvail => none
    | .dmaTxStart => none

/-- The allocator's `k`-th answer from now on: the listed ones, then the free ones (R60; log 3). -/
def answerAt (s : State) (k : Nat) : Option Word :=
  match s.allocIn[k]? with
  | some a => a
  | none => Config.allocAnswer s.params.maxFrame (s.inputSeq + (k - s.allocIn.length))

/-- Mask and match of the eleven rows of R116. -/
def commandRows : List (Word × Word) :=
  [ (0xFFFFFFFF#32, 0x00000001#32)
  , (0xFFFFFFFF#32, 0x00000002#32)
  , (0xFFFFFFFF#32, 0x00000010#32)
  , (0xFFFFFFFF#32, 0x00000011#32)
  , (0xFFFFFFFF#32, 0x00000020#32)
  , (0xFF0000FF#32, 0x00000021#32)
  , (0xFFFFFFFF#32, 0x00000022#32)
  , (0xFFFFFFFF#32, 0x00000023#32)
  , (0xFFFFFFFF#32, 0x00000030#32)
  , (0xFFFFFFFF#32, 0x00000031#32)
  , (0xFFFFFFFF#32, 0x00000032#32) ]

/-- A word is legal (R116): a listed opcode, and the must-be-zero bits of its format 0. -/
def legalWord (w : Word) : Prop :=
  w.extractLsb' 0 8 ∈ [0x01#8, 0x02#8, 0x10#8, 0x11#8, 0x20#8, 0x21#8, 0x22#8, 0x23#8, 0x30#8, 0x31#8, 0x32#8] ∧
    if w.extractLsb' 0 8 = 0x21#8 then w.extractLsb' 24 8 = 0#8 else w.extractLsb' 8 24 = 0#24

/-- A completed frame is good (the negation of R142). -/
def goodFrame (p : Params) (d : Desc) : Prop := d.err = 0#4 ∧ p.minFrame ≤ d.len.toNat ∧ d.len.toNat ≤ p.maxFrame

/-- A host write of the word `w` to `CMD` is the next transition. -/
def nextCommand (s : State) (w : Word) : Prop := s.agenda.head? = some (.write .word 0x00 w)

/-- Hardware reset is the next transition. -/
def nextIsReset (s : State) : Prop := s.agenda.head? = some .reset

/-- What a step from `s` to `t` accepts for transmission: the operands of a SUBMIT that was answered `OK` or `QUEUED` (R175). -/
def accepted (s t : State) : List (Word × BitVec 14) :=
  if s.agenda.head? = some (.write .word 0x00 0x00000010#32) ∧
      (t.resp0.extractLsb' 0 4 = ResultCode.ok.code ∨ t.resp0.extractLsb' 0 4 = ResultCode.queued.code)
  then [(s.arg0, s.arg1.setWidth 14)] else []

/-- What the engine has still to send, oldest first: the transmit pipeline without its finished slots. -/
def unsent (s : State) : List (Word × BitVec 14) := (txPipeline s).drop (txFinished s)

/-- One `FRAME_AVAIL` when `more` holds, else nothing (R146). -/
def frameAvailIf (more : Bool) : List Event := if more then [.frameAvail] else []

/-- The `WRAP` bit of a descriptor in its place, every other bit 0. -/
def wrapBit (d : Desc) : Word := if d.wrap then 0x40000000#32 else 0#32

/-- `MORE` after a good frame was taken from the cursor, `e` being the slot the cursor moves on to (R144, R146): with one slot in the
ring that slot is the one just emptied. -/
def moreAfterFrame (s : State) (e : Desc) : Bool :=
  decide (nextRx s.params s.rxCur ≠ s.rxCur) && slotState e == .swCompleted

/-- The writes among a list of memory actions, in order (R90). -/
def writesOf (as : List MemAction) : List (Nat × Word) :=
  as.filterMap fun a =>
    match a with
    | .write x v => some (x, v)
    | .barrier => none
    | .cacheClean _ _ => none
    | .cacheInvalidate _ _ => none

/-- `BaseOk` (R222), as the rule writes it. -/
def basesFit (p : Params) (rb tb : Word) : Prop :=
  rb.toNat % 8 = 0 ∧ tb.toNat % 8 = 0 ∧ rb.toNat + 8 * p.nRx ≤ 2 ^ 32 ∧ tb.toNat + 8 * p.nTx ≤ 2 ^ 32 ∧
    (rb.toNat + 8 * p.nRx ≤ tb.toNat ∨ tb.toNat + 8 * p.nTx ≤ rb.toNat)

/-- Memory is the same outside the `n` bytes from `lo` on. -/
def sameOutside (lo n : Nat) (m m' : Memory) : Prop := ∀ a, ¬ (lo ≤ a ∧ a < lo + n) → readByte m' a = readByte m a

/-- Memory is the same outside both rings of `s`. -/
def sameOutsideRings (s : State) (m' : Memory) : Prop :=
  ∀ a, inRing .rx a s = false → inRing .tx a s = false → readByte m' a = readByte s.mem a

/-! ### Invariants -/

/-- The queue invariants of R38, and that `q_ent` has `Q_CAP` entries (R37). -/
structure QueueShape (s : State) : Prop where
  entries : s.qEnt.length = s.params.qCap
  len : s.qLen.toNat ≤ s.params.qCap
  front : s.qFront.toNat < s.params.qCap
  back : s.qBack.toNat = (s.qFront.toNat + s.qLen.toNat) % s.params.qCap

/-- The multicast invariant of R40. -/
def FilterShape (s : State) : Prop :=
  ∀ b : Bucket, bucketBit s b = true ↔ 0 < (refCount s b).toNat ∨ (b = bcastBucket s.params.hashMode ∧ s.bcastEn = true)

/-- Every cursor lies inside its ring (R24, R25, R26, R36). -/
structure CursorShape (s : State) : Prop where
  rx : s.rxCur.toNat < s.params.nRx
  fill : s.txFill.toNat < s.params.nTx
  reclaim : s.txReclaim.toNat < s.params.nTx
  hwRx : s.hwRxCur.toNat < s.params.nRx
  hwTx : s.hwTxCur.toNat < s.params.nTx

/-- Ring shape (R35) with every descriptor readable, and the reserved bits of the status word 0 (R31). -/
def RingShape (g : Ring) (s : State) : Prop :=
  ∀ i, i < ringSize g s.params →
    slotIs (fun d => d.wrap == decide (i + 1 = ringSize g s.params) && d.st &&& 0x3FF0C000#32 == 0#32) g i s = true

/-- What holds between sessions: nothing is enabled, pending or queued (R226). -/
structure Idle (s : State) : Prop where
  rxEn : s.rxEn = false
  txEn : s.txEn = false
  txRunning : s.txRunning = false
  enRxr : s.enRxr = false
  enTxc : s.enTxc = false
  pendRxr : s.pendRxr = false
  pendTxc : s.pendTxc = false
  qLen : s.qLen = 0#16

/-- What holds during a session, running or faulted (R22, R35, R48, R222). -/
structure Open (s : State) : Prop where
  rxEn : s.rxEn = true
  txEn : s.txEn = true
  enRxr : s.enRxr = true
  enTxc : s.enTxc = true
  bases : baseOk s.params s.rxBase s.txBase = true
  rxRing : RingShape .rx s
  txRing : RingShape .tx s

/-- The invariant of every state a run can reach, whatever the host, the DMA engine and the inputs do. -/
structure SessionInv (s : State) : Prop where
  params : s.params.wellFormed = true
  memory : s.mem.wf = true
  queue : QueueShape s
  filter : FilterShape s
  cursors : CursorShape s
  idle : s.runState = .stopped → Idle s
  opened : s.runState ≠ .stopped → Open s
  unfaulted : s.runState = .running → s.fault = FaultLatch.clear
  latched : s.runState = .faulted → s.fault.cause ≠ .none

/-- R65 items 2 to 6, while `RUNNING`. -/
structure RunningShape (s : State) : Prop where
  /-- Item 2, Rx ring. -/
  rxSlots : ∀ i, i < s.params.nRx → slotIs (fun d => slotState d != .invalid) .rx i s = true
  /-- Items 2 to 4, Tx ring: from `tx_reclaim` on, first the finished slots, then the hardware-owned ones, then the free ones. -/
  txSlots : ∀ j, j < s.params.nTx →
    slotIs (fun d => slotState d == if j < txFinished s then .swCompleted else if j < txHeld s then .hwOwned else .free)
      .tx (txSlot s j) s = true
  /-- Item 3. -/
  fill : s.txFill.toNat = txSlot s (txHeld s)
  /-- Item 4. -/
  engine : s.hwTxCur.toNat = txSlot s (txFinished s)
  /-- Item 5. -/
  backlog : 0 < s.qLen.toNat → txHeld s = s.params.nTx
  /-- Item 6. -/
  running : s.txRunning = true ↔ 0 < txHeld s ∨ 0 < s.qLen.toNat
  /-- No overflow entry is `NULL` (SUBMIT refuses `NULL`, R170). -/
  entries : ∀ e ∈ queueEntries s, e.buf ≠ Config.null

/-- `SessionInv` and, while `RUNNING`, R65 items 2 to 6. -/
structure RunInv (s : State) : Prop where
  session : SessionInv s
  shape : s.runState = .running → RunningShape s

/-- The host's duty of R311 for the command word `w`: SUBMIT and REPLENISH are given a buffer the DRC does not hold, but for the
recycling of the buffer the named slot itself holds (R150). -/
def hostOwnsOperand (w : Word) (s : State) : Prop :=
  match decode w with
  | .ok .submit => s.arg0 ∉ heldRefs s
  | .ok (.replenish slot) => s.arg0 ∉ heldRefs s ∨ slotIs (fun d => d.buf == s.arg0) .rx slot s = true
  | _ => True

/-- R65 item 8: no buffer reference is held in two places. -/
def HeldOnce (s : State) : Prop := (heldRefs s).Nodup

end Sys2Proof.Safety
end

