-- ==== Sys2Proof/Certificates/Slice0/Obligations.lean ====
section
/-! DEFINITION. The statements for the provers. Each docstring names the rule of spec/ it formalises, and the log entry where it rests on
a choice of the model. A machine register read `0x18` or written `0x58` is named by its offset in the map of R44. -/

open Sys2Proof Sys2Proof.Machine Sys2Proof.Safety

/-! ### Encoding and the step -/

/-- R110, R111, R116: words written out bit by bit from the pattern column of R116. -/
def Obligations.TableWordsDecode : Prop :=
  decode 0b00000000000000000000000000000001#32 = .ok .start ∧
  decode 0b00000000000000000000000000000010#32 = .ok .stop ∧
  decode 0b00000000000000000000000000010000#32 = .ok .submit ∧
  decode 0b00000000000000000000000000010001#32 = .ok .onTxComplete ∧
  decode 0b00000000000000000000000000100000#32 = .ok .harvest ∧
  decode 0b00000000000000000000000100100001#32 = .ok (.replenish 1) ∧
  decode 0b00000000100000000000001000100001#32 = .ok (.replenish 0x8002) ∧
  decode 0b00000000000000000000000000100010#32 = .ok .rxService ∧
  decode 0b00000000000000000000000000100011#32 = .ok .onRxReady ∧
  decode 0b00000000000000000000000000110000#32 = .ok .mcAdd ∧
  decode 0b00000000000000000000000000110001#32 = .ok .mcRemove ∧
  decode 0b00000000000000000000000000110010#32 = .ok .mcLookup

/-- R111, R116: decoding the word of any well-formed instruction gives the instruction back, from the word and from its four bytes. -/
def Obligations.DecodeOfEncode : Prop :=
  ∀ i : Instr, i.wellFormed = true →
    decode (encode i) = .ok i ∧
    decodeBytes [byteOf (encode i) 0, byteOf (encode i) 1, byteOf (encode i) 2, byteOf (encode i) 3] = .ok i ∧
    decodeTableWord 32 (encode i).toNat = some i

/-- R111, R116: a word that decodes is the encoding of what it decodes to, so no two words mean the same. -/
def Obligations.EncodeOfDecode : Prop :=
  ∀ (w : Word) (i : Instr), decode w = .ok i → encode i = w ∧ i.wellFormed = true

/-- R116: which words are legal, the same as masks and matches, that no two rows overlap, and that the opcode selects the command. -/
def Obligations.LegalWordsAreTheElevenPatterns : Prop :=
  ∀ w : Word,
    ((∃ i, decode w = .ok i) ↔ legalWord w) ∧
    (legalWord w ↔ ∃ r ∈ commandRows, w &&& r.1 = r.2) ∧
    (∀ r ∈ commandRows, ∀ r' ∈ commandRows, w &&& r.1 = r.2 → w &&& r'.1 = r'.2 → r = r') ∧
    (∀ i, decode w = .ok i → i.opcode = w.extractLsb' 0 8)

/-- R117: a word that is not legal, written to `CMD` in any state, is answered `ILLEGAL_CMD` and changes nothing else. -/
def Obligations.IllegalWordsOnlyAnswer : Prop :=
  ∀ (w : Word) (s : State), ¬ legalWord w →
    hostWrite .word 0x00 w s = .next { s with resp0 := 0x0000000C#32, resp1 := 0#32, resp2 := 0#32 }

/-- R14, R45: when the next transition writes a word to `CMD` that decodes to `i`, the step is `exec i` on the state with that
transition taken off the agenda. The agenda is the model's own form of the order of transitions (log 2). -/
def Obligations.StepRunsDecodedCommand : Prop :=
  ∀ (s : State) (w : Word) (i : Instr) (rest : List Transition),
    s.agenda = .write .word 0x00 w :: rest → decode w = .ok i → step s = exec i { s with agenda := rest }

/-- Log 2: `State.withFetchWord` places one write of `CMD`, and the very next step runs the command of that word. -/
def Obligations.FetchWordRunsNext : Prop :=
  ∀ (s : State) (i : Instr), i.wellFormed = true → step (s.withFetchWord 32 (encode i).toNat) = exec i s

/-! ### Registers -/

/-- R41, R42, R45, R47, R48, R50, R51, R52, R53, R55, R56, R58: what a read of each register that holds stored state returns, that it
changes nothing of the machine (the returned value is kept in `readValue`, log 7), and that the other offsets read 0. -/
def Obligations.StoredRegistersReadBack : Prop :=
  ∀ s : State,
    hostRead .word 0x00 s = .next { s with readValue := 0#32 } ∧
    hostRead .word 0x04 s = .next { s with readValue := s.arg0 } ∧
    hostRead .word 0x08 s = .next { s with readValue := s.arg1 } ∧
    hostRead .word 0x0C s = .next { s with readValue := s.resp0 } ∧
    hostRead .word 0x10 s = .next { s with readValue := s.resp1 } ∧
    hostRead .word 0x14 s = .next { s with readValue := s.resp2 } ∧
    hostRead .word 0x1C s = .next { s with readValue :=
      ((BitVec.ofBool s.pendTxc).setWidth 32 <<< 1 ||| (BitVec.ofBool s.pendRxr).setWidth 32) } ∧
    hostRead .word 0x20 s = .next { s with readValue :=
      ((BitVec.ofBool s.enTxc).setWidth 32 <<< 1 ||| (BitVec.ofBool s.enRxr).setWidth 32) } ∧
    hostRead .word 0x28 s = .next { s with readValue := s.rxBase } ∧
    hostRead .word 0x2C s = .next { s with readValue := s.txBase } ∧
    hostRead .word 0x30 s = .next { s with readValue := s.rxCur.setWidth 32 } ∧
    hostRead .word 0x34 s = .next { s with readValue := s.txReclaim.setWidth 32 <<< 16 ||| s.txFill.setWidth 32 } ∧
    hostRead .word 0x3C s = .next { s with readValue := s.qLen.setWidth 32 } ∧
    hostRead .word 0x40 s = .next { s with readValue := s.qBack.setWidth 32 <<< 16 ||| s.qFront.setWidth 32 } ∧
    hostRead .word 0x44 s = .next { s with readValue := s.cntRxRunt } ∧
    hostRead .word 0x48 s = .next { s with readValue := s.cntRxOversize } ∧
    hostRead .word 0x4C s = .next { s with readValue := s.cntRxFlagged } ∧
    hostRead .word 0x50 s = .next { s with readValue := s.cntRxNobuf } ∧
    hostRead .word 0x54 s = .next { s with readValue := s.cntPostBp } ∧
    hostRead .word 0x5C s = .next { s with readValue := s.mcBit.setWidth 32 } ∧
    hostRead .word 0x60 s = .next { s with readValue := (s.mcBit >>> 32).setWidth 32 } ∧
    hostRead .word 0x64 s = .next { s with readValue := s.mcRefIdx.setWidth 32 } ∧
    hostRead .word 0x68 s = .next { s with readValue := (refCount s s.mcRefIdx).setWidth 32 } ∧
    hostRead .word 0x78 s = .next { s with readValue := 0#32 } ∧
    hostRead .word 0x7C s = .next { s with readValue := 0#32 }

/-- R46, R52: `STATUS` and `TX_LEVEL` are computed from state at the moment of the read, in every state the invariant describes; after
reset `STATUS` reads 0x00000020. -/
def Obligations.StatusShowsState : Prop :=
  (∀ s : State, SessionInv s → ∃ v : Word,
    hostRead .word 0x18 s = .next { s with readValue := v } ∧
    v.extractLsb' 0 2 = (if s.runState = .stopped then 0#2 else if s.runState = .running then 1#2 else 2#2) ∧
    v.getLsbD 2 = s.rxEn ∧
    v.getLsbD 3 = s.txEn ∧
    v.getLsbD 4 = s.txRunning ∧
    v.getLsbD 5 = decide (s.qLen = 0#16) ∧
    v.getLsbD 6 = decide (s.qLen.toNat = s.params.qCap) ∧
    v.getLsbD 7 = decide (s.runState ≠ .stopped ∧ txHeld s = s.params.nTx) ∧
    v.getLsbD 8 = decide (s.runState ≠ .stopped ∧ txHeld s = 0) ∧
    v.getLsbD 9 = decide (s.runState ≠ .stopped ∧ slotIs (fun d => slotState d == .swCompleted) .rx s.rxCur.toNat s = true) ∧
    v.getLsbD 10 = (s.pendRxr && s.enRxr) ∧
    v.getLsbD 11 = (s.pendTxc && s.enTxc) ∧
    v.getLsbD 12 = s.bcastEn ∧
    v.extractLsb' 13 19 = 0#19) ∧
  (∀ s : State, SessionInv s → hostRead .word 0x38 s =
    .next { s with readValue := BitVec.ofNat 32 (if s.runState = .stopped then 0 else txHeld s) }) ∧
  (∀ p : Params, p.wellFormed = true →
    hostRead .word 0x18 (State.resetWith p) = .next { State.resetWith p with readValue := 0x00000020#32 })

/-- R41, R44, R47, R50, R56, R58: what a write of each register other than `CMD` and `MC_CTRL` changes, and that a write of a read-only
register or of an unmapped offset is ignored. -/
def Obligations.RegisterWrites : Prop :=
  ∀ (v : Word) (s : State),
    hostWrite .word 0x04 v s = .next { s with arg0 := v } ∧
    hostWrite .word 0x08 v s = .next { s with arg1 := v } ∧
    hostWrite .word 0x1C v s =
      .next { s with pendRxr := s.pendRxr && !v.getLsbD 0, pendTxc := s.pendTxc && !v.getLsbD 1 } ∧
    hostWrite .word 0x28 v s = .next (if s.runState = .stopped then { s with rxBase := v } else s) ∧
    hostWrite .word 0x2C v s = .next (if s.runState = .stopped then { s with txBase := v } else s) ∧
    hostWrite .word 0x64 v s = .next { s with mcRefIdx := v.extractLsb' 0 6 } ∧
    (∀ offset ∈ [0x0C, 0x10, 0x14, 0x18, 0x20, 0x24, 0x30, 0x34, 0x38, 0x3C, 0x40, 0x44, 0x48, 0x4C, 0x50, 0x54, 0x5C, 0x60, 0x68, 0x6C,
        0x70, 0x74, 0x78, 0x7C],
      hostWrite .word offset v s = .next s)

/-- R54: `MC_CTRL`. A write with bit 0 set does the two things it says and no other; one with bit 0 clear does nothing; the register
shows `bcast_en`; and whatever the step, nothing but reset takes `bcast_en` or the broadcast bucket's bit away. -/
def Obligations.BroadcastEnableIsSticky : Prop :=
  (∀ (v : Word) (s : State), v.getLsbD 0 = true → ∃ bits : BitVec 64,
    hostWrite .word 0x58 v s = .next { s with bcastEn := true, mcBit := bits } ∧
    ∀ b : Bucket, bits.getLsbD b.toNat = (b == bcastBucket s.params.hashMode || s.mcBit.getLsbD b.toNat)) ∧
  (∀ (v : Word) (s : State), v.getLsbD 0 = false → hostWrite .word 0x58 v s = .next s) ∧
  (∀ s : State, hostRead .word 0x58 s = .next { s with readValue := if s.bcastEn then 1#32 else 0#32 }) ∧
  (∀ s t : State, step s = .next t → ¬ nextIsReset s → s.bcastEn = true →
    t.bcastEn = true ∧
    (bucketBit s (bcastBucket s.params.hashMode) = true → bucketBit t (bcastBucket s.params.hashMode) = true))

/-- R58 (U3): an access that is narrower than 32 bits, misaligned or outside 0x00 to 0x7C is refused by name, and every aligned offset
inside reaches a register. -/
def Obligations.UnsupportedAccessesAreRefused : Prop :=
  (∀ (width : AccessWidth) (offset : Nat) (v : Word) (s : State),
    (width ≠ .word ∨ offset % 4 ≠ 0 ∨ 0x7C < offset) →
      hostWrite width offset v s = .refused (.registerAccess offset) ∧ hostRead width offset s = .refused (.registerAccess offset)) ∧
  (∀ offset : Nat, offset % 4 = 0 → offset ≤ 0x7C → ∃ r, regOf .word offset = some r)

/-- R57: the parameter registers, their values in the reference configuration, and that no step changes a parameter. -/
def Obligations.ParameterRegistersAreConstant : Prop :=
  (∀ s : State, s.params.wellFormed = true → ∃ v0 v1 v2 : Word,
    hostRead .word 0x6C s = .next { s with readValue := v0 } ∧
    hostRead .word 0x70 s = .next { s with readValue := v1 } ∧
    hostRead .word 0x74 s = .next { s with readValue := v2 } ∧
    (v0.extractLsb' 0 16).toNat = s.params.nRx ∧ (v0.extractLsb' 16 16).toNat = s.params.nTx ∧
    (v1.extractLsb' 0 16).toNat = s.params.qCap ∧ v1.getLsbD 16 = decide (s.params.hashMode = .crc6) ∧
    v1.getLsbD 17 = s.params.coherent ∧ v1.extractLsb' 18 14 = 0#14 ∧
    (v2.extractLsb' 0 14).toNat = s.params.minFrame ∧ (v2.extractLsb' 16 14).toNat = s.params.maxFrame ∧
    v2.extractLsb' 14 2 = 0#2 ∧ v2.extractLsb' 30 2 = 0#2) ∧
  param0Reg Config.reference = 0x00040004#32 ∧ param1Reg Config.reference = 0x00020002#32 ∧
  param2Reg Config.reference = 0x05EE0040#32 ∧
  (∀ s t : State, step s = .next t → t.params = s.params)

/-- R42, R114, R120: the layout of `RESP0` and the numbers of the thirteen result codes. -/
def Obligations.ResponseLayout : Prop :=
  (∀ (r : ResultCode) (more : Bool) (slot : Half),
    resp0Word r more slot =
      r.code.setWidth 32 ||| (BitVec.ofBool more).setWidth 32 <<< 4 ||| slot.setWidth 32 <<< 8) ∧
  [ResultCode.ok, .queued, .busy, .empty, .frame, .error, .deviceFault, .noResource, .badState, .badArg, .notFound, .dropped,
      .illegalCmd].map (fun r => r.code.toNat) = List.range 13

/-- R104, R230 (U4): a host store of a byte is refused inside either ring during a session, and is plain memory otherwise (log 9). -/
def Obligations.HostStoresStayOutOfTheRings : Prop :=
  ∀ (addr : Word) (v : Byte) (s : State),
    ((s.runState ≠ .stopped ∧ (inRing .rx addr.toNat s = true ∨ inRing .tx addr.toNat s = true)) →
      runTransition (.hostStore addr v) s = .refused (.hostStoreInSession addr.toNat)) ∧
    ((s.runState = .stopped ∨ (inRing .rx addr.toNat s = false ∧ inRing .tx addr.toNat s = false)) →
      ∃ m : Memory, runTransition (.hostStore addr v) s = .next { s with mem := m } ∧
        readByte m addr.toNat = some v ∧ sameOutside addr.toNat 1 s.mem m)

/-! ### Reset -/

/-- R66: every element after hardware reset, for every choice of the parameters. What R66 leaves unspecified is not stated but that
descriptor memory has no value (R67). -/
def Obligations.ResetValues : Prop :=
  ∀ p : Params,
    (State.resetWith p).runState = .stopped ∧ (State.resetWith p).rxEn = false ∧ (State.resetWith p).txEn = false ∧
    (State.resetWith p).txRunning = false ∧ (∀ a, readByte (State.resetWith p).mem a = none) ∧
    (State.resetWith p).rxCur = 0#16 ∧ (State.resetWith p).txFill = 0#16 ∧ (State.resetWith p).txReclaim = 0#16 ∧
    (State.resetWith p).hwRxCur = 0#16 ∧ (State.resetWith p).hwTxCur = 0#16 ∧
    (State.resetWith p).qFront = 0#16 ∧ (State.resetWith p).qBack = 0#16 ∧ (State.resetWith p).qLen = 0#16 ∧
    (∀ b, refCount (State.resetWith p) b = 0#8 ∧ bucketBit (State.resetWith p) b = false) ∧ (State.resetWith p).bcastEn = false ∧
    (State.resetWith p).pendRxr = false ∧ (State.resetWith p).pendTxc = false ∧
    (State.resetWith p).enRxr = false ∧ (State.resetWith p).enTxc = false ∧
    irqRx (State.resetWith p) = false ∧ irqTx (State.resetWith p) = false ∧
    (State.resetWith p).fault = { cause := .none, ring := .rx, slot := 0#16 } ∧
    (State.resetWith p).cntRxRunt = 0#32 ∧ (State.resetWith p).cntRxOversize = 0#32 ∧ (State.resetWith p).cntRxFlagged = 0#32 ∧
    (State.resetWith p).cntRxNobuf = 0#32 ∧ (State.resetWith p).cntPostBp = 0#32 ∧
    (State.resetWith p).arg0 = 0#32 ∧ (State.resetWith p).arg1 = 0#32 ∧
    (State.resetWith p).resp0 = 0#32 ∧ (State.resetWith p).resp1 = 0#32 ∧ (State.resetWith p).resp2 = 0#32 ∧
    (State.resetWith p).rxBase = 0#32 ∧ (State.resetWith p).txBase = 0#32 ∧ (State.resetWith p).mcRefIdx = 0#6 ∧
    (State.resetWith p).trace = []

/-- R300, R302: reset from any state, as one transition, is the state of R66 with an empty trace (so nothing is posted). That the
parameters and the inputs still to come stay is the model's choice (log 12). -/
def Obligations.HardwareResetRestoresResetState : Prop :=
  ∀ (s : State) (rest : List Transition), s.agenda = .reset :: rest →
    step s = .next { State.resetWith s.params with
      agenda := rest, allocIn := s.allocIn, bpIn := s.bpIn, inputSeq := s.inputSeq }

/-! ### Device faults and the lifecycle -/

/-- R266: what raising a DeviceFault writes, and that it writes nothing else. -/
def Obligations.DeviceFaultEntry : Prop :=
  ∀ (c : FaultCause) (g : Ring) (slot : Half) (n : Word) (s : State),
    raiseDeviceFault c g slot n s =
      { s with
        fault := { cause := c, ring := g, slot := slot }
        runState := .faulted
        resp0 := 6#32 ||| slot.setWidth 32 <<< 8
        resp1 := 0#32
        resp2 := n }

/-- R49: the layout of `FAULT`, and that the latch changes only where a fault is raised in a running session, at a successful START
(which clears it) and at reset. -/
def Obligations.FaultLatchIsKept : Prop :=
  (∀ s : State, hostRead .word 0x24 s = .next { s with readValue :=
    ((if s.fault.cause = .none then 0#32 else if s.fault.cause = .rxDecode then 1#32 else 2#32) |||
      (if s.fault.ring = .rx then 0#32 else 0x10#32) ||| s.fault.slot.setWidth 32 <<< 8) }) ∧
  (∀ s t : State, step s = .next t → t.fault ≠ s.fault →
    nextIsReset s ∨ (s.runState = .running ∧ t.runState = .faulted) ∨ (s.runState = .stopped ∧ t.runState = .running)) ∧
  (∀ s t : State, step s = .next t → s.runState = .stopped → t.runState = .running →
    t.fault = { cause := .none, ring := .rx, slot := 0#16 })

/-- R282: the lifecycle states are entered and left only by reset, an `OK` START, a raised fault and STOP. -/
def Obligations.LifecycleChangesOnlyAsListed : Prop :=
  ∀ s t : State, step s = .next t → t.runState ≠ s.runState →
    (nextIsReset s ∧ t.runState = .stopped) ∨
    (nextCommand s 0x00000001#32 ∧ s.runState = .stopped ∧ t.runState = .running ∧ t.resp0 = 0#32) ∨
    (s.runState = .running ∧ t.runState = .faulted ∧ t.fault.cause ≠ .none ∧ t.resp0.extractLsb' 0 4 = 6#4) ∨
    (nextCommand s 0x00000002#32 ∧ t.runState = .stopped ∧ t.resp0 = 0#32)

/-- R140, R201, R268, R283: what each command does in the lifecycle states where its own rule does not apply, and that the multicast
commands do not look at the state. That REPLENISH of a slot 1 to `N_RX - 1` answers `BAD_STATE` with `SLOT` 0 is R140's gate with R13, which
the model follows where R114's row read alone gives the slot field (log 20). -/
def Obligations.CommandsOutsideTheirLifecycleState : Prop :=
  (∀ (s : State) (i : Instr), (i = .submit ∨ i = .harvest ∨ i = .rxService ∨ ∃ slot, i = .replenish slot) →
    (s.runState = .stopped → exec i s = .next { s with resp0 := 8#32, resp1 := 0#32, resp2 := 0#32 }) ∧
    (s.runState = .faulted → exec i s = .next { s with resp0 := 6#32, resp1 := 0#32, resp2 := 0#32 })) ∧
  (∀ s : State,
    (s.runState = .stopped →
      exec .onTxComplete s = .next { s with pendTxc := false, resp0 := 8#32, resp1 := 0#32, resp2 := 0#32 }) ∧
    (s.runState = .faulted →
      exec .onTxComplete s = .next { s with pendTxc := false, resp0 := 6#32, resp1 := 0#32, resp2 := 0#32 })) ∧
  (∀ s : State, s.runState ≠ .stopped → exec .start s = .next { s with resp0 := 8#32, resp1 := 0#32, resp2 := 0#32 }) ∧
  (∀ s : State, s.runState = .stopped → exec .stop s = .next { s with resp0 := 0#32, resp1 := 0#32, resp2 := 0#32 }) ∧
  (∀ (s : State) (r : RunState) (i : Instr), (i = .mcAdd ∨ i = .mcRemove ∨ i = .mcLookup) →
    exec i { s with runState := r } = andThen (exec i s) fun t => .next { t with runState := r })

/-- R265, R267: the three ownership violations found before a command has written anything: REPLENISH of a slot whose `OWN` is 0,
SUBMIT and ON_TX_COMPLETE at an `Invalid` slot. -/
def Obligations.OwnershipViolationsRaiseDeviceFault : Prop :=
  (∀ (s : State) (slot : Nat) (d : Desc), s.runState = .running → slot < s.params.nRx → s.arg0 ≠ Config.null →
    loadSlot .rx slot s = .next d → d.own = false →
    exec (.replenish slot) s = .next { s with
      fault := { cause := .ownership, ring := .rx, slot := BitVec.ofNat 16 slot }
      runState := .faulted
      resp0 := resp0Word .deviceFault false (BitVec.ofNat 16 slot)
      resp1 := 0#32
      resp2 := 0#32 }) ∧
  (∀ (s : State) (d : Desc), s.runState = .running → s.arg0 ≠ Config.null → 1 ≤ s.arg1.toNat → s.arg1.toNat ≤ 16383 →
    loadSlot .tx s.txFill.toNat s = .next d → slotState d = .invalid →
    exec .submit s = .next { s with
      fault := { cause := .ownership, ring := .tx, slot := s.txFill }
      runState := .faulted
      resp0 := resp0Word .deviceFault false s.txFill
      resp1 := 0#32
      resp2 := 0#32 }) ∧
  (∀ (s : State) (d : Desc), s.runState = .running →
    loadSlot .tx s.txReclaim.toNat s = .next d → slotState d = .invalid →
    exec .onTxComplete s = .next { s with
      pendTxc := false
      fault := { cause := .ownership, ring := .tx, slot := s.txReclaim }
      runState := .faulted
      resp0 := resp0Word .deviceFault false s.txReclaim
      resp1 := 0#32
      resp2 := 0#32 })

/-- R176, R178, R265, R267: a backlog with `tx_fill` elsewhere than the slot just freed raises a fault; the one reclaim done before
it stands, with its post and its signal, and is counted in `RESP2`. The backpressure bit of the post is an input (log 4). -/
def Obligations.RefillElsewhereRaisesDeviceFault : Prop :=
  ∀ (s : State) (d : Desc), s.runState = .running →
    loadSlot .tx s.txReclaim.toNat s = .next d → slotState d = .swCompleted → s.qLen ≠ 0#16 → s.txFill ≠ s.txReclaim →
    ∃ m : Memory,
      exec .onTxComplete s = .next { post d.buf s with
        pendTxc := false
        mem := m
        trace := s.trace ++ [.post d.buf, .txAvail]
        txReclaim := nextTx s.params s.txReclaim
        fault := { cause := .ownership, ring := .tx, slot := s.txReclaim }
        runState := .faulted
        resp0 := resp0Word .deviceFault false s.txReclaim
        resp1 := 0#32
        resp2 := 1#32 } ∧
      loadDesc s.txBase s.txReclaim.toNat m = .next { buf := Config.null, st := 0x80000000#32 ||| wrapBit d } ∧
      sameOutside (descAddr s.txBase s.txReclaim.toNat) 8 s.mem m

/-- R61: a post appends its event and takes one backpressure bit, which alone decides whether `cnt_post_bp` counts. Where no bit is
listed it is a free value (log 4). -/
def Obligations.PostTakesOneBackpressureBit : Prop :=
  ∀ (b : Word) (s : State),
    (∀ (bp : Bool) (rest : List Bool), s.bpIn = bp :: rest →
      post b s = { s with
        trace := s.trace ++ [.post b]
        bpIn := rest
        cntPostBp := if bp then s.cntPostBp + 1#32 else s.cntPostBp }) ∧
    (s.bpIn = [] →
      post b s = { s with
        trace := s.trace ++ [.post b]
        inputSeq := s.inputSeq + 1
        cntPostBp := if Config.backpressure s.inputSeq then s.cntPostBp + 1#32 else s.cntPostBp })

/-! ### Rx ring -/

/-- R144, R151: at a hardware-owned slot HARVEST and RX_SERVICE answer `EMPTY` with the slot and change nothing else; the allocator
is not asked. -/
def Obligations.NoFrameIsAnsweredEmpty : Prop :=
  ∀ (s : State) (d : Desc), s.runState = .running → loadSlot .rx s.rxCur.toNat s = .next d → slotState d = .hwOwned →
    exec .harvest s = .next { s with resp0 := resp0Word .empty false s.rxCur, resp1 := 0#32, resp2 := 0#32 } ∧
    exec .rxService s = .next { s with resp0 := resp0Word .empty false s.rxCur, resp1 := 0#32, resp2 := 0#32 }

/-- R144, R145, R146: HARVEST of a good frame hands buffer and length over, empties the slot (its status word stays), advances the
cursor and reports `MORE`; every other part of the state is as it was. -/
def Obligations.HarvestHandsOverGoodFrame : Prop :=
  ∀ (s : State) (d e : Desc), s.runState = .running →
    loadSlot .rx s.rxCur.toNat s = .next d → slotState d = .swCompleted → goodFrame s.params d →
    loadSlot .rx (nextRx s.params s.rxCur).toNat s = .next e →
    ∃ m : Memory,
      exec .harvest s = .next { s with
        mem := m
        rxCur := nextRx s.params s.rxCur
        trace := s.trace ++ frameAvailIf (moreAfterFrame s e)
        resp0 := resp0Word .frame (moreAfterFrame s e) s.rxCur
        resp1 := d.buf
        resp2 := d.len.setWidth 32 } ∧
      loadDesc s.rxBase s.rxCur.toNat m = .next { buf := Config.null, st := d.st } ∧
      sameOutside (descAddr s.rxBase s.rxCur.toNat) 4 s.mem m

/-- R142, R144, R145, R146: HARVEST of a malformed frame counts it under each condition it meets, leaves the descriptor as it is,
advances the cursor and answers `ERROR` with buffer, `ERR` and `LEN`. -/
def Obligations.HarvestReportsMalformedFrame : Prop :=
  ∀ (s : State) (d e : Desc), s.runState = .running →
    loadSlot .rx s.rxCur.toNat s = .next d → slotState d = .swCompleted → ¬ goodFrame s.params d →
    loadSlot .rx (nextRx s.params s.rxCur).toNat s = .next e →
    exec .harvest s = .next { s with
      rxCur := nextRx s.params s.rxCur
      cntRxRunt := if d.len.toNat < s.params.minFrame then s.cntRxRunt + 1#32 else s.cntRxRunt
      cntRxOversize := if s.params.maxFrame < d.len.toNat then s.cntRxOversize + 1#32 else s.cntRxOversize
      cntRxFlagged := if d.err = 0#4 then s.cntRxFlagged else s.cntRxFlagged + 1#32
      trace := s.trace ++ frameAvailIf (slotState e == .swCompleted)
      resp0 := resp0Word .error (slotState e == .swCompleted) s.rxCur
      resp1 := d.buf
      resp2 := d.err.setWidth 32 <<< 16 ||| d.len.setWidth 32 }

/-- R147: a slot at the cursor that is neither empty nor valid faults HARVEST and RX_SERVICE at once, with no other change. -/
def Obligations.UndecodableSlotFaults : Prop :=
  ∀ (s : State) (d : Desc) (i : Instr), (i = .harvest ∨ i = .rxService) → s.runState = .running →
    loadSlot .rx s.rxCur.toNat s = .next d → (slotState d = .free ∨ slotState d = .invalid) →
    exec i s = .next { s with
      fault := { cause := .rxDecode, ring := .rx, slot := s.rxCur }
      runState := .faulted
      resp0 := resp0Word .deviceFault false s.rxCur
      resp1 := 0#32
      resp2 := 0#32 }

/-- R143, R148, R150: REPLENISH of a `Free` slot, or of a `SwCompleted` one with the buffer it holds, installs the buffer and gives the
slot to the engine; the cursor does not move and nothing outside the descriptor changes. -/
def Obligations.ReplenishInstallsBuffer : Prop :=
  ∀ (s : State) (slot : Nat) (d : Desc), s.runState = .running → slot < s.params.nRx → s.arg0 ≠ Config.null →
    loadSlot .rx slot s = .next d → (slotState d = .free ∨ (slotState d = .swCompleted ∧ d.buf = s.arg0)) →
    ∃ m : Memory,
      exec (.replenish slot) s = .next { s with
        mem := m, resp0 := resp0Word .ok false (BitVec.ofNat 16 slot), resp1 := 0#32, resp2 := 0#32 } ∧
      loadDesc s.rxBase slot m = .next { buf := s.arg0, st := wrapBit d } ∧
      sameOutside (descAddr s.rxBase slot) 8 s.mem m

/-- R148, R270: REPLENISH refuses a slot out of range first (with `SLOT` 0), then a `NULL` buffer, then another buffer for a slot that
still holds one; each changes nothing but the response. -/
def Obligations.ReplenishRefusesBadOperands : Prop :=
  ∀ (s : State) (slot : Nat), s.runState = .running →
    (s.params.nRx ≤ slot →
      exec (.replenish slot) s = .next { s with resp0 := 9#32, resp1 := 0#32, resp2 := 0#32 }) ∧
    (slot < s.params.nRx → s.arg0 = Config.null →
      exec (.replenish slot) s = .next { s with
        resp0 := resp0Word .badArg false (BitVec.ofNat 16 slot), resp1 := 0#32, resp2 := 0#32 }) ∧
    (∀ d : Desc, slot < s.params.nRx → s.arg0 ≠ Config.null → loadSlot .rx slot s = .next d → slotState d = .swCompleted →
      d.buf ≠ s.arg0 →
      exec (.replenish slot) s = .next { s with
        resp0 := resp0Word .badArg false (BitVec.ofNat 16 slot), resp1 := 0#32, resp2 := 0#32 })

/-- R151, R152: RX_SERVICE of a good frame, the allocator answering a buffer that keeps its contract: the frame is handed over and the
slot goes back to the engine with the fresh buffer. Which answer comes is an input (log 3). -/
def Obligations.RxServiceInstallsFreshBuffer : Prop :=
  ∀ (s : State) (d e : Desc) (b : Word), SessionInv s → s.runState = .running →
    loadSlot .rx s.rxCur.toNat s = .next d → slotState d = .swCompleted → goodFrame s.params d →
    loadSlot .rx (nextRx s.params s.rxCur).toNat s = .next e →
    answerAt s 0 = some b → b ≠ Config.null → b ∉ heldRefs s →
    ∃ m : Memory,
      exec .rxService s = .next { s with
        mem := m
        rxCur := nextRx s.params s.rxCur
        allocIn := s.allocIn.tail
        inputSeq := s.inputSeq + (1 - s.allocIn.length)
        trace := s.trace ++ frameAvailIf (moreAfterFrame s e)
        resp0 := resp0Word .frame (moreAfterFrame s e) s.rxCur
        resp1 := d.buf
        resp2 := d.len.setWidth 32 } ∧
      loadDesc s.rxBase s.rxCur.toNat m = .next { buf := b, st := wrapBit d } ∧
      sameOutside (descAddr s.rxBase s.rxCur.toNat) 8 s.mem m

/-- R151: RX_SERVICE puts the buffer of the slot back where it was: for a good frame when the allocator has none (the frame is dropped
and counted), and for a malformed frame without asking the allocator. -/
def Obligations.RxServiceReturnsTheBuffer : Prop :=
  ∀ (s : State) (d e : Desc), s.runState = .running →
    loadSlot .rx s.rxCur.toNat s = .next d → slotState d = .swCompleted →
    loadSlot .rx (nextRx s.params s.rxCur).toNat s = .next e →
    ∃ m : Memory,
      loadDesc s.rxBase s.rxCur.toNat m = .next { buf := d.buf, st := wrapBit d } ∧
      sameOutside (descAddr s.rxBase s.rxCur.toNat) 8 s.mem m ∧
      (goodFrame s.params d → answerAt s 0 = none →
        exec .rxService s = .next { s with
          mem := m
          rxCur := nextRx s.params s.rxCur
          allocIn := s.allocIn.tail
          inputSeq := s.inputSeq + (1 - s.allocIn.length)
          cntRxNobuf := s.cntRxNobuf + 1#32
          trace := s.trace ++ frameAvailIf (moreAfterFrame s e)
          resp0 := resp0Word .dropped (moreAfterFrame s e) s.rxCur
          resp1 := 0#32
          resp2 := d.len.setWidth 32 }) ∧
      (¬ goodFrame s.params d →
        exec .rxService s = .next { s with
          mem := m
          rxCur := nextRx s.params s.rxCur
          cntRxRunt := if d.len.toNat < s.params.minFrame then s.cntRxRunt + 1#32 else s.cntRxRunt
          cntRxOversize := if s.params.maxFrame < d.len.toNat then s.cntRxOversize + 1#32 else s.cntRxOversize
          cntRxFlagged := if d.err = 0#4 then s.cntRxFlagged else s.cntRxFlagged + 1#32
          trace := s.trace ++ frameAvailIf (slotState e == .swCompleted)
          resp0 := resp0Word .error (slotState e == .swCompleted) s.rxCur
          resp1 := 0#32
          resp2 := d.err.setWidth 32 <<< 16 ||| d.len.setWidth 32 })

/-- R60 (U7, log 3): an allocator answer that is `NULL` or a buffer the DRC holds is no answer the allocator can give: RX_SERVICE and START
refuse it by name. -/
def Obligations.AllocatorContractBreachIsRefused : Prop :=
  (∀ (s : State) (d e : Desc) (b : Word), SessionInv s → s.runState = .running →
    loadSlot .rx s.rxCur.toNat s = .next d → slotState d = .swCompleted → goodFrame s.params d →
    loadSlot .rx (nextRx s.params s.rxCur).toNat s = .next e →
    answerAt s 0 = some b → (b = Config.null ∨ b ∈ heldRefs s) →
    exec .rxService s = .refused (.allocatorContract b)) ∧
  (∀ (s : State) (got : List Word) (b : Word), s.runState = .stopped → basesFit s.params s.rxBase s.txBase →
    got.length < s.params.nRx → got.Nodup → Config.null ∉ got → (∀ i, ∀ h : i < got.length, answerAt s i = some got[i]) →
    answerAt s got.length = some b → (b = Config.null ∨ b ∈ got) →
    exec .start s = .refused (.allocatorContract b))

/-- R153: ON_RX_READY in each lifecycle state. -/
def Obligations.OnRxReadyClearsAndSignals : Prop :=
  encode .onRxReady = 0x00000023#32 ∧
  ∀ s : State,
    (s.runState = .running → exec .onRxReady s = .next { s with
      pendRxr := false
      trace := s.trace ++ (if s.pendRxr then [.frameAvail] else [])
      resp0 := 0#32
      resp1 := 0#32
      resp2 := 0#32 }) ∧
    (s.runState = .stopped →
      exec .onRxReady s = .next { s with pendRxr := false, resp0 := 8#32, resp1 := 0#32, resp2 := 0#32 }) ∧
    (s.runState = .faulted →
      exec .onRxReady s = .next { s with pendRxr := false, resp0 := 6#32, resp1 := 0#32, resp2 := 0#32 })

/-! ### Tx ring and overflow queue -/

/-- R170, R171, R183: SUBMIT with a free slot at `tx_fill` and no backlog fills it, hands it to the engine, advances, and restarts an idle
engine. -/
def Obligations.SubmitFillsFreeSlot : Prop :=
  ∀ (s : State) (d : Desc), s.runState = .running → s.arg0 ≠ Config.null → 1 ≤ s.arg1.toNat → s.arg1.toNat ≤ 16383 →
    loadSlot .tx s.txFill.toNat s = .next d → slotState d = .free → s.qLen = 0#16 →
    ∃ m : Memory,
      exec .submit s = .next { s with
        mem := m
        txFill := nextTx s.params s.txFill
        txRunning := true
        trace := s.trace ++ (if s.txRunning then [] else [.dmaTxStart])
        resp0 := resp0Word .ok false s.txFill
        resp1 := 0#32
        resp2 := 0#32 } ∧
      loadDesc s.txBase s.txFill.toNat m = .next { buf := s.arg0, st := wrapBit d ||| s.arg1 } ∧
      sameOutside (descAddr s.txBase s.txFill.toNat) 8 s.mem m

/-- R170, R172: SUBMIT that finds no free slot at `tx_fill`, or a backlog, queues the buffer while the queue has room and else answers
`BUSY`; no byte of memory changes. -/
def Obligations.SubmitQueuesOrAnswersBusy : Prop :=
  ∀ (s : State) (d : Desc), s.runState = .running → s.arg0 ≠ Config.null → 1 ≤ s.arg1.toNat → s.arg1.toNat ≤ 16383 →
    loadSlot .tx s.txFill.toNat s = .next d → slotState d ≠ .invalid → (slotState d ≠ .free ∨ s.qLen ≠ 0#16) →
    (s.qLen.toNat < s.params.qCap →
      exec .submit s = .next { s with
        qEnt := s.qEnt.set s.qBack.toNat { buf := s.arg0, len := s.arg1.setWidth 14 }
        qBack := BitVec.ofNat 16 ((s.qBack.toNat + 1) % s.params.qCap)
        qLen := s.qLen + 1#16
        resp0 := 1#32
        resp1 := 0#32
        resp2 := 0#32 }) ∧
    (s.params.qCap ≤ s.qLen.toNat →
      exec .submit s = .next { s with resp0 := 2#32, resp1 := 0#32, resp2 := 0#32 })

/-- R113, R170: SUBMIT refuses a `NULL` buffer and a length, compared as a 32-bit number, outside 1 to 16383. -/
def Obligations.SubmitRefusesBadOperands : Prop :=
  ∀ s : State, s.runState = .running → (s.arg0 = Config.null ∨ s.arg1.toNat < 1 ∨ 16383 < s.arg1.toNat) →
    exec .submit s = .next { s with resp0 := 9#32, resp1 := 0#32, resp2 := 0#32 }

/-- R176 to R181: ON_TX_COMPLETE reclaims every finished slot, oldest first, each with its post and its signal, refills each freed slot
from the front of the queue, and marks the engine idle when nothing is left. The finished slots are `txSlot s j` for `j` below
`txFinished s`: one that is not refilled ends `Free` in the form START gave it, and one that is refilled holds its queue entry with
`OWN` 0 and `ERR` 0, `WRAP` kept in both. Every field not named in the frame is unchanged, and so is every byte of memory outside the
Tx ring. The backpressure bits that `postAll` takes are inputs (log 4). -/
def Obligations.OnTxCompleteDrainsInOrder : Prop :=
  ∀ s : State, RunInv s → s.runState = .running →
    ∃ t : State, exec .onTxComplete s = .next t ∧
      t.trace = s.trace ++ ((txPipeline s).take (txFinished s)).flatMap (fun e => [.post e.1, .txAvail]) ∧
      txPipeline t = (txPipeline s).drop (txFinished s) ∧
      txFinished t = 0 ∧
      t.qLen.toNat = s.qLen.toNat - txFinished s ∧
      t.txReclaim.toNat = txSlot s (txFinished s) ∧
      t.txFill.toNat = (s.txFill.toNat + min (txFinished s) s.qLen.toNat) % s.params.nTx ∧
      t.qFront.toNat = (s.qFront.toNat + min (txFinished s) s.qLen.toNat) % s.params.qCap ∧
      t.txRunning = decide (txPipeline t ≠ []) ∧
      (∀ i, i < s.params.nTx → ∀ d, loadSlot .tx i s = .next d → slotState d ≠ .swCompleted → loadSlot .tx i t = .next d) ∧
      (∀ i, i < s.params.nTx → ∀ d, loadSlot .tx i s = .next d → slotState d = .swCompleted →
        ∃ j, j < txFinished s ∧ i = txSlot s j ∧
          (s.qLen.toNat ≤ j → loadSlot .tx i t = .next { buf := Config.null, st := 0x80000000#32 ||| wrapBit d }) ∧
          (∀ h : j < (queueEntries s).length, loadSlot .tx i t =
            .next { buf := (queueEntries s)[j].buf, st := wrapBit d ||| (queueEntries s)[j].len.setWidth 32 })) ∧
      (∀ a, inRing .tx a s = false → readByte t.mem a = readByte s.mem a) ∧
      t = { postAll (((txPipeline s).take (txFinished s)).map Prod.fst) s with
        pendTxc := false
        mem := t.mem
        trace := t.trace
        txReclaim := t.txReclaim
        txFill := t.txFill
        qFront := t.qFront
        qLen := t.qLen
        txRunning := t.txRunning
        resp0 := 0#32
        resp1 := 0#32
        resp2 := BitVec.ofNat 32 (txFinished s) }

/-- R170, R175, R184: in a running session a SUBMIT with legal operands puts its buffer at the end of what the transmit side holds, and
answers `OK` while the ring has room, `QUEUED` while only the queue has, and `BUSY` (nothing changed) at `N_TX + Q_CAP`. -/
def Obligations.SubmitAppendsToPipeline : Prop :=
  ∀ s : State, RunInv s → s.runState = .running → s.arg0 ≠ Config.null → 1 ≤ s.arg1.toNat → s.arg1.toNat ≤ 16383 →
    ∃ t : State, exec .submit s = .next t ∧
      ((txPipeline s).length < s.params.nTx →
        t.resp0.extractLsb' 0 4 = ResultCode.ok.code ∧ txPipeline t = txPipeline s ++ [(s.arg0, s.arg1.setWidth 14)]) ∧
      (s.params.nTx ≤ (txPipeline s).length → (txPipeline s).length < s.params.nTx + s.params.qCap →
        t.resp0.extractLsb' 0 4 = ResultCode.queued.code ∧ txPipeline t = txPipeline s ++ [(s.arg0, s.arg1.setWidth 14)]) ∧
      (s.params.nTx + s.params.qCap ≤ (txPipeline s).length →
        (txPipeline s).length = s.params.nTx + s.params.qCap ∧
        t = { s with resp0 := 2#32, resp1 := 0#32, resp2 := 0#32 })

/-- R175, R185: over any step inside a running session, the buffers posted so far followed by those the transmit side holds, and the
frames sent so far followed by those still to send, grow by exactly what the step accepted, at the end. So posts and transmissions
happen in submission order and each accepted buffer is posted at most once and never lost. -/
def Obligations.PostedThenHeldIsSubmissionOrder : Prop :=
  ∀ s t : State, RunInv s → s.runState = .running → step s = .next t → t.runState = .running →
    posted t.trace ++ (txPipeline t).map Prod.fst =
      posted s.trace ++ (txPipeline s).map Prod.fst ++ (accepted s t).map Prod.fst ∧
    t.sent ++ unsent t = s.sent ++ unsent s ++ accepted s t

/-! ### Multicast filter -/

/-- R207: MC_ADD. One more reference to the bucket of the operand address, its bit set on the transition from 0, refused at 255 with
nothing changed; no other bucket and no other part of the state changes. -/
def Obligations.McAddCountsOneReference : Prop :=
  encode .mcAdd = 0x00000030#32 ∧
  ∀ (s : State) (b : Bucket), b = hashFn s.params.hashMode (s.arg1.extractLsb' 0 16 ++ s.arg0) →
    (refCount s b = 255#8 →
      exec .mcAdd s = .next { s with
        resp0 := 7#32
        resp1 := b.setWidth 32 ||| (BitVec.ofBool (bucketBit s b)).setWidth 32 <<< 8
        resp2 := 255#32 }) ∧
    (refCount s b ≠ 255#8 → ∃ t : State,
      exec .mcAdd s = .next t ∧
      refCount t b = refCount s b + 1#8 ∧
      bucketBit t b = (refCount s b == 0#8 || bucketBit s b) ∧
      (∀ b', b' ≠ b → refCount t b' = refCount s b' ∧ bucketBit t b' = bucketBit s b') ∧
      t = { s with
        mcRef := t.mcRef
        mcBit := t.mcBit
        resp0 := 0#32
        resp1 := b.setWidth 32 ||| (BitVec.ofBool (bucketBit t b)).setWidth 32 <<< 8
        resp2 := (refCount s b).setWidth 32 + 1#32 })

/-- R208: MC_REMOVE. One reference fewer, the bit cleared on the transition to 0 but for the broadcast bucket while `bcast_en` is 1, and
`NOT_FOUND` at 0 with nothing changed. -/
def Obligations.McRemoveDropsOneReference : Prop :=
  encode .mcRemove = 0x00000031#32 ∧
  ∀ (s : State) (b : Bucket), b = hashFn s.params.hashMode (s.arg1.extractLsb' 0 16 ++ s.arg0) →
    (refCount s b = 0#8 →
      exec .mcRemove s = .next { s with
        resp0 := 10#32
        resp1 := b.setWidth 32 ||| (BitVec.ofBool (bucketBit s b)).setWidth 32 <<< 8
        resp2 := 0#32 }) ∧
    (refCount s b ≠ 0#8 → ∃ t : State,
      exec .mcRemove s = .next t ∧
      (refCount t b).toNat + 1 = (refCount s b).toNat ∧
      bucketBit t b =
        (bucketBit s b && (refCount s b != 1#8 || (s.bcastEn && b == hashFn s.params.hashMode 0xFFFFFFFFFFFF#48))) ∧
      (∀ b', b' ≠ b → refCount t b' = refCount s b' ∧ bucketBit t b' = bucketBit s b') ∧
      t = { s with
        mcRef := t.mcRef
        mcBit := t.mcBit
        resp0 := 0#32
        resp1 := b.setWidth 32 ||| (BitVec.ofBool (bucketBit t b)).setWidth 32 <<< 8
        resp2 := (refCount s b).setWidth 32 - 1#32 })

/-- R209, R213: MC_LOOKUP reports the bucket, its bit (the filter's decision) and its counter, and changes nothing but the response. -/
def Obligations.McLookupOnlyReports : Prop :=
  encode .mcLookup = 0x00000032#32 ∧
  ∀ (s : State) (a : Mac), a = s.arg1.extractLsb' 0 16 ++ s.arg0 →
    exec .mcLookup s = .next { s with
      resp0 := 0#32
      resp1 := (hashFn s.params.hashMode a).setWidth 32 |||
        (BitVec.ofBool (bucketBit s (hashFn s.params.hashMode a))).setWidth 32 <<< 8
      resp2 := (refCount s (hashFn s.params.hashMode a)).setWidth 32 } ∧
    mcMatch s a = bucketBit s (hashFn s.params.hashMode a)

/-- R211: two adds and one remove of one address leave its bit set and its counter at 1; a second remove clears the bit, unless it is
the broadcast bucket while `bcast_en` is 1. -/
def Obligations.TwoAddsOneRemoveKeepTheBit : Prop :=
  ∀ (s : State) (b : Bucket), b = hashFn s.params.hashMode (s.arg1.extractLsb' 0 16 ++ s.arg0) → refCount s b = 0#8 →
    ∃ t u : State,
      andThen (exec .mcAdd s) (fun x => andThen (exec .mcAdd x) (exec .mcRemove)) = .next t ∧
      refCount t b = 1#8 ∧ bucketBit t b = true ∧
      exec .mcRemove t = .next u ∧
      refCount u b = 0#8 ∧ bucketBit u b = (s.bcastEn && b == hashFn s.params.hashMode 0xFFFFFFFFFFFF#48)

/-- R83, R203 to R206: the bit formula of `XOR6` for every address, the check value of the CRC, the worked values of R205 from the operand
registers, and the broadcast buckets. -/
def Obligations.HashFunctionsAsWorked : Prop :=
  (∀ (a : Mac) (i : Nat), i < 6 →
    (xor6 a).getLsbD i = (a.getLsbD i ^^ a.getLsbD (i + 6) ^^ a.getLsbD (i + 12) ^^ a.getLsbD (i + 18) ^^ a.getLsbD (i + 24) ^^
      a.getLsbD (i + 30) ^^ a.getLsbD (i + 36) ^^ a.getLsbD (i + 42))) ∧
  crc32 [0x31#8, 0x32#8, 0x33#8, 0x34#8, 0x35#8, 0x36#8, 0x37#8, 0x38#8, 0x39#8] = 0xCBF43926#32 ∧
  (∀ r ∈ ([ (0xFFFFFFFF#32, 0x0000FFFF#32, 0#6, 0x41D9ED00#32, 16#6)
          , (0x00000000#32, 0x00000000#32, 0#6, 0xB1C2A1A3#32, 44#6)
          , (0x00000001#32, 0x00000000#32, 1#6, 0x7A9E7206#32, 30#6)
          , (0x00000040#32, 0x00000000#32, 1#6, 0xBE9AABCF#32, 47#6)
          , (0x00000041#32, 0x00000000#32, 0#6, 0x75C6786A#32, 29#6)
          , (0x00000000#32, 0x00008000#32, 32#6, 0x5C7A2283#32, 23#6)
          , (0x005E0001#32, 0x00000100#32, 38#6, 0x264B3A01#32, 9#6)
          , (0x005E0001#32, 0x0000FB00#32, 56#6, 0x7B232103#32, 30#6)
          , (0x7F5E0001#32, 0x0000FAFF#32, 37#6, 0xC0ADC38A#32, 48#6)
          , (0x00003333#32, 0x00000100#32, 44#6, 0xA2AA2660#32, 40#6)
          , (0x00C28001#32, 0x00000000#32, 25#6, 0x173CE419#32, 5#6) ] : List (Word × Word × Bucket × Word × Bucket)),
    ∀ s : State, s.arg0 = r.1 → s.arg1 = r.2.1 →
      xor6 (macOperand s) = r.2.2.1 ∧ crc32 (macBytes (macOperand s)) = r.2.2.2.1 ∧ crc6 (macOperand s) = r.2.2.2.2) ∧
  bcastBucket .xor6 = 0#6 ∧ bcastBucket .crc6 = 16#6

/-! ### START and STOP -/

/-- R220, R224, R225: START on legal bases, the allocator answering `N_RX` buffers that keep its contract: both rings written, queue and
cursors zeroed, latch and pending bits cleared, sources, receiver and transmitter enabled. The answers are inputs (log 3). -/
def Obligations.StartBuildsSession : Prop :=
  ∀ (s : State) (bufs : List Word), s.runState = .stopped → s.params.wellFormed = true →
    basesFit s.params s.rxBase s.txBase →
    bufs.length = s.params.nRx → bufs.Nodup → Config.null ∉ bufs → (∀ i, ∀ h : i < bufs.length, answerAt s i = some bufs[i]) →
    ∃ m : Memory,
      exec .start s = .next { s with
        mem := m
        allocIn := s.allocIn.drop s.params.nRx
        inputSeq := s.inputSeq + (s.params.nRx - s.allocIn.length)
        qFront := 0#16
        qBack := 0#16
        qLen := 0#16
        rxCur := 0#16
        txFill := 0#16
        txReclaim := 0#16
        hwRxCur := 0#16
        hwTxCur := 0#16
        txRunning := false
        fault := { cause := .none, ring := .rx, slot := 0#16 }
        pendRxr := false
        pendTxc := false
        enRxr := true
        enTxc := true
        rxEn := true
        txEn := true
        runState := .running
        resp0 := 0#32
        resp1 := 0#32
        resp2 := 0#32 } ∧
      (∀ i, ∀ h : i < bufs.length, loadDesc s.rxBase i m =
        .next { buf := bufs[i], st := if i + 1 = s.params.nRx then 0x40000000#32 else 0#32 }) ∧
      (∀ i, i < s.params.nTx → loadDesc s.txBase i m =
        .next { buf := Config.null, st := if i + 1 = s.params.nTx then 0xC0000000#32 else 0x80000000#32 }) ∧
      sameOutsideRings s m

/-- R223: when the allocator's answer number `i` is `None`, START posts the `i` buffers it has, in the order obtained, answers `NO_RESOURCE`
with their number, and nothing else has changed. The answers and the backpressure bits of the posts are inputs (logs 3, 4). -/
def Obligations.StartWithoutBuffersPostsBack : Prop :=
  ∀ (s : State) (bufs : List Word), s.runState = .stopped → basesFit s.params s.rxBase s.txBase →
    bufs.length < s.params.nRx → bufs.Nodup → Config.null ∉ bufs → (∀ i, ∀ h : i < bufs.length, answerAt s i = some bufs[i]) →
    answerAt s bufs.length = none →
    exec .start s = .next { postAll bufs { s with
          allocIn := s.allocIn.drop (bufs.length + 1)
          inputSeq := s.inputSeq + (bufs.length + 1 - s.allocIn.length) } with
        resp0 := 7#32
        resp1 := 0#32
        resp2 := BitVec.ofNat 32 bufs.length } ∧
    ∀ u : State, (postAll bufs u).trace = u.trace ++ bufs.map Event.post

/-- R222: `BaseOk` is the stated condition, computed without wrap-around, and where it fails START answers `BAD_ARG` and changes nothing;
no allocator answer is taken. -/
def Obligations.StartRefusesBadBases : Prop :=
  (∀ (p : Params) (rb tb : Word), baseOk p rb tb = true ↔ basesFit p rb tb) ∧
  (∀ s : State, s.runState = .stopped → ¬ basesFit s.params s.rxBase s.txBase →
    exec .start s = .next { s with resp0 := 9#32, resp1 := 0#32, resp2 := 0#32 })

/-- R226 to R229: STOP of a session, running or faulted, posts every held buffer once, in the order Rx ring, Tx ring oldest first, queue;
empties every descriptor, keeping its other bits; disables everything; keeps latch, cursors and counters. The backpressure bits that
`postAll` takes are inputs (log 4). -/
def Obligations.StopPostsEveryHeldBufferOnce : Prop :=
  ∀ s : State, SessionInv s → s.runState ≠ .stopped →
    ∃ m : Memory,
      exec .stop s = .next { postAll (stopRefs s) s with
        mem := m
        runState := .stopped
        rxEn := false
        txEn := false
        txRunning := false
        enRxr := false
        enTxc := false
        pendRxr := false
        pendTxc := false
        qFront := s.qBack
        qLen := 0#16
        resp0 := 0#32
        resp1 := 0#32
        resp2 := BitVec.ofNat 32 (stopRefs s).length } ∧
      (∀ (g : Ring) (i : Nat) (d : Desc), i < ringSize g s.params → loadSlot g i s = .next d →
        loadDesc (ringBase g s) i m = .next { buf := Config.null, st := d.st ||| 0x80000000#32 }) ∧
      sameOutsideRings s m ∧
      (stopRefs s).Perm (heldRefs s)

/-! ### The DMA engine and the hand-over -/

/-- R241, R242, R247: an enabled DMA_RX_DONE is one write of the status word, sets the pending bit, and advances by the `WRAP` bit. -/
def Obligations.DmaRxDoneGivesSlotBack : Prop :=
  ∀ (s : State) (len : BitVec 14) (err : BitVec 4) (d : Desc), s.rxEn = true →
    loadSlot .rx s.hwRxCur.toNat s = .next d → slotState d = .hwOwned →
    ∃ m : Memory,
      runTransition (.dmaRxDone len err) s = .next { s with
        mem := m, pendRxr := true, hwRxCur := if d.wrap then 0#16 else s.hwRxCur + 1#16 } ∧
      loadDesc s.rxBase s.hwRxCur.toNat m = .next
        { buf := d.buf, st := 0x80000000#32 ||| wrapBit d ||| err.setWidth 32 <<< 16 ||| len.setWidth 32 } ∧
      sameOutside (descAddr s.rxBase s.hwRxCur.toNat + 4) 4 s.mem m

/-- R241, R245, R247: an enabled DMA_TX_DONE sets `OWN` and no other bit, sets the pending bit, advances by the `WRAP` bit, and its label
names buffer and length (the list of labels is the model's own, log 7). -/
def Obligations.DmaTxDoneGivesSlotBack : Prop :=
  ∀ (s : State) (d : Desc), s.txEn = true → s.txRunning = true →
    loadSlot .tx s.hwTxCur.toNat s = .next d → slotState d = .hwOwned →
    ∃ m : Memory,
      runTransition .dmaTxDone s = .next { s with
        mem := m
        pendTxc := true
        hwTxCur := if d.wrap then 0#16 else s.hwTxCur + 1#16
        sent := s.sent ++ [(d.buf, d.len)] } ∧
      loadDesc s.txBase s.hwTxCur.toNat m = .next { buf := d.buf, st := d.st ||| 0x80000000#32 } ∧
      sameOutside (descAddr s.txBase s.hwTxCur.toNat + 4) 4 s.mem m

/-- Log 10 (the model's choice; R243, R245, R246, R248 say when the steps are not enabled): a scheduled DMA step that is not enabled
changes nothing. -/
def Obligations.DisabledDmaStepsChangeNothing : Prop :=
  ∀ (s : State) (len : BitVec 14) (err : BitVec 4),
    ((s.rxEn = false ∨ ∃ d, loadSlot .rx s.hwRxCur.toNat s = .next d ∧ slotState d ≠ .hwOwned) →
      runTransition (.dmaRxDone len err) s = .next s) ∧
    ((s.txEn = false ∨ s.txRunning = false ∨ ∃ d, loadSlot .tx s.hwTxCur.toNat s = .next d ∧ slotState d ≠ .hwOwned) →
      runTransition .dmaTxDone s = .next s)

/-- R90, R91: in the hand-over of a software-owned descriptor, every state of memory before the last write still shows `OWN = 1`; the
whole of it shows the new buffer and length with `OWN = 0`, `ERR = 0` and `WRAP` kept; and its writes are three, in the stated order. -/
def Obligations.HandOverNeverExposesHalfWritten : Prop :=
  ∀ (base : Word) (i : Nat) (m : Memory) (d : Desc) (b : Word) (len : BitVec 14),
    loadDesc base i m = .next d → d.own = true →
    (∀ k, k ≤ 4 → ∃ (m' : Memory) (d' : Desc),
      memActions ((handOverActions (descAddr base i) d.wrap b len).take k) m = .next m' ∧
      loadDesc base i m' = .next d' ∧ d'.own = true ∧ d'.wrap = d.wrap) ∧
    (∃ m' : Memory,
      memActions (handOverActions (descAddr base i) d.wrap b len) m = .next m' ∧
      loadDesc base i m' = .next { buf := b, st := wrapBit d ||| len.setWidth 32 } ∧
      sameOutside (descAddr base i) 8 m m') ∧
    writesOf (handOverActions (descAddr base i) d.wrap b len) =
      [ (descAddr base i, b)
      , (descAddr base i + 4, 0x80000000#32 ||| wrapBit d ||| len.setWidth 32)
      , (descAddr base i + 4, wrapBit d ||| len.setWidth 32) ]

/-! ### Invariants -/

/-- R65, R66: the state after reset satisfies the invariant, whatever the parameters in their ranges. -/
def Obligations.ResetSatisfiesRunInv : Prop := ∀ p : Params, p.wellFormed = true → RunInv (State.resetWith p)

/-- R35, R38, R40, R225, R226: every step keeps the invariant of all states: the memory's canonical form, the queue and cursor ranges, the
multicast invariant, the ring shape during a session, and the idle enables outside one. -/
def Obligations.EveryStepKeepsSessionInv : Prop := ∀ s t : State, SessionInv s → step s = .next t → SessionInv t

/-- R65 items 1 to 7: every step keeps the invariants that hold while `RUNNING`. -/
def Obligations.EveryStepKeepsRunInv : Prop := ∀ s t : State, RunInv s → step s = .next t → RunInv t

/-- R67, R99, R222: where the invariant holds no step ends in a fault of the model: no rule reads a descriptor before one has written it,
and none leaves the address space. -/
def Obligations.SessionInvariantRulesOutFaults : Prop := ∀ (s : State) (r : Fault), SessionInv s → step s ≠ .fault r

/-- R65 item 8: no buffer reference comes to be held in two places, provided the host gives SUBMIT and REPLENISH no buffer the DRC still
holds (R311; recycling of R150 apart). -/
def Obligations.HeldBuffersStayDistinct : Prop :=
  ∀ s t : State, RunInv s → HeldOnce s → (∀ w, nextCommand s w → hostOwnsOperand w s) → step s = .next t → HeldOnce t
end

