-- ==== Sys2Proof/Laws/State.lean ====
section
/-! SUPPORT. The small lemmas of every named update of State: one lemma per field per update, each true by unfolding the update alone,
so that no proof unfolds one. -/

namespace Sys2Proof.Machine

/-! ### `respond` -/

@[simp] theorem respond_runState (res : ResultCode) (more : Bool) (slot : Half) (r1 r2 : Word) (s : State) : (respond res more slot r1 r2 s).runState = s.runState := rfl
@[simp] theorem respond_rxEn (res : ResultCode) (more : Bool) (slot : Half) (r1 r2 : Word) (s : State) : (respond res more slot r1 r2 s).rxEn = s.rxEn := rfl
@[simp] theorem respond_txEn (res : ResultCode) (more : Bool) (slot : Half) (r1 r2 : Word) (s : State) : (respond res more slot r1 r2 s).txEn = s.txEn := rfl
@[simp] theorem respond_txRunning (res : ResultCode) (more : Bool) (slot : Half) (r1 r2 : Word) (s : State) : (respond res more slot r1 r2 s).txRunning = s.txRunning := rfl
@[simp] theorem respond_mem (res : ResultCode) (more : Bool) (slot : Half) (r1 r2 : Word) (s : State) : (respond res more slot r1 r2 s).mem = s.mem := rfl
@[simp] theorem respond_rxCur (res : ResultCode) (more : Bool) (slot : Half) (r1 r2 : Word) (s : State) : (respond res more slot r1 r2 s).rxCur = s.rxCur := rfl
@[simp] theorem respond_txFill (res : ResultCode) (more : Bool) (slot : Half) (r1 r2 : Word) (s : State) : (respond res more slot r1 r2 s).txFill = s.txFill := rfl
@[simp] theorem respond_txReclaim (res : ResultCode) (more : Bool) (slot : Half) (r1 r2 : Word) (s : State) : (respond res more slot r1 r2 s).txReclaim = s.txReclaim := rfl
@[simp] theorem respond_hwRxCur (res : ResultCode) (more : Bool) (slot : Half) (r1 r2 : Word) (s : State) : (respond res more slot r1 r2 s).hwRxCur = s.hwRxCur := rfl
@[simp] theorem respond_hwTxCur (res : ResultCode) (more : Bool) (slot : Half) (r1 r2 : Word) (s : State) : (respond res more slot r1 r2 s).hwTxCur = s.hwTxCur := rfl
@[simp] theorem respond_qEnt (res : ResultCode) (more : Bool) (slot : Half) (r1 r2 : Word) (s : State) : (respond res more slot r1 r2 s).qEnt = s.qEnt := rfl
@[simp] theorem respond_qFront (res : ResultCode) (more : Bool) (slot : Half) (r1 r2 : Word) (s : State) : (respond res more slot r1 r2 s).qFront = s.qFront := rfl
@[simp] theorem respond_qBack (res : ResultCode) (more : Bool) (slot : Half) (r1 r2 : Word) (s : State) : (respond res more slot r1 r2 s).qBack = s.qBack := rfl
@[simp] theorem respond_qLen (res : ResultCode) (more : Bool) (slot : Half) (r1 r2 : Word) (s : State) : (respond res more slot r1 r2 s).qLen = s.qLen := rfl
@[simp] theorem respond_mcRef (res : ResultCode) (more : Bool) (slot : Half) (r1 r2 : Word) (s : State) : (respond res more slot r1 r2 s).mcRef = s.mcRef := rfl
@[simp] theorem respond_mcBit (res : ResultCode) (more : Bool) (slot : Half) (r1 r2 : Word) (s : State) : (respond res more slot r1 r2 s).mcBit = s.mcBit := rfl
@[simp] theorem respond_bcastEn (res : ResultCode) (more : Bool) (slot : Half) (r1 r2 : Word) (s : State) : (respond res more slot r1 r2 s).bcastEn = s.bcastEn := rfl
@[simp] theorem respond_pendRxr (res : ResultCode) (more : Bool) (slot : Half) (r1 r2 : Word) (s : State) : (respond res more slot r1 r2 s).pendRxr = s.pendRxr := rfl
@[simp] theorem respond_pendTxc (res : ResultCode) (more : Bool) (slot : Half) (r1 r2 : Word) (s : State) : (respond res more slot r1 r2 s).pendTxc = s.pendTxc := rfl
@[simp] theorem respond_enRxr (res : ResultCode) (more : Bool) (slot : Half) (r1 r2 : Word) (s : State) : (respond res more slot r1 r2 s).enRxr = s.enRxr := rfl
@[simp] theorem respond_enTxc (res : ResultCode) (more : Bool) (slot : Half) (r1 r2 : Word) (s : State) : (respond res more slot r1 r2 s).enTxc = s.enTxc := rfl
@[simp] theorem respond_fault (res : ResultCode) (more : Bool) (slot : Half) (r1 r2 : Word) (s : State) : (respond res more slot r1 r2 s).fault = s.fault := rfl
@[simp] theorem respond_cntRxRunt (res : ResultCode) (more : Bool) (slot : Half) (r1 r2 : Word) (s : State) : (respond res more slot r1 r2 s).cntRxRunt = s.cntRxRunt := rfl
@[simp] theorem respond_cntRxOversize (res : ResultCode) (more : Bool) (slot : Half) (r1 r2 : Word) (s : State) : (respond res more slot r1 r2 s).cntRxOversize = s.cntRxOversize := rfl
@[simp] theorem respond_cntRxFlagged (res : ResultCode) (more : Bool) (slot : Half) (r1 r2 : Word) (s : State) : (respond res more slot r1 r2 s).cntRxFlagged = s.cntRxFlagged := rfl
@[simp] theorem respond_cntRxNobuf (res : ResultCode) (more : Bool) (slot : Half) (r1 r2 : Word) (s : State) : (respond res more slot r1 r2 s).cntRxNobuf = s.cntRxNobuf := rfl
@[simp] theorem respond_cntPostBp (res : ResultCode) (more : Bool) (slot : Half) (r1 r2 : Word) (s : State) : (respond res more slot r1 r2 s).cntPostBp = s.cntPostBp := rfl
@[simp] theorem respond_arg0 (res : ResultCode) (more : Bool) (slot : Half) (r1 r2 : Word) (s : State) : (respond res more slot r1 r2 s).arg0 = s.arg0 := rfl
@[simp] theorem respond_arg1 (res : ResultCode) (more : Bool) (slot : Half) (r1 r2 : Word) (s : State) : (respond res more slot r1 r2 s).arg1 = s.arg1 := rfl
@[simp] theorem respond_resp0 (res : ResultCode) (more : Bool) (slot : Half) (r1 r2 : Word) (s : State) : (respond res more slot r1 r2 s).resp0 = resp0Word res more slot := rfl
@[simp] theorem respond_resp1 (res : ResultCode) (more : Bool) (slot : Half) (r1 r2 : Word) (s : State) : (respond res more slot r1 r2 s).resp1 = r1 := rfl
@[simp] theorem respond_resp2 (res : ResultCode) (more : Bool) (slot : Half) (r1 r2 : Word) (s : State) : (respond res more slot r1 r2 s).resp2 = r2 := rfl
@[simp] theorem respond_rxBase (res : ResultCode) (more : Bool) (slot : Half) (r1 r2 : Word) (s : State) : (respond res more slot r1 r2 s).rxBase = s.rxBase := rfl
@[simp] theorem respond_txBase (res : ResultCode) (more : Bool) (slot : Half) (r1 r2 : Word) (s : State) : (respond res more slot r1 r2 s).txBase = s.txBase := rfl
@[simp] theorem respond_mcRefIdx (res : ResultCode) (more : Bool) (slot : Half) (r1 r2 : Word) (s : State) : (respond res more slot r1 r2 s).mcRefIdx = s.mcRefIdx := rfl
@[simp] theorem respond_trace (res : ResultCode) (more : Bool) (slot : Half) (r1 r2 : Word) (s : State) : (respond res more slot r1 r2 s).trace = s.trace := rfl
@[simp] theorem respond_params (res : ResultCode) (more : Bool) (slot : Half) (r1 r2 : Word) (s : State) : (respond res more slot r1 r2 s).params = s.params := rfl
@[simp] theorem respond_agenda (res : ResultCode) (more : Bool) (slot : Half) (r1 r2 : Word) (s : State) : (respond res more slot r1 r2 s).agenda = s.agenda := rfl
@[simp] theorem respond_allocIn (res : ResultCode) (more : Bool) (slot : Half) (r1 r2 : Word) (s : State) : (respond res more slot r1 r2 s).allocIn = s.allocIn := rfl
@[simp] theorem respond_bpIn (res : ResultCode) (more : Bool) (slot : Half) (r1 r2 : Word) (s : State) : (respond res more slot r1 r2 s).bpIn = s.bpIn := rfl
@[simp] theorem respond_inputSeq (res : ResultCode) (more : Bool) (slot : Half) (r1 r2 : Word) (s : State) : (respond res more slot r1 r2 s).inputSeq = s.inputSeq := rfl
@[simp] theorem respond_readValue (res : ResultCode) (more : Bool) (slot : Half) (r1 r2 : Word) (s : State) : (respond res more slot r1 r2 s).readValue = s.readValue := rfl
@[simp] theorem respond_sent (res : ResultCode) (more : Bool) (slot : Half) (r1 r2 : Word) (s : State) : (respond res more slot r1 r2 s).sent = s.sent := rfl

/-! ### `respondOnly` -/

@[simp] theorem respondOnly_runState (res : ResultCode) (s : State) : (respondOnly res s).runState = s.runState := rfl
@[simp] theorem respondOnly_rxEn (res : ResultCode) (s : State) : (respondOnly res s).rxEn = s.rxEn := rfl
@[simp] theorem respondOnly_txEn (res : ResultCode) (s : State) : (respondOnly res s).txEn = s.txEn := rfl
@[simp] theorem respondOnly_txRunning (res : ResultCode) (s : State) : (respondOnly res s).txRunning = s.txRunning := rfl
@[simp] theorem respondOnly_mem (res : ResultCode) (s : State) : (respondOnly res s).mem = s.mem := rfl
@[simp] theorem respondOnly_rxCur (res : ResultCode) (s : State) : (respondOnly res s).rxCur = s.rxCur := rfl
@[simp] theorem respondOnly_txFill (res : ResultCode) (s : State) : (respondOnly res s).txFill = s.txFill := rfl
@[simp] theorem respondOnly_txReclaim (res : ResultCode) (s : State) : (respondOnly res s).txReclaim = s.txReclaim := rfl
@[simp] theorem respondOnly_hwRxCur (res : ResultCode) (s : State) : (respondOnly res s).hwRxCur = s.hwRxCur := rfl
@[simp] theorem respondOnly_hwTxCur (res : ResultCode) (s : State) : (respondOnly res s).hwTxCur = s.hwTxCur := rfl
@[simp] theorem respondOnly_qEnt (res : ResultCode) (s : State) : (respondOnly res s).qEnt = s.qEnt := rfl
@[simp] theorem respondOnly_qFront (res : ResultCode) (s : State) : (respondOnly res s).qFront = s.qFront := rfl
@[simp] theorem respondOnly_qBack (res : ResultCode) (s : State) : (respondOnly res s).qBack = s.qBack := rfl
@[simp] theorem respondOnly_qLen (res : ResultCode) (s : State) : (respondOnly res s).qLen = s.qLen := rfl
@[simp] theorem respondOnly_mcRef (res : ResultCode) (s : State) : (respondOnly res s).mcRef = s.mcRef := rfl
@[simp] theorem respondOnly_mcBit (res : ResultCode) (s : State) : (respondOnly res s).mcBit = s.mcBit := rfl
@[simp] theorem respondOnly_bcastEn (res : ResultCode) (s : State) : (respondOnly res s).bcastEn = s.bcastEn := rfl
@[simp] theorem respondOnly_pendRxr (res : ResultCode) (s : State) : (respondOnly res s).pendRxr = s.pendRxr := rfl
@[simp] theorem respondOnly_pendTxc (res : ResultCode) (s : State) : (respondOnly res s).pendTxc = s.pendTxc := rfl
@[simp] theorem respondOnly_enRxr (res : ResultCode) (s : State) : (respondOnly res s).enRxr = s.enRxr := rfl
@[simp] theorem respondOnly_enTxc (res : ResultCode) (s : State) : (respondOnly res s).enTxc = s.enTxc := rfl
@[simp] theorem respondOnly_fault (res : ResultCode) (s : State) : (respondOnly res s).fault = s.fault := rfl
@[simp] theorem respondOnly_cntRxRunt (res : ResultCode) (s : State) : (respondOnly res s).cntRxRunt = s.cntRxRunt := rfl
@[simp] theorem respondOnly_cntRxOversize (res : ResultCode) (s : State) : (respondOnly res s).cntRxOversize = s.cntRxOversize := rfl
@[simp] theorem respondOnly_cntRxFlagged (res : ResultCode) (s : State) : (respondOnly res s).cntRxFlagged = s.cntRxFlagged := rfl
@[simp] theorem respondOnly_cntRxNobuf (res : ResultCode) (s : State) : (respondOnly res s).cntRxNobuf = s.cntRxNobuf := rfl
@[simp] theorem respondOnly_cntPostBp (res : ResultCode) (s : State) : (respondOnly res s).cntPostBp = s.cntPostBp := rfl
@[simp] theorem respondOnly_arg0 (res : ResultCode) (s : State) : (respondOnly res s).arg0 = s.arg0 := rfl
@[simp] theorem respondOnly_arg1 (res : ResultCode) (s : State) : (respondOnly res s).arg1 = s.arg1 := rfl
@[simp] theorem respondOnly_resp0 (res : ResultCode) (s : State) : (respondOnly res s).resp0 = resp0Word res false 0#16 := rfl
@[simp] theorem respondOnly_resp1 (res : ResultCode) (s : State) : (respondOnly res s).resp1 = 0#32 := rfl
@[simp] theorem respondOnly_resp2 (res : ResultCode) (s : State) : (respondOnly res s).resp2 = 0#32 := rfl
@[simp] theorem respondOnly_rxBase (res : ResultCode) (s : State) : (respondOnly res s).rxBase = s.rxBase := rfl
@[simp] theorem respondOnly_txBase (res : ResultCode) (s : State) : (respondOnly res s).txBase = s.txBase := rfl
@[simp] theorem respondOnly_mcRefIdx (res : ResultCode) (s : State) : (respondOnly res s).mcRefIdx = s.mcRefIdx := rfl
@[simp] theorem respondOnly_trace (res : ResultCode) (s : State) : (respondOnly res s).trace = s.trace := rfl
@[simp] theorem respondOnly_params (res : ResultCode) (s : State) : (respondOnly res s).params = s.params := rfl
@[simp] theorem respondOnly_agenda (res : ResultCode) (s : State) : (respondOnly res s).agenda = s.agenda := rfl
@[simp] theorem respondOnly_allocIn (res : ResultCode) (s : State) : (respondOnly res s).allocIn = s.allocIn := rfl
@[simp] theorem respondOnly_bpIn (res : ResultCode) (s : State) : (respondOnly res s).bpIn = s.bpIn := rfl
@[simp] theorem respondOnly_inputSeq (res : ResultCode) (s : State) : (respondOnly res s).inputSeq = s.inputSeq := rfl
@[simp] theorem respondOnly_readValue (res : ResultCode) (s : State) : (respondOnly res s).readValue = s.readValue := rfl
@[simp] theorem respondOnly_sent (res : ResultCode) (s : State) : (respondOnly res s).sent = s.sent := rfl

/-! ### `raiseDeviceFault` -/

@[simp] theorem raiseDeviceFault_runState (c : FaultCause) (g : Ring) (slot : Half) (n : Word) (s : State) : (raiseDeviceFault c g slot n s).runState = .faulted := rfl
@[simp] theorem raiseDeviceFault_rxEn (c : FaultCause) (g : Ring) (slot : Half) (n : Word) (s : State) : (raiseDeviceFault c g slot n s).rxEn = s.rxEn := rfl
@[simp] theorem raiseDeviceFault_txEn (c : FaultCause) (g : Ring) (slot : Half) (n : Word) (s : State) : (raiseDeviceFault c g slot n s).txEn = s.txEn := rfl
@[simp] theorem raiseDeviceFault_txRunning (c : FaultCause) (g : Ring) (slot : Half) (n : Word) (s : State) : (raiseDeviceFault c g slot n s).txRunning = s.txRunning := rfl
@[simp] theorem raiseDeviceFault_mem (c : FaultCause) (g : Ring) (slot : Half) (n : Word) (s : State) : (raiseDeviceFault c g slot n s).mem = s.mem := rfl
@[simp] theorem raiseDeviceFault_rxCur (c : FaultCause) (g : Ring) (slot : Half) (n : Word) (s : State) : (raiseDeviceFault c g slot n s).rxCur = s.rxCur := rfl
@[simp] theorem raiseDeviceFault_txFill (c : FaultCause) (g : Ring) (slot : Half) (n : Word) (s : State) : (raiseDeviceFault c g slot n s).txFill = s.txFill := rfl
@[simp] theorem raiseDeviceFault_txReclaim (c : FaultCause) (g : Ring) (slot : Half) (n : Word) (s : State) : (raiseDeviceFault c g slot n s).txReclaim = s.txReclaim := rfl
@[simp] theorem raiseDeviceFault_hwRxCur (c : FaultCause) (g : Ring) (slot : Half) (n : Word) (s : State) : (raiseDeviceFault c g slot n s).hwRxCur = s.hwRxCur := rfl
@[simp] theorem raiseDeviceFault_hwTxCur (c : FaultCause) (g : Ring) (slot : Half) (n : Word) (s : State) : (raiseDeviceFault c g slot n s).hwTxCur = s.hwTxCur := rfl
@[simp] theorem raiseDeviceFault_qEnt (c : FaultCause) (g : Ring) (slot : Half) (n : Word) (s : State) : (raiseDeviceFault c g slot n s).qEnt = s.qEnt := rfl
@[simp] theorem raiseDeviceFault_qFront (c : FaultCause) (g : Ring) (slot : Half) (n : Word) (s : State) : (raiseDeviceFault c g slot n s).qFront = s.qFront := rfl
@[simp] theorem raiseDeviceFault_qBack (c : FaultCause) (g : Ring) (slot : Half) (n : Word) (s : State) : (raiseDeviceFault c g slot n s).qBack = s.qBack := rfl
@[simp] theorem raiseDeviceFault_qLen (c : FaultCause) (g : Ring) (slot : Half) (n : Word) (s : State) : (raiseDeviceFault c g slot n s).qLen = s.qLen := rfl
@[simp] theorem raiseDeviceFault_mcRef (c : FaultCause) (g : Ring) (slot : Half) (n : Word) (s : State) : (raiseDeviceFault c g slot n s).mcRef = s.mcRef := rfl
@[simp] theorem raiseDeviceFault_mcBit (c : FaultCause) (g : Ring) (slot : Half) (n : Word) (s : State) : (raiseDeviceFault c g slot n s).mcBit = s.mcBit := rfl
@[simp] theorem raiseDeviceFault_bcastEn (c : FaultCause) (g : Ring) (slot : Half) (n : Word) (s : State) : (raiseDeviceFault c g slot n s).bcastEn = s.bcastEn := rfl
@[simp] theorem raiseDeviceFault_pendRxr (c : FaultCause) (g : Ring) (slot : Half) (n : Word) (s : State) : (raiseDeviceFault c g slot n s).pendRxr = s.pendRxr := rfl
@[simp] theorem raiseDeviceFault_pendTxc (c : FaultCause) (g : Ring) (slot : Half) (n : Word) (s : State) : (raiseDeviceFault c g slot n s).pendTxc = s.pendTxc := rfl
@[simp] theorem raiseDeviceFault_enRxr (c : FaultCause) (g : Ring) (slot : Half) (n : Word) (s : State) : (raiseDeviceFault c g slot n s).enRxr = s.enRxr := rfl
@[simp] theorem raiseDeviceFault_enTxc (c : FaultCause) (g : Ring) (slot : Half) (n : Word) (s : State) : (raiseDeviceFault c g slot n s).enTxc = s.enTxc := rfl
@[simp] theorem raiseDeviceFault_fault (c : FaultCause) (g : Ring) (slot : Half) (n : Word) (s : State) : (raiseDeviceFault c g slot n s).fault = { cause := c, ring := g, slot := slot } := rfl
@[simp] theorem raiseDeviceFault_cntRxRunt (c : FaultCause) (g : Ring) (slot : Half) (n : Word) (s : State) : (raiseDeviceFault c g slot n s).cntRxRunt = s.cntRxRunt := rfl
@[simp] theorem raiseDeviceFault_cntRxOversize (c : FaultCause) (g : Ring) (slot : Half) (n : Word) (s : State) : (raiseDeviceFault c g slot n s).cntRxOversize = s.cntRxOversize := rfl
@[simp] theorem raiseDeviceFault_cntRxFlagged (c : FaultCause) (g : Ring) (slot : Half) (n : Word) (s : State) : (raiseDeviceFault c g slot n s).cntRxFlagged = s.cntRxFlagged := rfl
@[simp] theorem raiseDeviceFault_cntRxNobuf (c : FaultCause) (g : Ring) (slot : Half) (n : Word) (s : State) : (raiseDeviceFault c g slot n s).cntRxNobuf = s.cntRxNobuf := rfl
@[simp] theorem raiseDeviceFault_cntPostBp (c : FaultCause) (g : Ring) (slot : Half) (n : Word) (s : State) : (raiseDeviceFault c g slot n s).cntPostBp = s.cntPostBp := rfl
@[simp] theorem raiseDeviceFault_arg0 (c : FaultCause) (g : Ring) (slot : Half) (n : Word) (s : State) : (raiseDeviceFault c g slot n s).arg0 = s.arg0 := rfl
@[simp] theorem raiseDeviceFault_arg1 (c : FaultCause) (g : Ring) (slot : Half) (n : Word) (s : State) : (raiseDeviceFault c g slot n s).arg1 = s.arg1 := rfl
@[simp] theorem raiseDeviceFault_resp0 (c : FaultCause) (g : Ring) (slot : Half) (n : Word) (s : State) : (raiseDeviceFault c g slot n s).resp0 = resp0Word .deviceFault false slot := rfl
@[simp] theorem raiseDeviceFault_resp1 (c : FaultCause) (g : Ring) (slot : Half) (n : Word) (s : State) : (raiseDeviceFault c g slot n s).resp1 = 0#32 := rfl
@[simp] theorem raiseDeviceFault_resp2 (c : FaultCause) (g : Ring) (slot : Half) (n : Word) (s : State) : (raiseDeviceFault c g slot n s).resp2 = n := rfl
@[simp] theorem raiseDeviceFault_rxBase (c : FaultCause) (g : Ring) (slot : Half) (n : Word) (s : State) : (raiseDeviceFault c g slot n s).rxBase = s.rxBase := rfl
@[simp] theorem raiseDeviceFault_txBase (c : FaultCause) (g : Ring) (slot : Half) (n : Word) (s : State) : (raiseDeviceFault c g slot n s).txBase = s.txBase := rfl
@[simp] theorem raiseDeviceFault_mcRefIdx (c : FaultCause) (g : Ring) (slot : Half) (n : Word) (s : State) : (raiseDeviceFault c g slot n s).mcRefIdx = s.mcRefIdx := rfl
@[simp] theorem raiseDeviceFault_trace (c : FaultCause) (g : Ring) (slot : Half) (n : Word) (s : State) : (raiseDeviceFault c g slot n s).trace = s.trace := rfl
@[simp] theorem raiseDeviceFault_params (c : FaultCause) (g : Ring) (slot : Half) (n : Word) (s : State) : (raiseDeviceFault c g slot n s).params = s.params := rfl
@[simp] theorem raiseDeviceFault_agenda (c : FaultCause) (g : Ring) (slot : Half) (n : Word) (s : State) : (raiseDeviceFault c g slot n s).agenda = s.agenda := rfl
@[simp] theorem raiseDeviceFault_allocIn (c : FaultCause) (g : Ring) (slot : Half) (n : Word) (s : State) : (raiseDeviceFault c g slot n s).allocIn = s.allocIn := rfl
@[simp] theorem raiseDeviceFault_bpIn (c : FaultCause) (g : Ring) (slot : Half) (n : Word) (s : State) : (raiseDeviceFault c g slot n s).bpIn = s.bpIn := rfl
@[simp] theorem raiseDeviceFault_inputSeq (c : FaultCause) (g : Ring) (slot : Half) (n : Word) (s : State) : (raiseDeviceFault c g slot n s).inputSeq = s.inputSeq := rfl
@[simp] theorem raiseDeviceFault_readValue (c : FaultCause) (g : Ring) (slot : Half) (n : Word) (s : State) : (raiseDeviceFault c g slot n s).readValue = s.readValue := rfl
@[simp] theorem raiseDeviceFault_sent (c : FaultCause) (g : Ring) (slot : Half) (n : Word) (s : State) : (raiseDeviceFault c g slot n s).sent = s.sent := rfl

/-! ### `clearDeviceFault` -/

@[simp] theorem clearDeviceFault_runState (s : State) : (clearDeviceFault s).runState = s.runState := rfl
@[simp] theorem clearDeviceFault_rxEn (s : State) : (clearDeviceFault s).rxEn = s.rxEn := rfl
@[simp] theorem clearDeviceFault_txEn (s : State) : (clearDeviceFault s).txEn = s.txEn := rfl
@[simp] theorem clearDeviceFault_txRunning (s : State) : (clearDeviceFault s).txRunning = s.txRunning := rfl
@[simp] theorem clearDeviceFault_mem (s : State) : (clearDeviceFault s).mem = s.mem := rfl
@[simp] theorem clearDeviceFault_rxCur (s : State) : (clearDeviceFault s).rxCur = s.rxCur := rfl
@[simp] theorem clearDeviceFault_txFill (s : State) : (clearDeviceFault s).txFill = s.txFill := rfl
@[simp] theorem clearDeviceFault_txReclaim (s : State) : (clearDeviceFault s).txReclaim = s.txReclaim := rfl
@[simp] theorem clearDeviceFault_hwRxCur (s : State) : (clearDeviceFault s).hwRxCur = s.hwRxCur := rfl
@[simp] theorem clearDeviceFault_hwTxCur (s : State) : (clearDeviceFault s).hwTxCur = s.hwTxCur := rfl
@[simp] theorem clearDeviceFault_qEnt (s : State) : (clearDeviceFault s).qEnt = s.qEnt := rfl
@[simp] theorem clearDeviceFault_qFront (s : State) : (clearDeviceFault s).qFront = s.qFront := rfl
@[simp] theorem clearDeviceFault_qBack (s : State) : (clearDeviceFault s).qBack = s.qBack := rfl
@[simp] theorem clearDeviceFault_qLen (s : State) : (clearDeviceFault s).qLen = s.qLen := rfl
@[simp] theorem clearDeviceFault_mcRef (s : State) : (clearDeviceFault s).mcRef = s.mcRef := rfl
@[simp] theorem clearDeviceFault_mcBit (s : State) : (clearDeviceFault s).mcBit = s.mcBit := rfl
@[simp] theorem clearDeviceFault_bcastEn (s : State) : (clearDeviceFault s).bcastEn = s.bcastEn := rfl
@[simp] theorem clearDeviceFault_pendRxr (s : State) : (clearDeviceFault s).pendRxr = s.pendRxr := rfl
@[simp] theorem clearDeviceFault_pendTxc (s : State) : (clearDeviceFault s).pendTxc = s.pendTxc := rfl
@[simp] theorem clearDeviceFault_enRxr (s : State) : (clearDeviceFault s).enRxr = s.enRxr := rfl
@[simp] theorem clearDeviceFault_enTxc (s : State) : (clearDeviceFault s).enTxc = s.enTxc := rfl
@[simp] theorem clearDeviceFault_fault (s : State) : (clearDeviceFault s).fault = FaultLatch.clear := rfl
@[simp] theorem clearDeviceFault_cntRxRunt (s : State) : (clearDeviceFault s).cntRxRunt = s.cntRxRunt := rfl
@[simp] theorem clearDeviceFault_cntRxOversize (s : State) : (clearDeviceFault s).cntRxOversize = s.cntRxOversize := rfl
@[simp] theorem clearDeviceFault_cntRxFlagged (s : State) : (clearDeviceFault s).cntRxFlagged = s.cntRxFlagged := rfl
@[simp] theorem clearDeviceFault_cntRxNobuf (s : State) : (clearDeviceFault s).cntRxNobuf = s.cntRxNobuf := rfl
@[simp] theorem clearDeviceFault_cntPostBp (s : State) : (clearDeviceFault s).cntPostBp = s.cntPostBp := rfl
@[simp] theorem clearDeviceFault_arg0 (s : State) : (clearDeviceFault s).arg0 = s.arg0 := rfl
@[simp] theorem clearDeviceFault_arg1 (s : State) : (clearDeviceFault s).arg1 = s.arg1 := rfl
@[simp] theorem clearDeviceFault_resp0 (s : State) : (clearDeviceFault s).resp0 = s.resp0 := rfl
@[simp] theorem clearDeviceFault_resp1 (s : State) : (clearDeviceFault s).resp1 = s.resp1 := rfl
@[simp] theorem clearDeviceFault_resp2 (s : State) : (clearDeviceFault s).resp2 = s.resp2 := rfl
@[simp] theorem clearDeviceFault_rxBase (s : State) : (clearDeviceFault s).rxBase = s.rxBase := rfl
@[simp] theorem clearDeviceFault_txBase (s : State) : (clearDeviceFault s).txBase = s.txBase := rfl
@[simp] theorem clearDeviceFault_mcRefIdx (s : State) : (clearDeviceFault s).mcRefIdx = s.mcRefIdx := rfl
@[simp] theorem clearDeviceFault_trace (s : State) : (clearDeviceFault s).trace = s.trace := rfl
@[simp] theorem clearDeviceFault_params (s : State) : (clearDeviceFault s).params = s.params := rfl
@[simp] theorem clearDeviceFault_agenda (s : State) : (clearDeviceFault s).agenda = s.agenda := rfl
@[simp] theorem clearDeviceFault_allocIn (s : State) : (clearDeviceFault s).allocIn = s.allocIn := rfl
@[simp] theorem clearDeviceFault_bpIn (s : State) : (clearDeviceFault s).bpIn = s.bpIn := rfl
@[simp] theorem clearDeviceFault_inputSeq (s : State) : (clearDeviceFault s).inputSeq = s.inputSeq := rfl
@[simp] theorem clearDeviceFault_readValue (s : State) : (clearDeviceFault s).readValue = s.readValue := rfl
@[simp] theorem clearDeviceFault_sent (s : State) : (clearDeviceFault s).sent = s.sent := rfl

/-! ### `emit` -/

@[simp] theorem emit_runState (e : Event) (s : State) : (emit e s).runState = s.runState := rfl
@[simp] theorem emit_rxEn (e : Event) (s : State) : (emit e s).rxEn = s.rxEn := rfl
@[simp] theorem emit_txEn (e : Event) (s : State) : (emit e s).txEn = s.txEn := rfl
@[simp] theorem emit_txRunning (e : Event) (s : State) : (emit e s).txRunning = s.txRunning := rfl
@[simp] theorem emit_mem (e : Event) (s : State) : (emit e s).mem = s.mem := rfl
@[simp] theorem emit_rxCur (e : Event) (s : State) : (emit e s).rxCur = s.rxCur := rfl
@[simp] theorem emit_txFill (e : Event) (s : State) : (emit e s).txFill = s.txFill := rfl
@[simp] theorem emit_txReclaim (e : Event) (s : State) : (emit e s).txReclaim = s.txReclaim := rfl
@[simp] theorem emit_hwRxCur (e : Event) (s : State) : (emit e s).hwRxCur = s.hwRxCur := rfl
@[simp] theorem emit_hwTxCur (e : Event) (s : State) : (emit e s).hwTxCur = s.hwTxCur := rfl
@[simp] theorem emit_qEnt (e : Event) (s : State) : (emit e s).qEnt = s.qEnt := rfl
@[simp] theorem emit_qFront (e : Event) (s : State) : (emit e s).qFront = s.qFront := rfl
@[simp] theorem emit_qBack (e : Event) (s : State) : (emit e s).qBack = s.qBack := rfl
@[simp] theorem emit_qLen (e : Event) (s : State) : (emit e s).qLen = s.qLen := rfl
@[simp] theorem emit_mcRef (e : Event) (s : State) : (emit e s).mcRef = s.mcRef := rfl
@[simp] theorem emit_mcBit (e : Event) (s : State) : (emit e s).mcBit = s.mcBit := rfl
@[simp] theorem emit_bcastEn (e : Event) (s : State) : (emit e s).bcastEn = s.bcastEn := rfl
@[simp] theorem emit_pendRxr (e : Event) (s : State) : (emit e s).pendRxr = s.pendRxr := rfl
@[simp] theorem emit_pendTxc (e : Event) (s : State) : (emit e s).pendTxc = s.pendTxc := rfl
@[simp] theorem emit_enRxr (e : Event) (s : State) : (emit e s).enRxr = s.enRxr := rfl
@[simp] theorem emit_enTxc (e : Event) (s : State) : (emit e s).enTxc = s.enTxc := rfl
@[simp] theorem emit_fault (e : Event) (s : State) : (emit e s).fault = s.fault := rfl
@[simp] theorem emit_cntRxRunt (e : Event) (s : State) : (emit e s).cntRxRunt = s.cntRxRunt := rfl
@[simp] theorem emit_cntRxOversize (e : Event) (s : State) : (emit e s).cntRxOversize = s.cntRxOversize := rfl
@[simp] theorem emit_cntRxFlagged (e : Event) (s : State) : (emit e s).cntRxFlagged = s.cntRxFlagged := rfl
@[simp] theorem emit_cntRxNobuf (e : Event) (s : State) : (emit e s).cntRxNobuf = s.cntRxNobuf := rfl
@[simp] theorem emit_cntPostBp (e : Event) (s : State) : (emit e s).cntPostBp = s.cntPostBp := rfl
@[simp] theorem emit_arg0 (e : Event) (s : State) : (emit e s).arg0 = s.arg0 := rfl
@[simp] theorem emit_arg1 (e : Event) (s : State) : (emit e s).arg1 = s.arg1 := rfl
@[simp] theorem emit_resp0 (e : Event) (s : State) : (emit e s).resp0 = s.resp0 := rfl
@[simp] theorem emit_resp1 (e : Event) (s : State) : (emit e s).resp1 = s.resp1 := rfl
@[simp] theorem emit_resp2 (e : Event) (s : State) : (emit e s).resp2 = s.resp2 := rfl
@[simp] theorem emit_rxBase (e : Event) (s : State) : (emit e s).rxBase = s.rxBase := rfl
@[simp] theorem emit_txBase (e : Event) (s : State) : (emit e s).txBase = s.txBase := rfl
@[simp] theorem emit_mcRefIdx (e : Event) (s : State) : (emit e s).mcRefIdx = s.mcRefIdx := rfl
@[simp] theorem emit_trace (e : Event) (s : State) : (emit e s).trace = s.trace ++ [e] := rfl
@[simp] theorem emit_params (e : Event) (s : State) : (emit e s).params = s.params := rfl
@[simp] theorem emit_agenda (e : Event) (s : State) : (emit e s).agenda = s.agenda := rfl
@[simp] theorem emit_allocIn (e : Event) (s : State) : (emit e s).allocIn = s.allocIn := rfl
@[simp] theorem emit_bpIn (e : Event) (s : State) : (emit e s).bpIn = s.bpIn := rfl
@[simp] theorem emit_inputSeq (e : Event) (s : State) : (emit e s).inputSeq = s.inputSeq := rfl
@[simp] theorem emit_readValue (e : Event) (s : State) : (emit e s).readValue = s.readValue := rfl
@[simp] theorem emit_sent (e : Event) (s : State) : (emit e s).sent = s.sent := rfl

/-! ### `enqueue` -/

@[simp] theorem enqueue_runState (b : Word) (l : BitVec 14) (s : State) : (enqueue b l s).runState = s.runState := rfl
@[simp] theorem enqueue_rxEn (b : Word) (l : BitVec 14) (s : State) : (enqueue b l s).rxEn = s.rxEn := rfl
@[simp] theorem enqueue_txEn (b : Word) (l : BitVec 14) (s : State) : (enqueue b l s).txEn = s.txEn := rfl
@[simp] theorem enqueue_txRunning (b : Word) (l : BitVec 14) (s : State) : (enqueue b l s).txRunning = s.txRunning := rfl
@[simp] theorem enqueue_mem (b : Word) (l : BitVec 14) (s : State) : (enqueue b l s).mem = s.mem := rfl
@[simp] theorem enqueue_rxCur (b : Word) (l : BitVec 14) (s : State) : (enqueue b l s).rxCur = s.rxCur := rfl
@[simp] theorem enqueue_txFill (b : Word) (l : BitVec 14) (s : State) : (enqueue b l s).txFill = s.txFill := rfl
@[simp] theorem enqueue_txReclaim (b : Word) (l : BitVec 14) (s : State) : (enqueue b l s).txReclaim = s.txReclaim := rfl
@[simp] theorem enqueue_hwRxCur (b : Word) (l : BitVec 14) (s : State) : (enqueue b l s).hwRxCur = s.hwRxCur := rfl
@[simp] theorem enqueue_hwTxCur (b : Word) (l : BitVec 14) (s : State) : (enqueue b l s).hwTxCur = s.hwTxCur := rfl
@[simp] theorem enqueue_qEnt (b : Word) (l : BitVec 14) (s : State) : (enqueue b l s).qEnt = s.qEnt.set s.qBack.toNat { buf := b, len := l } := rfl
@[simp] theorem enqueue_qFront (b : Word) (l : BitVec 14) (s : State) : (enqueue b l s).qFront = s.qFront := rfl
@[simp] theorem enqueue_qBack (b : Word) (l : BitVec 14) (s : State) : (enqueue b l s).qBack = nextQ s.params s.qBack := rfl
@[simp] theorem enqueue_qLen (b : Word) (l : BitVec 14) (s : State) : (enqueue b l s).qLen = s.qLen + 1#16 := rfl
@[simp] theorem enqueue_mcRef (b : Word) (l : BitVec 14) (s : State) : (enqueue b l s).mcRef = s.mcRef := rfl
@[simp] theorem enqueue_mcBit (b : Word) (l : BitVec 14) (s : State) : (enqueue b l s).mcBit = s.mcBit := rfl
@[simp] theorem enqueue_bcastEn (b : Word) (l : BitVec 14) (s : State) : (enqueue b l s).bcastEn = s.bcastEn := rfl
@[simp] theorem enqueue_pendRxr (b : Word) (l : BitVec 14) (s : State) : (enqueue b l s).pendRxr = s.pendRxr := rfl
@[simp] theorem enqueue_pendTxc (b : Word) (l : BitVec 14) (s : State) : (enqueue b l s).pendTxc = s.pendTxc := rfl
@[simp] theorem enqueue_enRxr (b : Word) (l : BitVec 14) (s : State) : (enqueue b l s).enRxr = s.enRxr := rfl
@[simp] theorem enqueue_enTxc (b : Word) (l : BitVec 14) (s : State) : (enqueue b l s).enTxc = s.enTxc := rfl
@[simp] theorem enqueue_fault (b : Word) (l : BitVec 14) (s : State) : (enqueue b l s).fault = s.fault := rfl
@[simp] theorem enqueue_cntRxRunt (b : Word) (l : BitVec 14) (s : State) : (enqueue b l s).cntRxRunt = s.cntRxRunt := rfl
@[simp] theorem enqueue_cntRxOversize (b : Word) (l : BitVec 14) (s : State) : (enqueue b l s).cntRxOversize = s.cntRxOversize := rfl
@[simp] theorem enqueue_cntRxFlagged (b : Word) (l : BitVec 14) (s : State) : (enqueue b l s).cntRxFlagged = s.cntRxFlagged := rfl
@[simp] theorem enqueue_cntRxNobuf (b : Word) (l : BitVec 14) (s : State) : (enqueue b l s).cntRxNobuf = s.cntRxNobuf := rfl
@[simp] theorem enqueue_cntPostBp (b : Word) (l : BitVec 14) (s : State) : (enqueue b l s).cntPostBp = s.cntPostBp := rfl
@[simp] theorem enqueue_arg0 (b : Word) (l : BitVec 14) (s : State) : (enqueue b l s).arg0 = s.arg0 := rfl
@[simp] theorem enqueue_arg1 (b : Word) (l : BitVec 14) (s : State) : (enqueue b l s).arg1 = s.arg1 := rfl
@[simp] theorem enqueue_resp0 (b : Word) (l : BitVec 14) (s : State) : (enqueue b l s).resp0 = s.resp0 := rfl
@[simp] theorem enqueue_resp1 (b : Word) (l : BitVec 14) (s : State) : (enqueue b l s).resp1 = s.resp1 := rfl
@[simp] theorem enqueue_resp2 (b : Word) (l : BitVec 14) (s : State) : (enqueue b l s).resp2 = s.resp2 := rfl
@[simp] theorem enqueue_rxBase (b : Word) (l : BitVec 14) (s : State) : (enqueue b l s).rxBase = s.rxBase := rfl
@[simp] theorem enqueue_txBase (b : Word) (l : BitVec 14) (s : State) : (enqueue b l s).txBase = s.txBase := rfl
@[simp] theorem enqueue_mcRefIdx (b : Word) (l : BitVec 14) (s : State) : (enqueue b l s).mcRefIdx = s.mcRefIdx := rfl
@[simp] theorem enqueue_trace (b : Word) (l : BitVec 14) (s : State) : (enqueue b l s).trace = s.trace := rfl
@[simp] theorem enqueue_params (b : Word) (l : BitVec 14) (s : State) : (enqueue b l s).params = s.params := rfl
@[simp] theorem enqueue_agenda (b : Word) (l : BitVec 14) (s : State) : (enqueue b l s).agenda = s.agenda := rfl
@[simp] theorem enqueue_allocIn (b : Word) (l : BitVec 14) (s : State) : (enqueue b l s).allocIn = s.allocIn := rfl
@[simp] theorem enqueue_bpIn (b : Word) (l : BitVec 14) (s : State) : (enqueue b l s).bpIn = s.bpIn := rfl
@[simp] theorem enqueue_inputSeq (b : Word) (l : BitVec 14) (s : State) : (enqueue b l s).inputSeq = s.inputSeq := rfl
@[simp] theorem enqueue_readValue (b : Word) (l : BitVec 14) (s : State) : (enqueue b l s).readValue = s.readValue := rfl
@[simp] theorem enqueue_sent (b : Word) (l : BitVec 14) (s : State) : (enqueue b l s).sent = s.sent := rfl

/-! ### `dequeue` -/

@[simp] theorem dequeue_runState (s : State) : (dequeue s).runState = s.runState := rfl
@[simp] theorem dequeue_rxEn (s : State) : (dequeue s).rxEn = s.rxEn := rfl
@[simp] theorem dequeue_txEn (s : State) : (dequeue s).txEn = s.txEn := rfl
@[simp] theorem dequeue_txRunning (s : State) : (dequeue s).txRunning = s.txRunning := rfl
@[simp] theorem dequeue_mem (s : State) : (dequeue s).mem = s.mem := rfl
@[simp] theorem dequeue_rxCur (s : State) : (dequeue s).rxCur = s.rxCur := rfl
@[simp] theorem dequeue_txFill (s : State) : (dequeue s).txFill = s.txFill := rfl
@[simp] theorem dequeue_txReclaim (s : State) : (dequeue s).txReclaim = s.txReclaim := rfl
@[simp] theorem dequeue_hwRxCur (s : State) : (dequeue s).hwRxCur = s.hwRxCur := rfl
@[simp] theorem dequeue_hwTxCur (s : State) : (dequeue s).hwTxCur = s.hwTxCur := rfl
@[simp] theorem dequeue_qEnt (s : State) : (dequeue s).qEnt = s.qEnt := rfl
@[simp] theorem dequeue_qFront (s : State) : (dequeue s).qFront = nextQ s.params s.qFront := rfl
@[simp] theorem dequeue_qBack (s : State) : (dequeue s).qBack = s.qBack := rfl
@[simp] theorem dequeue_qLen (s : State) : (dequeue s).qLen = s.qLen - 1#16 := rfl
@[simp] theorem dequeue_mcRef (s : State) : (dequeue s).mcRef = s.mcRef := rfl
@[simp] theorem dequeue_mcBit (s : State) : (dequeue s).mcBit = s.mcBit := rfl
@[simp] theorem dequeue_bcastEn (s : State) : (dequeue s).bcastEn = s.bcastEn := rfl
@[simp] theorem dequeue_pendRxr (s : State) : (dequeue s).pendRxr = s.pendRxr := rfl
@[simp] theorem dequeue_pendTxc (s : State) : (dequeue s).pendTxc = s.pendTxc := rfl
@[simp] theorem dequeue_enRxr (s : State) : (dequeue s).enRxr = s.enRxr := rfl
@[simp] theorem dequeue_enTxc (s : State) : (dequeue s).enTxc = s.enTxc := rfl
@[simp] theorem dequeue_fault (s : State) : (dequeue s).fault = s.fault := rfl
@[simp] theorem dequeue_cntRxRunt (s : State) : (dequeue s).cntRxRunt = s.cntRxRunt := rfl
@[simp] theorem dequeue_cntRxOversize (s : State) : (dequeue s).cntRxOversize = s.cntRxOversize := rfl
@[simp] theorem dequeue_cntRxFlagged (s : State) : (dequeue s).cntRxFlagged = s.cntRxFlagged := rfl
@[simp] theorem dequeue_cntRxNobuf (s : State) : (dequeue s).cntRxNobuf = s.cntRxNobuf := rfl
@[simp] theorem dequeue_cntPostBp (s : State) : (dequeue s).cntPostBp = s.cntPostBp := rfl
@[simp] theorem dequeue_arg0 (s : State) : (dequeue s).arg0 = s.arg0 := rfl
@[simp] theorem dequeue_arg1 (s : State) : (dequeue s).arg1 = s.arg1 := rfl
@[simp] theorem dequeue_resp0 (s : State) : (dequeue s).resp0 = s.resp0 := rfl
@[simp] theorem dequeue_resp1 (s : State) : (dequeue s).resp1 = s.resp1 := rfl
@[simp] theorem dequeue_resp2 (s : State) : (dequeue s).resp2 = s.resp2 := rfl
@[simp] theorem dequeue_rxBase (s : State) : (dequeue s).rxBase = s.rxBase := rfl
@[simp] theorem dequeue_txBase (s : State) : (dequeue s).txBase = s.txBase := rfl
@[simp] theorem dequeue_mcRefIdx (s : State) : (dequeue s).mcRefIdx = s.mcRefIdx := rfl
@[simp] theorem dequeue_trace (s : State) : (dequeue s).trace = s.trace := rfl
@[simp] theorem dequeue_params (s : State) : (dequeue s).params = s.params := rfl
@[simp] theorem dequeue_agenda (s : State) : (dequeue s).agenda = s.agenda := rfl
@[simp] theorem dequeue_allocIn (s : State) : (dequeue s).allocIn = s.allocIn := rfl
@[simp] theorem dequeue_bpIn (s : State) : (dequeue s).bpIn = s.bpIn := rfl
@[simp] theorem dequeue_inputSeq (s : State) : (dequeue s).inputSeq = s.inputSeq := rfl
@[simp] theorem dequeue_readValue (s : State) : (dequeue s).readValue = s.readValue := rfl
@[simp] theorem dequeue_sent (s : State) : (dequeue s).sent = s.sent := rfl

/-! ### `setRefCount` -/

@[simp] theorem setRefCount_runState (b : Bucket) (n : BitVec 8) (s : State) : (setRefCount b n s).runState = s.runState := rfl
@[simp] theorem setRefCount_rxEn (b : Bucket) (n : BitVec 8) (s : State) : (setRefCount b n s).rxEn = s.rxEn := rfl
@[simp] theorem setRefCount_txEn (b : Bucket) (n : BitVec 8) (s : State) : (setRefCount b n s).txEn = s.txEn := rfl
@[simp] theorem setRefCount_txRunning (b : Bucket) (n : BitVec 8) (s : State) : (setRefCount b n s).txRunning = s.txRunning := rfl
@[simp] theorem setRefCount_mem (b : Bucket) (n : BitVec 8) (s : State) : (setRefCount b n s).mem = s.mem := rfl
@[simp] theorem setRefCount_rxCur (b : Bucket) (n : BitVec 8) (s : State) : (setRefCount b n s).rxCur = s.rxCur := rfl
@[simp] theorem setRefCount_txFill (b : Bucket) (n : BitVec 8) (s : State) : (setRefCount b n s).txFill = s.txFill := rfl
@[simp] theorem setRefCount_txReclaim (b : Bucket) (n : BitVec 8) (s : State) : (setRefCount b n s).txReclaim = s.txReclaim := rfl
@[simp] theorem setRefCount_hwRxCur (b : Bucket) (n : BitVec 8) (s : State) : (setRefCount b n s).hwRxCur = s.hwRxCur := rfl
@[simp] theorem setRefCount_hwTxCur (b : Bucket) (n : BitVec 8) (s : State) : (setRefCount b n s).hwTxCur = s.hwTxCur := rfl
@[simp] theorem setRefCount_qEnt (b : Bucket) (n : BitVec 8) (s : State) : (setRefCount b n s).qEnt = s.qEnt := rfl
@[simp] theorem setRefCount_qFront (b : Bucket) (n : BitVec 8) (s : State) : (setRefCount b n s).qFront = s.qFront := rfl
@[simp] theorem setRefCount_qBack (b : Bucket) (n : BitVec 8) (s : State) : (setRefCount b n s).qBack = s.qBack := rfl
@[simp] theorem setRefCount_qLen (b : Bucket) (n : BitVec 8) (s : State) : (setRefCount b n s).qLen = s.qLen := rfl
@[simp] theorem setRefCount_mcRef (b : Bucket) (n : BitVec 8) (s : State) : (setRefCount b n s).mcRef = s.mcRef.set b.toNat n b.isLt := rfl
@[simp] theorem setRefCount_mcBit (b : Bucket) (n : BitVec 8) (s : State) : (setRefCount b n s).mcBit = s.mcBit := rfl
@[simp] theorem setRefCount_bcastEn (b : Bucket) (n : BitVec 8) (s : State) : (setRefCount b n s).bcastEn = s.bcastEn := rfl
@[simp] theorem setRefCount_pendRxr (b : Bucket) (n : BitVec 8) (s : State) : (setRefCount b n s).pendRxr = s.pendRxr := rfl
@[simp] theorem setRefCount_pendTxc (b : Bucket) (n : BitVec 8) (s : State) : (setRefCount b n s).pendTxc = s.pendTxc := rfl
@[simp] theorem setRefCount_enRxr (b : Bucket) (n : BitVec 8) (s : State) : (setRefCount b n s).enRxr = s.enRxr := rfl
@[simp] theorem setRefCount_enTxc (b : Bucket) (n : BitVec 8) (s : State) : (setRefCount b n s).enTxc = s.enTxc := rfl
@[simp] theorem setRefCount_fault (b : Bucket) (n : BitVec 8) (s : State) : (setRefCount b n s).fault = s.fault := rfl
@[simp] theorem setRefCount_cntRxRunt (b : Bucket) (n : BitVec 8) (s : State) : (setRefCount b n s).cntRxRunt = s.cntRxRunt := rfl
@[simp] theorem setRefCount_cntRxOversize (b : Bucket) (n : BitVec 8) (s : State) : (setRefCount b n s).cntRxOversize = s.cntRxOversize := rfl
@[simp] theorem setRefCount_cntRxFlagged (b : Bucket) (n : BitVec 8) (s : State) : (setRefCount b n s).cntRxFlagged = s.cntRxFlagged := rfl
@[simp] theorem setRefCount_cntRxNobuf (b : Bucket) (n : BitVec 8) (s : State) : (setRefCount b n s).cntRxNobuf = s.cntRxNobuf := rfl
@[simp] theorem setRefCount_cntPostBp (b : Bucket) (n : BitVec 8) (s : State) : (setRefCount b n s).cntPostBp = s.cntPostBp := rfl
@[simp] theorem setRefCount_arg0 (b : Bucket) (n : BitVec 8) (s : State) : (setRefCount b n s).arg0 = s.arg0 := rfl
@[simp] theorem setRefCount_arg1 (b : Bucket) (n : BitVec 8) (s : State) : (setRefCount b n s).arg1 = s.arg1 := rfl
@[simp] theorem setRefCount_resp0 (b : Bucket) (n : BitVec 8) (s : State) : (setRefCount b n s).resp0 = s.resp0 := rfl
@[simp] theorem setRefCount_resp1 (b : Bucket) (n : BitVec 8) (s : State) : (setRefCount b n s).resp1 = s.resp1 := rfl
@[simp] theorem setRefCount_resp2 (b : Bucket) (n : BitVec 8) (s : State) : (setRefCount b n s).resp2 = s.resp2 := rfl
@[simp] theorem setRefCount_rxBase (b : Bucket) (n : BitVec 8) (s : State) : (setRefCount b n s).rxBase = s.rxBase := rfl
@[simp] theorem setRefCount_txBase (b : Bucket) (n : BitVec 8) (s : State) : (setRefCount b n s).txBase = s.txBase := rfl
@[simp] theorem setRefCount_mcRefIdx (b : Bucket) (n : BitVec 8) (s : State) : (setRefCount b n s).mcRefIdx = s.mcRefIdx := rfl
@[simp] theorem setRefCount_trace (b : Bucket) (n : BitVec 8) (s : State) : (setRefCount b n s).trace = s.trace := rfl
@[simp] theorem setRefCount_params (b : Bucket) (n : BitVec 8) (s : State) : (setRefCount b n s).params = s.params := rfl
@[simp] theorem setRefCount_agenda (b : Bucket) (n : BitVec 8) (s : State) : (setRefCount b n s).agenda = s.agenda := rfl
@[simp] theorem setRefCount_allocIn (b : Bucket) (n : BitVec 8) (s : State) : (setRefCount b n s).allocIn = s.allocIn := rfl
@[simp] theorem setRefCount_bpIn (b : Bucket) (n : BitVec 8) (s : State) : (setRefCount b n s).bpIn = s.bpIn := rfl
@[simp] theorem setRefCount_inputSeq (b : Bucket) (n : BitVec 8) (s : State) : (setRefCount b n s).inputSeq = s.inputSeq := rfl
@[simp] theorem setRefCount_readValue (b : Bucket) (n : BitVec 8) (s : State) : (setRefCount b n s).readValue = s.readValue := rfl
@[simp] theorem setRefCount_sent (b : Bucket) (n : BitVec 8) (s : State) : (setRefCount b n s).sent = s.sent := rfl

/-! ### `setBucketBit` -/

@[simp] theorem setBucketBit_runState (b : Bucket) (v : Bool) (s : State) : (setBucketBit b v s).runState = s.runState := rfl
@[simp] theorem setBucketBit_rxEn (b : Bucket) (v : Bool) (s : State) : (setBucketBit b v s).rxEn = s.rxEn := rfl
@[simp] theorem setBucketBit_txEn (b : Bucket) (v : Bool) (s : State) : (setBucketBit b v s).txEn = s.txEn := rfl
@[simp] theorem setBucketBit_txRunning (b : Bucket) (v : Bool) (s : State) : (setBucketBit b v s).txRunning = s.txRunning := rfl
@[simp] theorem setBucketBit_mem (b : Bucket) (v : Bool) (s : State) : (setBucketBit b v s).mem = s.mem := rfl
@[simp] theorem setBucketBit_rxCur (b : Bucket) (v : Bool) (s : State) : (setBucketBit b v s).rxCur = s.rxCur := rfl
@[simp] theorem setBucketBit_txFill (b : Bucket) (v : Bool) (s : State) : (setBucketBit b v s).txFill = s.txFill := rfl
@[simp] theorem setBucketBit_txReclaim (b : Bucket) (v : Bool) (s : State) : (setBucketBit b v s).txReclaim = s.txReclaim := rfl
@[simp] theorem setBucketBit_hwRxCur (b : Bucket) (v : Bool) (s : State) : (setBucketBit b v s).hwRxCur = s.hwRxCur := rfl
@[simp] theorem setBucketBit_hwTxCur (b : Bucket) (v : Bool) (s : State) : (setBucketBit b v s).hwTxCur = s.hwTxCur := rfl
@[simp] theorem setBucketBit_qEnt (b : Bucket) (v : Bool) (s : State) : (setBucketBit b v s).qEnt = s.qEnt := rfl
@[simp] theorem setBucketBit_qFront (b : Bucket) (v : Bool) (s : State) : (setBucketBit b v s).qFront = s.qFront := rfl
@[simp] theorem setBucketBit_qBack (b : Bucket) (v : Bool) (s : State) : (setBucketBit b v s).qBack = s.qBack := rfl
@[simp] theorem setBucketBit_qLen (b : Bucket) (v : Bool) (s : State) : (setBucketBit b v s).qLen = s.qLen := rfl
@[simp] theorem setBucketBit_mcRef (b : Bucket) (v : Bool) (s : State) : (setBucketBit b v s).mcRef = s.mcRef := rfl
@[simp] theorem setBucketBit_mcBit (b : Bucket) (v : Bool) (s : State) : (setBucketBit b v s).mcBit = if v then s.mcBit ||| (1#64 <<< b.toNat) else s.mcBit &&& ~~~(1#64 <<< b.toNat) := rfl
@[simp] theorem setBucketBit_bcastEn (b : Bucket) (v : Bool) (s : State) : (setBucketBit b v s).bcastEn = s.bcastEn := rfl
@[simp] theorem setBucketBit_pendRxr (b : Bucket) (v : Bool) (s : State) : (setBucketBit b v s).pendRxr = s.pendRxr := rfl
@[simp] theorem setBucketBit_pendTxc (b : Bucket) (v : Bool) (s : State) : (setBucketBit b v s).pendTxc = s.pendTxc := rfl
@[simp] theorem setBucketBit_enRxr (b : Bucket) (v : Bool) (s : State) : (setBucketBit b v s).enRxr = s.enRxr := rfl
@[simp] theorem setBucketBit_enTxc (b : Bucket) (v : Bool) (s : State) : (setBucketBit b v s).enTxc = s.enTxc := rfl
@[simp] theorem setBucketBit_fault (b : Bucket) (v : Bool) (s : State) : (setBucketBit b v s).fault = s.fault := rfl
@[simp] theorem setBucketBit_cntRxRunt (b : Bucket) (v : Bool) (s : State) : (setBucketBit b v s).cntRxRunt = s.cntRxRunt := rfl
@[simp] theorem setBucketBit_cntRxOversize (b : Bucket) (v : Bool) (s : State) : (setBucketBit b v s).cntRxOversize = s.cntRxOversize := rfl
@[simp] theorem setBucketBit_cntRxFlagged (b : Bucket) (v : Bool) (s : State) : (setBucketBit b v s).cntRxFlagged = s.cntRxFlagged := rfl
@[simp] theorem setBucketBit_cntRxNobuf (b : Bucket) (v : Bool) (s : State) : (setBucketBit b v s).cntRxNobuf = s.cntRxNobuf := rfl
@[simp] theorem setBucketBit_cntPostBp (b : Bucket) (v : Bool) (s : State) : (setBucketBit b v s).cntPostBp = s.cntPostBp := rfl
@[simp] theorem setBucketBit_arg0 (b : Bucket) (v : Bool) (s : State) : (setBucketBit b v s).arg0 = s.arg0 := rfl
@[simp] theorem setBucketBit_arg1 (b : Bucket) (v : Bool) (s : State) : (setBucketBit b v s).arg1 = s.arg1 := rfl
@[simp] theorem setBucketBit_resp0 (b : Bucket) (v : Bool) (s : State) : (setBucketBit b v s).resp0 = s.resp0 := rfl
@[simp] theorem setBucketBit_resp1 (b : Bucket) (v : Bool) (s : State) : (setBucketBit b v s).resp1 = s.resp1 := rfl
@[simp] theorem setBucketBit_resp2 (b : Bucket) (v : Bool) (s : State) : (setBucketBit b v s).resp2 = s.resp2 := rfl
@[simp] theorem setBucketBit_rxBase (b : Bucket) (v : Bool) (s : State) : (setBucketBit b v s).rxBase = s.rxBase := rfl
@[simp] theorem setBucketBit_txBase (b : Bucket) (v : Bool) (s : State) : (setBucketBit b v s).txBase = s.txBase := rfl
@[simp] theorem setBucketBit_mcRefIdx (b : Bucket) (v : Bool) (s : State) : (setBucketBit b v s).mcRefIdx = s.mcRefIdx := rfl
@[simp] theorem setBucketBit_trace (b : Bucket) (v : Bool) (s : State) : (setBucketBit b v s).trace = s.trace := rfl
@[simp] theorem setBucketBit_params (b : Bucket) (v : Bool) (s : State) : (setBucketBit b v s).params = s.params := rfl
@[simp] theorem setBucketBit_agenda (b : Bucket) (v : Bool) (s : State) : (setBucketBit b v s).agenda = s.agenda := rfl
@[simp] theorem setBucketBit_allocIn (b : Bucket) (v : Bool) (s : State) : (setBucketBit b v s).allocIn = s.allocIn := rfl
@[simp] theorem setBucketBit_bpIn (b : Bucket) (v : Bool) (s : State) : (setBucketBit b v s).bpIn = s.bpIn := rfl
@[simp] theorem setBucketBit_inputSeq (b : Bucket) (v : Bool) (s : State) : (setBucketBit b v s).inputSeq = s.inputSeq := rfl
@[simp] theorem setBucketBit_readValue (b : Bucket) (v : Bool) (s : State) : (setBucketBit b v s).readValue = s.readValue := rfl
@[simp] theorem setBucketBit_sent (b : Bucket) (v : Bool) (s : State) : (setBucketBit b v s).sent = s.sent := rfl

/-! ### `popAgenda` -/

@[simp] theorem popAgenda_runState (s : State) : (s.popAgenda).runState = s.runState := rfl
@[simp] theorem popAgenda_rxEn (s : State) : (s.popAgenda).rxEn = s.rxEn := rfl
@[simp] theorem popAgenda_txEn (s : State) : (s.popAgenda).txEn = s.txEn := rfl
@[simp] theorem popAgenda_txRunning (s : State) : (s.popAgenda).txRunning = s.txRunning := rfl
@[simp] theorem popAgenda_mem (s : State) : (s.popAgenda).mem = s.mem := rfl
@[simp] theorem popAgenda_rxCur (s : State) : (s.popAgenda).rxCur = s.rxCur := rfl
@[simp] theorem popAgenda_txFill (s : State) : (s.popAgenda).txFill = s.txFill := rfl
@[simp] theorem popAgenda_txReclaim (s : State) : (s.popAgenda).txReclaim = s.txReclaim := rfl
@[simp] theorem popAgenda_hwRxCur (s : State) : (s.popAgenda).hwRxCur = s.hwRxCur := rfl
@[simp] theorem popAgenda_hwTxCur (s : State) : (s.popAgenda).hwTxCur = s.hwTxCur := rfl
@[simp] theorem popAgenda_qEnt (s : State) : (s.popAgenda).qEnt = s.qEnt := rfl
@[simp] theorem popAgenda_qFront (s : State) : (s.popAgenda).qFront = s.qFront := rfl
@[simp] theorem popAgenda_qBack (s : State) : (s.popAgenda).qBack = s.qBack := rfl
@[simp] theorem popAgenda_qLen (s : State) : (s.popAgenda).qLen = s.qLen := rfl
@[simp] theorem popAgenda_mcRef (s : State) : (s.popAgenda).mcRef = s.mcRef := rfl
@[simp] theorem popAgenda_mcBit (s : State) : (s.popAgenda).mcBit = s.mcBit := rfl
@[simp] theorem popAgenda_bcastEn (s : State) : (s.popAgenda).bcastEn = s.bcastEn := rfl
@[simp] theorem popAgenda_pendRxr (s : State) : (s.popAgenda).pendRxr = s.pendRxr := rfl
@[simp] theorem popAgenda_pendTxc (s : State) : (s.popAgenda).pendTxc = s.pendTxc := rfl
@[simp] theorem popAgenda_enRxr (s : State) : (s.popAgenda).enRxr = s.enRxr := rfl
@[simp] theorem popAgenda_enTxc (s : State) : (s.popAgenda).enTxc = s.enTxc := rfl
@[simp] theorem popAgenda_fault (s : State) : (s.popAgenda).fault = s.fault := rfl
@[simp] theorem popAgenda_cntRxRunt (s : State) : (s.popAgenda).cntRxRunt = s.cntRxRunt := rfl
@[simp] theorem popAgenda_cntRxOversize (s : State) : (s.popAgenda).cntRxOversize = s.cntRxOversize := rfl
@[simp] theorem popAgenda_cntRxFlagged (s : State) : (s.popAgenda).cntRxFlagged = s.cntRxFlagged := rfl
@[simp] theorem popAgenda_cntRxNobuf (s : State) : (s.popAgenda).cntRxNobuf = s.cntRxNobuf := rfl
@[simp] theorem popAgenda_cntPostBp (s : State) : (s.popAgenda).cntPostBp = s.cntPostBp := rfl
@[simp] theorem popAgenda_arg0 (s : State) : (s.popAgenda).arg0 = s.arg0 := rfl
@[simp] theorem popAgenda_arg1 (s : State) : (s.popAgenda).arg1 = s.arg1 := rfl
@[simp] theorem popAgenda_resp0 (s : State) : (s.popAgenda).resp0 = s.resp0 := rfl
@[simp] theorem popAgenda_resp1 (s : State) : (s.popAgenda).resp1 = s.resp1 := rfl
@[simp] theorem popAgenda_resp2 (s : State) : (s.popAgenda).resp2 = s.resp2 := rfl
@[simp] theorem popAgenda_rxBase (s : State) : (s.popAgenda).rxBase = s.rxBase := rfl
@[simp] theorem popAgenda_txBase (s : State) : (s.popAgenda).txBase = s.txBase := rfl
@[simp] theorem popAgenda_mcRefIdx (s : State) : (s.popAgenda).mcRefIdx = s.mcRefIdx := rfl
@[simp] theorem popAgenda_trace (s : State) : (s.popAgenda).trace = s.trace := rfl
@[simp] theorem popAgenda_params (s : State) : (s.popAgenda).params = s.params := rfl
@[simp] theorem popAgenda_agenda (s : State) : (s.popAgenda).agenda = s.agenda.tail := rfl
@[simp] theorem popAgenda_allocIn (s : State) : (s.popAgenda).allocIn = s.allocIn := rfl
@[simp] theorem popAgenda_bpIn (s : State) : (s.popAgenda).bpIn = s.bpIn := rfl
@[simp] theorem popAgenda_inputSeq (s : State) : (s.popAgenda).inputSeq = s.inputSeq := rfl
@[simp] theorem popAgenda_readValue (s : State) : (s.popAgenda).readValue = s.readValue := rfl
@[simp] theorem popAgenda_sent (s : State) : (s.popAgenda).sent = s.sent := rfl

/-! ### `takeBp` -/

@[simp] theorem takeBp_runState (s : State) : ((takeBp s).2).runState = s.runState := by unfold takeBp; split <;> simp_all
@[simp] theorem takeBp_rxEn (s : State) : ((takeBp s).2).rxEn = s.rxEn := by unfold takeBp; split <;> simp_all
@[simp] theorem takeBp_txEn (s : State) : ((takeBp s).2).txEn = s.txEn := by unfold takeBp; split <;> simp_all
@[simp] theorem takeBp_txRunning (s : State) : ((takeBp s).2).txRunning = s.txRunning := by unfold takeBp; split <;> simp_all
@[simp] theorem takeBp_mem (s : State) : ((takeBp s).2).mem = s.mem := by unfold takeBp; split <;> simp_all
@[simp] theorem takeBp_rxCur (s : State) : ((takeBp s).2).rxCur = s.rxCur := by unfold takeBp; split <;> simp_all
@[simp] theorem takeBp_txFill (s : State) : ((takeBp s).2).txFill = s.txFill := by unfold takeBp; split <;> simp_all
@[simp] theorem takeBp_txReclaim (s : State) : ((takeBp s).2).txReclaim = s.txReclaim := by unfold takeBp; split <;> simp_all
@[simp] theorem takeBp_hwRxCur (s : State) : ((takeBp s).2).hwRxCur = s.hwRxCur := by unfold takeBp; split <;> simp_all
@[simp] theorem takeBp_hwTxCur (s : State) : ((takeBp s).2).hwTxCur = s.hwTxCur := by unfold takeBp; split <;> simp_all
@[simp] theorem takeBp_qEnt (s : State) : ((takeBp s).2).qEnt = s.qEnt := by unfold takeBp; split <;> simp_all
@[simp] theorem takeBp_qFront (s : State) : ((takeBp s).2).qFront = s.qFront := by unfold takeBp; split <;> simp_all
@[simp] theorem takeBp_qBack (s : State) : ((takeBp s).2).qBack = s.qBack := by unfold takeBp; split <;> simp_all
@[simp] theorem takeBp_qLen (s : State) : ((takeBp s).2).qLen = s.qLen := by unfold takeBp; split <;> simp_all
@[simp] theorem takeBp_mcRef (s : State) : ((takeBp s).2).mcRef = s.mcRef := by unfold takeBp; split <;> simp_all
@[simp] theorem takeBp_mcBit (s : State) : ((takeBp s).2).mcBit = s.mcBit := by unfold takeBp; split <;> simp_all
@[simp] theorem takeBp_bcastEn (s : State) : ((takeBp s).2).bcastEn = s.bcastEn := by unfold takeBp; split <;> simp_all
@[simp] theorem takeBp_pendRxr (s : State) : ((takeBp s).2).pendRxr = s.pendRxr := by unfold takeBp; split <;> simp_all
@[simp] theorem takeBp_pendTxc (s : State) : ((takeBp s).2).pendTxc = s.pendTxc := by unfold takeBp; split <;> simp_all
@[simp] theorem takeBp_enRxr (s : State) : ((takeBp s).2).enRxr = s.enRxr := by unfold takeBp; split <;> simp_all
@[simp] theorem takeBp_enTxc (s : State) : ((takeBp s).2).enTxc = s.enTxc := by unfold takeBp; split <;> simp_all
@[simp] theorem takeBp_fault (s : State) : ((takeBp s).2).fault = s.fault := by unfold takeBp; split <;> simp_all
@[simp] theorem takeBp_cntRxRunt (s : State) : ((takeBp s).2).cntRxRunt = s.cntRxRunt := by unfold takeBp; split <;> simp_all
@[simp] theorem takeBp_cntRxOversize (s : State) : ((takeBp s).2).cntRxOversize = s.cntRxOversize := by unfold takeBp; split <;> simp_all
@[simp] theorem takeBp_cntRxFlagged (s : State) : ((takeBp s).2).cntRxFlagged = s.cntRxFlagged := by unfold takeBp; split <;> simp_all
@[simp] theorem takeBp_cntRxNobuf (s : State) : ((takeBp s).2).cntRxNobuf = s.cntRxNobuf := by unfold takeBp; split <;> simp_all
@[simp] theorem takeBp_cntPostBp (s : State) : ((takeBp s).2).cntPostBp = s.cntPostBp := by unfold takeBp; split <;> simp_all
@[simp] theorem takeBp_arg0 (s : State) : ((takeBp s).2).arg0 = s.arg0 := by unfold takeBp; split <;> simp_all
@[simp] theorem takeBp_arg1 (s : State) : ((takeBp s).2).arg1 = s.arg1 := by unfold takeBp; split <;> simp_all
@[simp] theorem takeBp_resp0 (s : State) : ((takeBp s).2).resp0 = s.resp0 := by unfold takeBp; split <;> simp_all
@[simp] theorem takeBp_resp1 (s : State) : ((takeBp s).2).resp1 = s.resp1 := by unfold takeBp; split <;> simp_all
@[simp] theorem takeBp_resp2 (s : State) : ((takeBp s).2).resp2 = s.resp2 := by unfold takeBp; split <;> simp_all
@[simp] theorem takeBp_rxBase (s : State) : ((takeBp s).2).rxBase = s.rxBase := by unfold takeBp; split <;> simp_all
@[simp] theorem takeBp_txBase (s : State) : ((takeBp s).2).txBase = s.txBase := by unfold takeBp; split <;> simp_all
@[simp] theorem takeBp_mcRefIdx (s : State) : ((takeBp s).2).mcRefIdx = s.mcRefIdx := by unfold takeBp; split <;> simp_all
@[simp] theorem takeBp_trace (s : State) : ((takeBp s).2).trace = s.trace := by unfold takeBp; split <;> simp_all
@[simp] theorem takeBp_params (s : State) : ((takeBp s).2).params = s.params := by unfold takeBp; split <;> simp_all
@[simp] theorem takeBp_agenda (s : State) : ((takeBp s).2).agenda = s.agenda := by unfold takeBp; split <;> simp_all
@[simp] theorem takeBp_allocIn (s : State) : ((takeBp s).2).allocIn = s.allocIn := by unfold takeBp; split <;> simp_all
@[simp] theorem takeBp_bpIn (s : State) : ((takeBp s).2).bpIn = s.bpIn.tail := by unfold takeBp; split <;> simp_all
@[simp] theorem takeBp_readValue (s : State) : ((takeBp s).2).readValue = s.readValue := by unfold takeBp; split <;> simp_all
@[simp] theorem takeBp_sent (s : State) : ((takeBp s).2).sent = s.sent := by unfold takeBp; split <;> simp_all

/-! ### `post` -/

@[simp] theorem post_runState (b : Word) (s : State) : (post b s).runState = s.runState := by simp [post]
@[simp] theorem post_rxEn (b : Word) (s : State) : (post b s).rxEn = s.rxEn := by simp [post]
@[simp] theorem post_txEn (b : Word) (s : State) : (post b s).txEn = s.txEn := by simp [post]
@[simp] theorem post_txRunning (b : Word) (s : State) : (post b s).txRunning = s.txRunning := by simp [post]
@[simp] theorem post_mem (b : Word) (s : State) : (post b s).mem = s.mem := by simp [post]
@[simp] theorem post_rxCur (b : Word) (s : State) : (post b s).rxCur = s.rxCur := by simp [post]
@[simp] theorem post_txFill (b : Word) (s : State) : (post b s).txFill = s.txFill := by simp [post]
@[simp] theorem post_txReclaim (b : Word) (s : State) : (post b s).txReclaim = s.txReclaim := by simp [post]
@[simp] theorem post_hwRxCur (b : Word) (s : State) : (post b s).hwRxCur = s.hwRxCur := by simp [post]
@[simp] theorem post_hwTxCur (b : Word) (s : State) : (post b s).hwTxCur = s.hwTxCur := by simp [post]
@[simp] theorem post_qEnt (b : Word) (s : State) : (post b s).qEnt = s.qEnt := by simp [post]
@[simp] theorem post_qFront (b : Word) (s : State) : (post b s).qFront = s.qFront := by simp [post]
@[simp] theorem post_qBack (b : Word) (s : State) : (post b s).qBack = s.qBack := by simp [post]
@[simp] theorem post_qLen (b : Word) (s : State) : (post b s).qLen = s.qLen := by simp [post]
@[simp] theorem post_mcRef (b : Word) (s : State) : (post b s).mcRef = s.mcRef := by simp [post]
@[simp] theorem post_mcBit (b : Word) (s : State) : (post b s).mcBit = s.mcBit := by simp [post]
@[simp] theorem post_bcastEn (b : Word) (s : State) : (post b s).bcastEn = s.bcastEn := by simp [post]
@[simp] theorem post_pendRxr (b : Word) (s : State) : (post b s).pendRxr = s.pendRxr := by simp [post]
@[simp] theorem post_pendTxc (b : Word) (s : State) : (post b s).pendTxc = s.pendTxc := by simp [post]
@[simp] theorem post_enRxr (b : Word) (s : State) : (post b s).enRxr = s.enRxr := by simp [post]
@[simp] theorem post_enTxc (b : Word) (s : State) : (post b s).enTxc = s.enTxc := by simp [post]
@[simp] theorem post_fault (b : Word) (s : State) : (post b s).fault = s.fault := by simp [post]
@[simp] theorem post_cntRxRunt (b : Word) (s : State) : (post b s).cntRxRunt = s.cntRxRunt := by simp [post]
@[simp] theorem post_cntRxOversize (b : Word) (s : State) : (post b s).cntRxOversize = s.cntRxOversize := by simp [post]
@[simp] theorem post_cntRxFlagged (b : Word) (s : State) : (post b s).cntRxFlagged = s.cntRxFlagged := by simp [post]
@[simp] theorem post_cntRxNobuf (b : Word) (s : State) : (post b s).cntRxNobuf = s.cntRxNobuf := by simp [post]
@[simp] theorem post_arg0 (b : Word) (s : State) : (post b s).arg0 = s.arg0 := by simp [post]
@[simp] theorem post_arg1 (b : Word) (s : State) : (post b s).arg1 = s.arg1 := by simp [post]
@[simp] theorem post_resp0 (b : Word) (s : State) : (post b s).resp0 = s.resp0 := by simp [post]
@[simp] theorem post_resp1 (b : Word) (s : State) : (post b s).resp1 = s.resp1 := by simp [post]
@[simp] theorem post_resp2 (b : Word) (s : State) : (post b s).resp2 = s.resp2 := by simp [post]
@[simp] theorem post_rxBase (b : Word) (s : State) : (post b s).rxBase = s.rxBase := by simp [post]
@[simp] theorem post_txBase (b : Word) (s : State) : (post b s).txBase = s.txBase := by simp [post]
@[simp] theorem post_mcRefIdx (b : Word) (s : State) : (post b s).mcRefIdx = s.mcRefIdx := by simp [post]
@[simp] theorem post_trace (b : Word) (s : State) : (post b s).trace = s.trace ++ [.post b] := by simp [post]
@[simp] theorem post_params (b : Word) (s : State) : (post b s).params = s.params := by simp [post]
@[simp] theorem post_agenda (b : Word) (s : State) : (post b s).agenda = s.agenda := by simp [post]
@[simp] theorem post_allocIn (b : Word) (s : State) : (post b s).allocIn = s.allocIn := by simp [post]
@[simp] theorem post_bpIn (b : Word) (s : State) : (post b s).bpIn = s.bpIn.tail := by simp [post]
@[simp] theorem post_readValue (b : Word) (s : State) : (post b s).readValue = s.readValue := by simp [post]
@[simp] theorem post_sent (b : Word) (s : State) : (post b s).sent = s.sent := by simp [post]

/-! ### `takeAnswer` -/

@[simp] theorem takeAnswer_runState (n : Nat) (s : State) : ((takeAnswer n s).2).runState = s.runState := by unfold takeAnswer; split <;> simp_all
@[simp] theorem takeAnswer_rxEn (n : Nat) (s : State) : ((takeAnswer n s).2).rxEn = s.rxEn := by unfold takeAnswer; split <;> simp_all
@[simp] theorem takeAnswer_txEn (n : Nat) (s : State) : ((takeAnswer n s).2).txEn = s.txEn := by unfold takeAnswer; split <;> simp_all
@[simp] theorem takeAnswer_txRunning (n : Nat) (s : State) : ((takeAnswer n s).2).txRunning = s.txRunning := by unfold takeAnswer; split <;> simp_all
@[simp] theorem takeAnswer_mem (n : Nat) (s : State) : ((takeAnswer n s).2).mem = s.mem := by unfold takeAnswer; split <;> simp_all
@[simp] theorem takeAnswer_rxCur (n : Nat) (s : State) : ((takeAnswer n s).2).rxCur = s.rxCur := by unfold takeAnswer; split <;> simp_all
@[simp] theorem takeAnswer_txFill (n : Nat) (s : State) : ((takeAnswer n s).2).txFill = s.txFill := by unfold takeAnswer; split <;> simp_all
@[simp] theorem takeAnswer_txReclaim (n : Nat) (s : State) : ((takeAnswer n s).2).txReclaim = s.txReclaim := by unfold takeAnswer; split <;> simp_all
@[simp] theorem takeAnswer_hwRxCur (n : Nat) (s : State) : ((takeAnswer n s).2).hwRxCur = s.hwRxCur := by unfold takeAnswer; split <;> simp_all
@[simp] theorem takeAnswer_hwTxCur (n : Nat) (s : State) : ((takeAnswer n s).2).hwTxCur = s.hwTxCur := by unfold takeAnswer; split <;> simp_all
@[simp] theorem takeAnswer_qEnt (n : Nat) (s : State) : ((takeAnswer n s).2).qEnt = s.qEnt := by unfold takeAnswer; split <;> simp_all
@[simp] theorem takeAnswer_qFront (n : Nat) (s : State) : ((takeAnswer n s).2).qFront = s.qFront := by unfold takeAnswer; split <;> simp_all
@[simp] theorem takeAnswer_qBack (n : Nat) (s : State) : ((takeAnswer n s).2).qBack = s.qBack := by unfold takeAnswer; split <;> simp_all
@[simp] theorem takeAnswer_qLen (n : Nat) (s : State) : ((takeAnswer n s).2).qLen = s.qLen := by unfold takeAnswer; split <;> simp_all
@[simp] theorem takeAnswer_mcRef (n : Nat) (s : State) : ((takeAnswer n s).2).mcRef = s.mcRef := by unfold takeAnswer; split <;> simp_all
@[simp] theorem takeAnswer_mcBit (n : Nat) (s : State) : ((takeAnswer n s).2).mcBit = s.mcBit := by unfold takeAnswer; split <;> simp_all
@[simp] theorem takeAnswer_bcastEn (n : Nat) (s : State) : ((takeAnswer n s).2).bcastEn = s.bcastEn := by unfold takeAnswer; split <;> simp_all
@[simp] theorem takeAnswer_pendRxr (n : Nat) (s : State) : ((takeAnswer n s).2).pendRxr = s.pendRxr := by unfold takeAnswer; split <;> simp_all
@[simp] theorem takeAnswer_pendTxc (n : Nat) (s : State) : ((takeAnswer n s).2).pendTxc = s.pendTxc := by unfold takeAnswer; split <;> simp_all
@[simp] theorem takeAnswer_enRxr (n : Nat) (s : State) : ((takeAnswer n s).2).enRxr = s.enRxr := by unfold takeAnswer; split <;> simp_all
@[simp] theorem takeAnswer_enTxc (n : Nat) (s : State) : ((takeAnswer n s).2).enTxc = s.enTxc := by unfold takeAnswer; split <;> simp_all
@[simp] theorem takeAnswer_fault (n : Nat) (s : State) : ((takeAnswer n s).2).fault = s.fault := by unfold takeAnswer; split <;> simp_all
@[simp] theorem takeAnswer_cntRxRunt (n : Nat) (s : State) : ((takeAnswer n s).2).cntRxRunt = s.cntRxRunt := by unfold takeAnswer; split <;> simp_all
@[simp] theorem takeAnswer_cntRxOversize (n : Nat) (s : State) : ((takeAnswer n s).2).cntRxOversize = s.cntRxOversize := by unfold takeAnswer; split <;> simp_all
@[simp] theorem takeAnswer_cntRxFlagged (n : Nat) (s : State) : ((takeAnswer n s).2).cntRxFlagged = s.cntRxFlagged := by unfold takeAnswer; split <;> simp_all
@[simp] theorem takeAnswer_cntRxNobuf (n : Nat) (s : State) : ((takeAnswer n s).2).cntRxNobuf = s.cntRxNobuf := by unfold takeAnswer; split <;> simp_all
@[simp] theorem takeAnswer_cntPostBp (n : Nat) (s : State) : ((takeAnswer n s).2).cntPostBp = s.cntPostBp := by unfold takeAnswer; split <;> simp_all
@[simp] theorem takeAnswer_arg0 (n : Nat) (s : State) : ((takeAnswer n s).2).arg0 = s.arg0 := by unfold takeAnswer; split <;> simp_all
@[simp] theorem takeAnswer_arg1 (n : Nat) (s : State) : ((takeAnswer n s).2).arg1 = s.arg1 := by unfold takeAnswer; split <;> simp_all
@[simp] theorem takeAnswer_resp0 (n : Nat) (s : State) : ((takeAnswer n s).2).resp0 = s.resp0 := by unfold takeAnswer; split <;> simp_all
@[simp] theorem takeAnswer_resp1 (n : Nat) (s : State) : ((takeAnswer n s).2).resp1 = s.resp1 := by unfold takeAnswer; split <;> simp_all
@[simp] theorem takeAnswer_resp2 (n : Nat) (s : State) : ((takeAnswer n s).2).resp2 = s.resp2 := by unfold takeAnswer; split <;> simp_all
@[simp] theorem takeAnswer_rxBase (n : Nat) (s : State) : ((takeAnswer n s).2).rxBase = s.rxBase := by unfold takeAnswer; split <;> simp_all
@[simp] theorem takeAnswer_txBase (n : Nat) (s : State) : ((takeAnswer n s).2).txBase = s.txBase := by unfold takeAnswer; split <;> simp_all
@[simp] theorem takeAnswer_mcRefIdx (n : Nat) (s : State) : ((takeAnswer n s).2).mcRefIdx = s.mcRefIdx := by unfold takeAnswer; split <;> simp_all
@[simp] theorem takeAnswer_trace (n : Nat) (s : State) : ((takeAnswer n s).2).trace = s.trace := by unfold takeAnswer; split <;> simp_all
@[simp] theorem takeAnswer_params (n : Nat) (s : State) : ((takeAnswer n s).2).params = s.params := by unfold takeAnswer; split <;> simp_all
@[simp] theorem takeAnswer_agenda (n : Nat) (s : State) : ((takeAnswer n s).2).agenda = s.agenda := by unfold takeAnswer; split <;> simp_all
@[simp] theorem takeAnswer_allocIn (n : Nat) (s : State) : ((takeAnswer n s).2).allocIn = s.allocIn.tail := by unfold takeAnswer; split <;> simp_all
@[simp] theorem takeAnswer_bpIn (n : Nat) (s : State) : ((takeAnswer n s).2).bpIn = s.bpIn := by unfold takeAnswer; split <;> simp_all
@[simp] theorem takeAnswer_readValue (n : Nat) (s : State) : ((takeAnswer n s).2).readValue = s.readValue := by unfold takeAnswer; split <;> simp_all
@[simp] theorem takeAnswer_sent (n : Nat) (s : State) : ((takeAnswer n s).2).sent = s.sent := by unfold takeAnswer; split <;> simp_all

/-! ### `disableAll` -/

@[simp] theorem disableAll_runState (s : State) : (disableAll s).runState = s.runState := rfl
@[simp] theorem disableAll_rxEn (s : State) : (disableAll s).rxEn = false := rfl
@[simp] theorem disableAll_txEn (s : State) : (disableAll s).txEn = false := rfl
@[simp] theorem disableAll_txRunning (s : State) : (disableAll s).txRunning = false := rfl
@[simp] theorem disableAll_mem (s : State) : (disableAll s).mem = s.mem := rfl
@[simp] theorem disableAll_rxCur (s : State) : (disableAll s).rxCur = s.rxCur := rfl
@[simp] theorem disableAll_txFill (s : State) : (disableAll s).txFill = s.txFill := rfl
@[simp] theorem disableAll_txReclaim (s : State) : (disableAll s).txReclaim = s.txReclaim := rfl
@[simp] theorem disableAll_hwRxCur (s : State) : (disableAll s).hwRxCur = s.hwRxCur := rfl
@[simp] theorem disableAll_hwTxCur (s : State) : (disableAll s).hwTxCur = s.hwTxCur := rfl
@[simp] theorem disableAll_qEnt (s : State) : (disableAll s).qEnt = s.qEnt := rfl
@[simp] theorem disableAll_qFront (s : State) : (disableAll s).qFront = s.qFront := rfl
@[simp] theorem disableAll_qBack (s : State) : (disableAll s).qBack = s.qBack := rfl
@[simp] theorem disableAll_qLen (s : State) : (disableAll s).qLen = s.qLen := rfl
@[simp] theorem disableAll_mcRef (s : State) : (disableAll s).mcRef = s.mcRef := rfl
@[simp] theorem disableAll_mcBit (s : State) : (disableAll s).mcBit = s.mcBit := rfl
@[simp] theorem disableAll_bcastEn (s : State) : (disableAll s).bcastEn = s.bcastEn := rfl
@[simp] theorem disableAll_pendRxr (s : State) : (disableAll s).pendRxr = false := rfl
@[simp] theorem disableAll_pendTxc (s : State) : (disableAll s).pendTxc = false := rfl
@[simp] theorem disableAll_enRxr (s : State) : (disableAll s).enRxr = false := rfl
@[simp] theorem disableAll_enTxc (s : State) : (disableAll s).enTxc = false := rfl
@[simp] theorem disableAll_fault (s : State) : (disableAll s).fault = s.fault := rfl
@[simp] theorem disableAll_cntRxRunt (s : State) : (disableAll s).cntRxRunt = s.cntRxRunt := rfl
@[simp] theorem disableAll_cntRxOversize (s : State) : (disableAll s).cntRxOversize = s.cntRxOversize := rfl
@[simp] theorem disableAll_cntRxFlagged (s : State) : (disableAll s).cntRxFlagged = s.cntRxFlagged := rfl
@[simp] theorem disableAll_cntRxNobuf (s : State) : (disableAll s).cntRxNobuf = s.cntRxNobuf := rfl
@[simp] theorem disableAll_cntPostBp (s : State) : (disableAll s).cntPostBp = s.cntPostBp := rfl
@[simp] theorem disableAll_arg0 (s : State) : (disableAll s).arg0 = s.arg0 := rfl
@[simp] theorem disableAll_arg1 (s : State) : (disableAll s).arg1 = s.arg1 := rfl
@[simp] theorem disableAll_resp0 (s : State) : (disableAll s).resp0 = s.resp0 := rfl
@[simp] theorem disableAll_resp1 (s : State) : (disableAll s).resp1 = s.resp1 := rfl
@[simp] theorem disableAll_resp2 (s : State) : (disableAll s).resp2 = s.resp2 := rfl
@[simp] theorem disableAll_rxBase (s : State) : (disableAll s).rxBase = s.rxBase := rfl
@[simp] theorem disableAll_txBase (s : State) : (disableAll s).txBase = s.txBase := rfl
@[simp] theorem disableAll_mcRefIdx (s : State) : (disableAll s).mcRefIdx = s.mcRefIdx := rfl
@[simp] theorem disableAll_trace (s : State) : (disableAll s).trace = s.trace := rfl
@[simp] theorem disableAll_params (s : State) : (disableAll s).params = s.params := rfl
@[simp] theorem disableAll_agenda (s : State) : (disableAll s).agenda = s.agenda := rfl
@[simp] theorem disableAll_allocIn (s : State) : (disableAll s).allocIn = s.allocIn := rfl
@[simp] theorem disableAll_bpIn (s : State) : (disableAll s).bpIn = s.bpIn := rfl
@[simp] theorem disableAll_inputSeq (s : State) : (disableAll s).inputSeq = s.inputSeq := rfl
@[simp] theorem disableAll_readValue (s : State) : (disableAll s).readValue = s.readValue := rfl
@[simp] theorem disableAll_sent (s : State) : (disableAll s).sent = s.sent := rfl

/-! ### `openSession` -/

@[simp] theorem openSession_runState (s : State) : (openSession s).runState = .running := rfl
@[simp] theorem openSession_rxEn (s : State) : (openSession s).rxEn = true := rfl
@[simp] theorem openSession_txEn (s : State) : (openSession s).txEn = true := rfl
@[simp] theorem openSession_txRunning (s : State) : (openSession s).txRunning = false := rfl
@[simp] theorem openSession_mem (s : State) : (openSession s).mem = s.mem := rfl
@[simp] theorem openSession_rxCur (s : State) : (openSession s).rxCur = 0#16 := rfl
@[simp] theorem openSession_txFill (s : State) : (openSession s).txFill = 0#16 := rfl
@[simp] theorem openSession_txReclaim (s : State) : (openSession s).txReclaim = 0#16 := rfl
@[simp] theorem openSession_hwRxCur (s : State) : (openSession s).hwRxCur = 0#16 := rfl
@[simp] theorem openSession_hwTxCur (s : State) : (openSession s).hwTxCur = 0#16 := rfl
@[simp] theorem openSession_qEnt (s : State) : (openSession s).qEnt = s.qEnt := rfl
@[simp] theorem openSession_qFront (s : State) : (openSession s).qFront = 0#16 := rfl
@[simp] theorem openSession_qBack (s : State) : (openSession s).qBack = 0#16 := rfl
@[simp] theorem openSession_qLen (s : State) : (openSession s).qLen = 0#16 := rfl
@[simp] theorem openSession_mcRef (s : State) : (openSession s).mcRef = s.mcRef := rfl
@[simp] theorem openSession_mcBit (s : State) : (openSession s).mcBit = s.mcBit := rfl
@[simp] theorem openSession_bcastEn (s : State) : (openSession s).bcastEn = s.bcastEn := rfl
@[simp] theorem openSession_pendRxr (s : State) : (openSession s).pendRxr = false := rfl
@[simp] theorem openSession_pendTxc (s : State) : (openSession s).pendTxc = false := rfl
@[simp] theorem openSession_enRxr (s : State) : (openSession s).enRxr = true := rfl
@[simp] theorem openSession_enTxc (s : State) : (openSession s).enTxc = true := rfl
@[simp] theorem openSession_fault (s : State) : (openSession s).fault = FaultLatch.clear := rfl
@[simp] theorem openSession_cntRxRunt (s : State) : (openSession s).cntRxRunt = s.cntRxRunt := rfl
@[simp] theorem openSession_cntRxOversize (s : State) : (openSession s).cntRxOversize = s.cntRxOversize := rfl
@[simp] theorem openSession_cntRxFlagged (s : State) : (openSession s).cntRxFlagged = s.cntRxFlagged := rfl
@[simp] theorem openSession_cntRxNobuf (s : State) : (openSession s).cntRxNobuf = s.cntRxNobuf := rfl
@[simp] theorem openSession_cntPostBp (s : State) : (openSession s).cntPostBp = s.cntPostBp := rfl
@[simp] theorem openSession_arg0 (s : State) : (openSession s).arg0 = s.arg0 := rfl
@[simp] theorem openSession_arg1 (s : State) : (openSession s).arg1 = s.arg1 := rfl
@[simp] theorem openSession_resp0 (s : State) : (openSession s).resp0 = s.resp0 := rfl
@[simp] theorem openSession_resp1 (s : State) : (openSession s).resp1 = s.resp1 := rfl
@[simp] theorem openSession_resp2 (s : State) : (openSession s).resp2 = s.resp2 := rfl
@[simp] theorem openSession_rxBase (s : State) : (openSession s).rxBase = s.rxBase := rfl
@[simp] theorem openSession_txBase (s : State) : (openSession s).txBase = s.txBase := rfl
@[simp] theorem openSession_mcRefIdx (s : State) : (openSession s).mcRefIdx = s.mcRefIdx := rfl
@[simp] theorem openSession_trace (s : State) : (openSession s).trace = s.trace := rfl
@[simp] theorem openSession_params (s : State) : (openSession s).params = s.params := rfl
@[simp] theorem openSession_agenda (s : State) : (openSession s).agenda = s.agenda := rfl
@[simp] theorem openSession_allocIn (s : State) : (openSession s).allocIn = s.allocIn := rfl
@[simp] theorem openSession_bpIn (s : State) : (openSession s).bpIn = s.bpIn := rfl
@[simp] theorem openSession_inputSeq (s : State) : (openSession s).inputSeq = s.inputSeq := rfl
@[simp] theorem openSession_readValue (s : State) : (openSession s).readValue = s.readValue := rfl
@[simp] theorem openSession_sent (s : State) : (openSession s).sent = s.sent := rfl

/-! ### `advanceRx` -/

@[simp] theorem advanceRx_runState (s : State) : (advanceRx s).runState = s.runState := rfl
@[simp] theorem advanceRx_rxEn (s : State) : (advanceRx s).rxEn = s.rxEn := rfl
@[simp] theorem advanceRx_txEn (s : State) : (advanceRx s).txEn = s.txEn := rfl
@[simp] theorem advanceRx_txRunning (s : State) : (advanceRx s).txRunning = s.txRunning := rfl
@[simp] theorem advanceRx_mem (s : State) : (advanceRx s).mem = s.mem := rfl
@[simp] theorem advanceRx_rxCur (s : State) : (advanceRx s).rxCur = nextRx s.params s.rxCur := rfl
@[simp] theorem advanceRx_txFill (s : State) : (advanceRx s).txFill = s.txFill := rfl
@[simp] theorem advanceRx_txReclaim (s : State) : (advanceRx s).txReclaim = s.txReclaim := rfl
@[simp] theorem advanceRx_hwRxCur (s : State) : (advanceRx s).hwRxCur = s.hwRxCur := rfl
@[simp] theorem advanceRx_hwTxCur (s : State) : (advanceRx s).hwTxCur = s.hwTxCur := rfl
@[simp] theorem advanceRx_qEnt (s : State) : (advanceRx s).qEnt = s.qEnt := rfl
@[simp] theorem advanceRx_qFront (s : State) : (advanceRx s).qFront = s.qFront := rfl
@[simp] theorem advanceRx_qBack (s : State) : (advanceRx s).qBack = s.qBack := rfl
@[simp] theorem advanceRx_qLen (s : State) : (advanceRx s).qLen = s.qLen := rfl
@[simp] theorem advanceRx_mcRef (s : State) : (advanceRx s).mcRef = s.mcRef := rfl
@[simp] theorem advanceRx_mcBit (s : State) : (advanceRx s).mcBit = s.mcBit := rfl
@[simp] theorem advanceRx_bcastEn (s : State) : (advanceRx s).bcastEn = s.bcastEn := rfl
@[simp] theorem advanceRx_pendRxr (s : State) : (advanceRx s).pendRxr = s.pendRxr := rfl
@[simp] theorem advanceRx_pendTxc (s : State) : (advanceRx s).pendTxc = s.pendTxc := rfl
@[simp] theorem advanceRx_enRxr (s : State) : (advanceRx s).enRxr = s.enRxr := rfl
@[simp] theorem advanceRx_enTxc (s : State) : (advanceRx s).enTxc = s.enTxc := rfl
@[simp] theorem advanceRx_fault (s : State) : (advanceRx s).fault = s.fault := rfl
@[simp] theorem advanceRx_cntRxRunt (s : State) : (advanceRx s).cntRxRunt = s.cntRxRunt := rfl
@[simp] theorem advanceRx_cntRxOversize (s : State) : (advanceRx s).cntRxOversize = s.cntRxOversize := rfl
@[simp] theorem advanceRx_cntRxFlagged (s : State) : (advanceRx s).cntRxFlagged = s.cntRxFlagged := rfl
@[simp] theorem advanceRx_cntRxNobuf (s : State) : (advanceRx s).cntRxNobuf = s.cntRxNobuf := rfl
@[simp] theorem advanceRx_cntPostBp (s : State) : (advanceRx s).cntPostBp = s.cntPostBp := rfl
@[simp] theorem advanceRx_arg0 (s : State) : (advanceRx s).arg0 = s.arg0 := rfl
@[simp] theorem advanceRx_arg1 (s : State) : (advanceRx s).arg1 = s.arg1 := rfl
@[simp] theorem advanceRx_resp0 (s : State) : (advanceRx s).resp0 = s.resp0 := rfl
@[simp] theorem advanceRx_resp1 (s : State) : (advanceRx s).resp1 = s.resp1 := rfl
@[simp] theorem advanceRx_resp2 (s : State) : (advanceRx s).resp2 = s.resp2 := rfl
@[simp] theorem advanceRx_rxBase (s : State) : (advanceRx s).rxBase = s.rxBase := rfl
@[simp] theorem advanceRx_txBase (s : State) : (advanceRx s).txBase = s.txBase := rfl
@[simp] theorem advanceRx_mcRefIdx (s : State) : (advanceRx s).mcRefIdx = s.mcRefIdx := rfl
@[simp] theorem advanceRx_trace (s : State) : (advanceRx s).trace = s.trace := rfl
@[simp] theorem advanceRx_params (s : State) : (advanceRx s).params = s.params := rfl
@[simp] theorem advanceRx_agenda (s : State) : (advanceRx s).agenda = s.agenda := rfl
@[simp] theorem advanceRx_allocIn (s : State) : (advanceRx s).allocIn = s.allocIn := rfl
@[simp] theorem advanceRx_bpIn (s : State) : (advanceRx s).bpIn = s.bpIn := rfl
@[simp] theorem advanceRx_inputSeq (s : State) : (advanceRx s).inputSeq = s.inputSeq := rfl
@[simp] theorem advanceRx_readValue (s : State) : (advanceRx s).readValue = s.readValue := rfl
@[simp] theorem advanceRx_sent (s : State) : (advanceRx s).sent = s.sent := rfl

/-! ### `countMalformed` -/

@[simp] theorem countMalformed_runState (d : Desc) (s : State) : (countMalformed d s).runState = s.runState := rfl
@[simp] theorem countMalformed_rxEn (d : Desc) (s : State) : (countMalformed d s).rxEn = s.rxEn := rfl
@[simp] theorem countMalformed_txEn (d : Desc) (s : State) : (countMalformed d s).txEn = s.txEn := rfl
@[simp] theorem countMalformed_txRunning (d : Desc) (s : State) : (countMalformed d s).txRunning = s.txRunning := rfl
@[simp] theorem countMalformed_mem (d : Desc) (s : State) : (countMalformed d s).mem = s.mem := rfl
@[simp] theorem countMalformed_rxCur (d : Desc) (s : State) : (countMalformed d s).rxCur = s.rxCur := rfl
@[simp] theorem countMalformed_txFill (d : Desc) (s : State) : (countMalformed d s).txFill = s.txFill := rfl
@[simp] theorem countMalformed_txReclaim (d : Desc) (s : State) : (countMalformed d s).txReclaim = s.txReclaim := rfl
@[simp] theorem countMalformed_hwRxCur (d : Desc) (s : State) : (countMalformed d s).hwRxCur = s.hwRxCur := rfl
@[simp] theorem countMalformed_hwTxCur (d : Desc) (s : State) : (countMalformed d s).hwTxCur = s.hwTxCur := rfl
@[simp] theorem countMalformed_qEnt (d : Desc) (s : State) : (countMalformed d s).qEnt = s.qEnt := rfl
@[simp] theorem countMalformed_qFront (d : Desc) (s : State) : (countMalformed d s).qFront = s.qFront := rfl
@[simp] theorem countMalformed_qBack (d : Desc) (s : State) : (countMalformed d s).qBack = s.qBack := rfl
@[simp] theorem countMalformed_qLen (d : Desc) (s : State) : (countMalformed d s).qLen = s.qLen := rfl
@[simp] theorem countMalformed_mcRef (d : Desc) (s : State) : (countMalformed d s).mcRef = s.mcRef := rfl
@[simp] theorem countMalformed_mcBit (d : Desc) (s : State) : (countMalformed d s).mcBit = s.mcBit := rfl
@[simp] theorem countMalformed_bcastEn (d : Desc) (s : State) : (countMalformed d s).bcastEn = s.bcastEn := rfl
@[simp] theorem countMalformed_pendRxr (d : Desc) (s : State) : (countMalformed d s).pendRxr = s.pendRxr := rfl
@[simp] theorem countMalformed_pendTxc (d : Desc) (s : State) : (countMalformed d s).pendTxc = s.pendTxc := rfl
@[simp] theorem countMalformed_enRxr (d : Desc) (s : State) : (countMalformed d s).enRxr = s.enRxr := rfl
@[simp] theorem countMalformed_enTxc (d : Desc) (s : State) : (countMalformed d s).enTxc = s.enTxc := rfl
@[simp] theorem countMalformed_fault (d : Desc) (s : State) : (countMalformed d s).fault = s.fault := rfl
@[simp] theorem countMalformed_cntRxRunt (d : Desc) (s : State) : (countMalformed d s).cntRxRunt = countIf (isRunt s.params d) s.cntRxRunt := rfl
@[simp] theorem countMalformed_cntRxOversize (d : Desc) (s : State) : (countMalformed d s).cntRxOversize = countIf (isOversize s.params d) s.cntRxOversize := rfl
@[simp] theorem countMalformed_cntRxFlagged (d : Desc) (s : State) : (countMalformed d s).cntRxFlagged = countIf (isFlagged d) s.cntRxFlagged := rfl
@[simp] theorem countMalformed_cntRxNobuf (d : Desc) (s : State) : (countMalformed d s).cntRxNobuf = s.cntRxNobuf := rfl
@[simp] theorem countMalformed_cntPostBp (d : Desc) (s : State) : (countMalformed d s).cntPostBp = s.cntPostBp := rfl
@[simp] theorem countMalformed_arg0 (d : Desc) (s : State) : (countMalformed d s).arg0 = s.arg0 := rfl
@[simp] theorem countMalformed_arg1 (d : Desc) (s : State) : (countMalformed d s).arg1 = s.arg1 := rfl
@[simp] theorem countMalformed_resp0 (d : Desc) (s : State) : (countMalformed d s).resp0 = s.resp0 := rfl
@[simp] theorem countMalformed_resp1 (d : Desc) (s : State) : (countMalformed d s).resp1 = s.resp1 := rfl
@[simp] theorem countMalformed_resp2 (d : Desc) (s : State) : (countMalformed d s).resp2 = s.resp2 := rfl
@[simp] theorem countMalformed_rxBase (d : Desc) (s : State) : (countMalformed d s).rxBase = s.rxBase := rfl
@[simp] theorem countMalformed_txBase (d : Desc) (s : State) : (countMalformed d s).txBase = s.txBase := rfl
@[simp] theorem countMalformed_mcRefIdx (d : Desc) (s : State) : (countMalformed d s).mcRefIdx = s.mcRefIdx := rfl
@[simp] theorem countMalformed_trace (d : Desc) (s : State) : (countMalformed d s).trace = s.trace := rfl
@[simp] theorem countMalformed_params (d : Desc) (s : State) : (countMalformed d s).params = s.params := rfl
@[simp] theorem countMalformed_agenda (d : Desc) (s : State) : (countMalformed d s).agenda = s.agenda := rfl
@[simp] theorem countMalformed_allocIn (d : Desc) (s : State) : (countMalformed d s).allocIn = s.allocIn := rfl
@[simp] theorem countMalformed_bpIn (d : Desc) (s : State) : (countMalformed d s).bpIn = s.bpIn := rfl
@[simp] theorem countMalformed_inputSeq (d : Desc) (s : State) : (countMalformed d s).inputSeq = s.inputSeq := rfl
@[simp] theorem countMalformed_readValue (d : Desc) (s : State) : (countMalformed d s).readValue = s.readValue := rfl
@[simp] theorem countMalformed_sent (d : Desc) (s : State) : (countMalformed d s).sent = s.sent := rfl

/-! ### `restartTx` -/

@[simp] theorem restartTx_runState (s : State) : (restartTx s).runState = s.runState := by unfold restartTx; split <;> simp_all
@[simp] theorem restartTx_rxEn (s : State) : (restartTx s).rxEn = s.rxEn := by unfold restartTx; split <;> simp_all
@[simp] theorem restartTx_txEn (s : State) : (restartTx s).txEn = s.txEn := by unfold restartTx; split <;> simp_all
@[simp] theorem restartTx_txRunning (s : State) : (restartTx s).txRunning = true := by unfold restartTx; split <;> simp_all
@[simp] theorem restartTx_mem (s : State) : (restartTx s).mem = s.mem := by unfold restartTx; split <;> simp_all
@[simp] theorem restartTx_rxCur (s : State) : (restartTx s).rxCur = s.rxCur := by unfold restartTx; split <;> simp_all
@[simp] theorem restartTx_txFill (s : State) : (restartTx s).txFill = s.txFill := by unfold restartTx; split <;> simp_all
@[simp] theorem restartTx_txReclaim (s : State) : (restartTx s).txReclaim = s.txReclaim := by unfold restartTx; split <;> simp_all
@[simp] theorem restartTx_hwRxCur (s : State) : (restartTx s).hwRxCur = s.hwRxCur := by unfold restartTx; split <;> simp_all
@[simp] theorem restartTx_hwTxCur (s : State) : (restartTx s).hwTxCur = s.hwTxCur := by unfold restartTx; split <;> simp_all
@[simp] theorem restartTx_qEnt (s : State) : (restartTx s).qEnt = s.qEnt := by unfold restartTx; split <;> simp_all
@[simp] theorem restartTx_qFront (s : State) : (restartTx s).qFront = s.qFront := by unfold restartTx; split <;> simp_all
@[simp] theorem restartTx_qBack (s : State) : (restartTx s).qBack = s.qBack := by unfold restartTx; split <;> simp_all
@[simp] theorem restartTx_qLen (s : State) : (restartTx s).qLen = s.qLen := by unfold restartTx; split <;> simp_all
@[simp] theorem restartTx_mcRef (s : State) : (restartTx s).mcRef = s.mcRef := by unfold restartTx; split <;> simp_all
@[simp] theorem restartTx_mcBit (s : State) : (restartTx s).mcBit = s.mcBit := by unfold restartTx; split <;> simp_all
@[simp] theorem restartTx_bcastEn (s : State) : (restartTx s).bcastEn = s.bcastEn := by unfold restartTx; split <;> simp_all
@[simp] theorem restartTx_pendRxr (s : State) : (restartTx s).pendRxr = s.pendRxr := by unfold restartTx; split <;> simp_all
@[simp] theorem restartTx_pendTxc (s : State) : (restartTx s).pendTxc = s.pendTxc := by unfold restartTx; split <;> simp_all
@[simp] theorem restartTx_enRxr (s : State) : (restartTx s).enRxr = s.enRxr := by unfold restartTx; split <;> simp_all
@[simp] theorem restartTx_enTxc (s : State) : (restartTx s).enTxc = s.enTxc := by unfold restartTx; split <;> simp_all
@[simp] theorem restartTx_fault (s : State) : (restartTx s).fault = s.fault := by unfold restartTx; split <;> simp_all
@[simp] theorem restartTx_cntRxRunt (s : State) : (restartTx s).cntRxRunt = s.cntRxRunt := by unfold restartTx; split <;> simp_all
@[simp] theorem restartTx_cntRxOversize (s : State) : (restartTx s).cntRxOversize = s.cntRxOversize := by unfold restartTx; split <;> simp_all
@[simp] theorem restartTx_cntRxFlagged (s : State) : (restartTx s).cntRxFlagged = s.cntRxFlagged := by unfold restartTx; split <;> simp_all
@[simp] theorem restartTx_cntRxNobuf (s : State) : (restartTx s).cntRxNobuf = s.cntRxNobuf := by unfold restartTx; split <;> simp_all
@[simp] theorem restartTx_cntPostBp (s : State) : (restartTx s).cntPostBp = s.cntPostBp := by unfold restartTx; split <;> simp_all
@[simp] theorem restartTx_arg0 (s : State) : (restartTx s).arg0 = s.arg0 := by unfold restartTx; split <;> simp_all
@[simp] theorem restartTx_arg1 (s : State) : (restartTx s).arg1 = s.arg1 := by unfold restartTx; split <;> simp_all
@[simp] theorem restartTx_resp0 (s : State) : (restartTx s).resp0 = s.resp0 := by unfold restartTx; split <;> simp_all
@[simp] theorem restartTx_resp1 (s : State) : (restartTx s).resp1 = s.resp1 := by unfold restartTx; split <;> simp_all
@[simp] theorem restartTx_resp2 (s : State) : (restartTx s).resp2 = s.resp2 := by unfold restartTx; split <;> simp_all
@[simp] theorem restartTx_rxBase (s : State) : (restartTx s).rxBase = s.rxBase := by unfold restartTx; split <;> simp_all
@[simp] theorem restartTx_txBase (s : State) : (restartTx s).txBase = s.txBase := by unfold restartTx; split <;> simp_all
@[simp] theorem restartTx_mcRefIdx (s : State) : (restartTx s).mcRefIdx = s.mcRefIdx := by unfold restartTx; split <;> simp_all
@[simp] theorem restartTx_params (s : State) : (restartTx s).params = s.params := by unfold restartTx; split <;> simp_all
@[simp] theorem restartTx_agenda (s : State) : (restartTx s).agenda = s.agenda := by unfold restartTx; split <;> simp_all
@[simp] theorem restartTx_allocIn (s : State) : (restartTx s).allocIn = s.allocIn := by unfold restartTx; split <;> simp_all
@[simp] theorem restartTx_bpIn (s : State) : (restartTx s).bpIn = s.bpIn := by unfold restartTx; split <;> simp_all
@[simp] theorem restartTx_inputSeq (s : State) : (restartTx s).inputSeq = s.inputSeq := by unfold restartTx; split <;> simp_all
@[simp] theorem restartTx_readValue (s : State) : (restartTx s).readValue = s.readValue := by unfold restartTx; split <;> simp_all
@[simp] theorem restartTx_sent (s : State) : (restartTx s).sent = s.sent := by unfold restartTx; split <;> simp_all

end Sys2Proof.Machine
end

