-- ==== Sys2Proof/Laws/Memory.lean ====
section
/-! SUPPORT. Descriptor memory: what a read gives after a write, that every write keeps the canonical form, and what each access can
answer. -/

namespace Sys2Proof.Machine

/-! ### Sequencing -/

@[simp] theorem andThen_next {α β : Type} (a : α) (k : α → Res β) : andThen (.next a) k = k a := rfl
@[simp] theorem andThen_fault {α β : Type} (r : Fault) (k : α → Res β) : andThen (.fault r) k = .fault r := rfl
@[simp] theorem andThen_refused {α β : Type} (r : Refusal) (k : α → Res β) : andThen (.refused r) k = .refused r := rfl

/-- A sequence answers only if both its parts do. -/
theorem andThen_eq_next {α β : Type} {o : Res α} {k : α → Res β} {b : β} :
    andThen o k = .next b ↔ ∃ a, o = .next a ∧ k a = .next b := by
  cases o <;> simp [andThen]

/-- A sequence stops with a fault only where one of its parts does. -/
theorem andThen_eq_fault {α β : Type} {o : Res α} {k : α → Res β} {r : Fault} :
    andThen o k = .fault r ↔ o = .fault r ∨ ∃ a, o = .next a ∧ k a = .fault r := by
  cases o <;> simp [andThen]

@[simp] theorem forEach_nil {α σ : Type} (f : α → σ → Res σ) (s : σ) : forEach f [] s = .next s := rfl
@[simp] theorem forEach_cons {α σ : Type} (f : α → σ → Res σ) (a : α) (as : List α) (s : σ) :
    forEach f (a :: as) s = andThen (f a s) (forEach f as) := rfl

/-- A property that every part of a repetition keeps holds after it. -/
theorem forEach_keeps {α σ : Type} {f : α → σ → Res σ} {P : σ → Prop} (h : ∀ a s t, P s → f a s = .next t → P t) :
    ∀ (as : List α) {s t : σ}, P s → forEach f as s = .next t → P t
  | [], s, t, hs, e => by cases e; exact hs
  | a :: as, s, t, hs, e => by
    obtain ⟨u, hu, hk⟩ := andThen_eq_next.1 e
    exact forEach_keeps h as (h a s u hs hu) hk

/-! ### Bytes -/

@[simp] theorem readByte_nil (a : Nat) : readByte [] a = none := rfl

theorem readByte_writeByte_same (a : Nat) (v : Byte) : ∀ m, readByte (writeByte a v m) a = some v
  | [] => by simp [writeByte, readByte]
  | c :: m => by
    have ih := readByte_writeByte_same a v m
    unfold writeByte
    split
    · simp [readByte]
    · split
      · simp [readByte]
      · next h => simp [readByte, ih, Ne.symm h]

theorem readByte_writeByte_other {a b : Nat} (hab : b ≠ a) (v : Byte) : ∀ m, readByte (writeByte a v m) b = readByte m b
  | [] => by simp [writeByte, readByte, hab.symm]
  | c :: m => by
    have ih := readByte_writeByte_other hab v m
    unfold writeByte
    split
    · simp [readByte, hab.symm]
    · split
      · next h => simp [readByte, hab.symm, ← h]
      · simp [readByte, ih]

/-- What a byte reads as after a store of another or the same byte. -/
theorem readByte_writeByte (a b : Nat) (v : Byte) (m : Memory) :
    readByte (writeByte a v m) b = if b = a then some v else readByte m b := by
  split
  · next h => rw [h]; exact readByte_writeByte_same a v m
  · next h => exact readByte_writeByte_other h v m

theorem writeByte_risesFrom {k a : Nat} (v : Byte) (hk : k < a) :
    ∀ {m : Memory}, Memory.risesFrom k m = true → Memory.risesFrom k (writeByte a v m) = true
  | [], _ => by simp [writeByte, Memory.risesFrom, hk]
  | c :: m, h => by
    simp only [Memory.risesFrom, Bool.and_eq_true, decide_eq_true_eq] at h
    unfold writeByte
    split
    · next h1 => simp [Memory.risesFrom, hk, h1, h.2]
    · split
      · next h1 => simp [Memory.risesFrom, h1, h.1, h.2]
      · next h1 h2 => simp [Memory.risesFrom, h.1, writeByte_risesFrom v (by omega : c.1 < a) h.2]

theorem writeByte_rising (a : Nat) (v : Byte) : ∀ {m : Memory}, m.rising = true → Memory.rising (writeByte a v m) = true
  | [], _ => by simp [writeByte, Memory.rising, Memory.risesFrom]
  | c :: m, h => by
    simp only [Memory.rising] at h
    unfold writeByte
    split
    · next h1 => simp [Memory.rising, Memory.risesFrom, h1, h]
    · split
      · next h1 => simp [Memory.rising, h1, h]
      · next h1 h2 => simp [Memory.rising, writeByte_risesFrom v (by omega : c.1 < a) h]

theorem writeByte_inRange {a : Nat} (ha : a < Config.memTop) (v : Byte) :
    ∀ {m : Memory}, m.inRange = true → Memory.inRange (writeByte a v m) = true
  | [], _ => by simp [writeByte, Memory.inRange, ha]
  | c :: m, h => by
    simp only [Memory.inRange, List.all_cons, Bool.and_eq_true, decide_eq_true_eq] at h
    have ih := writeByte_inRange ha v (m := m) h.2
    simp only [Memory.inRange] at ih
    unfold writeByte
    split
    · simp [Memory.inRange, ha, h.1, h.2]
    · split
      · simp [Memory.inRange, ha, h.2]
      · simp [Memory.inRange, h.1, ih]

/-- A store of a byte inside the address space keeps the canonical form. -/
theorem writeByte_wf {a : Nat} (ha : a < Config.memTop) (v : Byte) {m : Memory} (h : m.wf = true) :
    Memory.wf (writeByte a v m) = true := by
  simp only [Memory.wf, Bool.and_eq_true] at h ⊢
  exact ⟨writeByte_rising a v h.1, writeByte_inRange ha v h.2⟩

@[simp] theorem Memory.wf_nil : Memory.wf [] = true := rfl

/-! ### Words -/

theorem loadByte_eq_next {m : Memory} {a : Nat} {v : Byte} :
    loadByte m a = .next v ↔ a < Config.memTop ∧ readByte m a = some v := by
  unfold loadByte
  split
  · simp; omega
  · split
    · next w h => simp [h]; omega
    · next h => simp [h]

/-- All a word read can answer. -/
theorem loadWord_eq_next {m : Memory} {a : Nat} {w : Word} :
    loadWord m a = .next w ↔ a + 3 < Config.memTop ∧ ∃ b0 b1 b2 b3, readByte m a = some b0 ∧ readByte m (a + 1) = some b1 ∧
      readByte m (a + 2) = some b2 ∧ readByte m (a + 3) = some b3 ∧ w = wordOfBytes b0 b1 b2 b3 := by
  simp only [loadWord, andThen_eq_next, loadByte_eq_next]
  constructor
  · rintro ⟨b0, ⟨-, h0⟩, b1, ⟨-, h1⟩, b2, ⟨-, h2⟩, b3, ⟨h, h3⟩, e⟩
    cases e
    exact ⟨h, b0, b1, b2, b3, h0, h1, h2, h3, rfl⟩
  · rintro ⟨h, b0, b1, b2, b3, h0, h1, h2, h3, rfl⟩
    exact ⟨b0, ⟨by omega, h0⟩, b1, ⟨by omega, h1⟩, b2, ⟨by omega, h2⟩, b3, ⟨h, h3⟩, rfl⟩

/-- A word read depends on its four bytes alone. -/
theorem loadWord_congr {m m' : Memory} {a : Nat} (h : ∀ k, k < 4 → readByte m' (a + k) = readByte m (a + k)) :
    loadWord m' a = loadWord m a := by
  have h0 := h 0 (by omega)
  have h1 := h 1 (by omega)
  have h2 := h 2 (by omega)
  have h3 := h 3 (by omega)
  simp only [Nat.add_zero] at h0
  simp [loadWord, loadByte, h0, h1, h2, h3]

theorem storeWord_eq_next {m m' : Memory} {a : Nat} {w : Word} :
    storeWord a w m = .next m' ↔ a + 4 ≤ Config.memTop ∧ m' = writeWord a w m := by
  unfold storeWord
  split
  · simp; omega
  · simp [eq_comm]; omega

theorem readByte_writeWord (a b : Nat) (w : Word) (m : Memory) :
    readByte (writeWord a w m) b =
      if b = a + 3 then some (byteOf w 3) else if b = a + 2 then some (byteOf w 2) else if b = a + 1 then some (byteOf w 1)
      else if b = a then some (byteOf w 0) else readByte m b := by
  simp [writeWord, readByte_writeByte]

/-- A word store leaves every byte but its four alone. -/
theorem readByte_writeWord_other {a b : Nat} (w : Word) (m : Memory) (h : ¬ (a ≤ b ∧ b < a + 4)) :
    readByte (writeWord a w m) b = readByte m b := by
  rw [readByte_writeWord]
  rw [if_neg (by omega), if_neg (by omega), if_neg (by omega), if_neg (by omega)]

theorem wordOfBytes_byteOf (w : Word) : wordOfBytes (byteOf w 0) (byteOf w 1) (byteOf w 2) (byteOf w 3) = w := by
  apply BitVec.eq_of_getLsbD_eq
  intro i hi
  simp only [wordOfBytes, byteOf, BitVec.getLsbD_append, BitVec.getLsbD_extractLsb']
  by_cases h1 : i < 8
  · simp [h1]
  · by_cases h2 : i < 16
    · have e : 8 + (i - 8) = i := by omega
      simp [h1, e, show i - 8 < 8 by omega]
    · by_cases h3 : i < 24
      · have e : 16 + (i - 8 - 8) = i := by omega
        simp [h1, e, show ¬ i - 8 < 8 by omega, show i - 8 - 8 < 8 by omega]
      · have e : 24 + (i - 8 - 8 - 8) = i := by omega
        simp [h1, e, show ¬ i - 8 < 8 by omega, show ¬ i - 8 - 8 < 8 by omega]
        omega

/-- A word reads back as it was stored. -/
theorem loadWord_writeWord_same {a : Nat} (h : a + 4 ≤ Config.memTop) (w : Word) (m : Memory) :
    loadWord (writeWord a w m) a = .next w := by
  rw [loadWord_eq_next]
  refine ⟨by omega, byteOf w 0, byteOf w 1, byteOf w 2, byteOf w 3, ?_, ?_, ?_, ?_, (wordOfBytes_byteOf w).symm⟩
  all_goals simp [readByte_writeWord]

/-- A word store leaves every word apart from it alone. -/
theorem loadWord_writeWord_other {a b : Nat} (h : b + 4 ≤ a ∨ a + 4 ≤ b) (w : Word) (m : Memory) :
    loadWord (writeWord a w m) b = loadWord m b :=
  loadWord_congr fun _ _ => readByte_writeWord_other w m (by omega)

/-- A word store inside the address space keeps the canonical form. -/
theorem writeWord_wf {a : Nat} (h : a + 4 ≤ Config.memTop) (w : Word) {m : Memory} (hm : m.wf = true) :
    Memory.wf (writeWord a w m) = true :=
  writeByte_wf (by omega) _ (writeByte_wf (by omega) _ (writeByte_wf (by omega) _ (writeByte_wf (by omega) _ hm)))

/-- Every memory access keeps the canonical form. -/
theorem storeWord_wf {a : Nat} {w : Word} {m m' : Memory} (e : storeWord a w m = .next m') (hm : m.wf = true) : m'.wf = true := by
  obtain ⟨h, rfl⟩ := storeWord_eq_next.1 e
  exact writeWord_wf h w hm

/-- One memory action keeps the canonical form. -/
theorem memAction_wf {c : MemAction} {m m' : Memory} (hm : m.wf = true) (e : memAction c m = .next m') : m'.wf = true := by
  cases c with
  | write a v => exact storeWord_wf e hm
  | barrier => cases e; exact hm
  | cacheClean a n => cases e; exact hm
  | cacheInvalidate a n => cases e; exact hm

/-- Any sequence of memory actions keeps the canonical form. -/
theorem memActions_wf {cs : List MemAction} {m m' : Memory} (e : memActions cs m = .next m') (hm : m.wf = true) : m'.wf = true :=
  forEach_keeps (P := fun m => m.wf = true) (fun _ _ _ h e => memAction_wf h e) cs hm e

end Sys2Proof.Machine
end

