-- ==== Sys2Proof/Laws/Ops.lean ====
section
/-! SUPPORT. For each shared operation of Machine/Ops.lean, one lemma that says once all it can do. -/

namespace Sys2Proof.Machine

/-! ### Status words (R31, R33) -/

@[simp] theorem statusWord_own (o w : Bool) (e : BitVec 4) (l : BitVec 14) : (statusWord o w e l).getLsbD 31 = o := by
  simp only [statusWord, BitVec.getLsbD_append]
  simp

@[simp] theorem statusWord_wrap (o w : Bool) (e : BitVec 4) (l : BitVec 14) : (statusWord o w e l).getLsbD 30 = w := by
  simp only [statusWord, BitVec.getLsbD_append]
  simp

@[simp] theorem statusWord_len (o w : Bool) (e : BitVec 4) (l : BitVec 14) : (statusWord o w e l).extractLsb' 0 14 = l := by
  apply BitVec.eq_of_getLsbD_eq
  intro i hi
  simp only [statusWord, BitVec.getLsbD_append, BitVec.getLsbD_extractLsb']
  simp [hi]

@[simp] theorem statusWord_err (o w : Bool) (e : BitVec 4) (l : BitVec 14) : (statusWord o w e l).extractLsb' 16 4 = e := by
  apply BitVec.eq_of_getLsbD_eq
  intro i hi
  simp only [statusWord, BitVec.getLsbD_append, BitVec.getLsbD_extractLsb']
  interval_cases i <;> simp

/-- The reserved bits of a status word the DRC writes are 0. -/
@[simp] theorem statusWord_reserved (o w : Bool) (e : BitVec 4) (l : BitVec 14) :
    statusWord o w e l &&& 0x3FF0C000#32 = 0#32 := by
  apply BitVec.eq_of_getLsbD_eq
  intro i hi
  simp only [statusWord, BitVec.getLsbD_and, BitVec.getLsbD_append]
  interval_cases i <;> simp

@[simp] theorem setOwn_own (st : Word) : (setOwn st).getLsbD 31 = true := by simp [setOwn]

/-- Setting `OWN` keeps every other bit. -/
theorem setOwn_other (st : Word) {i : Nat} (h : i ≠ 31) : (setOwn st).getLsbD i = st.getLsbD i := by
  by_cases hi : i < 32
  · simp only [setOwn, BitVec.getLsbD_or]
    interval_cases i <;> simp at h ⊢
  · rw [BitVec.getLsbD_of_ge _ _ (by omega), BitVec.getLsbD_of_ge _ _ (by omega)]

/-- The four cases of `slot_state` (R33). -/
theorem slotState_eq_free {d : Desc} : slotState d = .free ↔ d.own = true ∧ d.buf = Config.null := by
  unfold slotState; cases d.own <;> cases h : d.buf == Config.null <;> simp_all

theorem slotState_eq_hwOwned {d : Desc} : slotState d = .hwOwned ↔ d.own = false ∧ d.buf ≠ Config.null := by
  unfold slotState; cases d.own <;> cases h : d.buf == Config.null <;> simp_all

theorem slotState_eq_swCompleted {d : Desc} : slotState d = .swCompleted ↔ d.own = true ∧ d.buf ≠ Config.null := by
  unfold slotState; cases d.own <;> cases h : d.buf == Config.null <;> simp_all

theorem slotState_eq_invalid {d : Desc} : slotState d = .invalid ↔ d.own = false ∧ d.buf = Config.null := by
  unfold slotState; cases d.own <;> cases h : d.buf == Config.null <;> simp_all

/-! ### Descriptors -/

/-- All a descriptor read can answer: both words. -/
theorem loadDesc_eq_next {base : Word} {i : Nat} {m : Memory} {d : Desc} :
    loadDesc base i m = .next d ↔ loadWord m (descAddr base i) = .next d.buf ∧ loadWord m (descAddr base i + 4) = .next d.st := by
  simp only [loadDesc, memAction, andThen_next, andThen_eq_next]
  constructor
  · rintro ⟨st, h1, buf, h2, e⟩
    cases e
    exact ⟨h2, h1⟩
  · rintro ⟨h1, h2⟩
    exact ⟨d.st, h2, d.buf, h1, rfl⟩

/-- A readable descriptor lies inside the address space. -/
theorem descAddr_of_loadDesc {base : Word} {i : Nat} {m : Memory} {d : Desc} (h : loadDesc base i m = .next d) :
    descAddr base i + 8 ≤ Config.memTop := by
  obtain ⟨-, h2⟩ := loadDesc_eq_next.1 h
  have := (loadWord_eq_next.1 h2).1
  omega

/-- All a write of word 0 can do. -/
theorem storeBuf_eq_next {g : Ring} {i : Nat} {b : Word} {s t : State} :
    storeBuf g i b s = .next t ↔ descAddr (ringBase g s) i + 4 ≤ Config.memTop ∧
      t = { s with mem := writeWord (descAddr (ringBase g s) i) b s.mem } := by
  simp only [storeBuf, andThen_eq_next, storeWord_eq_next]
  constructor
  · rintro ⟨m, ⟨h, rfl⟩, e⟩
    cases e
    exact ⟨h, rfl⟩
  · rintro ⟨h, rfl⟩
    exact ⟨_, ⟨h, rfl⟩, rfl⟩

/-- All a write of word 1 can do. -/
theorem storeStatus_eq_next {g : Ring} {i : Nat} {st : Word} {s t : State} :
    storeStatus g i st s = .next t ↔ descAddr (ringBase g s) i + 4 + 4 ≤ Config.memTop ∧
      t = { s with mem := writeWord (descAddr (ringBase g s) i + 4) st s.mem } := by
  simp only [storeStatus, andThen_eq_next, storeWord_eq_next]
  constructor
  · rintro ⟨m, ⟨h, rfl⟩, e⟩
    cases e
    exact ⟨h, rfl⟩
  · rintro ⟨h, rfl⟩
    exact ⟨_, ⟨h, rfl⟩, rfl⟩

/-- The memory a hand-over leaves: the buffer, the status word with `OWN = 1`, the status word with `OWN = 0`. -/
def handedOver (a : Nat) (wrap : Bool) (b : Word) (len : BitVec 14) (m : Memory) : Memory :=
  writeWord (a + 4) (statusWord false wrap 0#4 len) (writeWord (a + 4) (statusWord true wrap 0#4 len) (writeWord a b m))

/-- All the actions of a hand-over can do (R90). -/
theorem handOverActions_eq_next {a : Nat} {wrap : Bool} {b : Word} {len : BitVec 14} {m m' : Memory} :
    memActions (handOverActions a wrap b len) m = .next m' ↔ a + 8 ≤ Config.memTop ∧ m' = handedOver a wrap b len m := by
  simp only [memActions, handOverActions, forEach_cons, forEach_nil, memAction, andThen_next, andThen_eq_next, storeWord_eq_next]
  constructor
  · rintro ⟨m1, ⟨h1, rfl⟩, m2, ⟨h2, rfl⟩, m3, ⟨h3, rfl⟩, e⟩
    cases e
    exact ⟨by omega, rfl⟩
  · rintro ⟨h, rfl⟩
    exact ⟨_, ⟨by omega, rfl⟩, _, ⟨by omega, rfl⟩, _, ⟨by omega, rfl⟩, rfl⟩

/-- All a hand-over can do. -/
theorem handOver_eq_next {g : Ring} {i : Nat} {b : Word} {len : BitVec 14} {s t : State} :
    handOver g i b len s = .next t ↔ ∃ st, loadWord s.mem (descAddr (ringBase g s) i + 4) = .next st ∧
      t = { s with mem := handedOver (descAddr (ringBase g s) i) (st.getLsbD 30) b len s.mem } := by
  simp only [handOver, andThen_eq_next, handOverActions_eq_next]
  constructor
  · rintro ⟨st, h, m, ⟨-, rfl⟩, e⟩
    cases e
    exact ⟨st, h, rfl⟩
  · rintro ⟨st, h, rfl⟩
    exact ⟨st, h, _, ⟨by have := (loadWord_eq_next.1 h).1; omega, rfl⟩, rfl⟩

/-- After a hand-over the slot holds the buffer, the length and a clear `OWN` (R143, R171). -/
theorem loadDesc_handedOver {base : Word} {i : Nat} {wrap : Bool} {b : Word} {len : BitVec 14} {m : Memory}
    (h : descAddr base i + 8 ≤ Config.memTop) :
    loadDesc base i (handedOver (descAddr base i) wrap b len m) = .next { buf := b, st := statusWord false wrap 0#4 len } := by
  rw [loadDesc_eq_next]
  constructor
  · rw [handedOver, loadWord_writeWord_other (by omega), loadWord_writeWord_other (by omega), loadWord_writeWord_same (by omega)]
  · rw [handedOver, loadWord_writeWord_same (by omega)]

/-- A hand-over leaves every byte outside its descriptor alone. -/
theorem readByte_handedOver_other {a c : Nat} {wrap : Bool} {b : Word} {len : BitVec 14} {m : Memory}
    (h : ¬ (a ≤ c ∧ c < a + 8)) : readByte (handedOver a wrap b len m) c = readByte m c := by
  rw [handedOver, readByte_writeWord_other _ _ (by omega), readByte_writeWord_other _ _ (by omega),
    readByte_writeWord_other _ _ (by omega)]

/-- A hand-over keeps the canonical form of memory. -/
theorem handedOver_wf {a : Nat} (h : a + 8 ≤ Config.memTop) {wrap : Bool} {b : Word} {len : BitVec 14} {m : Memory}
    (hm : m.wf = true) : (handedOver a wrap b len m).wf = true :=
  writeWord_wf (by omega) _ (writeWord_wf (by omega) _ (writeWord_wf (by omega) _ hm))

/-! ### Cursors -/

/-- The cursor step stays inside the ring (R36). -/
theorem nextIndex_toNat {n : Nat} (h0 : 1 ≤ n) (hn : n ≤ 65535) (c : Half) : (nextIndex n c).toNat = (c.toNat + 1) % n := by
  have := Nat.mod_lt (c.toNat + 1) h0
  rw [nextIndex, BitVec.toNat_ofNat, Nat.mod_eq_of_lt (by omega)]

/-! ### Gate, ports and events -/

/-- All the lifecycle gate of the ring commands can do (R140, R283). -/
theorem ringGate_eq_next {s t : State} {k : State → Res State} :
    ringGate s k = .next t ↔
      (s.runState = .stopped ∧ t = respondOnly .badState s) ∨ (s.runState = .faulted ∧ t = respondOnly .deviceFault s) ∨
      (s.runState = .running ∧ k s = .next t) := by
  unfold ringGate
  cases s.runState <;> simp [eq_comm]

@[simp] theorem ringGate_stopped {s : State} {k : State → Res State} (h : s.runState = .stopped) :
    ringGate s k = .next (respondOnly .badState s) := by
  simp [ringGate, h]

@[simp] theorem ringGate_faulted {s : State} {k : State → Res State} (h : s.runState = .faulted) :
    ringGate s k = .next (respondOnly .deviceFault s) := by
  simp [ringGate, h]

@[simp] theorem ringGate_running {s : State} {k : State → Res State} (h : s.runState = .running) : ringGate s k = k s := by
  simp [ringGate, h]

/-- All an allocator request can do (R60, U7): `None`, or a buffer that keeps the contract. -/
theorem allocGet_eq_next {held : List Word} {s : State} {r : Option Word × State} :
    allocGet held s = .next r ↔ r = takeAnswer s.params.maxFrame s ∧
      ∀ b, (takeAnswer s.params.maxFrame s).1 = some b → b ≠ Config.null ∧ b ∉ held ∧ b ∉ heldRefs s := by
  unfold allocGet
  split
  · next h =>
    constructor
    · intro e
      cases e
      exact ⟨by rw [← h], by simp [h]⟩
    · rintro ⟨rfl, -⟩
      rw [← h]
  · next b h =>
    split
    · next hb =>
      constructor
      · intro e; cases e
      · rintro ⟨-, hk⟩
        have := hk b h
        tauto
    · next hb =>
      constructor
      · intro e
        cases e
        refine ⟨by rw [← h], ?_⟩
        intro c hc
        rw [h] at hc
        cases hc
        tauto
      · rintro ⟨rfl, -⟩
        rw [← h]

/-- A listed answer is taken before any free one. -/
theorem takeAnswer_cons {n : Nat} {s : State} {a : Option Word} {rest : List (Option Word)} (h : s.allocIn = a :: rest) :
    takeAnswer n s = (a, { s with allocIn := rest }) := by
  simp [takeAnswer, h]

/-- Posting a list appends its events in order (R61). -/
theorem postAll_trace (bs : List Word) (s : State) : (postAll bs s).trace = s.trace ++ bs.map .post := by
  induction bs generalizing s with
  | nil => simp [postAll]
  | cons b bs ih =>
    have : postAll (b :: bs) s = postAll bs (post b s) := rfl
    rw [this, ih]
    simp

/-- All `MoreCheck` can do (R146). -/
theorem moreCheck_eq_next {s : State} {r : Bool × State} :
    moreCheck s = .next r ↔ ∃ d, loadSlot .rx s.rxCur.toNat s = .next d ∧
      r = if slotState d = .swCompleted then (true, emit .frameAvail s) else (false, s) := by
  simp only [moreCheck, andThen_eq_next]
  constructor
  · rintro ⟨d, h, e⟩
    refine ⟨d, h, ?_⟩
    split at e <;> cases e <;> simp_all
  · rintro ⟨d, h, rfl⟩
    exact ⟨d, h, by split <;> rfl⟩

/-! ### Multicast table -/

@[simp] theorem refCount_setRefCount_same (b : Bucket) (n : BitVec 8) (s : State) : refCount (setRefCount b n s) b = n := by
  simp [refCount, setRefCount]

theorem refCount_setRefCount_other {b c : Bucket} (h : c ≠ b) (n : BitVec 8) (s : State) :
    refCount (setRefCount b n s) c = refCount s c := by
  have : b.toNat ≠ c.toNat := fun e => h (BitVec.eq_of_toNat_eq e.symm)
  simp [refCount, setRefCount, this]

@[simp] theorem bucketBit_setBucketBit_same (b : Bucket) (v : Bool) (s : State) : bucketBit (setBucketBit b v s) b = v := by
  have := b.isLt
  cases v <;> simp [bucketBit, setBucketBit]
  all_goals omega

theorem bucketBit_setBucketBit_other {b c : Bucket} (h : c ≠ b) (v : Bool) (s : State) :
    bucketBit (setBucketBit b v s) c = bucketBit s c := by
  have hne : c.toNat ≠ b.toNat := fun e => h (BitVec.eq_of_toNat_eq e)
  have hc := c.isLt
  have key : (1#64 <<< b.toNat).getLsbD c.toNat = false := by
    rw [BitVec.getLsbD_shiftLeft]
    by_cases hlt : c.toNat < b.toNat
    · simp [hlt]
    · simp [BitVec.getLsbD_one]
      omega
  cases v <;> simp_all [bucketBit, setBucketBit]
  intro _
  omega

@[simp] theorem refCount_setBucketBit (b c : Bucket) (v : Bool) (s : State) : refCount (setBucketBit b v s) c = refCount s c := rfl
@[simp] theorem bucketBit_setRefCount (b c : Bucket) (n : BitVec 8) (s : State) : bucketBit (setRefCount b n s) c = bucketBit s c := rfl

end Sys2Proof.Machine
end

