-- ==== Sys2Proof/Laws/PerInstr.lean ====
section
/-! SUPPORT. The family of per-instruction lemmas: where an instruction's command word holds its fields (R111, R112). -/

namespace Sys2Proof.Laws

/-- Bits 7:0, 23:8 and 31:24 of a word put together as opcode, slot field and zeros. -/
theorem fields_of_word (slot : Half) (op : Byte) :
    opcodeOf (0#8 ++ slot ++ op) = op ∧ slotOf (0#8 ++ slot ++ op) = slot ∧
      (0#8 ++ slot ++ op).extractLsb' 24 8 = 0#8 := by
  refine ⟨?_, ?_, ?_⟩ <;> apply BitVec.eq_of_getLsbD_eq <;> intro i hi <;>
    simp only [opcodeOf, slotOf, BitVec.getLsbD_extractLsb', BitVec.getLsbD_append]
  · simp [hi]
  · simp [hi]
  · interval_cases i <;> simp

/-- The opcode stands in bits 7:0 of an instruction's word, the slot field in bits 23:8, and bits 31:24 are 0. -/
def CommandWord.Statement (i : Instr) : Prop :=
  opcodeOf (encode i) = i.opcode ∧ slotOf (encode i) = i.slotField ∧ (encode i).extractLsb' 24 8 = 0#8

theorem CommandWord.start : CommandWord.Statement .start := fields_of_word _ _
theorem CommandWord.stop : CommandWord.Statement .stop := fields_of_word _ _
theorem CommandWord.submit : CommandWord.Statement .submit := fields_of_word _ _
theorem CommandWord.onTxComplete : CommandWord.Statement .onTxComplete := fields_of_word _ _
theorem CommandWord.harvest : CommandWord.Statement .harvest := fields_of_word _ _
theorem CommandWord.replenish (slot : Nat) : CommandWord.Statement (.replenish slot) := fields_of_word _ _
theorem CommandWord.rxService : CommandWord.Statement .rxService := fields_of_word _ _
theorem CommandWord.onRxReady : CommandWord.Statement .onRxReady := fields_of_word _ _
theorem CommandWord.mcAdd : CommandWord.Statement .mcAdd := fields_of_word _ _
theorem CommandWord.mcRemove : CommandWord.Statement .mcRemove := fields_of_word _ _
theorem CommandWord.mcLookup : CommandWord.Statement .mcLookup := fields_of_word _ _

end Sys2Proof.Laws
end

