-- ==== Sys2Proof/Laws/Script.lean ====
section
/-! SUPPORT. What a written REPLENISH stands for (R121). -/

namespace Sys2Proof.Machine

/-- For a slot of 16 bits R121's formula is the command word of REPLENISH (R111, R112). -/
theorem replenishWord_eq_encode {slot : Nat} (h : slot < 2 ^ 16) : replenishWord slot = encode (.replenish slot) := by
  apply BitVec.eq_of_toNat_eq
  have e : (0x21 ||| slot <<< 8) = slot <<< 8 + 0x21 := by
    rw [Nat.or_comm, Nat.shiftLeft_add_eq_or_of_lt (by decide)]
  simp only [replenishWord, e, encode, Instr.slotField, Instr.opcode, BitVec.toNat_ofNat, BitVec.toNat_append,
    Nat.mod_eq_of_lt h, ← Nat.shiftLeft_add_eq_or_of_lt (show 33 % 2 ^ 8 < 2 ^ 8 by decide)]
  simp [Nat.shiftLeft_eq]
  omega

/-- A written REPLENISH of a slot of 16 bits loads `ARG0` and issues the command. -/
theorem writtenReplenish_eq {slot : Nat} (buf : Word) (h : slot < 2 ^ 16) :
    writtenReplenish slot buf = [writeAt 0x04 buf, issue (.replenish slot)] := by
  simp only [writtenReplenish, issue, replenishWord_eq_encode h]

end Sys2Proof.Machine
end

