-- ==== Sys2Proof/Tests/Slice0.lean ====
section
/-! SUPPORT. Named tests of single steps, with expected values from the spec's examples and vectors (named in the comments), the ill-formed
terms that WellFormed refuses, and for every statement with hypotheses a state that meets them. -/

namespace Sys2Proof.Tests

set_option Elab.async false

open Sys2Proof.Machine Sys2Proof.Safety

/-! ### Building small states -/

/-- P7's smallest instance: one slot each, one queue entry. -/
def tiny : Params := { Config.reference with nRx := 1, nTx := 1, qCap := 1 }

/-- Both words of slot `i`, stored as the spec lays them out. -/
def putDesc (base : Word) (i : Nat) (d : Desc) (m : Memory) : Memory :=
  writeWord (descAddr base i + 4) d.st (writeWord (descAddr base i) d.buf m)

/-- A ring from its descriptors, slot `i` first. -/
def putRing (base : Word) : Nat → List Desc → Memory → Memory
  | _, [], m => m
  | i, d :: ds, m => putRing base (i + 1) ds (putDesc base i d m)

/-- A running session with the given rings. -/
def running (p : Params) (rx tx : List Desc) : State :=
  { State.resetWith p with
    runState := .running, rxEn := true, txEn := true, enRxr := true, enTxc := true
    rxBase := 0x100#32, txBase := 0x200#32
    mem := putRing 0x200#32 0 tx (putRing 0x100#32 0 rx []) }

/-- Reset with legal bases, no session. -/
def idle (p : Params) : State := { State.resetWith p with rxBase := 0x100#32, txBase := 0x200#32 }

/-- The response registers of an answer. -/
def resp (o : Res State) : Option (Word × Word × Word) :=
  match o with
  | .next s => some (s.resp0, s.resp1, s.resp2)
  | .fault _ => none
  | .refused _ => none

/-- One value of the state answered. -/
def look {α : Type} (o : Res State) (f : State → α) : Option α :=
  match o with
  | .next s => some (f s)
  | .fault _ => none
  | .refused _ => none

/-- Slot `i` of a ring, where it is readable. -/
def slotAt (g : Ring) (i : Nat) (s : State) : Option Desc :=
  match loadSlot g i s with
  | .next d => some d
  | .fault _ => none
  | .refused _ => none

/-- A hardware-owned slot of a ring's middle holding `b`. -/
def hw (b : Word) : Desc := { buf := b, st := 0#32 }

/-- The same on the last slot of a ring. -/
def hwLast (b : Word) : Desc := { buf := b, st := 0x40000000#32 }

/-- A free slot, and a free last slot. -/
def free : Desc := { buf := 0#32, st := 0x80000000#32 }
def freeLast : Desc := { buf := 0#32, st := 0xC0000000#32 }

/-- A last slot that holds a good frame of 100 bytes. -/
def goodLast : Desc := { buf := 0x1000#32, st := 0xC0000064#32 }

/-- A last slot that holds a runt of 30 bytes (P7). -/
def runtLast : Desc := { buf := 0x1000#32, st := 0xC000001E#32 }

/-- A last slot with `OWN` 0 and no buffer. -/
def invalidLast : Desc := { buf := 0#32, st := 0x40000000#32 }

/-- A finished last Tx slot. -/
def sentLast : Desc := { buf := 0xA100#32, st := 0xC0000040#32 }

/-! ### Decoding: the words of R121 -/

theorem test_decode_start : decode 0x00000001#32 = .ok .start := rfl
theorem test_decode_stop : decode 0x00000002#32 = .ok .stop := rfl
theorem test_decode_submit : decode 0x00000010#32 = .ok .submit := rfl
theorem test_decode_on_tx_complete : decode 0x00000011#32 = .ok .onTxComplete := rfl
theorem test_decode_harvest : decode 0x00000020#32 = .ok .harvest := rfl
/-- P3 writes REPLENISH 1 as 0x00000121. -/
theorem test_decode_replenish : decode 0x00000121#32 = .ok (.replenish 1) := rfl
theorem test_decode_replenish_last : decode 0x00FFFF21#32 = .ok (.replenish 65535) := rfl
/-- R121's word for a written REPLENISH at the largest slot, and that one slot further a bit above the field is set, which R117 refuses. -/
theorem test_written_replenish : replenishWord 65535 = 0x00FFFF21#32 ∧ decode (replenishWord 65536) = .error (.mustBeZero 0x21#8) :=
  ⟨by decide +kernel, rfl⟩
theorem test_decode_rx_service : decode 0x00000022#32 = .ok .rxService := rfl
theorem test_decode_on_rx_ready : decode 0x00000023#32 = .ok .onRxReady := rfl
theorem test_decode_mc_add : decode 0x00000030#32 = .ok .mcAdd := rfl
theorem test_decode_mc_remove : decode 0x00000031#32 = .ok .mcRemove := rfl
theorem test_decode_mc_lookup : decode 0x00000032#32 = .ok .mcLookup := rfl
theorem test_decode_bytes : decodeBytes [0x21#8, 0x01#8, 0x00#8, 0x00#8] = .ok (.replenish 1) := rfl
theorem test_decode_table_word : decodeTableWord 32 0x00ABCD21 = some (.replenish 0xABCD) := by decide +kernel
/-- R117: a slot with bit 24, a format N word with bit 8, and an opcode not listed. -/
theorem test_decode_refuses_mbz_s : decode 0x01000021#32 = .error (.mustBeZero 0x21#8) := rfl
theorem test_decode_refuses_mbz_n : decode 0x00000101#32 = .error (.mustBeZero 0x01#8) := rfl
theorem test_decode_refuses_opcode : decode 0x00000003#32 = .error (.unknownOpcode 0x03#8) := rfl
theorem test_decode_refuses_short : decodeBytes [0x21#8, 0x01#8, 0x00#8] = .error .notOneWord := rfl

/-! ### WellFormed refuses ill-formed terms -/

theorem test_wf_slot_bound : (Instr.replenish 65535).wellFormed = true ∧ (Instr.replenish 65536).wellFormed = false := by decide
theorem test_wf_reference : Config.reference.wellFormed = true := by decide
theorem test_wf_ring_size_zero : ({ tiny with nRx := 0 } : Params).wellFormed = false := by decide
theorem test_wf_ring_size_large : ({ tiny with nTx := 65536 } : Params).wellFormed = false := by decide
theorem test_wf_queue_size_zero : ({ tiny with qCap := 0 } : Params).wellFormed = false := by decide
theorem test_wf_min_frame_zero : ({ tiny with minFrame := 0 } : Params).wellFormed = false := by decide
theorem test_wf_frames_crossed : ({ tiny with minFrame := 1519 } : Params).wellFormed = false := by decide
theorem test_wf_max_frame_large : ({ tiny with maxFrame := 16384 } : Params).wellFormed = false := by decide

/-! ### Reset and the step -/

theorem test_reset_memory_wf : State.reset.mem.wf = true := rfl
theorem test_reset_runs_a_command : resp (step (State.reset.withFetchWord 32 0x00000032)) = some (0#32, 0#32, 0#32) := by decide +kernel
theorem test_reset_ring_command : resp (step (State.reset.withFetchWord 32 0x00000010)) = some (8#32, 0#32, 0#32) := by decide +kernel

/-! ### One step of each instruction -/

/-- R220's example, on two slots of each ring. -/
theorem test_start :
    look (exec .start { idle { Config.reference with nRx := 2, nTx := 2 } with allocIn := [some 0x1000#32, some 0x1800#32] })
      (fun s => (s.resp0, slotAt .rx 0 s, slotAt .rx 1 s, slotAt .tx 0 s, slotAt .tx 1 s)) =
    some (0#32, some (hw 0x1000#32), some (hwLast 0x1800#32), some free, some freeLast) := by decide +kernel
/-- R223: the second answer is `None`; one buffer goes back. -/
theorem test_start_no_resource :
    look (exec .start { idle { tiny with nRx := 2 } with allocIn := [some 0x1000#32, none], bpIn := [true] })
      (fun s => (s.resp0, s.resp2, s.trace, s.cntPostBp, s.runState)) =
    some (7#32, 1#32, [.post 0x1000#32], 1#32, .stopped) := by decide +kernel
/-- R226: Rx slot, Tx slot, queue entry, in this order; `LEN` and `WRAP` stay. -/
theorem test_stop :
    look (exec .stop { running tiny [hwLast 0x1000#32] [sentLast] with
        bpIn := [false, true, false], qEnt := [{ buf := 0xA200#32, len := 65#14 }], qLen := 1#16 })
      (fun s => (s.resp2, s.trace, slotAt .rx 0 s, slotAt .tx 0 s, s.qLen)) =
    some (3#32, [.post 0x1000#32, .post 0xA100#32, .post 0xA200#32], some freeLast, some { buf := 0#32, st := 0xC0000040#32 }, 0#16) := by
  decide +kernel
/-- R170's example (slot 0 of two). -/
theorem test_submit :
    look (exec .submit { running { tiny with nTx := 2 } [hwLast 0x1000#32] [free, freeLast] with arg0 := 0xA100#32, arg1 := 101#32 })
      (fun s => (s.resp0, slotAt .tx 0 s, s.txFill, s.txRunning, s.trace)) =
    some (0#32, some { buf := 0xA100#32, st := 0x65#32 }, 1#16, true, [.dmaTxStart]) := by decide +kernel
/-- R170 corner case (e): the length is compared as a 32-bit number. -/
theorem test_submit_long :
    resp (exec .submit { running tiny [hwLast 0x1000#32] [freeLast] with arg0 := 0xA100#32, arg1 := 0x00010064#32 }) =
    some (9#32, 0#32, 0#32) := by decide +kernel
/-- P7: the reclaimed slot is refilled from the queue. -/
theorem test_on_tx_complete :
    look (exec .onTxComplete { running tiny [hwLast 0x1000#32] [sentLast] with
        bpIn := [false], txRunning := true, pendTxc := true, qEnt := [{ buf := 0xA200#32, len := 65#14 }], qLen := 1#16 })
      (fun s => ((s.resp2, s.trace, slotAt .tx 0 s), s.qLen, s.txRunning, s.pendTxc)) =
    some ((1#32, [.post 0xA100#32, .txAvail], some { buf := 0xA200#32, st := 0x40000041#32 }), 0#16, true, false) := by decide +kernel
/-- R176, R179: the last reclaim marks the engine idle. -/
theorem test_on_tx_complete_idle :
    look (exec .onTxComplete { running tiny [hwLast 0x1000#32] [sentLast] with bpIn := [true], txRunning := true })
      (fun s => (s.resp2, slotAt .tx 0 s, s.txRunning, s.cntPostBp)) = some (1#32, some freeLast, false, 1#32) := by decide +kernel
/-- R144's example. -/
theorem test_harvest :
    look (exec .harvest (running { tiny with nRx := 2 } [{ buf := 0x1000#32, st := 0x80000064#32 }, hwLast 0x1800#32] [freeLast]))
      (fun s => ((s.resp0, s.resp1, s.resp2), slotAt .rx 0 s, s.rxCur)) =
    some ((4#32, 0x1000#32, 100#32), some { buf := 0#32, st := 0x80000064#32 }, 1#16) := by decide +kernel
/-- P7: a runt in a ring of one slot is reported with `MORE`. -/
theorem test_harvest_runt :
    look (exec .harvest (running tiny [runtLast] [freeLast])) (fun s => ((s.resp0, s.resp1, s.resp2), s.cntRxRunt, s.trace)) =
    some ((0x15#32, 0x1000#32, 0x1E#32), 1#32, [.frameAvail]) := by decide +kernel
/-- R148's example. -/
theorem test_replenish :
    look (exec (.replenish 0) { running tiny [{ buf := 0#32, st := 0xC0000064#32 }] [freeLast] with arg0 := 0x3000#32 })
      (fun s => (s.resp0, slotAt .rx 0 s)) = some (0#32, some (hwLast 0x3000#32)) := by decide +kernel
/-- R148 corner case (c). -/
theorem test_replenish_range :
    resp (exec (.replenish 1) { running tiny [freeLast] [freeLast] with arg0 := 0x3000#32 }) = some (9#32, 0#32, 0#32) := by
  decide +kernel
/-- T8 (slot 65535), slot 0, and a slot in range, which R140's gate answers with `SLOT` 0 (log 20). -/
theorem test_replenish_stopped :
    resp (exec (.replenish 65535) State.reset) = some (8#32, 0#32, 0#32) ∧
      resp (exec (.replenish 0) State.reset) = some (8#32, 0#32, 0#32) ∧
      resp (exec (.replenish 3) State.reset) = some (8#32, 0#32, 0#32) := by decide +kernel
/-- R151's example. -/
theorem test_rx_service :
    look (exec .rxService { running tiny [goodLast] [freeLast] with allocIn := [some 0x3000#32] })
      (fun s => ((s.resp0, s.resp1, s.resp2), slotAt .rx 0 s)) =
    some ((4#32, 0x1000#32, 100#32), some (hwLast 0x3000#32)) := by decide +kernel
/-- R151 corner case (c): the frame is dropped. -/
theorem test_rx_service_dropped :
    look (exec .rxService { running tiny [goodLast] [freeLast] with allocIn := [none] })
      (fun s => ((s.resp0, s.resp1, s.resp2), slotAt .rx 0 s, s.cntRxNobuf)) =
    some ((11#32, 0#32, 100#32), some (hwLast 0x1000#32), 1#32) := by decide +kernel
/-- R153's example, and the cleared bit in `STOPPED`. -/
theorem test_on_rx_ready :
    look (exec .onRxReady { running tiny [goodLast] [freeLast] with pendRxr := true }) (fun s => (s.resp0, s.pendRxr, s.trace)) =
    some (0#32, false, [.frameAvail]) := by decide +kernel
theorem test_on_rx_ready_stopped :
    look (exec .onRxReady { State.reset with pendRxr := true }) (fun s => (s.resp0, s.pendRxr, s.trace)) = some (8#32, false, []) := by
  decide +kernel
/-- R207's example. -/
theorem test_mc_add :
    look (exec .mcAdd { State.reset with arg0 := 0x005E0001#32, arg1 := 0x100#32 }) (fun s => ((s.resp0, s.resp1, s.resp2), s.mcBit)) =
    some ((0#32, 0x126#32, 1#32), 0x0000004000000000#64) := by decide +kernel
/-- R208's example. -/
theorem test_mc_remove :
    look (andThen (exec .mcAdd { State.reset with arg0 := 0x005E0001#32, arg1 := 0x100#32 }) (exec .mcRemove))
      (fun s => ((s.resp0, s.resp1, s.resp2), s.mcBit)) = some ((0#32, 0x26#32, 0#32), 0#64) := by decide +kernel
/-- P4 step 6. -/
theorem test_mc_remove_not_found :
    resp (exec .mcRemove { State.reset with arg0 := 0x005E0001#32, arg1 := 0x100#32 }) = some (0xA#32, 0x26#32, 0#32) := by decide +kernel
/-- R209's example: the broadcast address after `WR MC_CTRL, 1`. -/
theorem test_mc_lookup :
    resp (andThen (hostWrite .word 0x58 1#32 { State.reset with arg0 := 0xFFFFFFFF#32, arg1 := 0xFFFF#32 }) (exec .mcLookup)) =
    some (0#32, 0x100#32, 0#32) := by decide +kernel
/-- R204's check value. -/
theorem test_crc32_check :
    crc32 [0x31#8, 0x32#8, 0x33#8, 0x34#8, 0x35#8, 0x36#8, 0x37#8, 0x38#8, 0x39#8] = 0xCBF43926#32 := by decide +kernel
/-- R242's example (the last slot of one). -/
theorem test_dma_rx_done :
    look (runTransition (.dmaRxDone 100#14 0#4) (running tiny [hwLast 0x2800#32] [freeLast]))
      (fun s => (slotAt .rx 0 s, s.hwRxCur, s.pendRxr)) = some (some { buf := 0x2800#32, st := 0xC0000064#32 }, 0#16, true) := by
  decide +kernel
/-- R245's example (slot 0 of two). -/
theorem test_dma_tx_done :
    look (runTransition .dmaTxDone
        { running { tiny with nTx := 2 } [hwLast 0x1000#32] [{ buf := 0xA100#32, st := 0x65#32 }, freeLast] with txRunning := true })
      (fun s => (slotAt .tx 0 s, s.hwTxCur, s.pendTxc, s.sent)) =
    some (some { buf := 0xA100#32, st := 0x80000065#32 }, 1#16, true, [(0xA100#32, 101#14)]) := by decide +kernel
/-- R46: `STATUS` after R220's START. -/
theorem test_status_running :
    look (hostRead .word 0x18 (running tiny [hwLast 0x1000#32] [freeLast])) State.readValue = some 0x12D#32 := by decide +kernel

/-! ### Witnesses: for each statement with hypotheses, a state and operands that meet them together -/

/-- The parts of `SessionInv`, each of them decidable. -/
theorem sessionInv_of {s : State}
    (h : (s.params.wellFormed = true ∧ s.mem.wf = true) ∧
      (s.qEnt.length = s.params.qCap ∧ s.qLen.toNat ≤ s.params.qCap ∧ s.qFront.toNat < s.params.qCap ∧
        s.qBack.toNat = (s.qFront.toNat + s.qLen.toNat) % s.params.qCap) ∧
      (∀ b : Bucket, bucketBit s b = true ↔ 0 < (refCount s b).toNat ∨ (b = bcastBucket s.params.hashMode ∧ s.bcastEn = true)) ∧
      (s.rxCur.toNat < s.params.nRx ∧ s.txFill.toNat < s.params.nTx ∧ s.txReclaim.toNat < s.params.nTx ∧
        s.hwRxCur.toNat < s.params.nRx ∧ s.hwTxCur.toNat < s.params.nTx) ∧
      s.runState ≠ .stopped ∧
      (s.rxEn = true ∧ s.txEn = true ∧ s.enRxr = true ∧ s.enTxc = true ∧ baseOk s.params s.rxBase s.txBase = true) ∧
      (∀ i, i < s.params.nRx → slotIs (fun d => d.wrap == decide (i + 1 = s.params.nRx) && d.st &&& 0x3FF0C000#32 == 0#32) .rx i s = true) ∧
      (∀ i, i < s.params.nTx → slotIs (fun d => d.wrap == decide (i + 1 = s.params.nTx) && d.st &&& 0x3FF0C000#32 == 0#32) .tx i s = true) ∧
      (s.runState = .running → s.fault = FaultLatch.clear) ∧ (s.runState = .faulted → s.fault.cause ≠ .none)) : SessionInv s := by
  obtain ⟨⟨a, b⟩, ⟨c1, c2, c3, c4⟩, d, ⟨e1, e2, e3, e4, e5⟩, f, ⟨g1, g2, g3, g4, g5⟩, r, t, u, v⟩ := h
  exact ⟨a, b, ⟨c1, c2, c3, c4⟩, d, ⟨e1, e2, e3, e4, e5⟩, fun h => absurd h f, fun _ => ⟨g1, g2, g3, g4, g5, r, t⟩, u, v⟩

/-- The parts of `RunInv` beyond `SessionInv`, each of them decidable. -/
theorem runInv_of {s : State} (h : SessionInv s)
    (k : (∀ i, i < s.params.nRx → slotIs (fun d => slotState d != .invalid) .rx i s = true) ∧
      (∀ j, j < s.params.nTx →
        slotIs (fun d => slotState d == if j < txFinished s then .swCompleted else if j < txHeld s then .hwOwned else .free)
          .tx (txSlot s j) s = true) ∧
      s.txFill.toNat = txSlot s (txHeld s) ∧ s.hwTxCur.toNat = txSlot s (txFinished s) ∧
      (0 < s.qLen.toNat → txHeld s = s.params.nTx) ∧ (s.txRunning = true ↔ 0 < txHeld s ∨ 0 < s.qLen.toNat) ∧
      ∀ e ∈ queueEntries s, e.buf ≠ Config.null) : RunInv s :=
  ⟨h, fun _ => ⟨k.1, k.2.1, k.2.2.1, k.2.2.2.1, k.2.2.2.2.1, k.2.2.2.2.2.1, k.2.2.2.2.2.2⟩⟩

/-- A session just started (R225), with a command to come. -/
def fresh (w : Word) : State := { running tiny [hwLast 0x1000#32] [freeLast] with agenda := [.write .word 0x00 w] }

/-- A session whose ring and queue are both full, the ring's slot finished. -/
def full : State :=
  { running tiny [goodLast] [sentLast] with
    txRunning := true, qEnt := [{ buf := 0xA200#32, len := 65#14 }], qLen := 1#16, bpIn := [false], allocIn := [some 0x3000#32] }

/-- A session whose ring is full and whose queue is empty. -/
def ringFull : State := { running tiny [hwLast 0x1000#32] [hwLast 0xA100#32] with txRunning := true }

/-- A session whose ring is finished and whose queue is empty. -/
def sentOnly : State := { running tiny [hwLast 0x1000#32] [sentLast] with txRunning := true, bpIn := [false] }

/-- A faulted session. -/
def faulted : State :=
  { running tiny [goodLast] [sentLast] with runState := .faulted, fault := { cause := .rxDecode, ring := .rx, slot := 0#16 } }

theorem fresh_inv (w : Word) : SessionInv (fresh w) := by
  have h : SessionInv (running tiny [hwLast 0x1000#32] [freeLast]) := sessionInv_of (by decide +kernel)
  exact ⟨h.params, h.memory, ⟨h.queue.entries, h.queue.len, h.queue.front, h.queue.back⟩, h.filter,
    ⟨h.cursors.rx, h.cursors.fill, h.cursors.reclaim, h.cursors.hwRx, h.cursors.hwTx⟩, fun k => (nomatch k),
    fun k => ⟨rfl, rfl, rfl, rfl, (h.opened k).bases, (h.opened k).rxRing, (h.opened k).txRing⟩, h.unfaulted, h.latched⟩
theorem full_inv : SessionInv full := sessionInv_of (by decide +kernel)
theorem ringFull_inv : SessionInv ringFull := sessionInv_of (by decide +kernel)
theorem faulted_inv : SessionInv faulted := sessionInv_of (by decide +kernel)
theorem full_run : RunInv full := runInv_of full_inv (by decide +kernel)
theorem sentOnly_run : RunInv sentOnly := runInv_of (sessionInv_of (by decide +kernel)) (by decide +kernel)
theorem ringFull_run : RunInv ringFull := runInv_of ringFull_inv (by decide +kernel)

/-- A session with SUBMIT of a fresh buffer to come. -/
def submitting : State := { fresh 0x00000010#32 with arg0 := 0xA100#32, arg1 := 16383#32 }
theorem submitting_run : RunInv submitting :=
  runInv_of (sessionInv_of (by decide +kernel)) (by decide +kernel)

theorem witness_DecodeOfEncode : (Instr.replenish 65535).wellFormed = true ∧ (Instr.replenish 0).wellFormed = true := by decide
theorem witness_EncodeOfDecode : decode 0x00FFFF21#32 = .ok (.replenish 65535) := rfl
theorem witness_IllegalWordsOnlyAnswer : ¬ legalWord 0x00000003#32 ∧ ¬ legalWord 0x01000021#32 ∧ ¬ legalWord 0x80000001#32 := by
  simp [legalWord]
theorem witness_StepRunsDecodedCommand :
    (fresh 0x00000020#32).agenda = .write .word 0x00 0x00000020#32 :: [] ∧ decode 0x00000020#32 = .ok .harvest := ⟨rfl, rfl⟩
theorem witness_LegalWordsAreTheElevenPatterns :
    decode 0x00FFFF21#32 = .ok (.replenish 65535) ∧ (0xFF0000FF#32, 0x00000021#32) ∈ commandRows ∧
      0x00FFFF21#32 &&& 0xFF0000FF#32 = 0x00000021#32 := ⟨rfl, by decide, by decide⟩
theorem witness_FetchWordRunsNext : (Instr.replenish 65535).wellFormed = true := by decide
theorem witness_RegisterWrites : 0x7C ∈ [0x0C, 0x7C] ∧ State.reset.runState = .stopped ∧ full.runState ≠ .stopped := by decide
theorem witness_StatusShowsState : SessionInv full ∧ SessionInv faulted ∧ tiny.wellFormed = true := ⟨full_inv, faulted_inv, by decide⟩
theorem witness_BroadcastEnableIsSticky :
    (1#32).getLsbD 0 = true ∧ (0xFFFFFFFE#32).getLsbD 0 = false ∧
      ∃ t, step { fresh 0x00000031#32 with bcastEn := true, mcBit := 1#64 } = .next t ∧
        ¬ nextIsReset { fresh 0x00000031#32 with bcastEn := true, mcBit := 1#64 } ∧
        bucketBit { fresh 0x00000031#32 with bcastEn := true, mcBit := 1#64 } (bcastBucket tiny.hashMode) = true :=
  ⟨by decide, by decide, _, rfl, by simp [nextIsReset, fresh], by decide +kernel⟩
theorem witness_UnsupportedAccessesAreRefused :
    AccessWidth.half ≠ .word ∧ 0x05 % 4 ≠ 0 ∧ 0x7C < 0x80 ∧ 0x7C % 4 = 0 ∧ 0x7C ≤ 0x7C := by decide
theorem witness_ParameterRegistersAreConstant : (fresh 0x20#32).params.wellFormed = true ∧ ∃ t, step (fresh 0x20#32) = .next t :=
  ⟨by decide, _, rfl⟩
theorem witness_HostStoresStayOutOfTheRings :
    (full.runState ≠ .stopped ∧ inRing .rx (0x107#32).toNat full = true) ∧
      (inRing .rx (0x108#32).toNat full = false ∧ inRing .tx (0x108#32).toNat full = false) ∧ State.reset.runState = .stopped := by
  decide +kernel
theorem witness_HardwareResetRestoresResetState : ({ full with agenda := [.reset] } : State).agenda = .reset :: [] := rfl
theorem witness_FaultLatchIsKept :
    (∃ t, step { running tiny [freeLast] [freeLast] with agenda := [.write .word 0x00 0x20#32] } = .next t ∧
      t.fault ≠ FaultLatch.clear) ∧
    ∃ t, step { idle tiny with allocIn := [some 0x1000#32], agenda := [.write .word 0x00 0x01#32] } = .next t ∧ t.runState = .running :=
  ⟨⟨_, rfl, by decide +kernel⟩, _, rfl, by decide +kernel⟩
theorem witness_LifecycleChangesOnlyAsListed :
    ∃ t, step { full with agenda := [.write .word 0x00 0x02#32], bpIn := [true, true, true] } = .next t ∧ t.runState ≠ .running :=
  ⟨_, rfl, by decide +kernel⟩
theorem witness_CommandsOutsideTheirLifecycleState :
    State.reset.runState = .stopped ∧ faulted.runState = .faulted ∧ 3 < State.reset.params.nRx ∧ State.reset.params.nRx ≤ 4 := by decide
theorem witness_OwnershipViolationsRaiseDeviceFault :
    (ringFull.runState = .running ∧ 0 < tiny.nRx ∧ (submitting.arg0 ≠ Config.null) ∧
      slotAt .rx 0 submitting = some (hwLast 0x1000#32) ∧ (hwLast 0x1000#32).own = false) ∧
    ((running tiny [freeLast] [invalidLast]).runState = .running ∧
      slotAt .tx 0 (running tiny [freeLast] [invalidLast]) = some invalidLast ∧ slotState invalidLast = .invalid ∧
      1 ≤ submitting.arg1.toNat ∧ submitting.arg1.toNat ≤ 16383) := by decide +kernel
theorem witness_RefillElsewhereRaisesDeviceFault :
    ({ full with txFill := 1#16 } : State).runState = .running ∧ slotAt .tx 0 { full with txFill := 1#16 } = some sentLast ∧
      slotState sentLast = .swCompleted ∧ full.qLen ≠ 0#16 ∧ (1#16 : Half) ≠ full.txReclaim := by decide +kernel
theorem witness_PostTakesOneBackpressureBit : full.bpIn = false :: [] ∧ faulted.bpIn = [] := ⟨rfl, rfl⟩
theorem witness_NoFrameIsAnsweredEmpty :
    ringFull.runState = .running ∧ slotAt .rx ringFull.rxCur.toNat ringFull = some (hwLast 0x1000#32) ∧
      slotState (hwLast 0x1000#32) = .hwOwned := by decide +kernel
theorem goodLast_good : goodFrame tiny goodLast := by unfold goodFrame; decide +kernel
theorem runtLast_bad : ¬ goodFrame tiny runtLast := by unfold goodFrame; decide +kernel
theorem witness_HarvestHandsOverGoodFrame :
    full.runState = .running ∧ slotAt .rx full.rxCur.toNat full = some goodLast ∧ slotState goodLast = .swCompleted ∧
      slotAt .rx (nextRx full.params full.rxCur).toNat full = some goodLast := by decide +kernel
theorem witness_HarvestReportsMalformedFrame :
    slotAt .rx 0 (running tiny [runtLast] [freeLast]) = some runtLast ∧ slotState runtLast = .swCompleted ∧
      slotAt .rx (nextRx tiny 0#16).toNat (running tiny [runtLast] [freeLast]) = some runtLast := by decide +kernel
theorem witness_UndecodableSlotFaults :
    (slotAt .rx 0 (running tiny [freeLast] [freeLast]) = some freeLast ∧ slotState freeLast = .free) ∧
      (slotAt .rx 0 (running tiny [invalidLast] [freeLast]) = some invalidLast ∧ slotState invalidLast = .invalid) := by decide +kernel
theorem witness_ReplenishInstallsBuffer :
    (slotAt .rx 0 { running tiny [freeLast] [freeLast] with arg0 := 0x3000#32 } = some freeLast ∧ slotState freeLast = .free) ∧
      (slotAt .rx 0 { running tiny [runtLast] [freeLast] with arg0 := 0x1000#32 } = some runtLast ∧
        slotState runtLast = .swCompleted ∧ runtLast.buf = 0x1000#32) ∧ 0 < tiny.nRx := by decide +kernel
theorem witness_ReplenishRefusesBadOperands :
    tiny.nRx ≤ 1 ∧ (0 < tiny.nRx ∧ full.arg0 = Config.null) ∧
      (slotAt .rx 0 { full with arg0 := 0x3000#32 } = some goodLast ∧ goodLast.buf ≠ 0x3000#32) := by decide +kernel
theorem witness_RxServiceInstallsFreshBuffer :
    SessionInv full ∧ answerAt full 0 = some 0x3000#32 ∧ (0x3000#32 : Word) ≠ Config.null ∧ 0x3000#32 ∉ heldRefs full :=
  ⟨full_inv, rfl, by decide, by decide +kernel⟩
theorem witness_RxServiceReturnsTheBuffer :
    slotAt .rx 0 { full with allocIn := [none] } = some goodLast ∧ answerAt { full with allocIn := [none] } 0 = none :=
  ⟨by decide +kernel, rfl⟩
theorem witness_AllocatorContractBreachIsRefused :
    (SessionInv { full with allocIn := [some 0xA200#32] } ∧ answerAt { full with allocIn := [some 0xA200#32] } 0 = some 0xA200#32 ∧
      0xA200#32 ∈ heldRefs { full with allocIn := [some 0xA200#32] }) ∧
    ((idle tiny).runState = .stopped ∧ basesFit tiny (idle tiny).rxBase (idle tiny).txBase ∧ ([] : List Word).length < tiny.nRx ∧
      answerAt { idle tiny with allocIn := [some 0#32] } 0 = some Config.null) :=
  ⟨⟨sessionInv_of (by decide +kernel), rfl, by decide +kernel⟩, rfl, by unfold basesFit; decide, by decide, rfl⟩
theorem witness_OnRxReadyClearsAndSignals :
    full.runState = .running ∧ State.reset.runState = .stopped ∧ faulted.runState = .faulted := by decide
theorem witness_SubmitFillsFreeSlot :
    submitting.runState = .running ∧ submitting.arg0 ≠ Config.null ∧ 1 ≤ submitting.arg1.toNat ∧ submitting.arg1.toNat ≤ 16383 ∧
      slotAt .tx submitting.txFill.toNat submitting = some freeLast ∧ slotState freeLast = .free ∧ submitting.qLen = 0#16 := by
  decide +kernel
theorem witness_SubmitQueuesOrAnswersBusy :
    (slotAt .tx 0 { ringFull with arg0 := 0xA300#32, arg1 := 1#32 } = some (hwLast 0xA100#32) ∧
      slotState (hwLast 0xA100#32) ≠ .invalid ∧ slotState (hwLast 0xA100#32) ≠ .free ∧ ringFull.qLen.toNat < tiny.qCap) ∧
    (slotAt .tx 0 { full with arg0 := 0xA300#32, arg1 := 1#32 } = some sentLast ∧ slotState sentLast ≠ .invalid ∧
      full.qLen ≠ 0#16 ∧ tiny.qCap ≤ full.qLen.toNat) := by decide +kernel
theorem witness_SubmitRefusesBadOperands :
    full.runState = .running ∧ full.arg0 = Config.null ∧ (0#32).toNat < 1 ∧ 16383 < (16384#32).toNat := by decide
theorem witness_OnTxCompleteDrainsInOrder :
    (RunInv full ∧ full.runState = .running ∧ slotAt .tx 0 full = some sentLast ∧ slotState sentLast = .swCompleted ∧
      0 < (queueEntries full).length) ∧
    (RunInv sentOnly ∧ sentOnly.runState = .running ∧ slotAt .tx 0 sentOnly = some sentLast ∧ sentOnly.qLen.toNat ≤ 0) ∧
    (RunInv ringFull ∧ slotAt .tx 0 ringFull = some (hwLast 0xA100#32) ∧ slotState (hwLast 0xA100#32) ≠ .swCompleted) :=
  ⟨⟨full_run, rfl, by decide +kernel⟩, ⟨sentOnly_run, rfl, by decide +kernel⟩, ringFull_run, by decide +kernel⟩
theorem witness_SubmitAppendsToPipeline :
    (RunInv submitting ∧ (txPipeline submitting).length < tiny.nTx) ∧
    (RunInv ringFull ∧ tiny.nTx ≤ (txPipeline ringFull).length ∧ (txPipeline ringFull).length < tiny.nTx + tiny.qCap) ∧
    (RunInv full ∧ tiny.nTx + tiny.qCap ≤ (txPipeline full).length) :=
  ⟨⟨submitting_run, by decide +kernel⟩, ⟨ringFull_run, by decide +kernel⟩, full_run, by decide +kernel⟩
theorem witness_PostedThenHeldIsSubmissionOrder :
    RunInv submitting ∧ ∃ t, step submitting = .next t ∧ t.runState = .running ∧ accepted submitting t = [(0xA100#32, 16383#14)] :=
  ⟨submitting_run, _, rfl, by decide +kernel, by decide +kernel⟩
theorem witness_McAddCountsOneReference :
    refCount State.reset 0#6 ≠ 255#8 ∧ refCount { State.reset with mcRef := Vector.replicate 64 255#8 } 0#6 = 255#8 := by
  decide +kernel
theorem witness_McRemoveDropsOneReference :
    refCount State.reset 0#6 = 0#8 ∧ refCount { State.reset with mcRef := Vector.replicate 64 1#8 } 0#6 ≠ 0#8 := by decide +kernel
theorem witness_McLookupOnlyReports : ∃ a : Mac, a = full.arg1.extractLsb' 0 16 ++ full.arg0 := ⟨_, rfl⟩
theorem witness_TwoAddsOneRemoveKeepTheBit : refCount State.reset (hashFn .xor6 (State.reset.arg1.extractLsb' 0 16 ++ State.reset.arg0)) = 0#8 := by
  decide +kernel
theorem witness_HashFunctionsAsWorked : ∃ s : State, s.arg0 = 0x005E0001#32 ∧ s.arg1 = 0x00000100#32 :=
  ⟨{ State.reset with arg0 := 0x005E0001#32, arg1 := 0x00000100#32 }, rfl, rfl⟩
theorem witness_StartBuildsSession :
    (idle tiny).runState = .stopped ∧ tiny.wellFormed = true ∧ basesFit tiny (idle tiny).rxBase (idle tiny).txBase ∧
      [(0x1000#32 : Word)].length = tiny.nRx ∧ [(0x1000#32 : Word)].Nodup ∧ Config.null ∉ [(0x1000#32 : Word)] ∧
      answerAt { idle tiny with allocIn := [some 0x1000#32] } 0 = some 0x1000#32 :=
  ⟨rfl, by decide, by unfold basesFit; decide, rfl, by decide, by decide, rfl⟩
theorem witness_StartWithoutBuffersPostsBack :
    [(0x1000#32 : Word)].length < ({ tiny with nRx := 2 } : Params).nRx ∧
      answerAt { idle { tiny with nRx := 2 } with allocIn := [some 0x1000#32, none] } 0 = some 0x1000#32 ∧
      answerAt { idle { tiny with nRx := 2 } with allocIn := [some 0x1000#32, none] } 1 = none := ⟨by decide, rfl, rfl⟩
theorem witness_StartRefusesBadBases :
    State.reset.runState = .stopped ∧ ¬ basesFit State.reset.params State.reset.rxBase State.reset.txBase ∧
      ¬ basesFit tiny 0xFFFFFFFC#32 0#32 := by unfold basesFit; decide
theorem witness_StopPostsEveryHeldBufferOnce : SessionInv full ∧ SessionInv faulted ∧ full.runState ≠ .stopped ∧
    loadSlot .rx 0 full = .next goodLast :=
  ⟨full_inv, faulted_inv, by decide, rfl⟩
theorem witness_DmaRxDoneGivesSlotBack :
    ringFull.rxEn = true ∧ slotAt .rx ringFull.hwRxCur.toNat ringFull = some (hwLast 0x1000#32) ∧
      slotState (hwLast 0x1000#32) = .hwOwned := by decide +kernel
theorem witness_DmaTxDoneGivesSlotBack :
    ringFull.txEn = true ∧ ringFull.txRunning = true ∧ slotAt .tx ringFull.hwTxCur.toNat ringFull = some (hwLast 0xA100#32) ∧
      slotState (hwLast 0xA100#32) = .hwOwned := by decide +kernel
theorem witness_DisabledDmaStepsChangeNothing :
    (State.reset.rxEn = false ∧ State.reset.txEn = false) ∧ submitting.txRunning = false ∧
      (slotAt .rx 0 full = some goodLast ∧ slotState goodLast ≠ .hwOwned) ∧ (slotAt .tx 0 full = some sentLast ∧ slotState sentLast ≠ .hwOwned) := by
  decide +kernel
theorem witness_HandOverNeverExposesHalfWritten : loadDesc 0x200#32 0 submitting.mem = .next freeLast ∧ freeLast.own = true ∧ 4 ≤ 4 :=
  ⟨rfl, by decide, by decide⟩
theorem witness_ResetSatisfiesRunInv : Config.reference.wellFormed = true := by decide
theorem witness_EveryStepKeepsSessionInv : SessionInv submitting ∧ ∃ t, step submitting = .next t := ⟨submitting_run.session, _, rfl⟩
theorem witness_EveryStepKeepsRunInv : RunInv submitting ∧ ∃ t, step submitting = .next t := ⟨submitting_run, _, rfl⟩
theorem witness_SessionInvariantRulesOutFaults : SessionInv full ∧ SessionInv submitting := ⟨full_inv, submitting_run.session⟩
theorem witness_HeldBuffersStayDistinct :
    RunInv submitting ∧ HeldOnce submitting ∧ (∀ w, nextCommand submitting w → hostOwnsOperand w submitting) ∧
      ∃ t, step submitting = .next t := by
  refine ⟨submitting_run, by unfold HeldOnce; decide +kernel, ?_, _, rfl⟩
  intro w h
  have hw : w = 0x10#32 := by simpa [nextCommand, submitting, fresh] using h.symm
  subst hw
  show submitting.arg0 ∉ heldRefs submitting
  decide +kernel

end Sys2Proof.Tests
end

section
/-! SUPPORT. What a step, a write of `CMD` and a command word that decodes each come to, one equation apiece; and O6, their chain. -/

namespace Sys2Proof.Proofs
open Sys2Proof.Machine

/-- A step runs the transition at the head of the agenda on the state without it (R14). -/
theorem step_of_agenda_cons {s : State} {t : Transition} {rest : List Transition} (h : s.agenda = t :: rest) :
    step s = runTransition t { s with agenda := rest } := by
  simp only [step, State.popAgenda, h, List.tail_cons]

/-- The register at offset 0x00 is `CMD`: a word written there is run as a command (R45). -/
@[simp] theorem runTransition_write_cmd (w : Word) (s : State) : runTransition (.write .word 0x00 w) s = runCommand w s := rfl

theorem runCommand_of_decode_ok {w : Word} {i : Instr} (h : decode w = .ok i) (s : State) : runCommand w s = exec i s := by
  simp only [runCommand, h]

/-- Settles O6: the step takes the write off the agenda, the write reaches `CMD`, and the word runs as what it decodes to. -/
theorem stepRunsDecodedCommand : Obligations.StepRunsDecodedCommand := by
  intro s w i rest hagenda hdecode
  calc step s = runTransition (.write .word 0x00 w) { s with agenda := rest } := step_of_agenda_cons hagenda
    _ = runCommand w { s with agenda := rest } := runTransition_write_cmd w _
    _ = exec i { s with agenda := rest } := runCommand_of_decode_ok hdecode _

end Sys2Proof.Proofs
end

section
/-! SUPPORT. Outcomes under a postcondition. `Ends o P` says that `o` stops with no fault of the model and that what it answers, where
it answers, satisfies `P`; `Answers o P` says the second alone. One rule per way of sequencing. -/

namespace Sys2Proof.Proofs
open Sys2Proof.Machine

/-- An answer satisfies `P`; a fault of the model is met only where `faults` holds; a refusal claims nothing. -/
def Post {α : Type} (faults : Prop) (o : Res α) (P : α → Prop) : Prop :=
  match o with
  | .next a => P a
  | .fault _ => faults
  | .refused _ => True

abbrev Ends {α : Type} (o : Res α) (P : α → Prop) : Prop := Post False o P
abbrev Answers {α : Type} (o : Res α) (P : α → Prop) : Prop := Post True o P

section
variable {α β σ : Type} {F : Prop}

@[simp] theorem post_next {a : α} {P : α → Prop} : Post F (.next a) P ↔ P a := Iff.rfl
@[simp] theorem post_fault {r : Fault} {P : α → Prop} : Post F (.fault r) P ↔ F := Iff.rfl
@[simp] theorem post_refused {r : Refusal} {P : α → Prop} : Post F (.refused r) P ↔ True := Iff.rfl

theorem Post.mono {o : Res α} {P Q : α → Prop} (h : Post F o P) (k : ∀ a, P a → Q a) : Post F o Q := by
  cases o with
  | next a => exact k a h
  | fault r => exact h
  | refused r => trivial

theorem Post.andThen {o : Res α} {k : α → Res β} {P : α → Prop} {Q : β → Prop} (h : Post F o P)
    (hk : ∀ a, P a → Post F (k a) Q) : Post F (andThen o k) Q := by
  cases o with
  | next a => exact hk a h
  | fault r => exact h
  | refused r => trivial

/-- A property that every listed part of a repetition keeps holds after it. -/
theorem Post.forEach {f : α → σ → Res σ} {P : σ → Prop} :
    ∀ {as : List α} {s : σ}, P s → (∀ a ∈ as, ∀ s, P s → Post F (f a s) P) → Post F (forEach f as s) P
  | [], _, hs, _ => hs
  | a :: _, s, hs, h =>
    (h a List.mem_cons_self s hs).andThen fun _ ht => Post.forEach ht fun b hb => h b (List.mem_cons_of_mem a hb)

theorem Post.of_eq_next {o : Res α} {P : α → Prop} {a : α} (h : Post F o P) (e : o = .next a) : P a := by
  subst e; exact h

theorem Post.ne_fault {o : Res α} {P : α → Prop} (h : Ends o P) (r : Fault) : o ≠ .fault r := by
  rintro rfl; exact h

theorem Post.of_eq {o : Res α} {P : α → Prop} {a : α} (e : o = .next a) (h : P a) : Post F o P := by
  subst e; exact h

theorem answers_of_next {o : Res α} {P : α → Prop} (h : ∀ a, o = .next a → P a) : Answers o P := by
  cases o with
  | next a => exact h a rfl
  | fault r => trivial
  | refused r => trivial

end

end Sys2Proof.Proofs
end

section
/-! SUPPORT. One descriptor rewritten in descriptor memory: what every write of a slot comes to, and that it leaves the other slots
alone where the rings are apart (R222). -/

namespace Sys2Proof.Proofs
open Sys2Proof.Machine Sys2Proof.Safety

/-- Memory `m'` is `m` with slot `i` of the ring at `base` rewritten to the descriptor `d`. -/
structure Rewritten (base : Word) (i : Nat) (d : Desc) (m m' : Memory) : Prop where
  wf : m.wf = true → m'.wf = true
  desc : loadDesc base i m' = .next d
  outside : sameOutside (descAddr base i) 8 m m'

theorem Rewritten.trans {base : Word} {i : Nat} {d d' : Desc} {m m' m'' : Memory} (h : Rewritten base i d m m')
    (k : Rewritten base i d' m' m'') : Rewritten base i d' m m'' :=
  ⟨fun w => k.wf (h.wf w), k.desc, fun a ha => (k.outside a ha).trans (h.outside a ha)⟩

theorem rewritten_writeBuf {base : Word} {i : Nat} {d : Desc} {m : Memory} (b : Word) (h : loadDesc base i m = .next d) :
    Rewritten base i { d with buf := b } m (writeWord (descAddr base i) b m) := by
  have top := descAddr_of_loadDesc h
  refine ⟨writeWord_wf (by omega) b, loadDesc_eq_next.2 ⟨loadWord_writeWord_same (by omega) b m, ?_⟩,
    fun c hc => readByte_writeWord_other b m (by omega)⟩
  rw [loadWord_writeWord_other (by omega)]
  exact (loadDesc_eq_next.1 h).2

theorem rewritten_writeStatus {base : Word} {i : Nat} {d : Desc} {m : Memory} (st : Word) (h : loadDesc base i m = .next d) :
    Rewritten base i { d with st := st } m (writeWord (descAddr base i + 4) st m) := by
  have top := descAddr_of_loadDesc h
  refine ⟨writeWord_wf (by omega) st, loadDesc_eq_next.2 ⟨?_, loadWord_writeWord_same (by omega) st m⟩,
    fun c hc => readByte_writeWord_other st m (by omega)⟩
  rw [loadWord_writeWord_other (by omega)]
  exact (loadDesc_eq_next.1 h).1

theorem rewritten_handedOver {base : Word} {i : Nat} (h : descAddr base i + 8 ≤ Config.memTop) (wrap : Bool) (b : Word)
    (len : BitVec 14) (m : Memory) :
    Rewritten base i { buf := b, st := statusWord false wrap 0#4 len } m (handedOver (descAddr base i) wrap b len m) :=
  ⟨handedOver_wf h, loadDesc_handedOver h, fun _ hc => readByte_handedOver_other hc⟩

/-- Both words written, as START does (R224). -/
theorem rewritten_both {base : Word} {i : Nat} (h : descAddr base i + 8 ≤ Config.memTop) (b st : Word) (m : Memory) :
    Rewritten base i { buf := b, st := st } m (writeWord (descAddr base i + 4) st (writeWord (descAddr base i) b m)) := by
  refine ⟨fun w => writeWord_wf (by omega) st (writeWord_wf (by omega) b w), loadDesc_eq_next.2 ⟨?_, ?_⟩, fun c hc => ?_⟩
  · rw [loadWord_writeWord_other (by omega), loadWord_writeWord_same (by omega)]
  · exact loadWord_writeWord_same (by omega) st _
  · rw [readByte_writeWord_other _ _ (by omega), readByte_writeWord_other _ _ (by omega)]

/-! ### Slots apart -/

/-- A descriptor read depends on its eight bytes alone. -/
theorem loadDesc_congr {base : Word} {i : Nat} {m m' : Memory}
    (h : ∀ a, descAddr base i ≤ a → a < descAddr base i + 8 → readByte m' a = readByte m a) :
    loadDesc base i m' = loadDesc base i m := by
  simp only [loadDesc, memAction, andThen_next]
  rw [loadWord_congr (a := descAddr base i + 4) fun k hk => h _ (by omega) (by omega),
    loadWord_congr (a := descAddr base i) fun k hk => h _ (by omega) (by omega)]

/-- The bytes of two descriptors do not overlap. -/
def Apart (base : Word) (i : Nat) (base' : Word) (j : Nat) : Prop :=
  descAddr base' j + 8 ≤ descAddr base i ∨ descAddr base i + 8 ≤ descAddr base' j

theorem apart_of_ne {base : Word} {i j : Nat} (h : j ≠ i) : Apart base i base j := by
  simp only [Apart, descAddr, Config.descSize]; omega

theorem Rewritten.other {base base' : Word} {i j : Nat} {d : Desc} {m m' : Memory} (h : Rewritten base i d m m')
    (k : Apart base i base' j) : loadDesc base' j m' = loadDesc base' j m :=
  loadDesc_congr fun a h1 h2 => h.outside a (by unfold Apart at k; omega)

/-- A slot of either ring, as the rule of the ring's shape counts them. -/
def InRange (g : Ring) (i : Nat) (s : State) : Prop := i < ringSize g s.params

/-- `BaseOk` in the terms of `basesFit` (R222). -/
theorem baseOk_eq_true {p : Params} {rb tb : Word} : baseOk p rb tb = true ↔ basesFit p rb tb := by
  simp only [baseOk, basesFit, Bool.and_eq_true, Bool.or_eq_true, decide_eq_true_eq, and_assoc]
  exact Iff.rfl

/-- The bases of a state are legal (R222). -/
abbrev BasesOk (s : State) : Prop := baseOk s.params s.rxBase s.txBase = true

theorem BasesOk.top {s : State} (h : BasesOk s) {g : Ring} {i : Nat} (hi : InRange g i s) :
    descAddr (ringBase g s) i + 8 ≤ Config.memTop := by
  obtain ⟨-, -, hr, ht, -⟩ := baseOk_eq_true.1 h
  cases g <;> simp only [InRange, ringSize, ringBase, descAddr, Config.descSize, Config.memTop] at * <;> omega

theorem BasesOk.apart {s : State} (h : BasesOk s) {g g' : Ring} {i j : Nat} (hi : InRange g i s) (hj : InRange g' j s)
    (hne : (g', j) ≠ (g, i)) : Apart (ringBase g s) i (ringBase g' s) j := by
  by_cases hg : g' = g
  · subst hg; exact apart_of_ne fun e => hne (by rw [e])
  · obtain ⟨-, -, -, -, hd⟩ := baseOk_eq_true.1 h
    cases g <;> cases g' <;> simp only [InRange, ringSize, ringBase, Apart, descAddr, Config.descSize, not_true_eq_false] at * <;>
      omega

@[simp] theorem loadSlot_withMem (g : Ring) (i : Nat) (s : State) (m : Memory) :
    loadSlot g i { s with mem := m } = loadDesc (ringBase g s) i m := by cases g <;> rfl

/-! ### The slot writes of the machine, each on a readable slot -/

theorem storeBuf_of_loadSlot {g : Ring} {i : Nat} {s : State} {d : Desc} (b : Word) (h : loadSlot g i s = .next d) :
    ∃ m, storeBuf g i b s = .next { s with mem := m } ∧ Rewritten (ringBase g s) i { d with buf := b } s.mem m :=
  ⟨_, storeBuf_eq_next.2 ⟨by have := descAddr_of_loadDesc h; omega, rfl⟩, rewritten_writeBuf b h⟩

theorem storeStatus_of_loadSlot {g : Ring} {i : Nat} {s : State} {d : Desc} (st : Word) (h : loadSlot g i s = .next d) :
    ∃ m, storeStatus g i st s = .next { s with mem := m } ∧ Rewritten (ringBase g s) i { d with st := st } s.mem m :=
  ⟨_, storeStatus_eq_next.2 ⟨by have := descAddr_of_loadDesc h; omega, rfl⟩, rewritten_writeStatus st h⟩

theorem handOver_of_loadSlot {g : Ring} {i : Nat} {s : State} {d : Desc} (b : Word) (len : BitVec 14)
    (h : loadSlot g i s = .next d) :
    ∃ m, handOver g i b len s = .next { s with mem := m } ∧
      Rewritten (ringBase g s) i { buf := b, st := statusWord false d.wrap 0#4 len } s.mem m :=
  ⟨_, handOver_eq_next.2 ⟨d.st, (loadDesc_eq_next.1 h).2, rfl⟩, rewritten_handedOver (descAddr_of_loadDesc h) _ _ _ _⟩

theorem initSlot_of_top {g : Ring} {i : Nat} {s : State} (b st : Word) (h : descAddr (ringBase g s) i + 8 ≤ Config.memTop) :
    ∃ m, initSlot g i b st s = .next { s with mem := m } ∧ Rewritten (ringBase g s) i { buf := b, st := st } s.mem m := by
  refine ⟨_, ?_, rewritten_both h b st s.mem⟩
  have hb := storeBuf_eq_next.2 (⟨by omega, rfl⟩ : _ ∧ { s with mem := writeWord (descAddr (ringBase g s) i) b s.mem } = _)
  rw [initSlot, hb, andThen_next]
  cases g <;> exact storeStatus_eq_next.2 ⟨by simpa [ringBase] using h, rfl⟩

end Sys2Proof.Proofs
end

section
/-! SUPPORT. The part of the state the invariants speak of. `bare` puts every other field at its reset value, so two states with equal
`bare` satisfy the same invariants and hold the same buffers. -/

namespace Sys2Proof.Proofs
open Sys2Proof.Machine Sys2Proof.Safety

/-- The state without what no invariant reads: operands, responses, counters, trace, inputs and the model's records. -/
def bare (s : State) : State :=
  { s with
    cntRxRunt := 0#32, cntRxOversize := 0#32, cntRxFlagged := 0#32, cntRxNobuf := 0#32, cntPostBp := 0#32
    arg0 := 0#32, arg1 := 0#32, resp0 := 0#32, resp1 := 0#32, resp2 := 0#32, mcRefIdx := 0#6, trace := []
    agenda := [], allocIn := [], bpIn := [], inputSeq := 0, readValue := 0#32, sent := [] }

@[simp] theorem bare_respond (res : ResultCode) (more : Bool) (slot : Half) (r1 r2 : Word) (s : State) :
    bare (respond res more slot r1 r2 s) = bare s := rfl
@[simp] theorem bare_respondOnly (res : ResultCode) (s : State) : bare (respondOnly res s) = bare s := rfl
@[simp] theorem bare_emit (e : Event) (s : State) : bare (emit e s) = bare s := rfl
@[simp] theorem bare_popAgenda (s : State) : bare s.popAgenda = bare s := rfl
@[simp] theorem bare_countMalformed (d : Desc) (s : State) : bare (countMalformed d s) = bare s := rfl

@[simp] theorem bare_post (b : Word) (s : State) : bare (post b s) = bare s := by
  unfold post takeBp; split <;> rfl

@[simp] theorem bare_takeAnswer (n : Nat) (s : State) : bare (takeAnswer n s).2 = bare s := by
  unfold takeAnswer; split <;> rfl

@[simp] theorem bare_postAll (bs : List Word) (s : State) : bare (postAll bs s) = bare s := by
  induction bs generalizing s with
  | nil => rfl
  | cons b bs ih => exact (ih (post b s)).trans (bare_post b s)

/-- Equal `bare` parts stay equal when one of their fields is rewritten alike. -/
theorem bare_congr {s t : State} (f : State → State) (hf : ∀ s, bare (f (bare s)) = bare (f s)) (h : bare t = bare s) :
    bare (f t) = bare (f s) := by
  rw [← hf t, ← hf s, h]

theorem loadSlot_bare (g : Ring) (i : Nat) (s : State) : loadSlot g i (bare s) = loadSlot g i s := by cases g <;> rfl

theorem loadSlot_of_bare {s t : State} (h : bare t = bare s) (g : Ring) (i : Nat) : loadSlot g i t = loadSlot g i s := by
  rw [← loadSlot_bare, h, loadSlot_bare]

theorem heldRefs_of_bare {s t : State} (h : bare t = bare s) : heldRefs t = heldRefs s :=
  calc heldRefs t = heldRefs (bare t) := rfl
    _ = heldRefs (bare s) := by rw [h]
    _ = heldRefs s := rfl

theorem queueShape_of_bare {s : State} (h : QueueShape (bare s)) : QueueShape s := ⟨h.entries, h.len, h.front, h.back⟩
theorem queueShape_bare {s : State} (h : QueueShape s) : QueueShape (bare s) := ⟨h.entries, h.len, h.front, h.back⟩

end Sys2Proof.Proofs

namespace Sys2Proof.Safety
open Sys2Proof.Machine Sys2Proof.Proofs

theorem SessionInv.bare {s : State} (h : SessionInv s) : SessionInv (bare s) where
  params := h.params
  memory := h.memory
  queue := queueShape_bare h.queue
  filter := h.filter
  cursors := ⟨h.cursors.rx, h.cursors.fill, h.cursors.reclaim, h.cursors.hwRx, h.cursors.hwTx⟩
  idle k := let i := h.idle k; ⟨i.rxEn, i.txEn, i.txRunning, i.enRxr, i.enTxc, i.pendRxr, i.pendTxc, i.qLen⟩
  opened k := let o := h.opened k; ⟨o.rxEn, o.txEn, o.enRxr, o.enTxc, o.bases, o.rxRing, o.txRing⟩
  unfaulted := h.unfaulted
  latched := h.latched

theorem SessionInv.of_bare {s : State} (h : SessionInv (Proofs.bare s)) : SessionInv s where
  params := h.params
  memory := h.memory
  queue := queueShape_of_bare h.queue
  filter := h.filter
  cursors := ⟨h.cursors.rx, h.cursors.fill, h.cursors.reclaim, h.cursors.hwRx, h.cursors.hwTx⟩
  idle k := let i := h.idle k; ⟨i.rxEn, i.txEn, i.txRunning, i.enRxr, i.enTxc, i.pendRxr, i.pendTxc, i.qLen⟩
  opened k := let o := h.opened k; ⟨o.rxEn, o.txEn, o.enRxr, o.enTxc, o.bases, o.rxRing, o.txRing⟩
  unfaulted := h.unfaulted
  latched := h.latched

theorem SessionInv.congr {s t : State} (h : SessionInv s) (e : Proofs.bare t = Proofs.bare s) : SessionInv t :=
  .of_bare (e ▸ h.bare)

end Sys2Proof.Safety
end

section
/-! SUPPORT. What the session invariant gives a proof: parameters as numbers, readable slots of the stated shape. -/

namespace Sys2Proof.Proofs
open Sys2Proof.Machine Sys2Proof.Safety

/-- The ranges of R9 and R10 as numbers. -/
theorem params_wellFormed_iff {p : Params} : p.wellFormed = true ↔
    (1 ≤ p.nRx ∧ p.nRx ≤ 65535) ∧ (1 ≤ p.nTx ∧ p.nTx ≤ 65535) ∧ (1 ≤ p.qCap ∧ p.qCap ≤ 65535) ∧
      1 ≤ p.minFrame ∧ p.minFrame ≤ p.maxFrame ∧ p.maxFrame ≤ 16383 := by
  simp only [Params.wellFormed, Params.sizeOk, Params.frameOk, Bool.and_eq_true, decide_eq_true_eq, and_assoc]
  exact Iff.rfl

theorem ringSize_bounds {p : Params} (h : p.wellFormed = true) (g : Ring) : 1 ≤ ringSize g p ∧ ringSize g p ≤ 65535 := by
  obtain ⟨hr, ht, -⟩ := params_wellFormed_iff.1 h
  cases g with
  | rx => exact hr
  | tx => exact ht

/-- The cursor step stays inside the ring (R36). -/
theorem nextIndex_lt {n : Nat} (h0 : 1 ≤ n) (hn : n ≤ 65535) (c : Half) : (nextIndex n c).toNat < n := by
  rw [nextIndex_toNat h0 hn]; exact Nat.mod_lt _ h0

theorem slotIs_eq_true {p : Desc → Bool} {g : Ring} {i : Nat} {s : State} :
    slotIs p g i s = true ↔ ∃ d, loadSlot g i s = .next d ∧ p d = true := by
  unfold slotIs
  cases h : loadSlot g i s <;> simp

/-- The shape of a slot's descriptor (R31, R35): `WRAP` on the last slot alone, the reserved bits 0. -/
structure Shaped (g : Ring) (i : Nat) (s : State) (d : Desc) : Prop where
  wrap : d.wrap = decide (i + 1 = ringSize g s.params)
  reserved : d.st &&& 0x3FF0C000#32 = 0#32

theorem ringShape_iff {g : Ring} {s : State} :
    RingShape g s ↔ ∀ i, InRange g i s → ∃ d, loadSlot g i s = .next d ∧ Shaped g i s d := by
  simp only [RingShape, InRange, slotIs_eq_true, Bool.and_eq_true, beq_iff_eq]
  exact forall₂_congr fun i _ => exists_congr fun d => and_congr_right fun _ => ⟨fun h => ⟨h.1, h.2⟩, fun h => ⟨h.1, h.2⟩⟩

theorem Shaped.withBuf {g : Ring} {i : Nat} {s : State} {d : Desc} (h : Shaped g i s d) (b : Word) :
    Shaped g i s { d with buf := b } := ⟨h.wrap, h.reserved⟩

/-- A status word the DRC writes keeps the shape where it keeps `WRAP`. -/
theorem Shaped.withStatus {g : Ring} {i : Nat} {s : State} {d : Desc} (h : Shaped g i s d) (b : Word) (own : Bool)
    (err : BitVec 4) (len : BitVec 14) : Shaped g i s { buf := b, st := statusWord own d.wrap err len } :=
  ⟨by rw [← h.wrap]; exact statusWord_wrap _ _ _ _, statusWord_reserved _ _ _ _⟩

theorem setOwn_wrap (d : Desc) : ({ d with st := setOwn d.st } : Desc).wrap = d.wrap := setOwn_other d.st (by decide)

theorem setOwn_reserved (st : Word) : setOwn st &&& 0x3FF0C000#32 = st &&& 0x3FF0C000#32 := by
  rw [setOwn, BitVec.and_comm, BitVec.and_or_distrib_left, BitVec.and_comm]
  simp

theorem Shaped.withOwn {g : Ring} {i : Nat} {s : State} {d : Desc} (h : Shaped g i s d) :
    Shaped g i s { d with st := setOwn d.st } :=
  ⟨by rw [setOwn_wrap]; exact h.wrap, by rw [setOwn_reserved]; exact h.reserved⟩

/-- After one slot of a ring is rewritten, it holds the new descriptor and every other slot what it held. -/
theorem loadSlot_rewritten {s : State} (hb : BasesOk s) {g g' : Ring} {i j : Nat} {d : Desc} {m : Memory} (hi : InRange g i s)
    (hj : InRange g' j s) (hm : Rewritten (ringBase g s) i d s.mem m) :
    loadSlot g' j { s with mem := m } = if (g', j) = (g, i) then .next d else loadSlot g' j s := by
  rw [loadSlot_withMem]
  split
  · next e => cases e; exact hm.desc
  · next e => exact hm.other (hb.apart hi hj e)

end Sys2Proof.Proofs

namespace Sys2Proof.Safety
open Sys2Proof.Machine Sys2Proof.Proofs

/-- Every slot of a session is readable and of the stated shape. -/
theorem SessionInv.slot {s : State} (h : SessionInv s) (hs : s.runState ≠ .stopped) {g : Ring} {i : Nat} (hi : InRange g i s) :
    ∃ d, loadSlot g i s = .next d ∧ Shaped g i s d := by
  cases g with
  | rx => exact ringShape_iff.1 (h.opened hs).rxRing i hi
  | tx => exact ringShape_iff.1 (h.opened hs).txRing i hi

/-- Rewriting one slot of a session to a descriptor of the right shape keeps the invariant. -/
theorem SessionInv.rewrite {s : State} (h : SessionInv s) (hs : s.runState ≠ .stopped) {g : Ring} {i : Nat} {d : Desc} {m : Memory}
    (hi : InRange g i s) (hd : Shaped g i s d) (hm : Rewritten (ringBase g s) i d s.mem m) : SessionInv { s with mem := m } := by
  have o := h.opened hs
  have ring (g' : Ring) : RingShape g' { s with mem := m } := by
    refine ringShape_iff.2 fun j hj => ?_
    rw [loadSlot_rewritten o.bases hi hj hm]
    split
    · next e => cases e; exact ⟨d, rfl, hd.wrap, hd.reserved⟩
    · obtain ⟨e, he, hsh⟩ := h.slot hs hj
      exact ⟨e, he, hsh.wrap, hsh.reserved⟩
  exact ⟨h.params, hm.wf h.memory, ⟨h.queue.entries, h.queue.len, h.queue.front, h.queue.back⟩, h.filter,
    ⟨h.cursors.rx, h.cursors.fill, h.cursors.reclaim, h.cursors.hwRx, h.cursors.hwTx⟩, fun k => absurd k hs,
    fun _ => ⟨o.rxEn, o.txEn, o.enRxr, o.enTxc, o.bases, ring .rx, ring .tx⟩, h.unfaulted, h.latched⟩

/-- New cursors inside their rings keep the invariant. -/
theorem SessionInv.withCursors {s : State} (h : SessionInv s) {rx fill reclaim hwRx hwTx : Half} (k1 : rx.toNat < s.params.nRx)
    (k2 : fill.toNat < s.params.nTx) (k3 : reclaim.toNat < s.params.nTx) (k4 : hwRx.toNat < s.params.nRx)
    (k5 : hwTx.toNat < s.params.nTx) :
    SessionInv { s with rxCur := rx, txFill := fill, txReclaim := reclaim, hwRxCur := hwRx, hwTxCur := hwTx } where
  params := h.params
  memory := h.memory
  queue := ⟨h.queue.entries, h.queue.len, h.queue.front, h.queue.back⟩
  filter := h.filter
  cursors := ⟨k1, k2, k3, k4, k5⟩
  idle k := let i := h.idle k; ⟨i.rxEn, i.txEn, i.txRunning, i.enRxr, i.enTxc, i.pendRxr, i.pendTxc, i.qLen⟩
  opened k := let o := h.opened k; ⟨o.rxEn, o.txEn, o.enRxr, o.enTxc, o.bases, o.rxRing, o.txRing⟩
  unfaulted := h.unfaulted
  latched := h.latched

/-- New pending bits and a new idle mark keep the invariant, outside a session when they are 0. -/
theorem SessionInv.withFlags {s : State} (h : SessionInv s) {a b c : Bool}
    (k : s.runState = .stopped → a = false ∧ b = false ∧ c = false) :
    SessionInv { s with pendRxr := a, pendTxc := b, txRunning := c } where
  params := h.params
  memory := h.memory
  queue := ⟨h.queue.entries, h.queue.len, h.queue.front, h.queue.back⟩
  filter := h.filter
  cursors := ⟨h.cursors.rx, h.cursors.fill, h.cursors.reclaim, h.cursors.hwRx, h.cursors.hwTx⟩
  idle e := let i := h.idle e; let ⟨ha, hb, hc⟩ := k e; ⟨i.rxEn, i.txEn, hc, i.enRxr, i.enTxc, ha, hb, i.qLen⟩
  opened e := let o := h.opened e; ⟨o.rxEn, o.txEn, o.enRxr, o.enTxc, o.bases, o.rxRing, o.txRing⟩
  unfaulted := h.unfaulted
  latched := h.latched

/-- A new overflow queue of the right shape keeps the invariant of a session. -/
theorem SessionInv.withQueue {s : State} (h : SessionInv s) (hs : s.runState ≠ .stopped) {ent : List QEntry} {f b l : Half}
    (hq : QueueShape { s with qEnt := ent, qFront := f, qBack := b, qLen := l }) :
    SessionInv { s with qEnt := ent, qFront := f, qBack := b, qLen := l } where
  params := h.params
  memory := h.memory
  queue := hq
  filter := h.filter
  cursors := ⟨h.cursors.rx, h.cursors.fill, h.cursors.reclaim, h.cursors.hwRx, h.cursors.hwTx⟩
  idle e := absurd e hs
  opened e := let o := h.opened e; ⟨o.rxEn, o.txEn, o.enRxr, o.enTxc, o.bases, o.rxRing, o.txRing⟩
  unfaulted := h.unfaulted
  latched := h.latched

/-- A raised DeviceFault keeps the invariant of a session (R266). -/
theorem SessionInv.raise {s : State} (h : SessionInv s) (hs : s.runState ≠ .stopped) {c : FaultCause} (hc : c ≠ .none) (g : Ring)
    (slot : Half) (n : Word) : SessionInv (raiseDeviceFault c g slot n s) where
  params := h.params
  memory := h.memory
  queue := ⟨h.queue.entries, h.queue.len, h.queue.front, h.queue.back⟩
  filter := h.filter
  cursors := ⟨h.cursors.rx, h.cursors.fill, h.cursors.reclaim, h.cursors.hwRx, h.cursors.hwTx⟩
  idle e := nomatch e
  opened _ := let o := h.opened hs; ⟨o.rxEn, o.txEn, o.enRxr, o.enTxc, o.bases, o.rxRing, o.txRing⟩
  unfaulted e := nomatch e
  latched _ := hc

end Sys2Proof.Safety
end

section
/-! SUPPORT. Where the DRC holds a buffer (R64): the places are the slots of both rings and the occupied overflow entries. Membership in
`heldRefs` and R65 item 8 are put in terms of places, so that a command's effect on them is read off place by place. -/

namespace Sys2Proof.Proofs
open Sys2Proof.Machine Sys2Proof.Safety

/-- A place that can hold a buffer. -/
inductive Place where
  | slot (g : Ring) (i : Nat)
  | entry (k : Nat)
  deriving DecidableEq

/-- Overflow entry number `k` from the front (R37). -/
def entryAt (s : State) (k : Nat) : QEntry := s.qEnt.getD ((s.qFront.toNat + k) % s.params.qCap) emptyEntry

theorem queueEntries_eq (s : State) : queueEntries s = (List.range s.qLen.toNat).map (entryAt s) := rfl

/-- The place holds the buffer `b`. -/
def Holds (s : State) (b : Word) : Place → Prop
  | .slot g i => InRange g i s ∧ ∃ d, loadSlot g i s = .next d ∧ d.buf = b ∧ b ≠ Config.null
  | .entry k => k < s.qLen.toNat ∧ (entryAt s k).buf = b

/-- The buffer of a slot, where it is readable and holds one. -/
def slotRef (g : Ring) (i : Nat) (s : State) : Option Word :=
  match loadSlot g i s with
  | .next d => if d.buf = Config.null then none else some d.buf
  | .fault _ => none
  | .refused _ => none

theorem slotRef_eq_some {g : Ring} {i : Nat} {s : State} {b : Word} :
    slotRef g i s = some b ↔ ∃ d, loadSlot g i s = .next d ∧ d.buf = b ∧ b ≠ Config.null := by
  unfold slotRef
  cases h : loadSlot g i s with
  | next d =>
    by_cases hd : d.buf = Config.null
    · simp only [hd, if_true, Host.Outcome.next.injEq, exists_eq_left', reduceCtorEq, false_iff, not_and, not_not]
      exact fun e => e.symm
    · simp only [hd, if_false, Option.some.injEq, Host.Outcome.next.injEq, exists_eq_left']
      exact ⟨fun e => ⟨e, e ▸ hd⟩, fun e => e.1⟩
  | fault r => simp
  | refused r => simp

theorem ringRefs_eq (g : Ring) (s : State) :
    ringRefs g s = (List.range (ringSize g s.params)).filterMap fun i => slotRef g i s := rfl

theorem heldRefs_of_session {s : State} (hs : s.runState ≠ .stopped) :
    heldRefs s = ringRefs .rx s ++ ringRefs .tx s ++ (queueEntries s).map QEntry.buf := by
  unfold heldRefs
  cases h : s.runState with
  | stopped => exact absurd h hs
  | running => rfl
  | faulted => rfl

theorem heldRefs_of_stopped {s : State} (hs : s.runState = .stopped) : heldRefs s = [] := by
  unfold heldRefs; rw [hs]

theorem mem_ringRefs {g : Ring} {s : State} {b : Word} : b ∈ ringRefs g s ↔ ∃ i, Holds s b (.slot g i) := by
  simp only [ringRefs_eq, List.mem_filterMap, List.mem_range, slotRef_eq_some, Holds, InRange]

theorem mem_queueRefs {s : State} {b : Word} : b ∈ (queueEntries s).map QEntry.buf ↔ ∃ k, Holds s b (.entry k) := by
  simp only [queueEntries_eq, List.map_map, List.mem_map, List.mem_range, Function.comp, Holds]

theorem mem_heldRefs {s : State} (hs : s.runState ≠ .stopped) {b : Word} : b ∈ heldRefs s ↔ ∃ p, Holds s b p := by
  rw [heldRefs_of_session hs, List.mem_append, List.mem_append, mem_ringRefs, mem_ringRefs, mem_queueRefs]
  constructor
  · rintro ((⟨i, h⟩ | ⟨i, h⟩) | ⟨k, h⟩) <;> exact ⟨_, h⟩
  · rintro ⟨p, h⟩
    cases p with
    | slot g i =>
      cases g with
      | rx => exact .inl (.inl ⟨i, h⟩)
      | tx => exact .inl (.inr ⟨i, h⟩)
    | entry k => exact .inr ⟨k, h⟩

/-- No two places of the list `l` hold the same. -/
theorem nodup_filterMap_range {α : Type} {f : Nat → Option α} {n : Nat} :
    ((List.range n).filterMap f).Nodup ↔ ∀ i j b, i < n → j < n → f i = some b → f j = some b → i = j := by
  rw [List.Nodup, List.pairwise_filterMap, List.pairwise_iff_getElem]
  simp only [List.length_range, List.getElem_range]
  constructor
  · intro h i j b hi hj ei ej
    rcases Nat.lt_trichotomy i j with hij | hij | hij
    · exact absurd rfl (h i j hi hj hij b ei b ej)
    · exact hij
    · exact absurd rfl (h j i hj hi hij b ej b ei)
  · rintro h i j hi hj hij b ei c ej rfl
    exact absurd (h i j b hi hj ei ej) (by omega)

theorem nodup_ringRefs {g : Ring} {s : State} :
    (ringRefs g s).Nodup ↔ ∀ i j b, Holds s b (.slot g i) → Holds s b (.slot g j) → i = j := by
  simp only [ringRefs_eq, nodup_filterMap_range, slotRef_eq_some, Holds, InRange]
  exact ⟨fun h i j b hi hj => h i j b hi.1 hj.1 hi.2 hj.2, fun h i j b hi hj ei ej => h i j b ⟨hi, ei⟩ ⟨hj, ej⟩⟩

theorem nodup_queueRefs {s : State} :
    ((queueEntries s).map QEntry.buf).Nodup ↔ ∀ i j b, Holds s b (.entry i) → Holds s b (.entry j) → i = j := by
  have e : (queueEntries s).map QEntry.buf = (List.range s.qLen.toNat).filterMap fun k => some (entryAt s k).buf := by
    rw [queueEntries_eq, List.map_map, ← List.filterMap_eq_map]; rfl
  simp only [e, nodup_filterMap_range, Option.some.injEq, Holds]
  exact ⟨fun h i j b hi hj => h i j b hi.1 hj.1 hi.2 hj.2, fun h i j b hi hj ei ej => h i j b ⟨hi, ei⟩ ⟨hj, ej⟩⟩

/-- R65 item 8 place by place: a buffer is held in one place only. -/
theorem heldOnce_iff {s : State} (hs : s.runState ≠ .stopped) :
    HeldOnce s ↔ ∀ b p q, Holds s b p → Holds s b q → p = q := by
  rw [HeldOnce, heldRefs_of_session hs, List.nodup_append', List.nodup_append', nodup_ringRefs, nodup_ringRefs, nodup_queueRefs]
  simp only [List.disjoint_left, List.mem_append, mem_ringRefs, mem_queueRefs]
  constructor
  · rintro ⟨⟨hr, ht, hrt⟩, hq, hsq⟩ b p q hp hq'
    rcases p with ⟨_ | _, i⟩ | i <;> rcases q with ⟨_ | _, j⟩ | j
    · rw [hr i j b hp hq']
    · exact absurd ⟨j, hq'⟩ (hrt ⟨i, hp⟩)
    · exact absurd ⟨j, hq'⟩ (hsq (.inl ⟨i, hp⟩))
    · exact absurd ⟨i, hp⟩ (hrt ⟨j, hq'⟩)
    · rw [ht i j b hp hq']
    · exact absurd ⟨j, hq'⟩ (hsq (.inr ⟨i, hp⟩))
    · exact absurd ⟨i, hp⟩ (hsq (.inl ⟨j, hq'⟩))
    · exact absurd ⟨i, hp⟩ (hsq (.inr ⟨j, hq'⟩))
    · rw [hq i j b hp hq']
  · intro h
    refine ⟨⟨?_, ?_, ?_⟩, ?_, ?_⟩
    · intro i j b hi hj; cases h b _ _ hi hj; rfl
    · intro i j b hi hj; cases h b _ _ hi hj; rfl
    · rintro b ⟨i, hi⟩ ⟨j, hj⟩; cases h b _ _ hi hj
    · intro i j b hi hj; cases h b _ _ hi hj; rfl
    · rintro b (⟨i, hi⟩ | ⟨i, hi⟩) ⟨j, hj⟩ <;> cases h b _ _ hi hj

/-- What each place holds after one slot of a ring is rewritten. -/
theorem holds_rewritten {s : State} (hb : BasesOk s) {g : Ring} {i : Nat} {d : Desc} {m : Memory} (hi : InRange g i s)
    (hm : Rewritten (ringBase g s) i d s.mem m) (b : Word) (p : Place) :
    Holds { s with mem := m } b p ↔ if p = .slot g i then d.buf = b ∧ b ≠ Config.null else Holds s b p := by
  cases p with
  | entry k => simp [Holds, entryAt]
  | slot g' j =>
    simp only [Holds, Place.slot.injEq]
    constructor
    · rintro ⟨hj, e, he, hbuf⟩
      rw [loadSlot_rewritten hb hi hj hm] at he
      split at he
      · next hp => cases hp; cases he; simpa using hbuf
      · next hp => rw [if_neg (by rintro ⟨rfl, rfl⟩; exact hp rfl)]; exact ⟨hj, e, he, hbuf⟩
    · split
      · next hp =>
        obtain ⟨rfl, rfl⟩ := hp
        exact fun hbuf => ⟨hi, d, hm.desc, hbuf⟩
      · next hp =>
        rintro ⟨hj, e, he, hbuf⟩
        refine ⟨hj, e, ?_, hbuf⟩
        rw [loadSlot_rewritten hb hi hj hm, if_neg (by rintro h; cases h; exact hp ⟨rfl, rfl⟩)]
        exact he

end Sys2Proof.Proofs
end

section
/-! SUPPORT. The allocator's answers as the statements count them (R60, log 3): what a request takes and what it answers. -/

namespace Sys2Proof.Proofs
open Sys2Proof.Machine Sys2Proof.Safety

/-- The state once the next `k` answers of the allocator have been taken: the listed ones first, then free ones. -/
def afterAnswers (k : Nat) (s : State) : State :=
  { s with allocIn := s.allocIn.drop k, inputSeq := s.inputSeq + (k - s.allocIn.length) }

@[simp] theorem afterAnswers_zero (s : State) : afterAnswers 0 s = s := by
  simp only [afterAnswers, List.drop_zero, Nat.zero_sub, Nat.add_zero]

@[simp] theorem bare_afterAnswers (k : Nat) (s : State) : bare (afterAnswers k s) = bare s := rfl

/-- Answer number `k` is what a request after `k` others gets. -/
theorem takeAnswer_afterAnswers (k : Nat) (s : State) :
    takeAnswer s.params.maxFrame (afterAnswers k s) = (answerAt s k, afterAnswers (k + 1) s) := by
  unfold takeAnswer
  by_cases hk : k < s.allocIn.length
  · have e : s.allocIn.drop k = s.allocIn[k] :: s.allocIn.drop (k + 1) := List.drop_eq_getElem_cons hk
    have ha : answerAt s k = s.allocIn[k] := by simp only [answerAt, List.getElem?_eq_getElem hk]
    simp only [afterAnswers, e, ha, Nat.sub_eq_zero_of_le hk, Nat.sub_eq_zero_of_le hk.le]
  · have hk := Nat.le_of_not_lt hk
    have ha : answerAt s k = Config.allocAnswer s.params.maxFrame (s.inputSeq + (k - s.allocIn.length)) := by
      simp only [answerAt, List.getElem?_eq_none hk]
    simp only [afterAnswers, ha, List.drop_of_length_le hk, List.drop_of_length_le (Nat.le_succ_of_le hk),
      Nat.succ_sub hk, Nat.add_succ, Nat.add_zero]

/-- All an allocator request can answer, by the answer it meets (R60, U7). -/
theorem allocGet_afterAnswers_none {k : Nat} {s : State} (h : answerAt s k = none) (held : List Word) :
    allocGet held (afterAnswers k s) = .next (none, afterAnswers (k + 1) s) := by
  have e : takeAnswer (afterAnswers k s).params.maxFrame (afterAnswers k s) = _ := takeAnswer_afterAnswers k s
  simp only [allocGet, e, h]

theorem allocGet_afterAnswers_some {k : Nat} {s : State} {b : Word} (h : answerAt s k = some b) {held : List Word}
    (h0 : b ≠ Config.null) (h1 : b ∉ held) (h2 : b ∉ heldRefs s) :
    allocGet held (afterAnswers k s) = .next (some b, afterAnswers (k + 1) s) := by
  have e : takeAnswer (afterAnswers k s).params.maxFrame (afterAnswers k s) = _ := takeAnswer_afterAnswers k s
  have hr : heldRefs (afterAnswers k s) = heldRefs s := rfl
  simp only [allocGet, e, h, hr, h0, h1, h2, or_self, if_false]

theorem allocGet_afterAnswers_breach {k : Nat} {s : State} {b : Word} (h : answerAt s k = some b) {held : List Word}
    (hb : b = Config.null ∨ b ∈ held ∨ b ∈ heldRefs s) :
    allocGet held (afterAnswers k s) = .refused (.allocatorContract b) := by
  have e : takeAnswer (afterAnswers k s).params.maxFrame (afterAnswers k s) = _ := takeAnswer_afterAnswers k s
  have hr : heldRefs (afterAnswers k s) = heldRefs s := rfl
  simp only [allocGet, e, h, hr, hb, if_true]

end Sys2Proof.Proofs
end

section
/-! SUPPORT. The Rx commands run on a readable slot at the cursor: HarvestCore case by case, and what HARVEST, REPLENISH and RX_SERVICE
make of it, each as the state they answer. -/

namespace Sys2Proof.Proofs
open Sys2Proof.Machine Sys2Proof.Safety

/-! ### Frames -/

theorem isMalformed_eq_false {p : Params} {d : Desc} : isMalformed p d = false ↔ goodFrame p d := by
  simp only [isMalformed, isFlagged, isRunt, isOversize, goodFrame, Bool.or_eq_false_iff, bne_eq_false_iff_eq,
    decide_eq_false_iff_not, Nat.not_lt, and_assoc]

theorem isMalformed_eq_true {p : Params} {d : Desc} : isMalformed p d = true ↔ ¬ goodFrame p d := by
  rw [← isMalformed_eq_false, Bool.not_eq_false]

/-- `ERR` and `LEN` in their places, as `ERROR` reports them (R114). -/
theorem errorReport_eq (d : Desc) : errorReport d.st = d.err.setWidth 32 <<< 16 ||| d.len.setWidth 32 := by
  apply BitVec.eq_of_getLsbD_eq
  intro i hi
  simp only [errorReport, Desc.err, Desc.len, BitVec.getLsbD_and, BitVec.getLsbD_or, BitVec.getLsbD_shiftLeft,
    BitVec.getLsbD_setWidth, BitVec.getLsbD_extractLsb']
  interval_cases i <;> simp

/-- A status word the DRC hands over with `LEN` 0 is the `WRAP` bit alone (R143). -/
theorem wrapBit_eq (d : Desc) : wrapBit d = statusWord false d.wrap 0#4 0#14 := by
  unfold wrapBit; cases d.wrap <;> rfl

/-! ### HarvestCore (R144) -/

/-- The state once `MoreCheck` has signalled the next frame, where there is one (R146). -/
def signalMore (more : Bool) (s : State) : State := { s with trace := s.trace ++ frameAvailIf more }

theorem moreCheck_of_loadSlot {s : State} {e : Desc} (h : loadSlot .rx s.rxCur.toNat s = .next e) :
    moreCheck s = .next (slotState e == .swCompleted, signalMore (slotState e == .swCompleted) s) := by
  refine moreCheck_eq_next.2 ⟨e, h, ?_⟩
  by_cases hc : slotState e = .swCompleted
  · simp [hc, signalMore, frameAvailIf, emit]
  · simp [hc, signalMore, frameAvailIf]

/-- The state once the slot at the cursor has lost its buffer. -/
def emptied (s : State) : State := { s with mem := writeWord (descAddr s.rxBase s.rxCur.toNat) Config.null s.mem }

/-- The state HarvestCore leaves at a malformed frame `d`, the cursor moving on to `e`. -/
def afterBad (d e : Desc) (s : State) : State :=
  signalMore (slotState e == .swCompleted) (advanceRx (countMalformed d s))

/-- The state HarvestCore leaves at a good frame, the cursor moving on to `e`. -/
def afterGood (e : Desc) (s : State) : State := signalMore (moreAfterFrame s e) (advanceRx (emptied s))

@[simp] theorem bare_signalMore (more : Bool) (s : State) : bare (signalMore more s) = bare s := rfl
theorem bare_afterBad (d e : Desc) (s : State) : bare (afterBad d e s) = bare (advanceRx s) := bare_signalMore _ _
theorem bare_afterGood (e : Desc) (s : State) : bare (afterGood e s) = bare (advanceRx (emptied s)) := bare_signalMore _ _
theorem bare_afterBad_withMem (d e : Desc) (s : State) (m : Memory) :
    bare { afterBad d e s with mem := m } = bare { s with mem := m, rxCur := nextRx s.params s.rxCur } :=
  bare_congr (fun x => { x with mem := m }) (fun _ => rfl) (bare_afterBad d e s)
theorem bare_afterGood_withMem (e : Desc) (s : State) (m : Memory) :
    bare { afterGood e s with mem := m } = bare { s with mem := m, rxCur := nextRx s.params s.rxCur } := rfl

section
variable {s : State} {d e : Desc} (hd : loadSlot .rx s.rxCur.toNat s = .next d)
include hd

theorem harvestCore_empty (hc : slotState d = .hwOwned) : harvestCore s = .next (.empty s.rxCur, s) := by
  simp only [harvestCore, hd, andThen_next, hc]

theorem harvestCore_undecodable (hc : slotState d = .free ∨ slotState d = .invalid) :
    harvestCore s = .next (.undecodable s.rxCur, s) := by
  rcases hc with hc | hc <;> simp only [harvestCore, hd, andThen_next, hc]

theorem rewritten_emptied : Rewritten s.rxBase s.rxCur.toNat { d with buf := Config.null } s.mem (emptied s).mem :=
  rewritten_writeBuf Config.null hd

theorem storeBuf_emptied : storeBuf .rx s.rxCur.toNat Config.null s = .next (emptied s) :=
  storeBuf_eq_next.2 ⟨by have := descAddr_of_loadDesc hd; omega, rfl⟩

/-- A buffer installed in the slot that HarvestCore has emptied. -/
theorem installRx_emptied {u : State} (hu : u.mem = (emptied s).mem) (hb : u.rxBase = s.rxBase) (b : Word) : ∃ m,
    Rewritten s.rxBase s.rxCur.toNat { buf := b, st := wrapBit d } s.mem m ∧
      installRx s.rxCur.toNat b u = .next { u with mem := m } := by
  have hw := rewritten_emptied hd
  have hl : loadSlot .rx s.rxCur.toNat u = .next { d with buf := Config.null } := by
    simp only [loadSlot, ringBase, hb, hu]; exact hw.desc
  obtain ⟨m, hi, hm⟩ := handOver_of_loadSlot b 0#14 hl
  refine ⟨m, ?_, hi⟩
  simp only [ringBase, hb, hu] at hm
  exact wrapBit_eq d ▸ hw.trans hm

variable (hc : slotState d = .swCompleted) (he : loadSlot .rx (nextRx s.params s.rxCur).toNat s = .next e)
include hc he

theorem harvestCore_bad (hf : ¬ goodFrame s.params d) :
    harvestCore s = .next (.bad (slotState e == .swCompleted) s.rxCur d.buf d.st, afterBad d e s) := by
  have hm : moreCheck (advanceRx (countMalformed d s)) = _ := moreCheck_of_loadSlot he
  simp only [harvestCore, hd, andThen_next, hc, harvestCompleted, isMalformed_eq_true.2 hf, if_true, hm, afterBad]

/-- In a ring of one slot the cursor moves on to the slot just emptied, which tells of no further frame. -/
theorem moreCheck_emptied : moreCheck (advanceRx (emptied s)) = .next (moreAfterFrame s e, afterGood e s) := by
  by_cases hn : nextRx s.params s.rxCur = s.rxCur
  · have hl : loadSlot .rx (advanceRx (emptied s)).rxCur.toNat (advanceRx (emptied s)) = .next { d with buf := Config.null } := by
      show loadDesc s.rxBase (nextRx s.params s.rxCur).toNat (emptied s).mem = _
      rw [hn]; exact (rewritten_emptied hd).desc
    have hfree : slotState { d with buf := Config.null } = .free := slotState_eq_free.2 ⟨(slotState_eq_swCompleted.1 hc).1, rfl⟩
    have hmore : moreAfterFrame s e = false := by simp only [moreAfterFrame, hn, ne_eq, not_true, decide_false, Bool.false_and]
    rw [moreCheck_of_loadSlot hl, hfree, afterGood, hmore]
    rfl
  · have hne : (nextRx s.params s.rxCur).toNat ≠ s.rxCur.toNat := fun h => hn (BitVec.eq_of_toNat_eq h)
    have hl : loadSlot .rx (advanceRx (emptied s)).rxCur.toNat (advanceRx (emptied s)) = .next e :=
      ((rewritten_emptied hd).other (apart_of_ne hne)).trans he
    have hmore : moreAfterFrame s e = (slotState e == .swCompleted) := by
      simp only [moreAfterFrame, hn, ne_eq, not_false_eq_true, decide_true, Bool.true_and]
    rw [moreCheck_of_loadSlot hl, afterGood, hmore]

theorem harvestCore_good (hf : goodFrame s.params d) :
    harvestCore s = .next (.good (moreAfterFrame s e) s.rxCur d.buf d.len, afterGood e s) := by
  simp only [harvestCore, hd, andThen_next, hc, harvestCompleted, isMalformed_eq_false.2 hf, Bool.false_eq_true, if_false,
    storeBuf_emptied hd, moreCheck_emptied hd hc he]

/-! ### HARVEST and RX_SERVICE while RUNNING -/

variable (hr : s.runState = .running)
include hr

theorem execHarvest_bad (hf : ¬ goodFrame s.params d) : execHarvest s =
    .next (respond .error (slotState e == .swCompleted) s.rxCur d.buf (errorReport d.st) (afterBad d e s)) := by
  rw [execHarvest, ringGate_running hr, harvestCore_bad hd hc he hf, andThen_next]

theorem execHarvest_good (hf : goodFrame s.params d) : execHarvest s =
    .next (respond .frame (moreAfterFrame s e) s.rxCur d.buf (d.len.setWidth 32) (afterGood e s)) := by
  rw [execHarvest, ringGate_running hr, harvestCore_good hd hc he hf, andThen_next]

/-- A malformed frame: its buffer goes back into the slot (R151). -/
theorem execRxService_bad (hf : ¬ goodFrame s.params d) : ∃ m,
    Rewritten s.rxBase s.rxCur.toNat { buf := d.buf, st := wrapBit d } s.mem m ∧ execRxService s =
      .next (respond .error (slotState e == .swCompleted) s.rxCur 0#32 (errorReport d.st) { afterBad d e s with mem := m }) := by
  obtain ⟨m, hi, hm⟩ := handOver_of_loadSlot (g := .rx) (i := s.rxCur.toNat) (s := afterBad d e s) (d := d) d.buf 0#14 hd
  refine ⟨m, wrapBit_eq d ▸ hm, ?_⟩
  rw [execRxService, ringGate_running hr, harvestCore_bad hd hc he hf, andThen_next]
  simp only [installRx, hi, andThen_next]

variable (hf : goodFrame s.params d)
include hf

/-- No fresh buffer: the frame is dropped and counted, its buffer goes back into the slot (R151). -/
theorem execRxService_none (ha : answerAt s 0 = none) : ∃ m,
    Rewritten s.rxBase s.rxCur.toNat { buf := d.buf, st := wrapBit d } s.mem m ∧ execRxService s =
      .next (respond .dropped (moreAfterFrame s e) s.rxCur 0#32 (d.len.setWidth 32)
        { afterAnswers 1 (afterGood e s) with cntRxNobuf := s.cntRxNobuf + 1#32, mem := m }) := by
  obtain ⟨m, hm, hi⟩ := installRx_emptied hd
    (u := { afterAnswers 1 (afterGood e s) with cntRxNobuf := s.cntRxNobuf + 1#32 }) rfl rfl d.buf
  refine ⟨m, hm, ?_⟩
  have hg := allocGet_afterAnswers_none (k := 0) (s := afterGood e s) ha [d.buf]
  rw [afterAnswers_zero] at hg
  rw [execRxService, ringGate_running hr, harvestCore_good hd hc he hf, andThen_next]
  simp only [serviceFrame, hg, andThen_next]
  exact congrArg (andThen · _) hi

/-- A fresh buffer: it goes into the slot, and the frame is handed over (R151). -/
theorem execRxService_some {b : Word} (ha : answerAt s 0 = some b) (h0 : b ≠ Config.null) (h1 : b ≠ d.buf)
    (h2 : b ∉ heldRefs (afterGood e s)) : ∃ m,
    Rewritten s.rxBase s.rxCur.toNat { buf := b, st := wrapBit d } s.mem m ∧ execRxService s =
      .next (respond .frame (moreAfterFrame s e) s.rxCur d.buf (d.len.setWidth 32)
        { afterAnswers 1 (afterGood e s) with mem := m }) := by
  obtain ⟨m, hm, hi⟩ := installRx_emptied hd (u := afterAnswers 1 (afterGood e s)) rfl rfl b
  refine ⟨m, hm, ?_⟩
  have hg := allocGet_afterAnswers_some (k := 0) (s := afterGood e s) ha h0 (by simpa using h1 : b ∉ [d.buf]) h2
  rw [afterAnswers_zero] at hg
  rw [execRxService, ringGate_running hr, harvestCore_good hd hc he hf, andThen_next]
  simp only [serviceFrame, hg, andThen_next, hi]

/-- An answer the allocator's contract rules out is refused (U7). -/
theorem execRxService_breach {b : Word} (ha : answerAt s 0 = some b)
    (hb : b = Config.null ∨ b = d.buf ∨ b ∈ heldRefs (afterGood e s)) :
    execRxService s = .refused (.allocatorContract b) := by
  have hg := allocGet_afterAnswers_breach (k := 0) (s := afterGood e s) (held := [d.buf]) ha (by simpa using hb)
  rw [afterAnswers_zero] at hg
  rw [execRxService, ringGate_running hr, harvestCore_good hd hc he hf, andThen_next]
  simp only [serviceFrame, hg, andThen_refused]

end

/-- Taking the frame from the slot takes its buffer out of what the DRC holds, and nothing else. -/
theorem mem_heldRefs_afterGood {s : State} (h : SessionInv s) (hs : s.runState ≠ .stopped) {d e : Desc}
    (hd : loadSlot .rx s.rxCur.toNat s = .next d) (hc : slotState d = .swCompleted) {b : Word} :
    b ∈ heldRefs s ↔ b = d.buf ∨ b ∈ heldRefs (afterGood e s) := by
  have hi : InRange .rx s.rxCur.toNat s := h.cursors.rx
  have hw : ∀ p, Holds (afterGood e s) b p ↔ _ :=
    holds_rewritten (h.opened hs).bases hi (rewritten_emptied hd) b
  have hat : Holds s b (.slot .rx s.rxCur.toNat) ↔ b = d.buf := by
    simp only [Holds, hd, Host.Outcome.next.injEq, exists_eq_left', hi, true_and]
    exact ⟨fun k => k.1.symm, fun k => ⟨k.symm, k ▸ (slotState_eq_swCompleted.1 hc).2⟩⟩
  rw [mem_heldRefs hs, mem_heldRefs (s := afterGood e s) hs]
  constructor
  · rintro ⟨p, hp⟩
    by_cases hpe : p = .slot .rx s.rxCur.toNat
    · exact .inl (hat.1 (hpe ▸ hp))
    · exact .inr ⟨p, (hw p).2 (by rwa [if_neg hpe])⟩
  · rintro (hb | ⟨p, hp⟩)
    · exact ⟨_, hat.2 hb⟩
    · have hp := (hw p).1 hp
      split at hp
      · exact absurd hp.1.symm hp.2
      · exact ⟨p, hp⟩

end Sys2Proof.Proofs
end

section
/-! SUPPORT. START's first loop (R220, R223), one answer of the allocator at a time. -/

namespace Sys2Proof.Proofs
open Sys2Proof.Machine Sys2Proof.Safety

section
variable {s : State} (hs : s.runState = .stopped)
include hs

theorem obtainBuffers_some {left k : Nat} {got : List Word} {b : Word} (ha : answerAt s k = some b) (h0 : b ≠ Config.null)
    (h1 : b ∉ got) :
    obtainBuffers (left + 1) got (afterAnswers k s) = obtainBuffers left (got ++ [b]) (afterAnswers (k + 1) s) := by
  have h2 : b ∉ heldRefs s := by rw [heldRefs_of_stopped hs]; exact List.not_mem_nil
  simp only [obtainBuffers, allocGet_afterAnswers_some ha h0 h1 h2, andThen_next]

omit hs in
theorem obtainBuffers_none {left k : Nat} {got : List Word} (ha : answerAt s k = none) :
    obtainBuffers (left + 1) got (afterAnswers k s) = .next (false, got, afterAnswers (k + 1) s) := by
  simp only [obtainBuffers, allocGet_afterAnswers_none ha, andThen_next]

omit hs in
theorem obtainBuffers_breach {left k : Nat} {got : List Word} {b : Word} (ha : answerAt s k = some b)
    (hb : b = Config.null ∨ b ∈ got) :
    obtainBuffers (left + 1) got (afterAnswers k s) = .refused (.allocatorContract b) := by
  have hb : b = Config.null ∨ b ∈ got ∨ b ∈ heldRefs s := hb.imp_right .inl
  simp only [obtainBuffers, allocGet_afterAnswers_breach ha hb, andThen_refused]

/-- Answers that keep the contract are all obtained, in order. -/
theorem obtainBuffers_append (left : Nat) {bufs : List Word} :
    ∀ {got : List Word}, (got ++ bufs).Nodup → Config.null ∉ bufs →
      (∀ i, ∀ h : i < bufs.length, answerAt s (got.length + i) = some bufs[i]) →
      obtainBuffers (bufs.length + left) got (afterAnswers got.length s) =
        obtainBuffers left (got ++ bufs) (afterAnswers (got.length + bufs.length) s) := by
  induction bufs with
  | nil => intro got _ _ _; simp
  | cons b bufs ih =>
    intro got hn h0 ha
    have hb : b ∉ got := fun h => (List.nodup_append'.1 hn).2.2 h List.mem_cons_self
    have e : (b :: bufs).length + left = (bufs.length + left) + 1 := by simp only [List.length_cons]; omega
    have ha0 : answerAt s got.length = some b := ha 0 (Nat.succ_pos _)
    rw [e, obtainBuffers_some hs ha0 (fun h => h0 (h ▸ List.mem_cons_self)) hb]
    have hrec := ih (got := got ++ [b]) (by simpa using hn) (fun h => h0 (List.mem_cons_of_mem b h)) fun i hi => by
      have := ha (i + 1) (by simpa using hi)
      simpa [Nat.add_assoc, Nat.add_comm 1] using this
    rw [List.length_append, List.length_singleton] at hrec
    rw [hrec, List.append_assoc, List.singleton_append, List.length_cons, Nat.add_assoc, Nat.add_comm 1]

/-- START on legal bases begins with the allocator (R220). -/
theorem execStart_of_basesFit (hb : basesFit s.params s.rxBase s.txBase) : execStart s = startSession s := by
  simp only [execStart, hs, baseOk_eq_true.2 hb, if_true]

end

end Sys2Proof.Proofs
end

section
/-! The Rx commands' statements on a completed frame: O27 (HARVEST of a malformed frame), O31 and O32 (RX_SERVICE), and O33 (an answer the
allocator cannot give). -/

namespace Sys2Proof.Proofs
open Sys2Proof.Machine Sys2Proof.Safety

/-- `HarvestCore` at a malformed frame, field by field. -/
theorem afterBad_eq (d e : Desc) (s : State) : afterBad d e s =
    { s with
      rxCur := nextRx s.params s.rxCur
      cntRxRunt := if d.len.toNat < s.params.minFrame then s.cntRxRunt + 1#32 else s.cntRxRunt
      cntRxOversize := if s.params.maxFrame < d.len.toNat then s.cntRxOversize + 1#32 else s.cntRxOversize
      cntRxFlagged := if d.err = 0#4 then s.cntRxFlagged else s.cntRxFlagged + 1#32
      trace := s.trace ++ frameAvailIf (slotState e == .swCompleted) } := by
  simp [afterBad, signalMore, advanceRx, countMalformed, countIf, isRunt, isOversize, isFlagged]

/-- Settles O27: HARVEST answers what HarvestCore left at the malformed frame. -/
theorem harvestReportsMalformedFrame : Obligations.HarvestReportsMalformedFrame := by
  intro s d e hr hd hc hf he
  show execHarvest s = _
  rw [execHarvest_bad hd hc he hr hf, errorReport_eq, afterBad_eq]
  rfl

/-- Settles O31: the buffer answered is neither the harvested one nor held elsewhere, so it is installed. -/
theorem rxServiceInstallsFreshBuffer : Obligations.RxServiceInstallsFreshBuffer := by
  intro s d e b h hr hd hc hf he ha h0 hb
  have hs : s.runState ≠ .stopped := by rw [hr]; decide
  rw [mem_heldRefs_afterGood h hs hd hc (e := e), not_or] at hb
  obtain ⟨m, hm, hx⟩ := execRxService_some hd hc he hr hf ha h0 hb.1 hb.2
  refine ⟨m, ?_, hm.desc, hm.outside⟩
  show execRxService s = _
  rw [hx, ← List.drop_one]
  rfl

/-- Settles O32: the good frame without a fresh buffer and the malformed one each end with the slot's own buffer handed over. -/
theorem rxServiceReturnsTheBuffer : Obligations.RxServiceReturnsTheBuffer := by
  intro s d e hr hd hc he
  by_cases hf : goodFrame s.params d
  · by_cases ha : answerAt s 0 = none
    · obtain ⟨m, hm, hx⟩ := execRxService_none hd hc he hr hf ha
      refine ⟨m, hm.desc, hm.outside, fun _ _ => ?_, fun h => absurd hf h⟩
      show execRxService s = _
      rw [hx, ← List.drop_one]
      rfl
    · obtain ⟨m, -, hm⟩ := handOver_of_loadSlot d.buf 0#14 hd
      rw [← wrapBit_eq] at hm
      exact ⟨m, hm.desc, hm.outside, fun _ h => absurd h ha, fun h => absurd hf h⟩
  · obtain ⟨m, hm, hx⟩ := execRxService_bad hd hc he hr hf
    refine ⟨m, hm.desc, hm.outside, fun h => absurd h hf, fun _ => ?_⟩
    show execRxService s = _
    rw [hx, errorReport_eq, afterBad_eq]
    rfl

/-- Settles O33: RX_SERVICE asks with the harvested buffer in flight, which with the rest held is all that was held; START obtains the
answers that keep the contract and is refused at the first that does not. -/
theorem allocatorContractBreachIsRefused : Obligations.AllocatorContractBreachIsRefused := by
  constructor
  · intro s d e b h hr hd hc hf he ha hb
    have hs : s.runState ≠ .stopped := by rw [hr]; decide
    rw [mem_heldRefs_afterGood h hs hd hc (e := e)] at hb
    exact execRxService_breach hd hc he hr hf ha hb
  · intro s got b hs hfit hlen hn h0 hgot ha hb
    obtain ⟨left, hleft⟩ : ∃ left, s.params.nRx = got.length + (left + 1) := ⟨s.params.nRx - got.length - 1, by omega⟩
    have hobtain : obtainBuffers s.params.nRx [] s = .refused (.allocatorContract b) := by
      have hall := obtainBuffers_append hs (left + 1) (got := []) (by simpa using hn) h0 (by simpa using hgot)
      simp only [List.length_nil, afterAnswers_zero, List.nil_append, Nat.zero_add] at hall
      rw [hleft, hall, obtainBuffers_breach ha hb]
    show execStart s = _
    rw [execStart_of_basesFit hs hfit, startSession, hobtain, andThen_refused]

end Sys2Proof.Proofs
end

section
/-! SUPPORT. How the fields of a register lie in its word: concatenation as shifted parts, bit by bit. -/

namespace Sys2Proof.Proofs
open Sys2Proof.Machine Sys2Proof.Safety

/-- Two halves side by side (`TX_CUR`, `Q_PTRS`). -/
theorem append_halves (a b : Half) : a ++ b = a.setWidth 32 <<< 16 ||| b.setWidth 32 := by
  apply BitVec.eq_of_getLsbD_eq
  intro i hi
  simp only [BitVec.getLsbD_append, BitVec.getLsbD_or, BitVec.getLsbD_shiftLeft, BitVec.getLsbD_setWidth]
  by_cases h : i < 16
  · simp [h, hi]
  · have hb : b.getLsbD i = false := BitVec.getLsbD_of_ge _ _ (by omega)
    simp [h, hi, hb]; omega

/-- Two bits at the bottom of a word (`INT_PEND`, `INT_EN`). -/
theorem append_two_bits (a b : Bool) :
    0#30 ++ BitVec.ofBool a ++ BitVec.ofBool b = (BitVec.ofBool a).setWidth 32 <<< 1 ||| (BitVec.ofBool b).setWidth 32 := by
  cases a <;> cases b <;> rfl

/-- The layout that `RESP0` and `FAULT` share: a slot in bits 23:8, a bit in bit 4, a code in bits 3:0. -/
theorem append_slot_bit_code (slot : Half) (b : Bool) (c : BitVec 4) :
    0#8 ++ slot ++ 0#3 ++ BitVec.ofBool b ++ c =
      c.setWidth 32 ||| (BitVec.ofBool b).setWidth 32 <<< 4 ||| slot.setWidth 32 <<< 8 := by
  apply BitVec.eq_of_getLsbD_eq
  intro i hi
  simp only [BitVec.getLsbD_append, BitVec.getLsbD_or, BitVec.getLsbD_shiftLeft, BitVec.getLsbD_setWidth]
  interval_cases i <;> simp

theorem extractLsb'_low_word (x : BitVec 64) : x.extractLsb' 0 32 = x.setWidth 32 := by
  apply BitVec.eq_of_getLsbD_eq
  intro i hi
  simp [hi]

theorem extractLsb'_high_word (x : BitVec 64) : x.extractLsb' 32 32 = (x >>> 32).setWidth 32 := by
  apply BitVec.eq_of_getLsbD_eq
  intro i hi
  simp [hi]

theorem extractLsb'_bucket (v : Word) : v.extractLsb' 0 6 = v.setWidth 6 := by
  apply BitVec.eq_of_getLsbD_eq
  intro i hi
  simp [hi]

end Sys2Proof.Proofs
end

section
/-! The statements about single registers, reset and the command word: O7, O8, O10, O12, O14, O16, O24. -/

namespace Sys2Proof.Proofs
open Sys2Proof.Machine Sys2Proof.Safety

/-! ### Register accesses -/

/-- A read of a mapped register records what the register returns and changes nothing else (log 7). -/
theorem hostRead_of_regAt {offset : Nat} {r : Reg} {s : State} {v : Word} (h : regAt offset = some r) (hv : readReg r s = .next v) :
    hostRead .word offset s = .next { s with readValue := v } := by
  simp only [hostRead, regOf, h, hv, andThen_next]

/-- A write of a mapped register other than `CMD`. -/
theorem hostWrite_of_regAt {offset : Nat} {r : Reg} (v : Word) (s : State) (h : regAt offset = some r) (hr : r ≠ .cmd) :
    hostWrite .word offset v s = .next (writeReg r v s) := by
  simp only [hostWrite, regOf, h, hr, if_false]

theorem inSession_eq_false {s : State} : inSession s = false ↔ s.runState = .stopped := by
  unfold inSession; cases s.runState <;> decide

theorem inSession_eq_true {s : State} : inSession s = true ↔ s.runState ≠ .stopped := by
  rw [← Bool.not_eq_false, inSession_eq_false]

/-- The mapped offsets are the aligned ones up to 0x7C (R44). -/
theorem regAt_isSome_iff (offset : Nat) : (regAt offset).isSome = true ↔ offset % 4 = 0 ∧ offset ≤ 0x7C := by
  constructor
  · unfold regAt
    split <;> simp
  · rintro ⟨h4, h⟩
    obtain ⟨k, rfl⟩ : ∃ k, offset = 4 * k := ⟨offset / 4, by omega⟩
    have all : ∀ k < 32, (regAt (4 * k)).isSome = true := by decide
    exact all k (by omega)

/-- Settles O8. -/
theorem storedRegistersReadBack : Obligations.StoredRegistersReadBack := by
  intro s
  have hi : readReg .intPend s = .next _ := congrArg Host.Outcome.next (append_two_bits s.pendTxc s.pendRxr)
  have he : readReg .intEn s = .next _ := congrArg Host.Outcome.next (append_two_bits s.enTxc s.enRxr)
  have ht : readReg .txCur s = .next _ := congrArg Host.Outcome.next (append_halves s.txReclaim s.txFill)
  have hq : readReg .qPtrs s = .next _ := congrArg Host.Outcome.next (append_halves s.qBack s.qFront)
  have hl : readReg .mcHashLo s = .next _ := congrArg Host.Outcome.next (extractLsb'_low_word s.mcBit)
  have hh : readReg .mcHashHi s = .next _ := congrArg Host.Outcome.next (extractLsb'_high_word s.mcBit)
  exact ⟨rfl, rfl, rfl, rfl, rfl, rfl, hostRead_of_regAt rfl hi, hostRead_of_regAt rfl he, rfl, rfl, rfl, hostRead_of_regAt rfl ht, rfl,
    hostRead_of_regAt rfl hq, rfl, rfl, rfl, rfl, rfl, hostRead_of_regAt rfl hl, hostRead_of_regAt rfl hh, rfl, rfl, rfl, rfl⟩

/-- A base register takes a write in `STOPPED` only (R50). -/
theorem write_base (f : State → State) (s : State) :
    (if inSession s = true then s else f s) = if s.runState = .stopped then f s else s := by
  by_cases h : s.runState = .stopped
  · rw [if_pos h, if_neg (by rw [inSession_eq_true]; exact not_not_intro h)]
  · rw [if_neg h, if_pos (inSession_eq_true.2 h)]

/-- Settles O10: the six writable registers one by one, the others by their row of `writeReg`. -/
theorem registerWrites : Obligations.RegisterWrites := by
  intro v s
  refine ⟨rfl, rfl, rfl, ?_, ?_, ?_, ?_⟩
  · rw [hostWrite_of_regAt v s (r := .rxBase) rfl (by decide), writeReg, write_base fun s => { s with rxBase := v }]
  · rw [hostWrite_of_regAt v s (r := .txBase) rfl (by decide), writeReg, write_base fun s => { s with txBase := v }]
  · rw [hostWrite_of_regAt v s (r := .mcRefIdx) rfl (by decide), writeReg, extractLsb'_bucket]
  · simp only [List.forall_mem_cons, List.not_mem_nil, false_imp_iff, implies_true, and_true]
    exact ⟨rfl, rfl, rfl, rfl, rfl, rfl, rfl, rfl, rfl, rfl, rfl, rfl, rfl, rfl, rfl, rfl, rfl, rfl, rfl, rfl, rfl, rfl, rfl, rfl⟩

/-- Settles O12: only an aligned word access inside the map names a register. -/
theorem unsupportedAccessesAreRefused : Obligations.UnsupportedAccessesAreRefused := by
  constructor
  · intro width offset v s h
    have hnone : regOf width offset = none := by
      cases width with
      | byte => rfl
      | half => rfl
      | word =>
        have hno : ¬ (offset % 4 = 0 ∧ offset ≤ 0x7C) := by
          rintro ⟨h4, hle⟩
          rcases h with h | h | h
          · exact h rfl
          · exact h h4
          · omega
        rw [← regAt_isSome_iff, Option.not_isSome_iff_eq_none] at hno
        exact hno
    simp only [hostWrite, hostRead, hnone, and_self]
  · intro offset h4 hle
    exact Option.isSome_iff_exists.1 ((regAt_isSome_iff offset).2 ⟨h4, hle⟩)

/-! ### Responses, reset and posts -/

/-- Settles O14. -/
theorem responseLayout : Obligations.ResponseLayout :=
  ⟨fun r more slot => append_slot_bit_code slot more r.code, rfl⟩

@[simp] theorem refCount_resetWith (p : Params) (b : Bucket) : refCount (State.resetWith p) b = 0#8 := by
  simp only [refCount, State.resetWith, Vector.getElem_replicate]

@[simp] theorem bucketBit_resetWith (p : Params) (b : Bucket) : bucketBit (State.resetWith p) b = false := by
  simp only [bucketBit, State.resetWith, BitVec.getLsbD_zero]

/-- Settles O16. -/
theorem resetValues : Obligations.ResetValues := by
  intro p
  exact ⟨rfl, rfl, rfl, rfl, fun _ => rfl, rfl, rfl, rfl, rfl, rfl, rfl, rfl, rfl,
    fun b => ⟨refCount_resetWith p b, bucketBit_resetWith p b⟩, rfl, rfl, rfl, rfl, rfl, rfl, rfl, rfl, rfl, rfl, rfl, rfl, rfl, rfl, rfl,
    rfl, rfl, rfl, rfl, rfl, rfl, rfl⟩

/-- Settles O24: the bit comes from the list, or, where it is empty, from the free values. -/
theorem postTakesOneBackpressureBit : Obligations.PostTakesOneBackpressureBit := by
  intro b s
  constructor
  · intro bp rest h
    have ht : takeBp (emit (.post b) s) = (bp, { emit (.post b) s with bpIn := rest }) := by simp only [takeBp, emit_bpIn, h]
    simp only [post, ht]
    rfl
  · intro h
    have ht : takeBp (emit (.post b) s) =
        (Config.backpressure s.inputSeq, { emit (.post b) s with inputSeq := s.inputSeq + 1 }) := by
      simp only [takeBp, emit_bpIn, h, emit_inputSeq]
    simp only [post, ht]
    rfl

/-! ### The command word -/

/-- The format check of an instruction's own word passes, and its opcode's row is the instruction (R111, R116). -/
theorem decode_encode {i : Instr} (h : i.wellFormed = true) : decode (encode i) = .ok i := by
  cases i with
  | replenish slot =>
    obtain ⟨hop, hslot, hzero⟩ := Laws.CommandWord.replenish slot
    have hlt : slot < 2 ^ 16 := by simpa [Instr.wellFormed, Instr.slotFits] using h
    have hrow : opcodeRow (Instr.replenish slot).opcode (Instr.replenish slot).slotField = some (.s, .replenish slot) := by
      simp only [opcodeRow, Instr.opcode, Instr.slotField, BitVec.toNat_ofNat, Nat.mod_eq_of_lt hlt]
      rfl
    simp only [decode, hop, hslot, hrow, formatOk, hzero, beq_self_eq_true, if_true]
  | start | stop | submit | onTxComplete | harvest | rxService | onRxReady | mcAdd | mcRemove | mcLookup => rfl

/-- Settles O7: the placed write is the next transition, its word decodes to the instruction, and without it the state is the old one. -/
theorem fetchWordRunsNext : Obligations.FetchWordRunsNext := by
  intro s i h
  have hword : BitVec.ofNat 32 ((encode i).toNat % 2 ^ 32) = encode i := by
    rw [Nat.mod_eq_of_lt (encode i).isLt, BitVec.ofNat_toNat, BitVec.setWidth_eq]
  have hagenda : (s.withFetchWord 32 (encode i).toNat).agenda = .write .word 0x00 (encode i) :: s.agenda := by
    simp only [State.withFetchWord, hword]
  exact stepRunsDecodedCommand _ _ i _ hagenda (decode_encode h)

end Sys2Proof.Proofs
end

section
/-! O54 and O9: the state after reset meets the invariant, and what `STATUS` and `TX_LEVEL` show where the invariant holds. -/

namespace Sys2Proof.Proofs
open Sys2Proof.Machine Sys2Proof.Safety

/-- Reset meets the invariant of all states (R66). -/
theorem sessionInv_resetWith {p : Params} (h : p.wellFormed = true) : SessionInv (State.resetWith p) := by
  obtain ⟨⟨hr, -⟩, ⟨ht, -⟩, ⟨hq, -⟩, -⟩ := params_wellFormed_iff.1 h
  exact {
    params := h
    memory := rfl
    queue := ⟨List.length_replicate, Nat.zero_le _, hq, (Nat.zero_mod _).symm⟩
    filter := fun b => by
      rw [bucketBit_resetWith, refCount_resetWith]
      simp [State.resetWith]
    cursors := ⟨hr, ht, ht, hr, ht⟩
    idle := fun _ => ⟨rfl, rfl, rfl, rfl, rfl, rfl, rfl, rfl⟩
    opened := fun k => absurd rfl k
    unfaulted := fun k => nomatch k
    latched := fun k => nomatch k }

/-- Settles O54: reset is `STOPPED`, so nothing is asked of the rings. -/
theorem resetSatisfiesRunInv : Obligations.ResetSatisfiesRunInv :=
  fun _ h => ⟨sessionInv_resetWith h, fun k => nomatch k⟩

/-! ### Computed registers -/

/-- On readable slots the count of `TX_LEVEL` is the number of those that hold a buffer. -/
theorem countHeld_eq {s : State} : ∀ {is : List Nat}, (∀ i ∈ is, ∃ d, loadSlot .tx i s = .next d) →
    countHeld s is = .next (is.filter fun i => slotIs (fun d => d.buf != Config.null) .tx i s).length
  | [], _ => rfl
  | i :: is, h => by
    obtain ⟨d, hd⟩ := h i List.mem_cons_self
    have ih := countHeld_eq fun j hj => h j (List.mem_cons_of_mem i hj)
    have hslot : slotIs (fun d => d.buf != Config.null) .tx i s = (d.buf != Config.null) := by simp only [slotIs, hd]
    simp only [countHeld, hd, andThen_next, ih, List.filter_cons, hslot]
    by_cases hb : d.buf = Config.null <;> simp [hb]

theorem txLevel_of_stopped {s : State} (h : s.runState = .stopped) : txLevel s = .next 0 := by
  simp only [txLevel, inSession_eq_false.2 h, Bool.false_eq_true, if_false]

theorem txLevel_of_session {s : State} (h : SessionInv s) (hs : s.runState ≠ .stopped) : txLevel s = .next (txHeld s) := by
  have hread : ∀ i ∈ List.range s.params.nTx, ∃ d, loadSlot .tx i s = .next d := fun i hi =>
    (h.slot hs (g := .tx) (List.mem_range.1 hi)).imp fun _ hd => hd.1
  simp only [txLevel, inSession_eq_true.2 hs, if_true, countHeld_eq hread]
  rfl

/-- `TX_LEVEL` where the invariant holds (R52). -/
theorem txLevel_eq {s : State} (h : SessionInv s) : txLevel s = .next (if s.runState = .stopped then 0 else txHeld s) := by
  split
  · next hs => exact txLevel_of_stopped hs
  · next hs => exact txLevel_of_session h hs

/-- `STATUS.RX_READY` where the invariant holds (R46). -/
theorem rxReady_eq {s : State} (h : SessionInv s) : rxReady s = .next
    (decide (s.runState ≠ .stopped ∧ slotIs (fun d => slotState d == .swCompleted) .rx s.rxCur.toNat s = true)) := by
  by_cases hs : s.runState = .stopped
  · simp only [rxReady, inSession_eq_false.2 hs, Bool.false_eq_true, if_false, hs, ne_eq, not_true, false_and, decide_false]
  · obtain ⟨d, hd, -⟩ := h.slot hs (g := .rx) h.cursors.rx
    simp only [rxReady, inSession_eq_true.2 hs, if_true, hd, andThen_next, slotIs, ne_eq, hs, not_false_eq_true, true_and,
      Bool.decide_eq_true]

/-- Where each bit of `STATUS` lies (R46). -/
theorem statusBits_fields (bcast irqT irqR ready empty full qFull qEmpty run txE rxE : Bool) (rs : RunState) :
    let v := statusBits bcast irqT irqR ready empty full qFull qEmpty run txE rxE rs
    v.extractLsb' 0 2 = rs.code ∧ v.getLsbD 2 = rxE ∧ v.getLsbD 3 = txE ∧ v.getLsbD 4 = run ∧ v.getLsbD 5 = qEmpty ∧
      v.getLsbD 6 = qFull ∧ v.getLsbD 7 = full ∧ v.getLsbD 8 = empty ∧ v.getLsbD 9 = ready ∧ v.getLsbD 10 = irqR ∧
      v.getLsbD 11 = irqT ∧ v.getLsbD 12 = bcast ∧ v.extractLsb' 13 19 = 0#19 := by
  refine ⟨?_, ?_, ?_, ?_, ?_, ?_, ?_, ?_, ?_, ?_, ?_, ?_, ?_⟩
  · apply BitVec.eq_of_getLsbD_eq
    intro i hi
    simp only [statusBits, BitVec.getLsbD_extractLsb', BitVec.getLsbD_append]
    interval_cases i <;> simp
  case refine_13 =>
    apply BitVec.eq_of_getLsbD_eq
    intro i hi
    simp only [statusBits, BitVec.getLsbD_extractLsb', BitVec.getLsbD_append]
    interval_cases i <;> simp
  all_goals
    simp only [statusBits, BitVec.getLsbD_append]
    simp

theorem runState_code (rs : RunState) : rs.code = if rs = .stopped then 0#2 else if rs = .running then 1#2 else 2#2 := by
  cases rs <;> rfl

/-- Settles O9: the two computed values are those of `txLevel_eq` and `rxReady_eq`, each put in its place; after reset the queue is empty
and not full, since it has room for at least one. -/
theorem statusShowsState : Obligations.StatusShowsState := by
  refine ⟨fun s h => ?_, fun s h => ?_, fun p hp => ?_⟩
  · obtain ⟨b0, b2, b3, b4, b5, b6, b7, b8, b9, b10, b11, b12, b13⟩ := statusBits_fields s.bcastEn (irqTx s) (irqRx s)
      (decide (s.runState ≠ .stopped ∧ slotIs (fun d => slotState d == .swCompleted) .rx s.rxCur.toNat s = true))
      (inSession s && decide ((if s.runState = .stopped then 0 else txHeld s) = 0))
      (inSession s && decide ((if s.runState = .stopped then 0 else txHeld s) = s.params.nTx))
      (queueFull s) (queueEmpty s) s.txRunning s.txEn s.rxEn s.runState
    have level (n : Nat) : (inSession s && decide ((if s.runState = .stopped then 0 else txHeld s) = n)) =
        decide (s.runState ≠ .stopped ∧ txHeld s = n) := by
      by_cases hs : s.runState = .stopped
      · simp only [inSession_eq_false.2 hs, hs, Bool.false_and, ne_eq, not_true, false_and, decide_false]
      · simp only [inSession_eq_true.2 hs, hs, Bool.true_and, if_false, ne_eq, not_false_eq_true, true_and]
    refine ⟨_, hostRead_of_regAt (r := .status) rfl ?_, b0.trans (runState_code _), b2, b3, b4, b5.trans ?_, b6, b7.trans (level _),
      b8.trans (level _), b9, b10, b11, b12, b13⟩
    · simp only [readReg, statusReg, txLevel_eq h, rxReady_eq h, andThen_next]
    · rfl
  · refine hostRead_of_regAt (r := .txLevel) rfl ?_
    simp only [readReg, txLevel_eq h, andThen_next]
  · obtain ⟨-, -, ⟨hq, -⟩, -⟩ := params_wellFormed_iff.1 hp
    have hfull : queueFull (State.resetWith p) = false := decide_eq_false fun e : 0 = p.qCap => by omega
    refine hostRead_of_regAt (r := .status) rfl ?_
    simp only [readReg, statusReg, txLevel_of_stopped (s := State.resetWith p) rfl, rxReady,
      inSession_eq_false.2 (rfl : (State.resetWith p).runState = .stopped), Bool.false_eq_true, if_false, andThen_next, hfull,
      Bool.false_and]
    exact congrArg Host.Outcome.next
      (by decide : statusBits false false false false false false false true false false false .stopped = 0x20#32)

end Sys2Proof.Proofs
end

section
/-! SUPPORT. What a step keeps in every state, whether an invariant holds or not: the parameters, the multicast table but for its own
commands, and the lifecycle state with the fault latch but for the moves of R282. -/

namespace Sys2Proof.Proofs
open Sys2Proof.Machine Sys2Proof.Safety

/-- What no operation on rings, queue and ports changes. -/
structure Core (s t : State) : Prop where
  params : t.params = s.params
  mcRef : t.mcRef = s.mcRef
  mcBit : t.mcBit = s.mcBit
  bcastEn : t.bcastEn = s.bcastEn
  runState : t.runState = s.runState
  fault : t.fault = s.fault

theorem Core.refl (s : State) : Core s s := ⟨rfl, rfl, rfl, rfl, rfl, rfl⟩

theorem Core.trans {s t u : State} (h : Core s t) (k : Core t u) : Core s u :=
  ⟨k.params.trans h.params, k.mcRef.trans h.mcRef, k.mcBit.trans h.mcBit, k.bcastEn.trans h.bcastEn, k.runState.trans h.runState,
    k.fault.trans h.fault⟩

/-- `Core.trans` with the later part first. -/
theorem Core.after {s t u : State} (k : Core t u) (h : Core s t) : Core s u := h.trans k

theorem Core.of_bare {s t : State} (h : bare t = bare s) : Core s t :=
  ⟨(congrArg State.params h :), (congrArg State.mcRef h :), (congrArg State.mcBit h :), (congrArg State.bcastEn h :),
    (congrArg State.runState h :), (congrArg State.fault h :)⟩

/-! ### The shared operations -/

theorem storeBuf_core (g : Ring) (i : Nat) (b : Word) (s : State) : Answers (storeBuf g i b s) (Core s) :=
  answers_of_next fun t h => by obtain ⟨-, rfl⟩ := storeBuf_eq_next.1 h; exact ⟨rfl, rfl, rfl, rfl, rfl, rfl⟩

theorem storeStatus_core (g : Ring) (i : Nat) (st : Word) (s : State) : Answers (storeStatus g i st s) (Core s) :=
  answers_of_next fun t h => by obtain ⟨-, rfl⟩ := storeStatus_eq_next.1 h; exact ⟨rfl, rfl, rfl, rfl, rfl, rfl⟩

theorem handOver_core (g : Ring) (i : Nat) (b : Word) (len : BitVec 14) (s : State) : Answers (handOver g i b len s) (Core s) :=
  answers_of_next fun t h => by obtain ⟨-, -, rfl⟩ := handOver_eq_next.1 h; exact ⟨rfl, rfl, rfl, rfl, rfl, rfl⟩

/-- A read answers nothing about the state. -/
theorem answers_any {α : Type} (o : Res α) : Answers o fun _ => True := by cases o <;> trivial

theorem moreCheck_core (s : State) : Answers (moreCheck s) fun r => Core s r.2 :=
  answers_of_next fun r h => by
    obtain ⟨d, -, rfl⟩ := moreCheck_eq_next.1 h
    split
    · exact .of_bare rfl
    · exact .refl s

theorem harvestCore_core (s : State) : Answers (harvestCore s) fun r => Core s r.2 := by
  refine (answers_any _).andThen fun d _ => ?_
  cases slotState d with
  | hwOwned | free | invalid => exact .refl s
  | swCompleted =>
    show Answers (harvestCompleted d s) _
    unfold harvestCompleted
    split
    · refine (moreCheck_core _).andThen fun r hr => ?_
      exact .trans (t := advanceRx (countMalformed d s)) ⟨rfl, rfl, rfl, rfl, rfl, rfl⟩ hr
    · refine (storeBuf_core _ _ _ _).andThen fun t ht => (moreCheck_core _).andThen fun r hr => ?_
      exact ht.trans (.trans (t := advanceRx t) ⟨rfl, rfl, rfl, rfl, rfl, rfl⟩ hr)

theorem takeAnswer_core (n : Nat) (s : State) : Core s (takeAnswer n s).2 := .of_bare (bare_takeAnswer n s)

theorem allocGet_core (held : List Word) (s : State) : Answers (allocGet held s) fun r => Core s r.2 :=
  answers_of_next fun r h => by obtain ⟨rfl, -⟩ := allocGet_eq_next.1 h; exact takeAnswer_core _ s

theorem obtainBuffers_core (left : Nat) : ∀ (got : List Word) (s : State),
    Answers (obtainBuffers left got s) fun r => Core s r.2.2 := by
  induction left with
  | zero => intro got s; exact .refl s
  | succ left ih =>
    intro got s
    refine (allocGet_core got s).andThen fun a ha => ?_
    split
    · exact ha
    · next b _ => exact (ih (got ++ [b]) a.2).mono fun r hr => ha.trans hr

theorem initSlot_core (g : Ring) (i : Nat) (b st : Word) (s : State) : Answers (initSlot g i b st s) (Core s) :=
  (storeBuf_core g i b s).andThen fun t ht => (storeStatus_core g i st t).mono fun _ hu => ht.trans hu

theorem drainSlot_core (g : Ring) (i : Nat) (r : Word × State) : Answers (drainSlot g i r) fun q => Core r.2 q.2 := by
  refine (answers_any _).andThen fun d _ => (storeStatus_core g i _ r.2).andThen fun t ht => ?_
  unfold postHeld
  split
  · exact ht
  · exact (storeBuf_core g i _ _).andThen fun u hu => ht.trans ((Core.of_bare (bare_post d.buf t)).trans hu)

theorem drainQueue_core : ∀ (k : Nat) (r : Word × State), Core r.2 (drainQueue k r).2
  | 0, r => .refl r.2
  | k + 1, r =>
    have hpost : Core (dequeue r.2) (post (queueHead r.2).buf (dequeue r.2)) := .of_bare (bare_post _ _)
    .trans (hpost.after ⟨rfl, rfl, rfl, rfl, rfl, rfl⟩) (drainQueue_core k (r.1 + 1#32, post (queueHead r.2).buf (dequeue r.2)))

theorem reclaimSlot_core (d : Desc) (s : State) : Answers (reclaimSlot d s) (Core s) :=
  (storeBuf_core _ _ _ s).andThen fun t ht => (storeStatus_core _ _ _ t).andThen fun u hu =>
    .trans (ht.trans (hu.trans (.of_bare (bare_post d.buf u)))) ⟨rfl, rfl, rfl, rfl, rfl, rfl⟩

theorem refillSlot_core (r : Half) (s : State) : Answers (refillSlot r s) (Core s) :=
  (handOver_core _ _ _ _ (dequeue s)).andThen fun _ ht => .trans (t := dequeue s) ⟨rfl, rfl, rfl, rfl, rfl, rfl⟩
    (ht.trans ⟨rfl, rfl, rfl, rfl, rfl, rfl⟩)

theorem reclaimLoop_core (fuel : Nat) : ∀ (n : Word) (s : State), Answers (reclaimLoop fuel n s) fun r => Core s r.2.2 := by
  induction fuel with
  | zero => intro n s; exact .refl s
  | succ fuel ih =>
    intro n s
    refine (answers_any _).andThen fun d _ => ?_
    cases slotState d with
    | invalid | hwOwned | free => exact .refl s
    | swCompleted =>
      refine (reclaimSlot_core d s).andThen fun t ht => ?_
      split
      · exact (ih _ t).mono fun _ hr => ht.trans hr
      · split
        · exact (refillSlot_core _ t).andThen fun u hu => (ih _ u).mono fun _ hr => ht.trans (hu.trans hr)
        · exact ht

/-! ### Commands -/

/-- The moves of lifecycle state and fault latch (R49, R282). -/
inductive LatchMove (s t : State) : Prop
  | kept (hr : t.runState = s.runState) (hf : t.fault = s.fault)
  | raised (hs : s.runState = .running) (ht : t.runState = .faulted)
  | opened (hs : s.runState = .stopped) (ht : t.runState = .running) (hf : t.fault = FaultLatch.clear)
  | closed (ht : t.runState = .stopped) (hf : t.fault = s.fault)

/-- The moves are about lifecycle state and latch alone. -/
theorem LatchMove.congr {s t s' t' : State} (h : LatchMove s t) (h1 : s'.runState = s.runState) (h2 : s'.fault = s.fault)
    (h3 : t'.runState = t.runState) (h4 : t'.fault = t.fault) : LatchMove s' t' := by
  cases h with
  | kept hr hf => exact .kept (by rw [h1, h3, hr]) (by rw [h2, h4, hf])
  | raised hs ht => exact .raised (h1.trans hs) (h3.trans ht)
  | opened hs ht hf => exact .opened (h1.trans hs) (h3.trans ht) (h4.trans hf)
  | closed ht hf => exact .closed (h3.trans ht) (by rw [h2, h4, hf])

/-- The broadcast enable and the bit of its bucket are not taken away (R54). -/
def KeepsBroadcast (s t : State) : Prop :=
  s.bcastEn = true → t.bcastEn = true ∧
    (bucketBit s (bcastBucket s.params.hashMode) = true → bucketBit t (bcastBucket s.params.hashMode) = true)

/-- What every transition but reset keeps. -/
structure Keeps (s t : State) : Prop where
  params : t.params = s.params
  broadcast : KeepsBroadcast s t
  latch : LatchMove s t

theorem keepsBroadcast_of_eq {s t : State} (hb : t.bcastEn = s.bcastEn) (hm : t.mcBit = s.mcBit) : KeepsBroadcast s t :=
  fun h => ⟨hb.trans h, by simp only [bucketBit, hm, imp_self]⟩

theorem Core.keeps {s t : State} (h : Core s t) : Keeps s t :=
  ⟨h.params, keepsBroadcast_of_eq h.bcastEn h.mcBit, .kept h.runState h.fault⟩

/-- A part that touches neither table nor latch, then an update that does the same as one of the moves. -/
theorem Core.keeps_of_latch {s t u : State} (h : Core s t) (hp : u.params = t.params) (hm : u.mcBit = t.mcBit)
    (hb : u.bcastEn = t.bcastEn) (hl : LatchMove s u) : Keeps s u :=
  ⟨hp.trans h.params, keepsBroadcast_of_eq (hb.trans h.bcastEn) (hm.trans h.mcBit), hl⟩

theorem Core.keeps_raise {s t : State} (hs : s.runState = .running) (h : Core s t) (c : FaultCause) (g : Ring) (slot : Half)
    (n : Word) : Keeps s (raiseDeviceFault c g slot n t) := h.keeps_of_latch rfl rfl rfl (.raised hs rfl)

theorem Core.keeps_respond {s t : State} (h : Core s t) (res : ResultCode) (more : Bool) (slot : Half) (r1 r2 : Word) :
    Keeps s (respond res more slot r1 r2 t) := (h.trans (.of_bare (bare_respond res more slot r1 r2 t))).keeps

/-- The gate of the ring commands answers at once, or lets the command run while RUNNING. -/
theorem ringGate_keeps {s u : State} {k : State → Res State} (hu : Core s u)
    (h : s.runState = .running → Answers (k u) (Keeps s)) : Answers (ringGate u k) (Keeps s) := by
  unfold ringGate
  split
  · exact hu.keeps_respond _ _ _ _ _
  · exact hu.keeps_respond _ _ _ _ _
  · next hr => exact h (hu.runState ▸ hr)

theorem execHarvest_keeps (s : State) : Answers (execHarvest s) (Keeps s) :=
  ringGate_keeps (.refl s) fun hs => (harvestCore_core s).andThen fun r hr => by
    cases r.1 with
    | undecodable slot => exact hr.keeps_raise hs _ _ _ _
    | empty slot | bad more slot buf st | good more slot buf len => exact hr.keeps_respond _ _ _ _ _

theorem execReplenish_keeps (slot : Nat) (s : State) : Answers (execReplenish slot s) (Keeps s) := by
  refine ringGate_keeps (.refl s) fun hs => ?_
  have install (b : Word) : Answers (andThen (installRx slot b s) fun t =>
      .next (respond .ok false (BitVec.ofNat 16 slot) 0#32 0#32 t)) (Keeps s) :=
    (handOver_core _ _ _ _ s).andThen fun t ht => ht.keeps_respond _ _ _ _ _
  split
  · split
    · exact (Core.refl s).keeps_respond _ _ _ _ _
    · refine (answers_any _).andThen fun d _ => ?_
      unfold replenishSlot
      split
      · exact (Core.refl s).keeps_raise hs _ _ _ _
      · exact (Core.refl s).keeps_raise hs _ _ _ _
      · split
        · exact install _
        · exact (Core.refl s).keeps_respond _ _ _ _ _
      · exact install _
  · exact (Core.refl s).keeps_respond _ _ _ _ _

theorem execRxService_keeps (s : State) : Answers (execRxService s) (Keeps s) :=
  ringGate_keeps (.refl s) fun hs => (harvestCore_core s).andThen fun r hr => by
    cases r.1 with
    | empty slot => exact hr.keeps_respond _ _ _ _ _
    | undecodable slot => exact hr.keeps_raise hs _ _ _ _
    | bad more slot buf st => exact (handOver_core _ _ _ _ r.2).andThen fun t ht => (hr.trans ht).keeps_respond _ _ _ _ _
    | good more slot buf len =>
      refine (allocGet_core [buf] r.2).andThen fun a ha => ?_
      split
      · refine (handOver_core _ _ _ _ _).andThen fun t ht => Core.keeps_respond ?_ _ _ _ _ _
        exact hr.trans (ha.trans (ht.after ⟨rfl, rfl, rfl, rfl, rfl, rfl⟩))
      · exact (handOver_core _ _ _ _ _).andThen fun t ht => (hr.trans (ha.trans ht)).keeps_respond _ _ _ _ _

theorem execOnRxReady_keeps (s : State) : Answers (execOnRxReady s) (Keeps s) :=
  ringGate_keeps ⟨rfl, rfl, rfl, rfl, rfl, rfl⟩ fun _ => by
    refine Core.keeps_respond (t := if s.pendRxr then _ else _) ?_ .ok false 0#16 0#32 0#32
    split <;> exact ⟨rfl, rfl, rfl, rfl, rfl, rfl⟩

theorem restartTx_core (s : State) : Core s (restartTx s) :=
  ⟨restartTx_params s, restartTx_mcRef s, restartTx_mcBit s, restartTx_bcastEn s, restartTx_runState s, restartTx_fault s⟩

theorem execSubmit_keeps (s : State) : Answers (execSubmit s) (Keeps s) := by
  refine ringGate_keeps (.refl s) fun hs => ?_
  have queue : Keeps s (submitToQueue (bufferOperand s) (lengthOperand s) s) := by
    unfold submitToQueue
    split
    · exact Core.keeps_respond (s := s) (t := enqueue _ _ s) ⟨rfl, rfl, rfl, rfl, rfl, rfl⟩ _ _ _ _ _
    · exact (Core.refl s).keeps_respond _ _ _ _ _
  split
  · exact (Core.refl s).keeps_respond _ _ _ _ _
  · refine (answers_any _).andThen fun d _ => ?_
    unfold submitOn
    split
    · exact (Core.refl s).keeps_raise hs _ _ _ _
    · split
      · refine (handOver_core _ _ _ _ s).andThen fun t ht => Core.keeps_respond ?_ _ _ _ _ _
        exact ht.trans ((restartTx_core { t with txFill := nextTx s.params s.txFill }).after ⟨rfl, rfl, rfl, rfl, rfl, rfl⟩)
      · exact queue
    · exact queue
    · exact queue

theorem markIdle_core (s : State) : Answers (markIdle s) (Core s) :=
  (answers_any _).andThen fun level _ => by
    show Core s (if _ then _ else _)
    split
    · exact ⟨rfl, rfl, rfl, rfl, rfl, rfl⟩
    · exact .refl s

theorem execOnTxComplete_keeps (s : State) : Answers (execOnTxComplete s) (Keeps s) := by
  refine ringGate_keeps ⟨rfl, rfl, rfl, rfl, rfl, rfl⟩ fun hs => (reclaimLoop_core _ _ _).andThen fun r hr => ?_
  have hr : Core s r.2.2 := hr.after ⟨rfl, rfl, rfl, rfl, rfl, rfl⟩
  cases r.1 with
  | faulted slot => exact hr.keeps_raise hs _ _ _ _
  | done => exact (markIdle_core r.2.2).andThen fun t ht => (hr.trans ht).keeps_respond _ _ _ _ _

theorem execStart_keeps (s : State) : Answers (execStart s) (Keeps s) := by
  unfold execStart
  split
  · exact (Core.refl s).keeps_respond _ _ _ _ _
  · exact (Core.refl s).keeps_respond _ _ _ _ _
  · next hs =>
    split
    · refine (obtainBuffers_core _ _ s).andThen fun r hr => ?_
      split
      · refine (Post.forEach (P := Core s) hr fun bi _ u hu => (initSlot_core _ _ _ _ u).mono fun _ hv => hu.trans hv).andThen
          fun t ht => ?_
        refine (Post.forEach (P := Core s) ht fun i _ u hu => (initSlot_core _ _ _ _ u).mono fun _ hv => hu.trans hv).andThen
          fun u hu => ?_
        exact hu.keeps_of_latch rfl rfl rfl (.opened hs rfl rfl)
      · exact (hr.trans (.of_bare (bare_postAll r.2.1 r.2.2))).keeps_respond _ _ _ _ _
    · exact (Core.refl s).keeps_respond _ _ _ _ _

theorem stopSession_keeps (s : State) : Answers (stopSession s) (Keeps s) := by
  have drain (g : Ring) (l : List Nat) {r : Word × State} (hr : Core s r.2) :
      Answers (forEach (drainSlot g) l r) fun q => Core s q.2 :=
    Post.forEach (P := fun q : Word × State => Core s q.2) hr fun i _ q hq => (drainSlot_core g i q).mono fun _ hv => hq.trans hv
  refine (drain .rx _ ⟨rfl, rfl, rfl, rfl, rfl, rfl⟩).andThen fun r hr => (drain .tx _ hr).andThen fun q hq => ?_
  have hd := hq.trans (drainQueue_core q.2.qLen.toNat q)
  exact hd.keeps_of_latch rfl rfl rfl (.closed rfl hd.fault)

theorem execStop_keeps (s : State) : Answers (execStop s) (Keeps s) := by
  unfold execStop
  split
  · exact (Core.refl s).keeps_respond _ _ _ _ _
  · exact stopSession_keeps s
  · exact stopSession_keeps s

/-! ### Multicast commands and `MC_CTRL` -/

/-- Setting a bucket's bit takes no bit away. -/
theorem keepsBroadcast_setBucketBit_true (b : Bucket) {s t : State} (h : KeepsBroadcast s t) :
    KeepsBroadcast s (setBucketBit b true t) := fun hb => by
  refine ⟨(h hb).1, fun k => ?_⟩
  by_cases e : bcastBucket s.params.hashMode = b
  · rw [e]; exact bucketBit_setBucketBit_same b true t
  · rw [bucketBit_setBucketBit_other e]; exact (h hb).2 k

theorem keepsBroadcast_setRefCount (b : Bucket) (n : BitVec 8) (s : State) : KeepsBroadcast s (setRefCount b n s) :=
  keepsBroadcast_of_eq rfl rfl

theorem addRef_keeps (b : Bucket) (s : State) : Keeps s (addRef b s) := by
  unfold addRef
  split
  · exact ⟨rfl, keepsBroadcast_setBucketBit_true b (keepsBroadcast_setRefCount _ _ s), .kept rfl rfl⟩
  · exact ⟨rfl, keepsBroadcast_setRefCount _ _ s, .kept rfl rfl⟩

/-- The bit cleared is not the broadcast bucket's while `bcast_en` is 1 (R208). -/
theorem dropRef_keeps (b : Bucket) (s : State) : Keeps s (dropRef b s) := by
  unfold dropRef
  split
  · next h =>
    refine ⟨rfl, fun hb => ⟨hb, fun k => ?_⟩, .kept rfl rfl⟩
    have hne : bcastBucket s.params.hashMode ≠ b := by
      rintro rfl
      simp [bcastHolds, hb] at h
    rw [bucketBit_setBucketBit_other hne]
    exact k
  · exact ⟨rfl, keepsBroadcast_setRefCount _ _ s, .kept rfl rfl⟩

theorem Keeps.respondBucket {s t : State} (h : Keeps s t) (res : ResultCode) (b : Bucket) : Keeps s (respondBucket res b t) :=
  ⟨h.params, h.broadcast, h.latch.congr rfl rfl rfl rfl⟩

theorem exec_keeps (i : Instr) (s : State) : Answers (exec i s) (Keeps s) := by
  cases i with
  | start => exact execStart_keeps s
  | stop => exact execStop_keeps s
  | submit => exact execSubmit_keeps s
  | onTxComplete => exact execOnTxComplete_keeps s
  | harvest => exact execHarvest_keeps s
  | replenish slot => exact execReplenish_keeps slot s
  | rxService => exact execRxService_keeps s
  | onRxReady => exact execOnRxReady_keeps s
  | mcAdd =>
    show Answers (if _ then _ else _) _
    split
    · exact (Core.refl s).keeps.respondBucket _ _
    · exact (addRef_keeps _ s).respondBucket _ _
  | mcRemove =>
    show Answers (if _ then _ else _) _
    split
    · exact (Core.refl s).keeps.respondBucket _ _
    · exact (dropRef_keeps _ s).respondBucket _ _
  | mcLookup => exact (Core.refl s).keeps.respondBucket _ _

/-! ### The other transitions -/

theorem writeMcCtrl_keeps (v : Word) (s : State) : Keeps s (writeMcCtrl v s) := by
  unfold writeMcCtrl
  split
  · exact ⟨rfl, keepsBroadcast_setBucketBit_true _ fun _ => ⟨rfl, id⟩, .kept rfl rfl⟩
  · exact (Core.refl s).keeps

theorem writeReg_keeps (r : Reg) (v : Word) (s : State) : Keeps s (writeReg r v s) := by
  have base (f : State → State) (h : Core s (f s)) : Keeps s (if inSession s = true then s else f s) := by
    split
    · exact (Core.refl s).keeps
    · exact h.keeps
  cases r with
  | mcCtrl => exact writeMcCtrl_keeps v s
  | rxBase => exact base (fun s => { s with rxBase := v }) ⟨rfl, rfl, rfl, rfl, rfl, rfl⟩
  | txBase => exact base (fun s => { s with txBase := v }) ⟨rfl, rfl, rfl, rfl, rfl, rfl⟩
  | _ => exact Core.keeps ⟨rfl, rfl, rfl, rfl, rfl, rfl⟩

theorem dmaRxDone_keeps (len : BitVec 14) (err : BitVec 4) (s : State) : Answers (dmaRxDone len err s) (Keeps s) := by
  unfold dmaRxDone
  split
  · refine (answers_any _).andThen fun d _ => ?_
    split
    · exact (storeStatus_core _ _ _ s).andThen fun t ht => post_next.2 (Core.keeps (ht.trans ⟨rfl, rfl, rfl, rfl, rfl, rfl⟩))
    · exact (Core.refl s).keeps
  · exact (Core.refl s).keeps

theorem dmaTxDone_keeps (s : State) : Answers (dmaTxDone s) (Keeps s) := by
  unfold dmaTxDone
  split
  · refine (answers_any _).andThen fun d _ => ?_
    split
    · exact (storeStatus_core _ _ _ s).andThen fun t ht => post_next.2 (Core.keeps (ht.trans ⟨rfl, rfl, rfl, rfl, rfl, rfl⟩))
    · exact (Core.refl s).keeps
  · exact (Core.refl s).keeps

theorem hostWrite_keeps (width : AccessWidth) (offset : Nat) (v : Word) (s : State) :
    Answers (hostWrite width offset v s) (Keeps s) := by
  unfold hostWrite
  split
  · trivial
  · split
    · unfold runCommand
      split
      · exact exec_keeps _ s
      · exact (Core.refl s).keeps_respond _ _ _ _ _
    · exact writeReg_keeps _ v s

theorem runTransition_keeps {tr : Transition} (h : tr ≠ .reset) (s : State) : Answers (runTransition tr s) (Keeps s) := by
  cases tr with
  | write width offset v => exact hostWrite_keeps width offset v s
  | read width offset =>
    show Answers (hostRead width offset s) _
    unfold hostRead
    split
    · trivial
    · exact (answers_any _).andThen fun v _ => Core.keeps ⟨rfl, rfl, rfl, rfl, rfl, rfl⟩
  | dmaRxDone len err => exact dmaRxDone_keeps len err s
  | dmaTxDone => exact dmaTxDone_keeps s
  | hostStore addr v =>
    show Answers (hostStoreByte addr v s) _
    unfold hostStoreByte
    split
    · trivial
    · exact Core.keeps ⟨rfl, rfl, rfl, rfl, rfl, rfl⟩
  | reset => exact absurd rfl h

/-- Reset apart, every step keeps these. -/
theorem step_keeps {s t : State} (h : step s = .next t) (hr : ¬ nextIsReset s) : Keeps s t := by
  cases ha : s.agenda with
  | nil =>
    simp only [step, ha, Host.Outcome.next.injEq] at h
    exact h ▸ (Core.refl s).keeps
  | cons tr rest =>
    have hne : tr ≠ .reset := by rintro rfl; exact hr (by rw [nextIsReset, ha]; rfl)
    have k := (runTransition_keeps hne { s with agenda := rest }).of_eq_next (step_of_agenda_cons ha ▸ h)
    exact ⟨k.params, k.broadcast, k.latch.congr rfl rfl rfl rfl⟩

/-- A step that is reset ends in the reset state of the same parameters (R300). -/
theorem step_of_nextIsReset {s t : State} (h : step s = .next t) (hr : nextIsReset s) : bare t = State.resetWith s.params := by
  obtain ⟨rest, ha⟩ : ∃ rest, s.agenda = .reset :: rest := by
    cases ha : s.agenda with
    | nil => simp [nextIsReset, ha] at hr
    | cons tr rest => simp [nextIsReset, ha] at hr; exact ⟨rest, by rw [hr]⟩
  rw [step_of_agenda_cons ha, runTransition, Host.Outcome.next.injEq] at h
  rw [← h]
  rfl

end Sys2Proof.Proofs
end

section
/-! O11, O13 and O19: the broadcast enable, the parameter registers and the fault latch. -/

namespace Sys2Proof.Proofs
open Sys2Proof.Machine Sys2Proof.Safety

/-- Settles O11: the last part is what `step_keeps` says of the table. -/
theorem broadcastEnableIsSticky : Obligations.BroadcastEnableIsSticky := by
  refine ⟨fun v s hv => ?_, fun v s hv => ?_, fun s => ?_, fun s t h hr hb => (step_keeps h hr).broadcast hb⟩
  · have hw : hostWrite .word 0x58 v s = .next (setBucketBit (bcastBucket s.params.hashMode) true { s with bcastEn := true }) := by
      rw [hostWrite_of_regAt v s (r := .mcCtrl) rfl (by decide), writeReg, writeMcCtrl, if_pos hv]
    refine ⟨_, hw, fun b => ?_⟩
    show bucketBit (setBucketBit (bcastBucket s.params.hashMode) true { s with bcastEn := true }) b = _
    by_cases hb : b = bcastBucket s.params.hashMode
    · rw [hb, bucketBit_setBucketBit_same, beq_self_eq_true, Bool.true_or]
    · rw [bucketBit_setBucketBit_other hb, beq_eq_false_iff_ne.2 hb, Bool.false_or]
      rfl
  · rw [hostWrite_of_regAt v s (r := .mcCtrl) rfl (by decide), writeReg, writeMcCtrl, if_neg (by rw [hv]; decide)]
  · refine hostRead_of_regAt (r := .mcCtrl) rfl (congrArg Host.Outcome.next ?_)
    cases s.bcastEn <;> rfl

/-- Where the fields of `PARAM0`, `PARAM1` and `PARAM2` lie (R57). -/
theorem param0_fields (nTx nRx : Half) :
    (nTx ++ nRx).extractLsb' 0 16 = nRx ∧ (nTx ++ nRx).extractLsb' 16 16 = nTx := by
  constructor <;> apply BitVec.eq_of_getLsbD_eq <;> intro i hi <;>
    simp only [BitVec.getLsbD_extractLsb', BitVec.getLsbD_append] <;> simp [hi]

theorem param1_fields (coherent crc : Bool) (qCap : Half) :
    let v : Word := 0#14 ++ BitVec.ofBool coherent ++ BitVec.ofBool crc ++ qCap
    v.extractLsb' 0 16 = qCap ∧ v.getLsbD 16 = crc ∧ v.getLsbD 17 = coherent ∧ v.extractLsb' 18 14 = 0#14 := by
  refine ⟨?_, ?_, ?_, ?_⟩
  · apply BitVec.eq_of_getLsbD_eq
    intro i hi
    simp only [BitVec.getLsbD_extractLsb', BitVec.getLsbD_append]
    simp [hi]
  · simp only [BitVec.getLsbD_append]
    simp
  · simp only [BitVec.getLsbD_append]
    simp
  · apply BitVec.eq_of_getLsbD_eq
    intro i hi
    simp only [BitVec.getLsbD_extractLsb', BitVec.getLsbD_append]
    interval_cases i <;> simp

theorem param2_fields (maxFrame minFrame : BitVec 14) :
    let v : Word := 0#2 ++ maxFrame ++ 0#2 ++ minFrame
    v.extractLsb' 0 14 = minFrame ∧ v.extractLsb' 16 14 = maxFrame ∧ v.extractLsb' 14 2 = 0#2 ∧ v.extractLsb' 30 2 = 0#2 := by
  refine ⟨?_, ?_, ?_, ?_⟩ <;> apply BitVec.eq_of_getLsbD_eq <;> intro i hi <;>
    simp only [BitVec.getLsbD_extractLsb', BitVec.getLsbD_append] <;> interval_cases i <;> simp

theorem toNat_ofNat_of_lt {w n : Nat} (h : n < 2 ^ w) {x : BitVec w} (e : x = BitVec.ofNat w n) : x.toNat = n := by
  rw [e, BitVec.toNat_ofNat, Nat.mod_eq_of_lt h]

/-- Settles O13: each number fits its field (R9, R10). -/
theorem parameterRegistersAreConstant : Obligations.ParameterRegistersAreConstant := by
  refine ⟨fun s h => ?_, rfl, rfl, rfl, fun s t h => ?_⟩
  · obtain ⟨⟨-, hrx⟩, ⟨-, htx⟩, ⟨-, hq⟩, -, hmin, hmax⟩ := params_wellFormed_iff.1 h
    obtain ⟨rx, tx⟩ := param0_fields (BitVec.ofNat 16 s.params.nTx) (BitVec.ofNat 16 s.params.nRx)
    obtain ⟨q, crc, coherent, zero1⟩ := param1_fields s.params.coherent (s.params.hashMode == .crc6) (BitVec.ofNat 16 s.params.qCap)
    obtain ⟨min, max, zeroLow, zeroHigh⟩ := param2_fields (BitVec.ofNat 14 s.params.maxFrame) (BitVec.ofNat 14 s.params.minFrame)
    exact ⟨param0Reg s.params, param1Reg s.params, param2Reg s.params, rfl, rfl, rfl, toNat_ofNat_of_lt (by omega) rx,
      toNat_ofNat_of_lt (by omega) tx, toNat_ofNat_of_lt (by omega) q, crc, coherent, zero1, toNat_ofNat_of_lt (by omega) min,
      toNat_ofNat_of_lt (by omega) max, zeroLow, zeroHigh⟩
  · by_cases hr : nextIsReset s
    · exact (congrArg State.params (step_of_nextIsReset h hr) :)
    · exact (step_keeps h hr).params

/-- The latch in the bits of `FAULT` (R49). -/
theorem faultReg_eq (s : State) : faultReg s =
    (if s.fault.cause = .none then 0#32 else if s.fault.cause = .rxDecode then 1#32 else 2#32) |||
      (if s.fault.ring = .rx then 0#32 else 0x10#32) ||| s.fault.slot.setWidth 32 <<< 8 := by
  rw [faultReg, append_slot_bit_code]
  congr 1
  cases s.fault.cause <;> cases s.fault.ring <;> rfl

/-- Settles O19: the moves of the latch are those of `step_keeps`. -/
theorem faultLatchIsKept : Obligations.FaultLatchIsKept := by
  refine ⟨fun s => hostRead_of_regAt (r := .fault) rfl (congrArg Host.Outcome.next (faultReg_eq s)), fun s t h hne => ?_,
    fun s t h hs ht => ?_⟩
  · by_cases hr : nextIsReset s
    · exact .inl hr
    · cases (step_keeps h hr).latch with
      | kept _ hf => exact absurd hf hne
      | raised hs ht => exact .inr (.inl ⟨hs, ht⟩)
      | opened hs ht _ => exact .inr (.inr ⟨hs, ht⟩)
      | closed _ hf => exact absurd hf hne
  · by_cases hr : nextIsReset s
    · have hstop : t.runState = .stopped := (congrArg State.runState (step_of_nextIsReset h hr) :)
      rw [hstop] at ht; cases ht
    · cases (step_keeps h hr).latch with
      | kept hr _ => rw [hr, hs] at ht; cases ht
      | raised hs' _ => rw [hs] at hs'; cases hs'
      | opened _ _ hf => exact hf
      | closed hstop _ => rw [hstop] at ht; cases ht

end Sys2Proof.Proofs
end

section
/-! SUPPORT. What a step of the machine can do to the part of the state that the invariants speak of, said once: `Effect s t` lists the
cases, and `step_effects` below says that every step from a state of the session invariant is a chain of them. -/

namespace Sys2Proof.Proofs
open Sys2Proof.Machine Sys2Proof.Safety

/-- The reclaim of the finished slot at `tx_reclaim` (R176, R177). -/
inductive Released (s t : State) : Prop
  | intro (d : Desc) (m : Memory) (load : loadSlot .tx s.txReclaim.toNat s = .next d) (finished : slotState d = .swCompleted)
      (mem : Rewritten s.txBase s.txReclaim.toNat { buf := Config.null, st := statusWord true d.wrap 0#4 0#14 } s.mem m)
      (result : bare t = bare { s with mem := m, txReclaim := nextTx s.params s.txReclaim })

/-- The same with the slot refilled from the front of the overflow queue (R178). -/
inductive Refilled (s t : State) : Prop
  | intro (d : Desc) (m : Memory) (load : loadSlot .tx s.txReclaim.toNat s = .next d) (finished : slotState d = .swCompleted)
      (backlog : s.qLen ≠ 0#16)
      (mem : Rewritten s.txBase s.txReclaim.toNat
        { buf := (queueHead s).buf, st := statusWord false d.wrap 0#4 (queueHead s).len } s.mem m)
      (result : bare t = bare { dequeue s with
        mem := m, txReclaim := nextTx s.params s.txReclaim, txFill := nextTx s.params s.txReclaim })

/-- One iteration of ON_TX_COMPLETE that goes on (R176). -/
inductive Reclaim (s t : State) : Prop
  | released (h : Released s t) (empty : s.qLen = 0#16)
  | refilled (h : Refilled s t)

/-- Iterations of ON_TX_COMPLETE. -/
abbrev Drain : State → State → Prop := Relation.ReflTransGen Reclaim

theorem Released.runState {s t : State} (k : Released s t) : t.runState = s.runState := by
  obtain ⟨d, m, -, -, -, result⟩ := k
  exact (congrArg State.runState result :)

theorem Reclaim.runState {s t : State} (k : Reclaim s t) : t.runState = s.runState := by
  cases k with
  | released k => exact k.runState
  | refilled k =>
    obtain ⟨d, m, -, -, -, -, result⟩ := k
    exact (congrArg State.runState result :)

theorem Drain.runState {s u : State} (k : Drain s u) : u.runState = s.runState := by
  induction k with
  | refl => rfl
  | tail _ hr ih => exact hr.runState.trans ih

/-- What a transition, or a part of one, does to the state the invariants speak of. `duty` is the host's duty of R311, on which it rests
that a buffer given to the DRC is held nowhere else. -/
inductive Effect (duty : Prop) (s t : State) : Prop
  /-- Registers, counters, responses and events alone. -/
  | quiet (result : bare t = bare s)
  | pending (a b : Bool) (idle : s.runState = .stopped → a = false ∧ b = false)
      (result : bare t = bare { s with pendRxr := a, pendTxc := b })
  | filter (ref : Vector (BitVec 8) 64) (bits : BitVec 64) (bcast : Bool)
      (shape : FilterShape s → FilterShape { s with mcRef := ref, mcBit := bits, bcastEn := bcast })
      (result : bare t = bare { s with mcRef := ref, mcBit := bits, bcastEn := bcast })
  | bases (rx tx : Word) (idle : s.runState = .stopped) (result : bare t = bare { s with rxBase := rx, txBase := tx })
  /-- A host store outside the rings. -/
  | stored (m : Memory) (wf : s.mem.wf = true → m.wf = true)
      (rings : s.runState ≠ .stopped → ∀ g i, InRange g i s → loadDesc (ringBase g s) i m = loadSlot g i s)
      (result : bare t = bare { s with mem := m })
  | reset (result : bare t = State.resetWith s.params)
  | started (bufs : List Word) (m : Memory) (idle : s.runState = .stopped) (bases : BasesOk s) (length : bufs.length = s.params.nRx)
      (nodup : bufs.Nodup) (notNull : Config.null ∉ bufs) (wf : s.mem.wf = true → m.wf = true)
      (rx : ∀ i, ∀ h : i < bufs.length, loadDesc s.rxBase i m =
        .next { buf := bufs[i], st := statusWord false (lastSlot .rx s.params i) 0#4 0#14 })
      (tx : ∀ i, i < s.params.nTx → loadDesc s.txBase i m =
        .next { buf := Config.null, st := statusWord true (lastSlot .tx s.params i) 0#4 0#14 })
      (result : bare t = bare (openSession { s with mem := m }))
  | stopped (m : Memory) (f : Half) (wf : s.mem.wf = true → m.wf = true)
      (queue : QueueShape { s with qFront := f, qLen := 0#16 })
      (result : bare t = bare { disableAll s with mem := m, qFront := f, qLen := 0#16, runState := .stopped })
  | raised (c : FaultCause) (g : Ring) (slot : Half) (n : Word) (running : s.runState = .running) (cause : c ≠ .none)
      (result : bare t = bare (raiseDeviceFault c g slot n s))
  /-- HARVEST of a malformed frame. -/
  | advanced (running : s.runState = .running) (result : bare t = bare (advanceRx s))
  /-- HARVEST of a good frame. -/
  | taken (d : Desc) (m : Memory) (running : s.runState = .running) (load : loadSlot .rx s.rxCur.toNat s = .next d)
      (completed : slotState d = .swCompleted)
      (mem : Rewritten s.rxBase s.rxCur.toNat { d with buf := Config.null } s.mem m)
      (result : bare t = bare (advanceRx { s with mem := m }))
  /-- REPLENISH and RX_SERVICE: Rx slot `i` goes to the engine with the buffer `b`. -/
  | installed (i : Nat) (d : Desc) (b : Word) (m : Memory) (rx : Half) (running : s.runState = .running) (inRing : InRange .rx i s)
      (cursor : rx.toNat < s.params.nRx) (load : loadSlot .rx i s = .next d) (notNull : b ≠ Config.null)
      (fresh : duty → d.buf = b ∨ b ∉ heldRefs s)
      (mem : Rewritten s.rxBase i { buf := b, st := statusWord false d.wrap 0#4 0#14 } s.mem m)
      (result : bare t = bare { s with mem := m, rxCur := rx })
  /-- SUBMIT into the ring. -/
  | submitted (d : Desc) (b : Word) (len : BitVec 14) (m : Memory) (running : s.runState = .running)
      (load : loadSlot .tx s.txFill.toNat s = .next d) (free : slotState d = .free) (empty : s.qLen = 0#16) (notNull : b ≠ Config.null)
      (fresh : duty → b ∉ heldRefs s)
      (mem : Rewritten s.txBase s.txFill.toNat { buf := b, st := statusWord false d.wrap 0#4 len } s.mem m)
      (result : bare t = bare { s with mem := m, txFill := nextTx s.params s.txFill, txRunning := true })
  /-- SUBMIT into the overflow queue. -/
  | queued (d : Desc) (b : Word) (len : BitVec 14) (running : s.runState = .running)
      (load : loadSlot .tx s.txFill.toNat s = .next d) (full : slotState d ≠ .free ∨ s.qLen ≠ 0#16)
      (room : s.qLen.toNat < s.params.qCap) (notNull : b ≠ Config.null) (fresh : duty → b ∉ heldRefs s)
      (result : bare t = bare (enqueue b len s))
  /-- ON_TX_COMPLETE, the engine marked idle where nothing is left (R179). -/
  | drained (u : State) (running : s.runState = .running) (drain : Drain s u)
      (result : bare t = bare (if txHeld u = 0 ∧ u.qLen = 0#16 then { u with txRunning := false } else u))
  /-- ON_TX_COMPLETE ending in a fault, which a reclaim may have preceded (R265). -/
  | drainFaulted (u v : State) (slot : Half) (n : Word) (running : s.runState = .running) (drain : Drain s u)
      (last : v = u ∨ Released u v) (result : bare t = bare (raiseDeviceFault .ownership .tx slot n v))
  /-- DMA_RX_DONE. -/
  | received (d : Desc) (len : BitVec 14) (err : BitVec 4) (m : Memory) (session : s.runState ≠ .stopped)
      (load : loadSlot .rx s.hwRxCur.toNat s = .next d) (owned : slotState d = .hwOwned)
      (mem : Rewritten s.rxBase s.hwRxCur.toNat { d with st := statusWord true d.wrap err len } s.mem m)
      (result : bare t = bare { s with mem := m, pendRxr := true, hwRxCur := nextHw d.wrap s.hwRxCur })
  /-- DMA_TX_DONE. -/
  | transmitted (d : Desc) (m : Memory) (session : s.runState ≠ .stopped)
      (load : loadSlot .tx s.hwTxCur.toNat s = .next d) (owned : slotState d = .hwOwned)
      (mem : Rewritten s.txBase s.hwTxCur.toNat { d with st := setOwn d.st } s.mem m)
      (result : bare t = bare { s with mem := m, pendTxc := true, hwTxCur := nextHw d.wrap s.hwTxCur })

/-- A chain of effects. -/
abbrev Effects (duty : Prop) : State → State → Prop := Relation.ReflTransGen (Effect duty)

end Sys2Proof.Proofs
end

section
/-! SUPPORT. Every effect keeps the session invariant. The lemmas stand before those that find the effects, since ON_TX_COMPLETE needs the
invariant again after each of its iterations. -/

namespace Sys2Proof.Safety
open Sys2Proof.Machine Sys2Proof.Proofs

/-! ### The overflow queue (R37, R38, R172, R173) -/

theorem QueueShape.dequeue {s : State} (h : QueueShape s) (hq : s.qLen ≠ 0#16) (hcap : s.params.qCap ≤ 65535) :
    QueueShape (dequeue s) := by
  obtain ⟨hent, hlen, hfront, hback⟩ := h
  have hpos : 0 < s.qLen.toNat := Nat.pos_of_ne_zero fun e => hq (BitVec.eq_of_toNat_eq e)
  have hlen' : (s.qLen - 1#16).toNat = s.qLen.toNat - 1 := BitVec.toNat_sub_of_le (by rw [BitVec.le_def]; exact hpos)
  have hfront' : (nextQ s.params s.qFront).toNat = (s.qFront.toNat + 1) % s.params.qCap := nextIndex_toNat (by omega) hcap _
  refine ⟨hent, ?_, ?_, ?_⟩
  · show (s.qLen - 1#16).toNat ≤ s.params.qCap
    omega
  · exact nextIndex_lt (by omega) hcap _
  · show s.qBack.toNat = ((nextQ s.params s.qFront).toNat + (s.qLen - 1#16).toNat) % s.params.qCap
    rw [hback, hfront', hlen', Nat.mod_add_mod]
    congr 1
    omega

theorem QueueShape.enqueue {s : State} (h : QueueShape s) (room : s.qLen.toNat < s.params.qCap) (hcap : s.params.qCap ≤ 65535)
    (b : Word) (len : BitVec 14) : QueueShape (enqueue b len s) := by
  obtain ⟨hent, hlen, hfront, hback⟩ := h
  have hlen' : (s.qLen + 1#16).toNat = s.qLen.toNat + 1 := BitVec.toNat_add_of_lt (by simp; omega)
  have hback' : (nextQ s.params s.qBack).toNat = (s.qBack.toNat + 1) % s.params.qCap := nextIndex_toNat (by omega) hcap _
  refine ⟨by simpa [Machine.enqueue] using hent, ?_, hfront, ?_⟩
  · show (s.qLen + 1#16).toNat ≤ s.params.qCap
    omega
  · show (nextQ s.params s.qBack).toNat = (s.qFront.toNat + (s.qLen + 1#16).toNat) % s.params.qCap
    rw [hback', hback, hlen', Nat.mod_add_mod, Nat.add_assoc]

/-- The queue's shape is about its own fields. -/
theorem QueueShape.congr {s t : State} (h : QueueShape s) (e1 : t.qEnt = s.qEnt) (e2 : t.qLen = s.qLen) (e3 : t.qFront = s.qFront)
    (e4 : t.qBack = s.qBack) (e5 : t.params = s.params) : QueueShape t := by
  obtain ⟨hent, hlen, hfront, hback⟩ := h
  exact ⟨by rw [e1, e5, hent], by rw [e2, e5]; exact hlen, by rw [e3, e5]; exact hfront, by rw [e2, e3, e4, e5, hback]⟩

/-! ### ON_TX_COMPLETE -/

theorem SessionInv.bases {s : State} (h : SessionInv s) (hs : s.runState ≠ .stopped) : BasesOk s := (h.opened hs).bases

theorem SessionInv.nextTx_lt {s : State} (h : SessionInv s) (c : Half) : (nextTx s.params c).toNat < s.params.nTx := by
  obtain ⟨-, ⟨h1, h2⟩, -⟩ := params_wellFormed_iff.1 h.params
  exact nextIndex_lt h1 h2 c

theorem SessionInv.nextRx_lt {s : State} (h : SessionInv s) (c : Half) : (nextRx s.params c).toNat < s.params.nRx := by
  obtain ⟨⟨h1, h2⟩, -⟩ := params_wellFormed_iff.1 h.params
  exact nextIndex_lt h1 h2 c

theorem SessionInv.qCap_le {s : State} (h : SessionInv s) : s.params.qCap ≤ 65535 := by
  obtain ⟨-, -, ⟨-, h2⟩, -⟩ := params_wellFormed_iff.1 h.params
  exact h2

/-- The shape of a slot is the one of the descriptor found there. -/
theorem SessionInv.shaped {s : State} (h : SessionInv s) (hs : s.runState ≠ .stopped) {g : Ring} {i : Nat} (hi : InRange g i s)
    {d : Desc} (hd : loadSlot g i s = .next d) : Shaped g i s d := by
  obtain ⟨e, he, hsh⟩ := h.slot hs hi
  rw [hd, Host.Outcome.next.injEq] at he
  exact he ▸ hsh

theorem SessionInv.released {s t : State} (h : SessionInv s) (hs : s.runState ≠ .stopped) (k : Released s t) : SessionInv t := by
  obtain ⟨d, m, load, -, mem, result⟩ := k
  have hi : InRange .tx s.txReclaim.toNat s := h.cursors.reclaim
  have hm := h.rewrite hs hi ((h.shaped hs hi load).withStatus _ _ _ _) mem
  exact (hm.withCursors h.cursors.rx h.cursors.fill (h.nextTx_lt _) h.cursors.hwRx h.cursors.hwTx).congr result

theorem SessionInv.refilled {s t : State} (h : SessionInv s) (hs : s.runState ≠ .stopped) (k : Refilled s t) : SessionInv t := by
  obtain ⟨d, m, load, -, backlog, mem, result⟩ := k
  have hi : InRange .tx s.txReclaim.toNat s := h.cursors.reclaim
  have hm := h.rewrite hs hi ((h.shaped hs hi load).withStatus _ _ _ _) mem
  have hq : SessionInv (dequeue { s with mem := m }) := hm.withQueue hs (hm.queue.dequeue backlog h.qCap_le)
  exact (hq.withCursors h.cursors.rx (h.nextTx_lt _) (h.nextTx_lt _) h.cursors.hwRx h.cursors.hwTx).congr result

theorem SessionInv.reclaim {s t : State} (h : SessionInv s) (hs : s.runState ≠ .stopped) (k : Reclaim s t) : SessionInv t := by
  cases k with
  | released k => exact h.released hs k
  | refilled k => exact h.refilled hs k

theorem SessionInv.drain {s u : State} (h : SessionInv s) (hs : s.runState ≠ .stopped) (k : Drain s u) : SessionInv u := by
  induction k with
  | refl => exact h
  | tail hd hr ih => exact ih.reclaim (Drain.runState hd ▸ hs) hr

/-! ### Start and stop -/

/-- A new session: rings written, cursors and queue at 0 (R225). -/
theorem SessionInv.start {s : State} (h : SessionInv s) {bufs : List Word} {m : Memory} (bases : BasesOk s)
    (length : bufs.length = s.params.nRx) (wf : m.wf = true)
    (rx : ∀ i, ∀ h : i < bufs.length, loadDesc s.rxBase i m =
      .next { buf := bufs[i], st := statusWord false (lastSlot .rx s.params i) 0#4 0#14 })
    (tx : ∀ i, i < s.params.nTx → loadDesc s.txBase i m =
      .next { buf := Config.null, st := statusWord true (lastSlot .tx s.params i) 0#4 0#14 }) :
    SessionInv (openSession { s with mem := m }) := by
  obtain ⟨⟨hr, -⟩, ⟨ht, -⟩, ⟨hq, -⟩, -⟩ := params_wellFormed_iff.1 h.params
  have shaped (g : Ring) (i : Nat) (own : Bool) (b : Word) : Shaped g i (openSession { s with mem := m })
      { buf := b, st := statusWord own (lastSlot g s.params i) 0#4 0#14 } :=
    ⟨statusWord_wrap _ _ _ _, statusWord_reserved _ _ _ _⟩
  exact {
    params := h.params
    memory := wf
    queue := ⟨h.queue.entries, Nat.zero_le _, hq, (Nat.zero_mod _).symm⟩
    filter := h.filter
    cursors := ⟨hr, ht, ht, hr, ht⟩
    idle := fun k => nomatch k
    opened := fun _ => {
      rxEn := rfl
      txEn := rfl
      enRxr := rfl
      enTxc := rfl
      bases := bases
      rxRing := ringShape_iff.2 fun i hi => ⟨_, rx i (length ▸ hi), shaped .rx i _ _⟩
      txRing := ringShape_iff.2 fun i hi => ⟨_, tx i hi, shaped .tx i _ _⟩ }
    unfaulted := fun _ => rfl
    latched := fun k => nomatch k }

/-- A session ended: everything disabled, the queue empty, the cursors kept (R226). -/
theorem SessionInv.stop {s : State} (h : SessionInv s) {m : Memory} {f : Half} (wf : m.wf = true)
    (queue : QueueShape { s with qFront := f, qLen := 0#16 }) :
    SessionInv { disableAll s with mem := m, qFront := f, qLen := 0#16, runState := .stopped } where
  params := h.params
  memory := wf
  queue := queue.congr rfl rfl rfl rfl rfl
  filter := h.filter
  cursors := ⟨h.cursors.rx, h.cursors.fill, h.cursors.reclaim, h.cursors.hwRx, h.cursors.hwTx⟩
  idle _ := ⟨rfl, rfl, rfl, rfl, rfl, rfl, rfl, rfl⟩
  opened k := absurd rfl k
  unfaulted k := nomatch k
  latched k := nomatch k

/-- Host stores outside the rings (R104). -/
theorem SessionInv.store {s : State} (h : SessionInv s) {m : Memory} (wf : m.wf = true)
    (rings : s.runState ≠ .stopped → ∀ g i, InRange g i s → loadDesc (ringBase g s) i m = loadSlot g i s) :
    SessionInv { s with mem := m } where
  params := h.params
  memory := wf
  queue := h.queue.congr rfl rfl rfl rfl rfl
  filter := h.filter
  cursors := ⟨h.cursors.rx, h.cursors.fill, h.cursors.reclaim, h.cursors.hwRx, h.cursors.hwTx⟩
  idle k := let i := h.idle k; ⟨i.rxEn, i.txEn, i.txRunning, i.enRxr, i.enTxc, i.pendRxr, i.pendTxc, i.qLen⟩
  opened k :=
    have o := h.opened k
    have ring (g : Ring) : RingShape g { s with mem := m } := ringShape_iff.2 fun i hi => by
      obtain ⟨d, hd, hsh⟩ := h.slot k (g := g) hi
      exact ⟨d, by rw [loadSlot_withMem, rings k g i hi, hd], hsh.wrap, hsh.reserved⟩
    ⟨o.rxEn, o.txEn, o.enRxr, o.enTxc, o.bases, ring .rx, ring .tx⟩
  unfaulted := h.unfaulted
  latched := h.latched

/-- Multicast commands keep their own invariant and touch nothing else (R40). -/
theorem SessionInv.withFilter {s : State} (h : SessionInv s) {ref : Vector (BitVec 8) 64} {bits : BitVec 64} {bcast : Bool}
    (k : FilterShape { s with mcRef := ref, mcBit := bits, bcastEn := bcast }) :
    SessionInv { s with mcRef := ref, mcBit := bits, bcastEn := bcast } where
  params := h.params
  memory := h.memory
  queue := h.queue.congr rfl rfl rfl rfl rfl
  filter := k
  cursors := ⟨h.cursors.rx, h.cursors.fill, h.cursors.reclaim, h.cursors.hwRx, h.cursors.hwTx⟩
  idle k := let i := h.idle k; ⟨i.rxEn, i.txEn, i.txRunning, i.enRxr, i.enTxc, i.pendRxr, i.pendTxc, i.qLen⟩
  opened k := let o := h.opened k; ⟨o.rxEn, o.txEn, o.enRxr, o.enTxc, o.bases, o.rxRing, o.txRing⟩
  unfaulted := h.unfaulted
  latched := h.latched

/-- Between sessions the base registers are free (R50). -/
theorem SessionInv.withBases {s : State} (h : SessionInv s) (hs : s.runState = .stopped) (rx tx : Word) :
    SessionInv { s with rxBase := rx, txBase := tx } where
  params := h.params
  memory := h.memory
  queue := h.queue.congr rfl rfl rfl rfl rfl
  filter := h.filter
  cursors := ⟨h.cursors.rx, h.cursors.fill, h.cursors.reclaim, h.cursors.hwRx, h.cursors.hwTx⟩
  idle k := let i := h.idle k; ⟨i.rxEn, i.txEn, i.txRunning, i.enRxr, i.enTxc, i.pendRxr, i.pendTxc, i.qLen⟩
  opened k := absurd hs k
  unfaulted := h.unfaulted
  latched := h.latched

/-! ### All effects -/

theorem ne_stopped {s : State} (h : s.runState = .running) : s.runState ≠ .stopped := by rw [h]; decide

/-- The engine's cursor follows `WRAP` around the ring (R247). -/
theorem nextHw_lt {g : Ring} {c : Half} {s : State} {d : Desc} (hp : s.params.wellFormed = true) (hi : InRange g c.toNat s)
    (h : Shaped g c.toNat s d) : (nextHw d.wrap c).toNat < ringSize g s.params := by
  have hb := ringSize_bounds hp g
  have hw := h.wrap
  unfold InRange at hi
  unfold nextHw
  split
  · show 0 < _
    omega
  · next hn =>
    rw [hw, decide_eq_true_eq] at hn
    rw [BitVec.toNat_add_of_lt (by simp; omega)]
    show c.toNat + 1 < _
    omega

theorem SessionInv.effect {duty : Prop} {s t : State} (h : SessionInv s) (k : Effect duty s t) : SessionInv t := by
  cases k with
  | quiet result => exact h.congr result
  | pending a b idle result =>
    exact (h.withFlags (c := s.txRunning) fun e => ⟨(idle e).1, (idle e).2, (h.idle e).txRunning⟩).congr result
  | filter ref bits bcast shape result => exact (h.withFilter (shape h.filter)).congr result
  | bases rx tx idle result => exact (h.withBases idle rx tx).congr result
  | stored m wf rings result => exact (h.store (wf h.memory) rings).congr result
  | reset result => exact (sessionInv_resetWith h.params).congr result
  | started bufs m idle bases length nodup notNull wf rx tx result => exact (h.start bases length (wf h.memory) rx tx).congr result
  | stopped m f wf queue result => exact (h.stop (wf h.memory) queue).congr result
  | raised c g slot n running cause result => exact (h.raise (ne_stopped running) cause g slot n).congr result
  | advanced running result =>
    exact (h.withCursors (h.nextRx_lt _) h.cursors.fill h.cursors.reclaim h.cursors.hwRx h.cursors.hwTx).congr result
  | taken d m running load completed mem result =>
    have hi : InRange .rx s.rxCur.toNat s := h.cursors.rx
    have hm := h.rewrite (ne_stopped running) hi ((h.shaped (ne_stopped running) hi load).withBuf _) mem
    exact (hm.withCursors (h.nextRx_lt _) h.cursors.fill h.cursors.reclaim h.cursors.hwRx h.cursors.hwTx).congr result
  | installed i d b m rx running inRing cursor load notNull fresh mem result =>
    have hm := h.rewrite (ne_stopped running) inRing ((h.shaped (ne_stopped running) inRing load).withStatus _ _ _ _) mem
    exact (hm.withCursors cursor h.cursors.fill h.cursors.reclaim h.cursors.hwRx h.cursors.hwTx).congr result
  | submitted d b len m running load free empty notNull fresh mem result =>
    have hi : InRange .tx s.txFill.toNat s := h.cursors.fill
    have hm := h.rewrite (ne_stopped running) hi ((h.shaped (ne_stopped running) hi load).withStatus _ _ _ _) mem
    have hc := hm.withCursors h.cursors.rx (h.nextTx_lt s.txFill) h.cursors.reclaim h.cursors.hwRx h.cursors.hwTx
    exact (hc.withFlags (a := s.pendRxr) (b := s.pendTxc) (c := true) fun e => absurd e (ne_stopped running)).congr result
  | queued d b len running load full room notNull fresh result =>
    exact (h.withQueue (ne_stopped running) (h.queue.enqueue room h.qCap_le b len)).congr result
  | drained u running drain result =>
    have hu := h.drain (ne_stopped running) drain
    have hus : u.runState ≠ .stopped := Drain.runState drain ▸ ne_stopped running
    split at result
    · exact (hu.withFlags (a := u.pendRxr) (b := u.pendTxc) (c := false) fun e => absurd e hus).congr result
    · exact hu.congr result
  | drainFaulted u v slot n running drain last result =>
    have hu := h.drain (ne_stopped running) drain
    have hus : u.runState ≠ .stopped := Drain.runState drain ▸ ne_stopped running
    rcases last with rfl | last
    · exact (hu.raise hus (by decide) .tx slot n).congr result
    · exact ((hu.released hus last).raise (last.runState ▸ hus) (by decide) .tx slot n).congr result
  | received d len err m session load owned mem result =>
    have hi : InRange .rx s.hwRxCur.toNat s := h.cursors.hwRx
    have hsh := h.shaped session hi load
    have hm := h.rewrite session hi (hsh.withStatus _ _ _ _) mem
    have hc := hm.withCursors h.cursors.rx h.cursors.fill h.cursors.reclaim (nextHw_lt h.params hi hsh) h.cursors.hwTx
    exact (hc.withFlags (a := true) (b := s.pendTxc) (c := s.txRunning) fun e => absurd e session).congr result
  | transmitted d m session load owned mem result =>
    have hi : InRange .tx s.hwTxCur.toNat s := h.cursors.hwTx
    have hsh := h.shaped session hi load
    have hm := h.rewrite session hi hsh.withOwn mem
    have hc := hm.withCursors h.cursors.rx h.cursors.fill h.cursors.reclaim h.cursors.hwRx (nextHw_lt h.params hi hsh)
    exact (hc.withFlags (a := s.pendRxr) (b := true) (c := s.txRunning) fun e => absurd e session).congr result

theorem SessionInv.effects {duty : Prop} {s t : State} (h : SessionInv s) (k : Effects duty s t) : SessionInv t := by
  induction k with
  | refl => exact h
  | tail _ he ih => exact ih.effect he

end Sys2Proof.Safety
end

section
/-! SUPPORT. The effects of the ring commands in a running session: each arm of a command is one effect or a chain of them. -/

namespace Sys2Proof.Proofs
open Sys2Proof.Machine Sys2Proof.Safety

/-- An answer that is one effect away. -/
theorem ends_effect {duty : Prop} {s t : State} {o : Res State} (e : o = .next t) (h : Effect duty s t) : Ends o (Effects duty s) :=
  .of_eq e (.single h)

theorem queueHead_of_bare {s t : State} (h : bare t = bare s) : queueHead t = queueHead s :=
  calc queueHead t = queueHead (bare t) := rfl
    _ = queueHead (bare s) := by rw [h]
    _ = queueHead s := rfl

theorem runState_of_bare {s t : State} (h : bare t = bare s) : t.runState = s.runState := (congrArg State.runState h :)
theorem params_of_bare {s t : State} (h : bare t = bare s) : t.params = s.params := (congrArg State.params h :)
theorem qLen_of_bare {s t : State} (h : bare t = bare s) : t.qLen = s.qLen := (congrArg State.qLen h :)

theorem queueEmpty_eq_true {s : State} : queueEmpty s = true ↔ s.qLen = 0#16 := beq_iff_eq

/-- The gate: a response outside `RUNNING`, the command's own effects inside. -/
theorem ringGate_effects {duty : Prop} {s u : State} {k : State → Res State} (hu : Effects duty s u)
    (h : u.runState = .running → Ends (k u) (Effects duty s)) : Ends (ringGate u k) (Effects duty s) := by
  unfold ringGate
  split
  · exact hu.tail (.quiet rfl)
  · exact hu.tail (.quiet rfl)
  · next hr => exact h hr

section
variable {duty : Prop} {s : State} (h : SessionInv s)
include h

/-! ### Rx ring -/

/-- The two slots HarvestCore looks at are readable. -/
theorem harvest_slots (hr : s.runState = .running) :
    (∃ d, loadSlot .rx s.rxCur.toNat s = .next d) ∧ ∃ e, loadSlot .rx (nextRx s.params s.rxCur).toNat s = .next e :=
  ⟨(h.slot (ne_stopped hr) (g := .rx) h.cursors.rx).imp fun _ k => k.1,
    (h.slot (ne_stopped hr) (g := .rx) (h.nextRx_lt s.rxCur)).imp fun _ k => k.1⟩

theorem execHarvest_effects : Ends (execHarvest s) (Effects duty s) := by
  by_cases hr : s.runState = .running
  · obtain ⟨⟨d, hd⟩, e, he⟩ := harvest_slots h hr
    cases hc : slotState d with
    | hwOwned =>
      rw [execHarvest, ringGate_running hr, harvestCore_empty hd hc, andThen_next]
      exact ends_effect rfl (.quiet rfl)
    | free =>
      rw [execHarvest, ringGate_running hr, harvestCore_undecodable hd (.inl hc), andThen_next]
      exact ends_effect rfl (.raised .rxDecode .rx s.rxCur 0#32 hr (by decide) rfl)
    | invalid =>
      rw [execHarvest, ringGate_running hr, harvestCore_undecodable hd (.inr hc), andThen_next]
      exact ends_effect rfl (.raised .rxDecode .rx s.rxCur 0#32 hr (by decide) rfl)
    | swCompleted =>
      by_cases hf : goodFrame s.params d
      · exact ends_effect (execHarvest_good hd hc he hr hf) (.taken d _ hr hd hc (rewritten_emptied hd)
          ((bare_respond _ _ _ _ _ _).trans (bare_afterGood e s)))
      · exact ends_effect (execHarvest_bad hd hc he hr hf) (.advanced hr ((bare_respond _ _ _ _ _ _).trans (bare_afterBad d e s)))
  · exact ringGate_effects .refl fun hr' => absurd hr' hr

theorem execReplenish_effects {slot : Nat} (own : duty → s.arg0 ∉ heldRefs s ∨ slotIs (fun d => d.buf == s.arg0) .rx slot s = true) :
    Ends (execReplenish slot s) (Effects duty s) := by
  refine ringGate_effects .refl fun hr => ?_
  by_cases hslot : slot < s.params.nRx
  · rw [if_pos (show slotOk s.params slot = true from decide_eq_true hslot)]
    by_cases hnull : bufferOperand s = Config.null
    · rw [if_pos hnull]
      exact ends_effect rfl (.quiet rfl)
    · rw [if_neg hnull]
      obtain ⟨d, hd, -⟩ := h.slot (ne_stopped hr) (g := .rx) hslot
      have fresh : duty → d.buf = s.arg0 ∨ s.arg0 ∉ heldRefs s := fun k => by
        rcases own k with k | k
        · exact .inr k
        · obtain ⟨d', hd', hb⟩ := slotIs_eq_true.1 k
          rw [hd, Host.Outcome.next.injEq] at hd'
          exact .inl (by rw [hd']; exact beq_iff_eq.1 hb)
      have install : Ends (andThen (installRx slot (bufferOperand s) s) fun t =>
          .next (respond .ok false (BitVec.ofNat 16 slot) 0#32 0#32 t)) (Effects duty s) := by
        obtain ⟨m, hi, hm⟩ := handOver_of_loadSlot (bufferOperand s) 0#14 hd
        rw [installRx, hi, andThen_next]
        exact ends_effect rfl (.installed slot d s.arg0 m s.rxCur hr hslot h.cursors.rx hd hnull fresh hm rfl)
      rw [hd, andThen_next]
      unfold replenishSlot
      split
      · exact ends_effect rfl (.raised .ownership .rx (BitVec.ofNat 16 slot) 0#32 hr (by decide) rfl)
      · exact ends_effect rfl (.raised .ownership .rx (BitVec.ofNat 16 slot) 0#32 hr (by decide) rfl)
      · split
        · exact install
        · exact ends_effect rfl (.quiet rfl)
      · exact install
  · rw [if_neg (by rw [slotOk, decide_eq_true_eq]; exact hslot)]
    exact ends_effect rfl (.quiet rfl)

theorem execRxService_effects : Ends (execRxService s) (Effects duty s) := by
  by_cases hr : s.runState = .running
  · obtain ⟨⟨d, hd⟩, e, he⟩ := harvest_slots h hr
    have hi : InRange .rx s.rxCur.toNat s := h.cursors.rx
    cases hc : slotState d with
    | hwOwned =>
      rw [execRxService, ringGate_running hr, harvestCore_empty hd hc, andThen_next]
      exact ends_effect rfl (.quiet rfl)
    | free =>
      rw [execRxService, ringGate_running hr, harvestCore_undecodable hd (.inl hc), andThen_next]
      exact ends_effect rfl (.raised .rxDecode .rx s.rxCur 0#32 hr (by decide) rfl)
    | invalid =>
      rw [execRxService, ringGate_running hr, harvestCore_undecodable hd (.inr hc), andThen_next]
      exact ends_effect rfl (.raised .rxDecode .rx s.rxCur 0#32 hr (by decide) rfl)
    | swCompleted =>
      have install {t : State} {b : Word} {m : Memory} (hx : execRxService s = .next t) (h0 : b ≠ Config.null)
          (fresh : d.buf = b ∨ b ∉ heldRefs s) (hm : Rewritten s.rxBase s.rxCur.toNat { buf := b, st := wrapBit d } s.mem m)
          (result : bare t = bare { s with mem := m, rxCur := nextRx s.params s.rxCur }) :
          Ends (execRxService s) (Effects duty s) :=
        ends_effect hx (.installed _ d b m _ hr hi (h.nextRx_lt _) hd h0 (fun _ => fresh) (wrapBit_eq d ▸ hm) result)
      have hnull := (slotState_eq_swCompleted.1 hc).2
      by_cases hf : goodFrame s.params d
      · cases ha : answerAt s 0 with
        | none =>
          obtain ⟨m, hm, hx⟩ := execRxService_none hd hc he hr hf ha
          exact install hx hnull (.inl rfl) hm ((bare_respond _ _ _ _ _ _).trans (bare_afterGood_withMem e s m))
        | some b =>
          by_cases hb : b = Config.null ∨ b = d.buf ∨ b ∈ heldRefs (afterGood e s)
          · rw [execRxService_breach hd hc he hr hf ha hb]
            trivial
          · simp only [not_or] at hb
            obtain ⟨h0, h1, h2⟩ := hb
            obtain ⟨m, hm, hx⟩ := execRxService_some hd hc he hr hf ha h0 h1 h2
            have hfresh : b ∉ heldRefs s := by
              rw [mem_heldRefs_afterGood h (ne_stopped hr) hd hc (e := e), not_or]
              exact ⟨h1, h2⟩
            exact install hx h0 (.inr hfresh) hm ((bare_respond _ _ _ _ _ _).trans (bare_afterGood_withMem e s m))
      · obtain ⟨m, hm, hx⟩ := execRxService_bad hd hc he hr hf
        exact install hx hnull (.inl rfl) hm ((bare_respond _ _ _ _ _ _).trans (bare_afterBad_withMem d e s m))
  · exact ringGate_effects .refl fun hr' => absurd hr' hr

theorem execOnRxReady_effects : Ends (execOnRxReady s) (Effects duty s) := by
  have clear : Effects duty s { s with pendRxr := false } :=
    .single (.pending false s.pendTxc (fun k => ⟨rfl, (h.idle k).pendTxc⟩) rfl)
  refine ringGate_effects clear fun _ => clear.tail (.quiet ?_)
  show bare (if s.pendRxr then _ else _) = _
  split <;> rfl

/-! ### Tx ring -/

theorem execSubmit_effects (own : duty → s.arg0 ∉ heldRefs s) : Ends (execSubmit s) (Effects duty s) := by
  refine ringGate_effects .refl fun hr => ?_
  split
  · exact ends_effect rfl (.quiet rfl)
  · next hop =>
    simp only [not_or] at hop
    obtain ⟨d, hd, -⟩ := h.slot (ne_stopped hr) (g := .tx) h.cursors.fill
    have queue (hfull : slotState d ≠ .free ∨ s.qLen ≠ 0#16) :
        Effects duty s (submitToQueue (bufferOperand s) (lengthOperand s) s) := by
      unfold submitToQueue
      split
      · next hroom =>
        exact .single (.queued d s.arg0 (lengthField s.arg1) hr hd hfull (of_decide_eq_true hroom) hop.1 own rfl)
      · exact .single (.quiet rfl)
    rw [hd, andThen_next]
    unfold submitOn
    split
    · exact ends_effect rfl (.raised .ownership .tx s.txFill 0#32 hr (by decide) rfl)
    · next hfree =>
      split
      · next hq =>
        obtain ⟨m, hi, hm⟩ := handOver_of_loadSlot (bufferOperand s) (lengthField (lengthOperand s)) hd
        rw [submitToRing, fillTx, hi, andThen_next]
        refine ends_effect rfl (.submitted d s.arg0 (lengthField s.arg1) m hr hd hfree (queueEmpty_eq_true.1 hq) hop.1 own hm ?_)
        show bare (restartTx _) = _
        unfold restartTx
        split
        · next hrun => rw [show s.txRunning = true from hrun]
        · rfl
      · next hq => exact queue (.inr fun e => hq (queueEmpty_eq_true.2 e))
    · next hs => exact queue (.inl (by rw [hs]; decide))
    · next hs => exact queue (.inl (by rw [hs]; decide))

end

/-- The reclaim of the finished slot answers. -/
theorem reclaimSlot_eq {s : State} {d : Desc} (hd : loadSlot .tx s.txReclaim.toNat s = .next d) (hc : slotState d = .swCompleted) :
    ∃ t, reclaimSlot d s = .next t ∧ Released s t := by
  obtain ⟨m1, h1, k1⟩ := storeBuf_of_loadSlot Config.null hd
  have hd1 : loadSlot .tx s.txReclaim.toNat { s with mem := m1 } = .next { d with buf := Config.null } := k1.desc
  obtain ⟨m2, h2, k2⟩ := storeStatus_of_loadSlot (statusWord true d.wrap 0#4 0#14) hd1
  have hbare : bare (emit .txAvail (post d.buf { s with mem := m2 })) = bare { s with mem := m2 } :=
    (bare_emit _ _).trans (bare_post _ _)
  refine ⟨_, ?_, .intro d m2 hd hc (k1.trans k2)
    (bare_congr (fun x => { x with txReclaim := nextTx s.params s.txReclaim }) (fun _ => rfl) hbare)⟩
  rw [reclaimSlot, h1, andThen_next, h2, andThen_next]

/-- The refill of the slot just freed answers. -/
theorem refillSlot_eq {s t : State} (h : Released s t) (hq : t.qLen ≠ 0#16) :
    ∃ u, refillSlot s.txReclaim t = .next u ∧ Refilled s u := by
  obtain ⟨d, m, load, finished, mem, result⟩ := h
  have hd : loadSlot .tx s.txReclaim.toNat (dequeue t) =
      .next { buf := Config.null, st := statusWord true d.wrap 0#4 0#14 } :=
    (loadSlot_of_bare result .tx s.txReclaim.toNat).trans (by rw [loadSlot]; exact mem.desc)
  obtain ⟨m', hi, hm⟩ := handOver_of_loadSlot (queueHead t).buf (queueHead t).len hd
  have hhead : queueHead t = queueHead s := (queueHead_of_bare result).trans rfl
  have hmem : t.mem = m := (congrArg State.mem result :)
  have hbase : t.txBase = s.txBase := (congrArg State.txBase result :)
  have hwrap : ({ buf := Config.null, st := statusWord true d.wrap 0#4 0#14 } : Desc).wrap = d.wrap := statusWord_wrap _ _ _ _
  have hm : Rewritten s.txBase s.txReclaim.toNat
      { buf := (queueHead s).buf, st := statusWord false d.wrap 0#4 (queueHead s).len } m m' := by
    have hm : Rewritten t.txBase s.txReclaim.toNat _ t.mem m' := hm
    rwa [hhead, hmem, hbase, hwrap] at hm
  refine ⟨{ dequeue t with mem := m', txFill := nextTx t.params s.txReclaim }, ?_,
    .intro d m' load finished (qLen_of_bare result ▸ hq) (mem.trans hm) ?_⟩
  · rw [refillSlot, fillTx, hi, andThen_next]
  · rw [params_of_bare result]
    exact bare_congr (fun x => { dequeue x with mem := m', txFill := nextTx s.params s.txReclaim }) (fun _ => rfl) result

/-- Where the loop of ON_TX_COMPLETE can end: after iterations that go on, or in a fault that one more reclaim may precede. -/
theorem reclaimLoop_ends (fuel : Nat) : ∀ (n : Word) {s : State}, SessionInv s → s.runState = .running →
    Ends (reclaimLoop fuel n s) fun r =>
      match r.1 with
      | .done => Drain s r.2.2
      | .faulted _ => ∃ u, Drain s u ∧ (r.2.2 = u ∨ Released u r.2.2) := by
  induction fuel with
  | zero => intro n s _ _; exact .refl
  | succ fuel ih =>
    intro n s h hr
    obtain ⟨d, hd, -⟩ := h.slot (ne_stopped hr) (g := .tx) h.cursors.reclaim
    have next {t : State} (ht : Reclaim s t) : Ends (reclaimLoop fuel (n + 1#32) t) _ :=
      (ih (n + 1#32) (h.reclaim (ne_stopped hr) ht) (ht.runState.trans hr)).mono fun r k => by
        show match r.1 with
          | .done => Drain s r.2.2
          | .faulted _ => ∃ u, Drain s u ∧ (r.2.2 = u ∨ Released u r.2.2)
        split <;> rename_i hend <;> rw [hend] at k
        · exact k.head ht
        · obtain ⟨u, hu, hlast⟩ := k
          exact ⟨u, hu.head ht, hlast⟩
    rw [reclaimLoop, hd, andThen_next]
    cases hc : slotState d with
    | invalid => exact ⟨s, .refl, .inl rfl⟩
    | hwOwned => exact .refl
    | free => exact .refl
    | swCompleted =>
      obtain ⟨t, ht, hrel⟩ := reclaimSlot_eq hd hc
      have hq : t.qLen = s.qLen := by
        obtain ⟨_, _, -, -, -, result⟩ := hrel
        exact (congrArg State.qLen result :)
      show Ends (andThen (reclaimSlot d s) _) _
      rw [ht, andThen_next]
      split
      · next he => exact next (.released hrel (hq ▸ queueEmpty_eq_true.1 he))
      · next he =>
        split
        · obtain ⟨u, hu, href⟩ := refillSlot_eq hrel fun e => he (queueEmpty_eq_true.2 e)
          rw [hu, andThen_next]
          exact next (.refilled href)
        · exact ⟨s, .refl, .inr hrel⟩

theorem execOnTxComplete_effects {duty : Prop} {s : State} (h : SessionInv s) : Ends (execOnTxComplete s) (Effects duty s) := by
  have clear : Effects duty s { s with pendTxc := false } :=
    .single (.pending s.pendRxr false (fun k => ⟨(h.idle k).pendRxr, rfl⟩) rfl)
  have hinv : SessionInv { s with pendTxc := false } := h.effects clear
  refine ringGate_effects clear fun hr => (reclaimLoop_ends _ _ hinv hr).andThen fun r k => ?_
  split <;> rename_i hend <;> rw [hend] at k
  · obtain ⟨u, hu, hlast⟩ := k
    exact clear.tail (.drainFaulted u r.2.2 _ r.2.1 hr hu hlast rfl)
  · have hu := hinv.drain (ne_stopped hr) k
    have hus : r.2.2.runState ≠ .stopped := Drain.runState k ▸ ne_stopped hr
    rw [markIdle, txLevel_of_session hu hus, andThen_next, andThen_next]
    refine clear.tail (.drained r.2.2 hr k ?_)
    simp only [bare_respond, queueEmpty_eq_true]

end Sys2Proof.Proofs
end

section
/-! SUPPORT. The effects of START and STOP. -/

namespace Sys2Proof.Proofs
open Sys2Proof.Machine Sys2Proof.Safety

/-! ### START -/

/-- An allocator request stops with no fault of the model; what it answers keeps the contract. -/
theorem allocGet_ends (held : List Word) (s : State) :
    Ends (allocGet held s) fun a => bare a.2 = bare s ∧ ∀ b, a.1 = some b → b ≠ Config.null ∧ b ∉ held := by
  cases ha : allocGet held s with
  | next a =>
    obtain ⟨rfl, hk⟩ := allocGet_eq_next.1 ha
    exact ⟨bare_takeAnswer _ s, fun b hb => ⟨(hk b hb).1, (hk b hb).2.1⟩⟩
  | fault r =>
    unfold allocGet at ha
    split at ha
    · cases ha
    · split at ha <;> cases ha
  | refused r => trivial

/-- What START's first loop obtains: buffers that are not `NULL` and all different, as many as asked for unless it ends early. -/
theorem obtainBuffers_ends (left : Nat) : ∀ {got : List Word} (s : State), got.Nodup → Config.null ∉ got →
    Ends (obtainBuffers left got s) fun r =>
      bare r.2.2 = bare s ∧ r.2.1.Nodup ∧ Config.null ∉ r.2.1 ∧ (r.1 = true → r.2.1.length = got.length + left) := by
  induction left with
  | zero => intro got s hn h0; exact ⟨rfl, hn, h0, fun _ => rfl⟩
  | succ left ih =>
    intro got s hn h0
    refine (allocGet_ends got s).andThen fun a ⟨ha, hk⟩ => ?_
    split
    · exact ⟨ha, hn, h0, fun k => nomatch k⟩
    · next b hb =>
      obtain ⟨hb0, hbg⟩ := hk b hb
      have hn' : (got ++ [b]).Nodup := List.nodup_append'.2 ⟨hn, List.nodup_singleton b, by simpa using hbg⟩
      have h0' : Config.null ∉ got ++ [b] := by simpa using ⟨h0, Ne.symm hb0⟩
      refine (ih a.2 hn' h0').mono fun r ⟨hr, hrn, hr0, hlen⟩ => ⟨hr.trans ha, hrn, hr0, fun k => ?_⟩
      rw [hlen k, List.length_append, List.length_singleton, Nat.add_assoc, Nat.add_comm 1]

/-- Writing different slots of a ring one after the other: each holds what was written there, every other byte stays. -/
theorem forEach_initSlot {α : Type} {g : Ring} {f : α → State → Res State} {idx : α → Nat} {desc : α → Desc} {p : Params}
    (hf : ∀ a u, u.params = p → f a u = initSlot g (idx a) (desc a).buf (desc a).st u) :
    ∀ (as : List α) {s : State}, s.params = p → (as.map idx).Nodup →
      (∀ a ∈ as, descAddr (ringBase g s) (idx a) + 8 ≤ Config.memTop) →
      ∃ m, forEach f as s = .next { s with mem := m } ∧ (s.mem.wf = true → m.wf = true) ∧
        (∀ a ∈ as, loadDesc (ringBase g s) (idx a) m = .next (desc a)) ∧
        (∀ c, (∀ a ∈ as, ¬ (descAddr (ringBase g s) (idx a) ≤ c ∧ c < descAddr (ringBase g s) (idx a) + 8)) →
          readByte m c = readByte s.mem c)
  | [], s, _, _, _ => ⟨s.mem, rfl, id, by simp, by simp⟩
  | a :: as, s, hp, hn, htop => by
    rw [List.map_cons, List.nodup_cons] at hn
    obtain ⟨m1, h1, k1⟩ := initSlot_of_top (g := g) (desc a).buf (desc a).st (htop a List.mem_cons_self)
    have hbase : ringBase g { s with mem := m1 } = ringBase g s := by cases g <;> rfl
    obtain ⟨m, h2, wf, loads, outside⟩ := forEach_initSlot hf as (s := { s with mem := m1 }) hp hn.2
      (by rw [hbase]; exact fun b hb => htop b (List.mem_cons_of_mem a hb))
    rw [hbase] at loads outside
    refine ⟨m, ?_, fun w => wf (k1.wf w), ?_, ?_⟩
    · rw [forEach_cons, hf a s hp, h1, andThen_next, h2]
    · intro b hb
      rcases List.mem_cons.1 hb with rfl | hb
      · refine (loadDesc_congr fun c hc hc' => outside c fun a ha => ?_).trans k1.desc
        have hne : idx a ≠ idx b := fun e => hn.1 (e ▸ List.mem_map_of_mem ha)
        have := apart_of_ne (base := ringBase g s) hne
        unfold Apart at this
        omega
      · exact loads b hb
    · intro c hc
      rw [outside c fun b hb => hc b (List.mem_cons_of_mem a hb)]
      exact k1.outside c (hc a List.mem_cons_self)

/-- START's second half on legal bases writes both rings and opens the session (R220, R224). -/
theorem buildSession_eq {s : State} {bufs : List Word} (hb : BasesOk s) (hlen : bufs.length = s.params.nRx) :
    ∃ m, buildSession bufs s = .next (respondOnly .ok (openSession { s with mem := m })) ∧ (s.mem.wf = true → m.wf = true) ∧
      (∀ i, ∀ h : i < bufs.length, loadDesc s.rxBase i m =
        .next { buf := bufs[i], st := statusWord false (lastSlot .rx s.params i) 0#4 0#14 }) ∧
      (∀ i, i < s.params.nTx → loadDesc s.txBase i m =
        .next { buf := Config.null, st := statusWord true (lastSlot .tx s.params i) 0#4 0#14 }) := by
  have rxIn {a : Word × Nat} (ha : a ∈ bufs.zipIdx) : InRange .rx a.2 s := by
    have := List.snd_lt_of_mem_zipIdx ha
    simpa [InRange, ringSize, hlen] using this
  obtain ⟨m1, h1, wf1, loads1, -⟩ := forEach_initSlot (g := .rx) (f := initRxSlot) (idx := Prod.snd) (p := s.params)
    (desc := fun bi => { buf := bi.1, st := statusWord false (lastSlot .rx s.params bi.2) 0#4 0#14 })
    (fun a u hu => by rw [initRxSlot, hu]) bufs.zipIdx rfl (by rw [List.zipIdx_map_snd]; exact List.nodup_range')
    fun a ha => hb.top (rxIn ha)
  obtain ⟨m2, h2, wf2, loads2, outside2⟩ := forEach_initSlot (g := .tx) (f := initTxSlot) (idx := id) (p := s.params)
    (desc := fun i => { buf := Config.null, st := statusWord true (lastSlot .tx s.params i) 0#4 0#14 })
    (fun a u hu => by rw [initTxSlot, hu]; rfl) (List.range s.params.nTx) (s := { s with mem := m1 }) rfl
    (by rw [List.map_id]; exact List.nodup_range) fun i hi => hb.top (g := .tx) (List.mem_range.1 hi)
  refine ⟨m2, ?_, fun w => wf2 (wf1 w), fun i hi => ?_, fun i hi => loads2 i (List.mem_range.2 hi)⟩
  · have h2 : forEach initTxSlot (List.range s.params.nTx) { s with mem := m1 } = .next { s with mem := m2 } := h2
    rw [buildSession, h1, andThen_next, h2, andThen_next]
  · have hmem : (bufs[i], i) ∈ bufs.zipIdx := List.mem_zipIdx_iff_getElem?.2 (List.getElem?_eq_getElem hi)
    refine (loadDesc_congr fun c hc hc' => outside2 c fun j hj => ?_).trans (loads1 _ hmem)
    have hap := hb.apart (rxIn hmem) (g' := .tx) (List.mem_range.1 hj) (by rintro ⟨⟩)
    simp only [Apart, ringBase] at hap
    show ¬ (descAddr s.txBase j ≤ c ∧ c < descAddr s.txBase j + 8)
    omega

theorem execStart_effects {duty : Prop} {s : State} : Ends (execStart s) (Effects duty s) := by
  unfold execStart
  split
  · exact ends_effect rfl (.quiet rfl)
  · exact ends_effect rfl (.quiet rfl)
  · next hs =>
    split
    · next hb =>
      refine (obtainBuffers_ends s.params.nRx s List.nodup_nil List.not_mem_nil).andThen fun r ⟨hr, hn, h0, hlen⟩ => ?_
      split
      · next hall =>
        have hp := params_of_bare hr
        have hlen : r.2.1.length = s.params.nRx := by rw [hlen hall, List.length_nil, Nat.zero_add]
        have hb' : BasesOk r.2.2 := by
          have hrx : r.2.2.rxBase = s.rxBase := (congrArg State.rxBase hr :)
          have htx : r.2.2.txBase = s.txBase := (congrArg State.txBase hr :)
          rw [BasesOk, hp, hrx, htx]
          exact hb
        obtain ⟨m, hx, wf, rx, tx⟩ := buildSession_eq hb' (hp ▸ hlen)
        refine .of_eq hx (.head (.quiet hr) (.single ?_))
        exact .started r.2.1 m ((runState_of_bare hr).trans hs) hb' (hp ▸ hlen) hn h0 wf rx tx rfl
      · exact ends_effect rfl (.quiet ((bare_respond _ _ _ _ _ _).trans ((bare_postAll r.2.1 r.2.2).trans hr)))
    · exact ends_effect rfl (.quiet rfl)

/-! ### STOP -/

/-- What holds of `u` while STOP empties the rings of `s`: nothing but memory has changed, and every slot stays readable. -/
structure Draining (s u : State) : Prop where
  rest : bare u = bare { disableAll s with mem := u.mem }
  wf : s.mem.wf = true → u.mem.wf = true
  readable : ∀ g i, InRange g i s → ∃ d, loadSlot g i u = .next d

theorem Draining.congr {s u v : State} (h : Draining s u) (e : bare v = bare u) : Draining s v := by
  have hm : v.mem = u.mem := (congrArg State.mem e :)
  exact ⟨by rw [e, h.rest, hm], by rw [hm]; exact h.wf, fun g i hi => by rw [loadSlot_of_bare e]; exact h.readable g i hi⟩

theorem Draining.rewrite {s u : State} (h : Draining s u) (hb : BasesOk s) {g : Ring} {i : Nat} (hi : InRange g i s) {d : Desc}
    {m : Memory} (hm : Rewritten (ringBase g u) i d u.mem m) : Draining s { u with mem := m } := by
  have hp : u.params = s.params := (params_of_bare h.rest :)
  have hr : u.rxBase = s.rxBase := (congrArg State.rxBase h.rest :)
  have ht : u.txBase = s.txBase := (congrArg State.txBase h.rest :)
  have range {g : Ring} {i : Nat} (hi : InRange g i s) : InRange g i u := by rw [InRange, hp]; exact hi
  have hb : BasesOk u := by rw [BasesOk, hp, hr, ht]; exact hb
  refine ⟨(bare_congr (fun x => { x with mem := m }) (fun _ => rfl) h.rest :), fun w => hm.wf (h.wf w), fun g' j hj => ?_⟩
  rw [loadSlot_rewritten hb (range hi) (range hj) hm]
  split
  · exact ⟨d, rfl⟩
  · exact h.readable g' j hj

/-- STOP on one slot: the status word with `OWN` set, and the reference cleared where there was one (R226). -/
theorem drainSlot_ends {s : State} (hb : BasesOk s) {g : Ring} {i : Nat} (hi : InRange g i s) {r : Word × State}
    (h : Draining s r.2) : Ends (drainSlot g i r) fun q => Draining s q.2 := by
  obtain ⟨d, hd⟩ := h.readable g i hi
  obtain ⟨m, hst, hm⟩ := storeStatus_of_loadSlot (setOwn d.st) hd
  have hdr := h.rewrite hb hi hm
  rw [drainSlot, hd, andThen_next, hst, andThen_next, postHeld]
  split
  · exact hdr
  · have hpost := hdr.congr (bare_post d.buf { r.2 with mem := m })
    obtain ⟨e, he⟩ := hpost.readable g i hi
    obtain ⟨m', hbuf, hm'⟩ := storeBuf_of_loadSlot Config.null he
    rw [hbuf, andThen_next]
    exact hpost.rewrite hb hi hm'

/-- STOP's walk over the queue empties it (R226). -/
theorem drainQueue_spec : ∀ (k : Nat) (r : Word × State), QueueShape r.2 → r.2.params.qCap ≤ 65535 → r.2.qLen.toNat = k →
    QueueShape (drainQueue k r).2 ∧ (drainQueue k r).2.qLen = 0#16 ∧
      bare (drainQueue k r).2 = bare { r.2 with qFront := (drainQueue k r).2.qFront, qLen := 0#16 }
  | 0, r, h, _, hk =>
    have hq : r.2.qLen = 0#16 := BitVec.eq_of_toNat_eq hk
    ⟨h, hq, by rw [drainQueue]; congr 1; rw [← hq]⟩
  | k + 1, r, h, hcap, hk => by
    have hq : r.2.qLen ≠ 0#16 := fun e => by rw [e] at hk; cases hk
    have hbare : bare (post (queueHead r.2).buf (dequeue r.2)) = bare (dequeue r.2) := bare_post _ _
    have hlen : (dequeue r.2).qLen.toNat = k := by
      show (r.2.qLen - 1#16).toNat = k
      rw [BitVec.toNat_sub_of_le (by rw [BitVec.le_def, hk]; exact Nat.succ_pos k), hk]
      rfl
    obtain ⟨hs, h0, hres⟩ := drainQueue_spec k (r.1 + 1#32, post (queueHead r.2).buf (dequeue r.2))
      (queueShape_of_bare (hbare ▸ queueShape_bare (h.dequeue hq hcap)))
      (by rw [params_of_bare hbare]; exact hcap) (by rw [qLen_of_bare hbare]; exact hlen)
    refine ⟨hs, h0, hres.trans ?_⟩
    exact (bare_congr (fun x => { x with qFront := (drainQueue (k + 1) r).2.qFront, qLen := 0#16 }) (fun _ => rfl) hbare :)

theorem txWalk_lt {s : State} (hp : s.params.wellFormed = true) {i : Nat} (hi : i ∈ txWalk s) : i < s.params.nTx := by
  obtain ⟨-, ⟨h1, -⟩, -⟩ := params_wellFormed_iff.1 hp
  obtain ⟨k, -, rfl⟩ := List.mem_map.1 hi
  exact Nat.mod_lt _ h1

theorem stopSession_effects {duty : Prop} {s : State} (h : SessionInv s) (hs : s.runState ≠ .stopped) :
    Ends (stopSession s) (Effects duty s) := by
  have hb := h.bases hs
  have start : Draining s (disableAll s) := ⟨rfl, id, fun g i hi => (h.slot hs (g := g) hi).imp fun _ k => k.1⟩
  have walk (g : Ring) {l : List Nat} (hl : ∀ i ∈ l, InRange g i s) {r : Word × State} (hr : Draining s r.2) :
      Ends (forEach (drainSlot g) l r) fun q => Draining s q.2 :=
    Post.forEach (P := fun q : Word × State => Draining s q.2) hr fun i hi q hq => drainSlot_ends hb (hl i hi) hq
  refine (walk .rx (fun i hi => List.mem_range.1 hi) start).andThen fun r hr => ?_
  refine (walk .tx (fun i hi => txWalk_lt h.params hi) hr).andThen fun q hq => ?_
  have hp : q.2.params = s.params := (params_of_bare hq.rest :)
  have hshape : QueueShape q.2 := queueShape_of_bare (hq.rest ▸ queueShape_bare (h.queue.congr rfl rfl rfl rfl rfl))
  obtain ⟨hqs, hq0, hqr⟩ := drainQueue_spec q.2.qLen.toNat q hshape (hp ▸ h.qCap_le) rfl
  have hall := hqr.trans (bare_congr (fun x => { x with qFront := (drainQueue q.2.qLen.toNat q).2.qFront, qLen := 0#16 })
    (fun _ => rfl) hq.rest)
  refine ends_effect rfl (.stopped q.2.mem (drainQueue q.2.qLen.toNat q).2.qFront hq.wf ?_ ?_)
  · exact queueShape_of_bare ((queueShape_bare hqs).congr (congrArg State.qEnt hall :).symm hq0.symm rfl
      (congrArg State.qBack hall :).symm (params_of_bare hall :).symm)
  · exact (bare_congr (fun x => { x with runState := .stopped }) (fun _ => rfl) hall :)

theorem execStop_effects {duty : Prop} {s : State} (h : SessionInv s) : Ends (execStop s) (Effects duty s) := by
  unfold execStop
  split
  · exact ends_effect rfl (.quiet rfl)
  · next hs => exact stopSession_effects h (by rw [hs]; decide)
  · next hs => exact stopSession_effects h (by rw [hs]; decide)

end Sys2Proof.Proofs
end

section
/-! SUPPORT. The effects of the multicast commands, the register accesses, the DMA engine and host stores; and of a step. -/

namespace Sys2Proof.Proofs
open Sys2Proof.Machine Sys2Proof.Safety

/-! ### Multicast (R40, R207, R208, R212) -/

/-- What the multicast commands change is the table alone. -/
theorem bare_addRef (b : Bucket) (s : State) :
    bare (addRef b s) = bare { s with mcRef := (addRef b s).mcRef, mcBit := (addRef b s).mcBit } := by
  unfold addRef; split <;> rfl

theorem bare_dropRef (b : Bucket) (s : State) :
    bare (dropRef b s) = bare { s with mcRef := (dropRef b s).mcRef, mcBit := (dropRef b s).mcBit } := by
  unfold dropRef; split <;> rfl

theorem filterShape_addRef {s : State} {b : Bucket} (hmax : refCount s b ≠ Config.refMax) (h : FilterShape s) :
    FilterShape (addRef b s) := by
  intro c
  have hc := h c
  have hp : (addRef b s).params = s.params := (params_of_bare (bare_addRef b s) :)
  have hen : (addRef b s).bcastEn = s.bcastEn := (congrArg State.bcastEn (bare_addRef b s) :)
  rw [hp, hen]
  have hpos : 0 < (refCount s b + 1#8).toNat := by
    have hmax : (refCount s b).toNat ≠ 255 := fun e => hmax (BitVec.eq_of_toNat_eq e)
    rw [BitVec.toNat_add_of_lt (by have := (refCount s b).isLt; simp; omega)]
    exact Nat.succ_pos _
  unfold addRef
  by_cases hcb : c = b
  · subst hcb
    split
    · rw [bucketBit_setBucketBit_same, refCount_setBucketBit, refCount_setRefCount_same]
      exact ⟨fun _ => .inl hpos, fun _ => rfl⟩
    · next h0 =>
      have : 0 < (refCount s c).toNat := Nat.pos_of_ne_zero fun e => h0 (BitVec.eq_of_toNat_eq e)
      rw [bucketBit_setRefCount, refCount_setRefCount_same]
      exact ⟨fun _ => .inl hpos, fun _ => hc.2 (.inl this)⟩
  · split
    · rw [bucketBit_setBucketBit_other hcb, refCount_setBucketBit, refCount_setRefCount_other hcb]
      exact hc
    · rw [bucketBit_setRefCount, refCount_setRefCount_other hcb]
      exact hc

theorem filterShape_dropRef {s : State} {b : Bucket} (hmin : refCount s b ≠ 0#8) (h : FilterShape s) : FilterShape (dropRef b s) := by
  intro c
  have hc := h c
  have hp : (dropRef b s).params = s.params := (params_of_bare (bare_dropRef b s) :)
  have hen : (dropRef b s).bcastEn = s.bcastEn := (congrArg State.bcastEn (bare_dropRef b s) :)
  rw [hp, hen]
  unfold dropRef
  by_cases hcb : c = b
  · subst hcb
    have hpos : 0 < (refCount s c).toNat := Nat.pos_of_ne_zero fun e => hmin (BitVec.eq_of_toNat_eq e)
    have hbit : bucketBit s c = true := hc.2 (.inl hpos)
    have hsub : (refCount s c - 1#8).toNat = (refCount s c).toNat - 1 := BitVec.toNat_sub_of_le (by rw [BitVec.le_def]; exact hpos)
    split
    · next hlast =>
      obtain ⟨h1, hb⟩ := hlast
      rw [bucketBit_setBucketBit_same, refCount_setBucketBit, refCount_setRefCount_same, h1]
      simp only [bcastHolds, Bool.and_eq_false_iff, beq_eq_false_iff_ne] at hb
      constructor
      · intro k; cases k
      · rintro (k | ⟨k1, k2⟩)
        · exact absurd k (by decide)
        · rcases hb with hb | hb
          · rw [hb] at k2; cases k2
          · exact absurd k1 hb
    · next hlast =>
      rw [bucketBit_setRefCount, refCount_setRefCount_same, hbit, hsub]
      refine ⟨fun _ => ?_, fun _ => rfl⟩
      by_cases h1 : refCount s c = 1#8
      · right
        have hb : bcastHolds c s = true := by
          by_contra k
          exact hlast ⟨h1, by simpa using k⟩
        simp only [bcastHolds, Bool.and_eq_true, beq_iff_eq] at hb
        exact ⟨hb.2, hb.1⟩
      · left
        have : (refCount s c).toNat ≠ 1 := fun e => h1 (BitVec.eq_of_toNat_eq e)
        omega
  · split
    · rw [bucketBit_setBucketBit_other hcb, refCount_setBucketBit, refCount_setRefCount_other hcb]
      exact hc
    · rw [bucketBit_setRefCount, refCount_setRefCount_other hcb]
      exact hc

theorem filterShape_setBroadcast {s : State} (h : FilterShape s) :
    FilterShape (setBucketBit (bcastBucket s.params.hashMode) true { s with bcastEn := true }) := by
  intro c
  show _ ↔ 0 < (refCount s c).toNat ∨ (c = bcastBucket s.params.hashMode ∧ true = true)
  by_cases hc : c = bcastBucket s.params.hashMode
  · rw [hc, bucketBit_setBucketBit_same]
    simp
  · have hcs : bucketBit s c = true ↔ _ := h c
    rw [bucketBit_setBucketBit_other hc]
    simp only [hc, false_and, or_false] at hcs ⊢
    exact hcs

/-- The filter's shape is about the table, the broadcast enable and the hash mode. -/
theorem filterShape_congr {s t : State} (h : FilterShape s) (e : bare t = bare s) : FilterShape t := by
  have ht : FilterShape (bare t) := e ▸ (show FilterShape (bare s) from h)
  exact ht

theorem execMcAdd_effects {duty : Prop} {s : State} : Ends (execMcAdd s) (Effects duty s) := by
  show Ends (if _ then _ else _) _
  split
  · exact ends_effect rfl (.quiet rfl)
  · next hmax =>
    have hres := bare_addRef (operandBucket s) s
    exact ends_effect rfl (.filter _ _ s.bcastEn (fun h => filterShape_congr (filterShape_addRef hmax h) hres.symm)
      ((bare_respond _ _ _ _ _ _).trans hres))

theorem execMcRemove_effects {duty : Prop} {s : State} : Ends (execMcRemove s) (Effects duty s) := by
  show Ends (if _ then _ else _) _
  split
  · exact ends_effect rfl (.quiet rfl)
  · next hmin =>
    have hres := bare_dropRef (operandBucket s) s
    exact ends_effect rfl (.filter _ _ s.bcastEn (fun h => filterShape_congr (filterShape_dropRef hmin h) hres.symm)
      ((bare_respond _ _ _ _ _ _).trans hres))

/-! ### Registers -/

theorem writeMcCtrl_effect {duty : Prop} (v : Word) (s : State) : Effect duty s (writeMcCtrl v s) := by
  unfold writeMcCtrl
  split
  · exact .filter s.mcRef _ true (fun h => filterShape_setBroadcast h) rfl
  · exact .quiet rfl

theorem writeReg_effect {duty : Prop} (r : Reg) (v : Word) {s : State} (h : SessionInv s) : Effect duty s (writeReg r v s) := by
  cases r with
  | intPend =>
    refine .pending _ _ (fun k => ?_) rfl
    rw [(h.idle k).pendRxr, (h.idle k).pendTxc]
    exact ⟨Bool.false_and _, Bool.false_and _⟩
  | mcCtrl => exact writeMcCtrl_effect v s
  | rxBase =>
    show Effect duty s (if _ then _ else _)
    split
    · exact .quiet rfl
    · next k => exact .bases v s.txBase (inSession_eq_false.1 (Bool.not_eq_true _ ▸ k)) rfl
  | txBase =>
    show Effect duty s (if _ then _ else _)
    split
    · exact .quiet rfl
    · next k => exact .bases s.rxBase v (inSession_eq_false.1 (Bool.not_eq_true _ ▸ k)) rfl
  | _ => exact .quiet rfl

/-- A readable register: where the invariant holds, also the two that look at descriptor memory. -/
theorem readReg_ends (r : Reg) {s : State} (h : SessionInv s) : Ends (readReg r s) fun _ => True := by
  cases r with
  | status =>
    show Ends (statusReg s) _
    rw [statusReg, txLevel_eq h, rxReady_eq h, andThen_next, andThen_next]
    trivial
  | txLevel =>
    show Ends (andThen (txLevel s) _) _
    rw [txLevel_eq h, andThen_next]
    trivial
  | _ => trivial

/-! ### The DMA engine and host stores -/

/-- The engine is enabled in a session only (R22). -/
theorem session_of_rxEn {s : State} (h : SessionInv s) (he : s.rxEn = true) : s.runState ≠ .stopped := fun k => by
  rw [(h.idle k).rxEn] at he; cases he

theorem session_of_txEn {s : State} (h : SessionInv s) (he : s.txEn = true) : s.runState ≠ .stopped := fun k => by
  rw [(h.idle k).txEn] at he; cases he

theorem dmaRxDone_effects {duty : Prop} (len : BitVec 14) (err : BitVec 4) {s : State} (h : SessionInv s) :
    Ends (dmaRxDone len err s) (Effects duty s) := by
  unfold dmaRxDone
  split
  · next he =>
    have hs := session_of_rxEn h he
    obtain ⟨d, hd, -⟩ := h.slot hs (g := .rx) h.cursors.hwRx
    rw [hd, andThen_next]
    split
    · next hown =>
      obtain ⟨m, hx, hm⟩ := storeStatus_of_loadSlot (statusWord true d.wrap err len) hd
      rw [dmaRxGiveBack, hx, andThen_next]
      exact ends_effect rfl (.received d len err m hs hd hown hm rfl)
    · exact ends_effect rfl (.quiet rfl)
  · exact ends_effect rfl (.quiet rfl)

theorem dmaTxDone_effects {duty : Prop} {s : State} (h : SessionInv s) : Ends (dmaTxDone s) (Effects duty s) := by
  unfold dmaTxDone
  split
  · next he =>
    have hs := session_of_txEn h (Bool.and_eq_true_iff.1 he).1
    obtain ⟨d, hd, -⟩ := h.slot hs (g := .tx) h.cursors.hwTx
    rw [hd, andThen_next]
    split
    · next hown =>
      obtain ⟨m, hx, hm⟩ := storeStatus_of_loadSlot (setOwn d.st) hd
      rw [dmaTxGiveBack, hx, andThen_next]
      exact ends_effect rfl (.transmitted d m hs hd hown hm rfl)
    · exact ends_effect rfl (.quiet rfl)
  · exact ends_effect rfl (.quiet rfl)

/-- A byte outside a ring belongs to none of its descriptors. -/
theorem inRing_of_desc {g : Ring} {i : Nat} {s : State} {a : Nat} (hi : InRange g i s) (h1 : descAddr (ringBase g s) i ≤ a)
    (h2 : a < descAddr (ringBase g s) i + 8) : inRing g a s = true := by
  rw [inRing, Bool.and_eq_true, decide_eq_true_eq, decide_eq_true_eq]
  simp only [descAddr, Config.descSize, InRange] at *
  omega

theorem hostStoreByte_effects {duty : Prop} (addr : Word) (v : Byte) (s : State) :
    Ends (hostStoreByte addr v s) (Effects duty s) := by
  unfold hostStoreByte
  split
  · trivial
  · next hfree =>
    refine ends_effect rfl (.stored _ (writeByte_wf addr.isLt v) (fun hs g i hi => ?_) rfl)
    refine loadDesc_congr fun a h1 h2 => readByte_writeByte_other ?_ v s.mem
    rintro rfl
    have hin := inRing_of_desc hi h1 h2
    rw [inSession_eq_true.2 hs, Bool.true_and] at hfree
    cases g <;> simp [hin] at hfree

/-! ### Commands and steps -/

/-- The host's duty (R311) in the words of the two commands it is about. -/
theorem exec_effects {duty : Prop} {w : Word} {i : Instr} {s : State} (h : SessionInv s) (hd : decode w = .ok i)
    (own : duty → hostOwnsOperand w s) : Ends (exec i s) (Effects duty s) := by
  cases i with
  | start => exact execStart_effects
  | stop => exact execStop_effects h
  | submit => exact execSubmit_effects h fun k => by simpa only [hostOwnsOperand, hd] using own k
  | onTxComplete => exact execOnTxComplete_effects h
  | harvest => exact execHarvest_effects h
  | replenish slot => exact execReplenish_effects h fun k => by simpa only [hostOwnsOperand, hd] using own k
  | rxService => exact execRxService_effects h
  | onRxReady => exact execOnRxReady_effects h
  | mcAdd => exact execMcAdd_effects
  | mcRemove => exact execMcRemove_effects
  | mcLookup => exact ends_effect rfl (.quiet rfl)

theorem regOf_eq_cmd {width : AccessWidth} {offset : Nat} (h : regOf width offset = some .cmd) : width = .word ∧ offset = 0x00 := by
  cases width with
  | byte => cases h
  | half => cases h
  | word =>
    simp only [regOf, regAt] at h
    split at h <;> first | exact ⟨rfl, rfl⟩ | cases h

theorem runTransition_effects {duty : Prop} {tr : Transition} {s : State} (h : SessionInv s)
    (own : ∀ w, tr = .write .word 0x00 w → duty → hostOwnsOperand w s) : Ends (runTransition tr s) (Effects duty s) := by
  cases tr with
  | write width offset v =>
    show Ends (hostWrite width offset v s) _
    unfold hostWrite
    split
    · trivial
    · next r hreg =>
      split
      · next hr =>
        obtain ⟨rfl, rfl⟩ := regOf_eq_cmd (hr ▸ hreg)
        unfold runCommand
        split
        · next i hdec => exact exec_effects h hdec (own v rfl)
        · exact ends_effect rfl (.quiet rfl)
      · exact ends_effect rfl (writeReg_effect r v h)
  | read width offset =>
    show Ends (hostRead width offset s) _
    unfold hostRead
    split
    · trivial
    · next r _ => exact (readReg_ends r h).andThen fun v _ => ends_effect rfl (.quiet rfl)
  | dmaRxDone len err => exact dmaRxDone_effects len err h
  | dmaTxDone => exact dmaTxDone_effects h
  | hostStore addr v => exact hostStoreByte_effects addr v s
  | reset => exact ends_effect rfl (.reset rfl)

/-- Every step from a state of the session invariant stops with no fault of the model, and answers a state that a chain of effects leads
to. The host's duty is the one for the command the step runs. -/
theorem step_effects {s : State} (h : SessionInv s) :
    Ends (step s) (Effects (∀ w, nextCommand s w → hostOwnsOperand w s) s) := by
  unfold step
  cases ha : s.agenda with
  | nil => exact .refl
  | cons tr rest =>
    have hpop : Effect (∀ w, nextCommand s w → hostOwnsOperand w s) s s.popAgenda := .quiet rfl
    refine (runTransition_effects (h.effect hpop) fun w e k => ?_).mono fun t ht => ht.head hpop
    exact k w (by rw [nextCommand, ha, e]; rfl)

end Sys2Proof.Proofs
end

section
/-! O55 and O57: both are `step_effects` with `SessionInv.effects`. -/

namespace Sys2Proof.Proofs
open Sys2Proof.Machine Sys2Proof.Safety

/-- Settles O55: every effect keeps the session invariant. -/
theorem everyStepKeepsSessionInv : Obligations.EveryStepKeepsSessionInv :=
  fun _ _ h hstep => h.effects ((step_effects h).of_eq_next hstep)

/-- Settles O57: where the invariant holds every slot of a session is readable, so no arm of a step faults. -/
theorem sessionInvariantRulesOutFaults : Obligations.SessionInvariantRulesOutFaults :=
  fun _ r h => (step_effects h).ne_fault r

end Sys2Proof.Proofs
end

section
/-! SUPPORT. The Tx ring in ring order from `tx_reclaim` and the overflow queue from its front: how the two are indexed, and what one
step of a cursor does to the indices. -/

namespace Sys2Proof.Proofs
open Sys2Proof.Machine Sys2Proof.Safety

/-! ### The Tx ring (R65) -/

theorem txSlot_lt {s : State} (hp : s.params.wellFormed = true) (j : Nat) : txSlot s j < s.params.nTx :=
  Nat.mod_lt _ (params_wellFormed_iff.1 hp).2.1.1

theorem txSlot_inj {s : State} {j k : Nat} (hj : j < s.params.nTx) (hk : k < s.params.nTx) (h : txSlot s j = txSlot s k) : j = k := by
  have hmod : j ≡ k [MOD s.params.nTx] := Nat.ModEq.add_left_cancel' s.txReclaim.toNat h
  rwa [Nat.ModEq, Nat.mod_eq_of_lt hj, Nat.mod_eq_of_lt hk] at hmod

theorem txSlot_zero {s : State} (h : s.txReclaim.toNat < s.params.nTx) : txSlot s 0 = s.txReclaim.toNat := Nat.mod_eq_of_lt h

/-- Once around the ring. -/
theorem txSlot_size (s : State) : txSlot s s.params.nTx = txSlot s 0 := Nat.add_mod_right _ _

theorem nextTx_toNat {p : Params} (hp : p.wellFormed = true) (c : Half) : (nextTx p c).toNat = (c.toNat + 1) % p.nTx := by
  obtain ⟨-, ⟨h1, h2⟩, -⟩ := params_wellFormed_iff.1 hp
  exact nextIndex_toNat h1 h2 c

theorem add_one_mod_txSlot (s : State) (j : Nat) : (txSlot s j + 1) % s.params.nTx = txSlot s (j + 1) := Nat.mod_add_mod _ _ _

/-- A cursor at number `j` steps to number `j + 1`. -/
theorem nextTx_txSlot {s : State} (hp : s.params.wellFormed = true) {c : Half} {j : Nat} (h : c.toNat = txSlot s j) :
    (nextTx s.params c).toNat = txSlot s (j + 1) := by
  rw [nextTx_toNat hp, h, add_one_mod_txSlot]

/-- So does the engine's cursor, which steps by `WRAP` (R247). -/
theorem nextHw_txSlot {s : State} (hp : s.params.wellFormed = true) {c : Half} {j : Nat} {d : Desc} (h : c.toNat = txSlot s j)
    (hd : Shaped .tx c.toNat s d) : (nextHw d.wrap c).toNat = txSlot s (j + 1) := by
  obtain ⟨-, ⟨h1, h2⟩, -⟩ := params_wellFormed_iff.1 hp
  have hlt : c.toNat < s.params.nTx := h ▸ txSlot_lt hp j
  have hw : d.wrap = decide (c.toNat + 1 = s.params.nTx) := hd.wrap
  rw [← add_one_mod_txSlot, ← h, nextHw, hw]
  by_cases hn : c.toNat + 1 = s.params.nTx
  · simp [hn]
  · simp only [hn, decide_false, Bool.false_eq_true, if_false]
    have hs : (c + 1#16).toNat = c.toNat + 1 := BitVec.toNat_add_of_lt (by simp; omega)
    rw [hs, Nat.mod_eq_of_lt (by omega)]

/-- Where `tx_reclaim` steps, number `j` is what was number `j + 1`. -/
theorem txSlot_reclaimed {s t : State} (hp : s.params.wellFormed = true) (h : t.txReclaim = nextTx s.params s.txReclaim)
    (e : t.params = s.params) (j : Nat) : txSlot t j = txSlot s (j + 1) := by
  rw [txSlot, e, h, nextTx_toNat hp, Nat.mod_add_mod, txSlot, Nat.add_assoc, Nat.add_comm 1]

/-- After Tx slot number `k` is rewritten, it holds the new descriptor and every other number what it held. -/
theorem loadSlot_txSlot_rewritten {s : State} (hp : s.params.wellFormed = true) (hb : BasesOk s) {k j : Nat} {d : Desc} {m : Memory}
    (hk : k < s.params.nTx) (hj : j < s.params.nTx) (hm : Rewritten s.txBase (txSlot s k) d s.mem m) :
    loadSlot .tx (txSlot s j) { s with mem := m } = if j = k then .next d else loadSlot .tx (txSlot s j) s := by
  have hin (l : Nat) : InRange .tx (txSlot s l) s := txSlot_lt hp l
  rw [loadSlot_rewritten hb (hin k) (hin j) hm]
  by_cases h : j = k
  · rw [h, if_pos rfl, if_pos rfl]
  · rw [if_neg h, if_neg fun e => h (txSlot_inj hj hk (by simpa using e))]

/-! ### The overflow queue (R37, R172, R173) -/

theorem queueHead_eq {s : State} (h : QueueShape s) : queueHead s = entryAt s 0 := by
  rw [queueHead, entryAt, Nat.add_zero, Nat.mod_eq_of_lt h.front]

theorem qLen_dequeue {s : State} (h : s.qLen ≠ 0#16) : (dequeue s).qLen.toNat = s.qLen.toNat - 1 := by
  have hpos : 0 < s.qLen.toNat := Nat.pos_of_ne_zero fun e => h (BitVec.eq_of_toNat_eq e)
  exact BitVec.toNat_sub_of_le (by rw [BitVec.le_def]; exact hpos)

theorem entryAt_dequeue {s : State} (hp : s.params.wellFormed = true) (k : Nat) : entryAt (dequeue s) k = entryAt s (k + 1) := by
  obtain ⟨-, -, ⟨h1, h2⟩, -⟩ := params_wellFormed_iff.1 hp
  have hfront : (nextQ s.params s.qFront).toNat = (s.qFront.toNat + 1) % s.params.qCap := nextIndex_toNat h1 h2 _
  show s.qEnt.getD (((nextQ s.params s.qFront).toNat + k) % s.params.qCap) emptyEntry = _
  rw [hfront, Nat.mod_add_mod, entryAt, Nat.add_assoc, Nat.add_comm 1]

theorem qLen_enqueue {s : State} (hp : s.params.wellFormed = true) (room : s.qLen.toNat < s.params.qCap) (b : Word) (len : BitVec 14) :
    (enqueue b len s).qLen.toNat = s.qLen.toNat + 1 := by
  obtain ⟨-, -, ⟨-, h2⟩, -⟩ := params_wellFormed_iff.1 hp
  exact BitVec.toNat_add_of_lt (by simp; omega)

/-- The new entry stands behind the old ones. -/
theorem entryAt_enqueue {s : State} (h : QueueShape s) (room : s.qLen.toNat < s.params.qCap) {b : Word} {len : BitVec 14} {k : Nat}
    (hk : k ≤ s.qLen.toNat) :
    entryAt (enqueue b len s) k = if k = s.qLen.toNat then { buf := b, len := len } else entryAt s k := by
  have hpos : 0 < s.params.qCap := by omega
  have hlt : (s.qFront.toNat + k) % s.params.qCap < s.qEnt.length := by
    rw [h.entries]; exact Nat.mod_lt _ hpos
  show (s.qEnt.set s.qBack.toNat _).getD ((s.qFront.toNat + k) % s.params.qCap) emptyEntry = _
  rw [List.getD_eq_getElem?_getD, h.back]
  split
  · next e => rw [e, List.getElem?_set_self (e ▸ hlt)]; rfl
  · next e =>
    have hne : (s.qFront.toNat + s.qLen.toNat) % s.params.qCap ≠ (s.qFront.toNat + k) % s.params.qCap := fun heq => by
      have hmod : s.qLen.toNat ≡ k [MOD s.params.qCap] := Nat.ModEq.add_left_cancel' s.qFront.toNat heq
      rw [Nat.ModEq, Nat.mod_eq_of_lt room, Nat.mod_eq_of_lt (by omega)] at hmod
      omega
    rw [List.getElem?_set_ne hne, ← List.getD_eq_getElem?_getD]
    rfl

end Sys2Proof.Proofs
end

section
/-! SUPPORT. R65 items 2 to 6 with the two counts as parameters. `Pipeline s f h` speaks of `f` finished and `h` held Tx slots; where it
holds they are what the model counts, so a step's effect on the counts is read off the ring and never counted again. -/

namespace Sys2Proof.Proofs
open Sys2Proof.Machine Sys2Proof.Safety

/-- The state of Tx slot number `j` where the first `f` are finished and the first `h` held. -/
def phase (f h j : Nat) : SlotState := if j < f then .swCompleted else if j < h then .hwOwned else .free

theorem phase_eq_free {f h j : Nat} : phase f h j = .free ↔ f ≤ j ∧ h ≤ j := by
  unfold phase; split_ifs <;> simp <;> omega

theorem phase_eq_swCompleted {f h j : Nat} : phase f h j = .swCompleted ↔ j < f := by
  unfold phase; split_ifs <;> simp <;> omega

theorem phase_eq_hwOwned {f h j : Nat} : phase f h j = .hwOwned ↔ f ≤ j ∧ j < h := by
  unfold phase; split_ifs <;> simp <;> omega

theorem phase_congr {f h j f' h' j' : Nat} (hf : j < f ↔ j' < f') (hh : j < h ↔ j' < h') : phase f h j = phase f' h' j' := by
  simp only [phase, hf, hh]

/-- Tx slot number `j` is readable and in the state `c`. -/
def TxIs (s : State) (j : Nat) (c : SlotState) : Prop := ∃ d, loadSlot .tx (txSlot s j) s = .next d ∧ slotState d = c

theorem TxIs.of_load {s : State} {j : Nat} {c : SlotState} {d : Desc} (h : TxIs s j c) (hd : loadSlot .tx (txSlot s j) s = .next d) :
    slotState d = c := by
  obtain ⟨e, he, hc⟩ := h
  rw [hd, Host.Outcome.next.injEq] at he
  exact he ▸ hc

/-- R65 items 2 to 6, but for the converse of item 6, which ON_TX_COMPLETE restores only at its end. -/
structure Pipeline (s : State) (f h : Nat) : Prop where
  rxSlots : ∀ i, InRange .rx i s → ∃ d, loadSlot .rx i s = .next d ∧ slotState d ≠ .invalid
  finished : f ≤ h
  held : h ≤ s.params.nTx
  txSlots : ∀ j, j < s.params.nTx → TxIs s j (phase f h j)
  fill : s.txFill.toNat = txSlot s h
  engine : s.hwTxCur.toNat = txSlot s f
  backlog : 0 < s.qLen.toNat → h = s.params.nTx
  busy : 0 < h ∨ 0 < s.qLen.toNat → s.txRunning = true
  entries : ∀ k, k < s.qLen.toNat → (entryAt s k).buf ≠ Config.null

/-! ### The counts -/

/-- Counting Tx slots by index is counting them in ring order. -/
theorem countSlots_tx (p : Desc → Bool) (s : State) :
    countSlots p .tx s = (List.range s.params.nTx).countP fun j => slotIs p .tx (txSlot s j) s := by
  have horder : (List.range s.params.nTx).map (txSlot s) = (List.range s.params.nTx).rotate s.txReclaim.toNat :=
    List.ext_getElem (by simp) fun j _ _ => by simp [List.getElem_rotate, txSlot, Nat.add_comm]
  calc countSlots p .tx s = (List.range s.params.nTx).countP fun i => slotIs p .tx i s := List.countP_eq_length_filter.symm
    _ = ((List.range s.params.nTx).map (txSlot s)).countP fun i => slotIs p .tx i s := by
      rw [horder, (List.rotate_perm _ _).countP_eq]
    _ = _ := List.countP_map

theorem countP_range_lt {k n : Nat} (h : k ≤ n) : (List.range n).countP (fun j => decide (j < k)) = k := by
  obtain ⟨m, rfl⟩ := Nat.exists_eq_add_of_le h
  rw [List.range_add, List.countP_append, List.countP_map,
    List.countP_eq_length.2 fun j hj => by simpa using hj, List.countP_eq_zero.2 fun j _ => by simp, List.length_range, Nat.add_zero]

/-- Where exactly the first `k` Tx slots in ring order satisfy `p`, there are `k` of them. -/
theorem countSlots_of_prefix {p : Desc → Bool} {s : State} {k : Nat} (hk : k ≤ s.params.nTx)
    (h : ∀ j, j < s.params.nTx → (slotIs p .tx (txSlot s j) s = true ↔ j < k)) : countSlots p .tx s = k := by
  rw [countSlots_tx, ← countP_range_lt hk]
  exact List.countP_congr fun j hj => by rw [h j (List.mem_range.1 hj), decide_eq_true_eq]

theorem TxIs.slotIs_iff {s : State} {j : Nat} {c : SlotState} (h : TxIs s j c) {p : Desc → Bool} {q : SlotState → Prop}
    (hp : ∀ d, p d = true ↔ q (slotState d)) : slotIs p .tx (txSlot s j) s = true ↔ q c := by
  obtain ⟨d, hd, rfl⟩ := h
  rw [slotIs_eq_true, ← hp d]
  exact ⟨fun ⟨e, he, hpe⟩ => by rw [hd, Host.Outcome.next.injEq] at he; exact he ▸ hpe, fun hpd => ⟨d, hd, hpd⟩⟩

/-- A slot holds a buffer in two of its four states (R33). -/
theorem buf_ne_null_iff (d : Desc) : (d.buf != Config.null) = true ↔ slotState d = .swCompleted ∨ slotState d = .hwOwned := by
  rw [slotState_eq_swCompleted, slotState_eq_hwOwned, bne_iff_ne]
  cases d.own <;> simp

theorem Pipeline.txFinished_eq {s : State} {f h : Nat} (p : Pipeline s f h) : txFinished s = f :=
  countSlots_of_prefix (p.finished.trans p.held) fun j hj => by
    rw [(p.txSlots j hj).slotIs_iff (q := fun c => c = .swCompleted) fun d => beq_iff_eq, phase_eq_swCompleted]

theorem Pipeline.txHeld_eq {s : State} {f h : Nat} (p : Pipeline s f h) : txHeld s = h :=
  countSlots_of_prefix p.held fun j hj => by
    rw [(p.txSlots j hj).slotIs_iff (q := fun c => c = .swCompleted ∨ c = .hwOwned) buf_ne_null_iff, phase_eq_swCompleted,
      phase_eq_hwOwned]
    have := p.finished
    omega

/-! ### The invariant of R65 -/

theorem entries_iff {s : State} :
    (∀ e ∈ queueEntries s, e.buf ≠ Config.null) ↔ ∀ k, k < s.qLen.toNat → (entryAt s k).buf ≠ Config.null := by
  simp only [queueEntries_eq, List.forall_mem_map, List.mem_range]

theorem pipeline_of_runningShape {s : State} (h : RunningShape s) : Pipeline s (txFinished s) (txHeld s) where
  rxSlots i hi := by
    obtain ⟨d, hd, hne⟩ := slotIs_eq_true.1 (h.rxSlots i hi)
    exact ⟨d, hd, by simpa using hne⟩
  finished := by
    unfold txFinished txHeld
    rw [countSlots_tx, countSlots_tx]
    refine List.countP_mono_left fun j _ hj => ?_
    obtain ⟨d, hd, hc⟩ := slotIs_eq_true.1 hj
    exact slotIs_eq_true.2 ⟨d, hd, (buf_ne_null_iff d).2 (.inl (by simpa using hc))⟩
  held := by
    unfold txHeld
    rw [countSlots_tx]
    exact List.countP_le_length.trans_eq List.length_range
  txSlots j hj := by
    obtain ⟨d, hd, hc⟩ := slotIs_eq_true.1 (h.txSlots j hj)
    exact ⟨d, hd, by simpa [phase] using hc⟩
  fill := h.fill
  engine := h.engine
  backlog := h.backlog
  busy := h.running.2
  entries := entries_iff.1 h.entries

theorem Pipeline.runningShape {s : State} {f h : Nat} (p : Pipeline s f h) (idle : s.txRunning = true → 0 < h ∨ 0 < s.qLen.toNat) :
    RunningShape s where
  rxSlots i hi := by
    obtain ⟨d, hd, hne⟩ := p.rxSlots i hi
    exact slotIs_eq_true.2 ⟨d, hd, by simpa using hne⟩
  txSlots j hj := by
    obtain ⟨d, hd, hc⟩ := p.txSlots j hj
    rw [p.txFinished_eq, p.txHeld_eq]
    exact slotIs_eq_true.2 ⟨d, hd, by simpa [phase] using hc⟩
  fill := by rw [p.txHeld_eq]; exact p.fill
  engine := by rw [p.txFinished_eq]; exact p.engine
  backlog := by rw [p.txHeld_eq]; exact p.backlog
  running := by rw [p.txHeld_eq]; exact ⟨idle, p.busy⟩
  entries := entries_iff.2 p.entries

/-- What `Pipeline` reads of the state beside the slots themselves. -/
def transmitSide (s : State) : Params × Half × Half × Half × Bool × List QEntry × Half × Half :=
  (s.params, s.txReclaim, s.txFill, s.hwTxCur, s.txRunning, s.qEnt, s.qFront, s.qLen)

/-- The invariant of R65 depends on the slots of both rings and on `transmitSide`. -/
theorem Pipeline.congr {s t : State} {f h : Nat} (p : Pipeline s f h) (hp : s.params.wellFormed = true)
    (side : transmitSide t = transmitSide s) (loads : ∀ g i, InRange g i s → loadSlot g i t = loadSlot g i s) : Pipeline t f h := by
  simp only [transmitSide, Prod.mk.injEq] at side
  obtain ⟨e1, e2, e3, e4, e5, e6, e7, e8⟩ := side
  have hslot (j : Nat) : txSlot t j = txSlot s j := by rw [txSlot, e1, e2]; rfl
  have hentry (k : Nat) : entryAt t k = entryAt s k := by rw [entryAt, e1, e6, e7]; rfl
  have hin (i : Nat) : InRange .rx i t ↔ InRange .rx i s := by rw [InRange, e1]; rfl
  exact {
    rxSlots := fun i hi => by rw [loads .rx i ((hin i).1 hi)]; exact p.rxSlots i ((hin i).1 hi)
    finished := p.finished
    held := e1 ▸ p.held
    txSlots := fun j hj => by
      rw [TxIs, hslot, loads .tx _ (txSlot_lt hp j)]
      exact p.txSlots j (e1 ▸ hj)
    fill := by rw [e3, hslot]; exact p.fill
    engine := by rw [e4, hslot]; exact p.engine
    backlog := by rw [e8, e1]; exact p.backlog
    busy := by rw [e8, e5]; exact p.busy
    entries := fun k hk => by rw [hentry]; exact p.entries k (e8 ▸ hk) }

end Sys2Proof.Proofs
end

section
/-! SUPPORT. What each effect does to the two counts of `Pipeline`, and with it that every effect keeps the invariant of R65. -/

namespace Sys2Proof.Proofs
open Sys2Proof.Machine Sys2Proof.Safety

/-- What a slot read depends on. -/
def slotSide (s : State) : Memory × Word × Word := (s.mem, s.rxBase, s.txBase)

theorem loadSlot_congr {s t : State} (e : slotSide t = slotSide s) (g : Ring) (i : Nat) : loadSlot g i t = loadSlot g i s := by
  simp only [slotSide, Prod.mk.injEq] at e
  obtain ⟨e1, e2, e3⟩ := e
  cases g
  · show loadDesc t.rxBase i t.mem = loadDesc s.rxBase i s.mem
    rw [e1, e2]
  · show loadDesc t.txBase i t.mem = loadDesc s.txBase i s.mem
    rw [e1, e3]

theorem slotState_given {b : Word} (h : b ≠ Config.null) (wrap : Bool) (err : BitVec 4) (len : BitVec 14) :
    slotState { buf := b, st := statusWord false wrap err len } = .hwOwned :=
  slotState_eq_hwOwned.2 ⟨statusWord_own _ _ _ _, h⟩

theorem slotState_emptied (wrap : Bool) (err : BitVec 4) (len : BitVec 14) :
    slotState { buf := Config.null, st := statusWord true wrap err len } = .free :=
  slotState_eq_free.2 ⟨statusWord_own _ _ _ _, rfl⟩

theorem slotState_taken {d : Desc} (h : slotState d = .swCompleted) : slotState { d with buf := Config.null } = .free :=
  slotState_eq_free.2 ⟨(slotState_eq_swCompleted.1 h).1, rfl⟩

theorem slotState_received {d : Desc} (h : slotState d = .hwOwned) (wrap : Bool) (err : BitVec 4) (len : BitVec 14) :
    slotState { d with st := statusWord true wrap err len } = .swCompleted :=
  slotState_eq_swCompleted.2 ⟨statusWord_own _ _ _ _, (slotState_eq_hwOwned.1 h).2⟩

theorem slotState_setOwn {d : Desc} (h : slotState d = .hwOwned) : slotState { d with st := setOwn d.st } = .swCompleted :=
  slotState_eq_swCompleted.2 ⟨setOwn_own d.st, (slotState_eq_hwOwned.1 h).2⟩

/-! ### ON_TX_COMPLETE (R176 to R178) -/

section
variable {s t : State} {f h : Nat} {d : Desc} {m : Memory}

/-- The Tx ring after a reclaim: every number one less, the slot just reclaimed now the last. -/
theorem Pipeline.txSlots_reclaimed {f' h' : Nat} (p : Pipeline s f h) (hi : SessionInv s) (hs : s.runState ≠ .stopped)
    (mem : Rewritten s.txBase s.txReclaim.toNat d s.mem m) (slots : slotSide t = slotSide { s with mem := m })
    (params : t.params = s.params) (reclaim : t.txReclaim = nextTx s.params s.txReclaim)
    (others : ∀ j, j + 1 < s.params.nTx → phase f h (j + 1) = phase f' h' j) (last : slotState d = phase f' h' (s.params.nTx - 1)) :
    ∀ j, j < t.params.nTx → TxIs t j (phase f' h' j) := by
  intro j hj
  rw [params] at hj
  rw [← txSlot_zero hi.cursors.reclaim] at mem
  have hload (k : Nat) (hk : k < s.params.nTx) := loadSlot_txSlot_rewritten hi.params (hi.bases hs) (k := 0) (by omega) hk mem
  rw [TxIs, loadSlot_congr slots, txSlot_reclaimed hi.params reclaim params]
  by_cases hn : j + 1 = s.params.nTx
  · rw [hn, txSlot_size, hload 0 (by omega), if_pos rfl]
    exact ⟨d, rfl, by rw [last]; congr 1; omega⟩
  · rw [hload (j + 1) (by omega), if_neg (by omega), ← others j (by omega)]
    exact p.txSlots (j + 1) (by omega)

/-- A write of a Tx slot leaves the Rx ring alone. -/
theorem Pipeline.rxSlots_txRewritten (p : Pipeline s f h) (hb : BasesOk s) {i : Nat} (hi : InRange .tx i s)
    (mem : Rewritten s.txBase i d s.mem m) (slots : slotSide t = slotSide { s with mem := m }) (params : t.params = s.params) :
    ∀ j, InRange .rx j t → ∃ d, loadSlot .rx j t = .next d ∧ slotState d ≠ .invalid := by
  intro j hj
  have hj' : InRange .rx j s := by rw [InRange, params] at hj; exact hj
  rw [loadSlot_congr slots, loadSlot_rewritten hb hi hj' mem, if_neg (by simp)]
  exact p.rxSlots j hj'

/-- A finished slot at `tx_reclaim` is number 0 of at least one. -/
theorem Pipeline.finished_pos (p : Pipeline s f h) (hi : SessionInv s) (load : loadSlot .tx s.txReclaim.toNat s = .next d)
    (finished : slotState d = .swCompleted) : 0 < f := by
  rw [← txSlot_zero hi.cursors.reclaim] at load
  have hpos : 0 < s.params.nTx := by have := hi.cursors.reclaim; omega
  exact phase_eq_swCompleted.1 (((p.txSlots 0 hpos).of_load load).symm.trans finished)

theorem Pipeline.released (p : Pipeline s f h) (hi : SessionInv s) (hs : s.runState ≠ .stopped) (k : Released s t)
    (empty : s.qLen = 0#16) : Pipeline t (f - 1) (h - 1) := by
  obtain ⟨d, m, load, finished, mem, result⟩ := k
  obtain ⟨f, rfl⟩ : ∃ f', f = f' + 1 := Nat.exists_eq_succ_of_ne_zero (p.finished_pos hi load finished).ne'
  obtain ⟨h, rfl⟩ : ∃ h', h = h' + 1 := Nat.exists_eq_succ_of_ne_zero (by have := p.finished; omega)
  have hle := p.finished
  have hroom := p.held
  have params : t.params = s.params := (params_of_bare result :)
  have reclaim : t.txReclaim = nextTx s.params s.txReclaim := (congrArg State.txReclaim result :)
  have slots : slotSide t = slotSide { s with mem := m } := (congrArg slotSide result :)
  have hslot := txSlot_reclaimed hi.params reclaim params
  have hq : t.qLen = s.qLen := (congrArg State.qLen result :)
  have hq0 : t.qLen.toNat = 0 := by rw [hq, empty]; rfl
  exact {
    rxSlots := p.rxSlots_txRewritten (hi.bases hs) hi.cursors.reclaim mem slots params
    finished := by omega
    held := by rw [params]; omega
    txSlots := p.txSlots_reclaimed hi hs mem slots params reclaim (fun j _ => phase_congr (by omega) (by omega)) <| by
      rw [slotState_emptied]
      exact (phase_eq_free.2 (by omega)).symm
    fill := by rw [Nat.add_sub_cancel, hslot, ← p.fill]; exact congrArg (fun s => s.txFill.toNat) result
    engine := by rw [Nat.add_sub_cancel, hslot, ← p.engine]; exact congrArg (fun s => s.hwTxCur.toNat) result
    backlog := fun k => by omega
    busy := fun _ => (congrArg State.txRunning result :).trans (p.busy (.inl (by omega)))
    entries := fun k hk => by omega }

theorem Pipeline.refilled (p : Pipeline s f h) (hi : SessionInv s) (hs : s.runState ≠ .stopped) (k : Refilled s t) :
    Pipeline t (f - 1) h := by
  obtain ⟨d, m, load, finished, backlog, mem, result⟩ := k
  obtain ⟨f, rfl⟩ : ∃ f', f = f' + 1 := Nat.exists_eq_succ_of_ne_zero (p.finished_pos hi load finished).ne'
  have hle := p.finished
  have hq : 0 < s.qLen.toNat := Nat.pos_of_ne_zero fun e => backlog (BitVec.eq_of_toNat_eq e)
  obtain rfl := p.backlog hq
  have params : t.params = s.params := (params_of_bare result :)
  have reclaim : t.txReclaim = nextTx s.params s.txReclaim := (congrArg State.txReclaim result :)
  have slots : slotSide t = slotSide { s with mem := m } := (congrArg slotSide result :)
  have hslot := txSlot_reclaimed hi.params reclaim params
  have hlen : t.qLen.toNat = s.qLen.toNat - 1 := (congrArg (fun s => s.qLen.toNat) result :).trans (qLen_dequeue backlog)
  have hentry (k : Nat) : entryAt t k = entryAt s (k + 1) :=
    (congrArg (fun s => entryAt s k) result :).trans (entryAt_dequeue hi.params k)
  have hhead : (queueHead s).buf ≠ Config.null := by rw [queueHead_eq hi.queue]; exact p.entries 0 hq
  have hnT : t.params.nTx = s.params.nTx := congrArg Params.nTx params
  exact {
    rxSlots := p.rxSlots_txRewritten (hi.bases hs) hi.cursors.reclaim mem slots params
    finished := by omega
    held := hnT.ge
    txSlots := p.txSlots_reclaimed hi hs mem slots params reclaim (fun j _ => phase_congr (by omega) (by omega)) <| by
      rw [slotState_given hhead]
      exact (phase_eq_hwOwned.2 (by omega)).symm
    fill := by
      rw [← hnT, txSlot_size, hslot, ← nextTx_txSlot hi.params (txSlot_zero hi.cursors.reclaim).symm]
      exact congrArg (fun s => s.txFill.toNat) result
    engine := by rw [Nat.add_sub_cancel, hslot, ← p.engine]; exact congrArg (fun s => s.hwTxCur.toNat) result
    backlog := fun _ => hnT.symm
    busy := fun _ => (congrArg State.txRunning result :).trans (p.busy (.inr hq))
    entries := fun k hk => by rw [hentry]; exact p.entries (k + 1) (by omega) }

theorem Pipeline.drain (p : Pipeline s f h) (hi : SessionInv s) (hs : s.runState ≠ .stopped) (k : Drain s t) :
    ∃ f h, Pipeline t f h := by
  induction k with
  | refl => exact ⟨f, h, p⟩
  | tail hd hr ih =>
    obtain ⟨f, h, p⟩ := ih
    have hi' := hi.drain hs hd
    have hs' := Drain.runState hd ▸ hs
    cases hr with
    | released k empty => exact ⟨_, _, p.released hi' hs' k empty⟩
    | refilled k => exact ⟨_, _, p.refilled hi' hs' k⟩

end

end Sys2Proof.Proofs
end

section
/-! SUPPORT. The remaining effects keep R65 items 2 to 6 while `RUNNING`. -/

namespace Sys2Proof.Safety
open Sys2Proof.Machine Sys2Proof.Proofs

section
variable {s t : State} {d : Desc} {m : Memory}

/-- R65 items 2 to 6 depend on the slots of both rings and on `transmitSide`. -/
theorem RunningShape.congr (r : RunningShape s) (hp : s.params.wellFormed = true) (side : transmitSide t = transmitSide s)
    (loads : ∀ g i, InRange g i s → loadSlot g i t = loadSlot g i s) : RunningShape t := by
  refine ((pipeline_of_runningShape r).congr hp side loads).runningShape fun e => ?_
  simp only [transmitSide, Prod.mk.injEq] at side
  obtain ⟨-, -, -, -, hrun, -, -, hlen⟩ := side
  rw [hlen]
  exact r.running.1 (hrun ▸ e)

/-- A write of an Rx slot that leaves it valid. -/
theorem RunningShape.rxRewritten {i : Nat} (r : RunningShape s) (hp : s.params.wellFormed = true) (hb : BasesOk s)
    (hi : InRange .rx i s) (valid : slotState d ≠ .invalid) (mem : Rewritten s.rxBase i d s.mem m) :
    RunningShape { s with mem := m } := by
  have p := pipeline_of_runningShape r
  have hload (g : Ring) (j : Nat) (hj : InRange g j s) := loadSlot_rewritten hb hi hj mem
  have hm : Pipeline { s with mem := m } (txFinished s) (txHeld s) := {
    rxSlots := fun j hj => by
      rw [hload .rx j hj]
      split
      · exact ⟨d, rfl, valid⟩
      · exact p.rxSlots j hj
    finished := p.finished
    held := p.held
    txSlots := fun j hj => by
      have hin : InRange .tx (txSlot s j) s := txSlot_lt hp j
      show ∃ _, loadSlot .tx (txSlot s j) { s with mem := m } = _ ∧ _
      rw [hload .tx _ hin, if_neg (by simp)]
      exact p.txSlots j hj
    fill := p.fill
    engine := p.engine
    backlog := p.backlog
    busy := p.busy
    entries := p.entries }
  exact hm.runningShape r.running.1

end

end Sys2Proof.Safety

namespace Sys2Proof.Proofs
open Sys2Proof.Machine Sys2Proof.Safety

section
variable {s t : State} {d : Desc} {m : Memory}

/-- Tx slot number `k` rewritten, the numbers below it and above it left alone. -/
theorem Pipeline.txSlots_rewritten {f h f' h' k : Nat} (p : Pipeline s f h) (hp : s.params.wellFormed = true) (hb : BasesOk s)
    (hk : k < s.params.nTx) (mem : Rewritten s.txBase (txSlot s k) d s.mem m) (own : slotState d = phase f' h' k)
    (others : ∀ j, j ≠ k → phase f h j = phase f' h' j) :
    ∀ j, j < s.params.nTx → TxIs { s with mem := m } j (phase f' h' j) := by
  intro j hj
  show ∃ _, loadSlot .tx (txSlot s j) { s with mem := m } = _ ∧ _
  rw [loadSlot_txSlot_rewritten hp hb hk hj mem]
  by_cases e : j = k
  · rw [if_pos e]
    exact ⟨d, rfl, by rw [own, e]⟩
  · rw [if_neg e, ← others j e]
    exact p.txSlots j hj

/-- Where the slot at `tx_fill` is free the ring is not full: in a full ring it is number 0, which holds a buffer. -/
theorem Pipeline.held_lt {f h : Nat} (p : Pipeline s f h) (hp : s.params.wellFormed = true)
    (load : loadSlot .tx s.txFill.toNat s = .next d) (free : slotState d = .free) : h < s.params.nTx := by
  have hpos := (params_wellFormed_iff.1 hp).2.1.1
  refine Nat.lt_of_le_of_ne p.held fun e => ?_
  rw [p.fill, e, txSlot_size] at load
  have h0 := phase_eq_free.1 (((p.txSlots 0 hpos).of_load load).symm.trans free)
  omega

/-- Where the slot at `tx_fill` is not free the ring is full. -/
theorem Pipeline.held_eq {f h : Nat} (p : Pipeline s f h) (load : loadSlot .tx s.txFill.toNat s = .next d)
    (full : slotState d ≠ .free) : h = s.params.nTx := by
  by_contra e
  have hlt : h < s.params.nTx := Nat.lt_of_le_of_ne p.held e
  rw [p.fill] at load
  exact full (((p.txSlots h hlt).of_load load).trans (phase_eq_free.2 ⟨p.finished, le_refl h⟩))

/-- The slot at the engine's cursor, being hardware-owned, is the first of the unfinished ones. -/
theorem Pipeline.finished_lt {f h : Nat} (p : Pipeline s f h) (hp : s.params.wellFormed = true)
    (load : loadSlot .tx s.hwTxCur.toNat s = .next d) (owned : slotState d = .hwOwned) : f < h := by
  have hpos := (params_wellFormed_iff.1 hp).2.1.1
  have hle := p.finished.trans p.held
  rw [p.engine] at load
  rcases Nat.lt_or_eq_of_le hle with hf | hf
  · exact (phase_eq_hwOwned.1 (((p.txSlots f hf).of_load load).symm.trans owned)).2
  · rw [hf, txSlot_size] at load
    have h0 := phase_eq_hwOwned.1 (((p.txSlots 0 hpos).of_load load).symm.trans owned)
    omega

/-- SUBMIT into the ring: one more slot held (R171). -/
theorem Pipeline.submitted {f h : Nat} {b : Word} {len : BitVec 14} (p : Pipeline s f h) (hi : SessionInv s)
    (hs : s.runState ≠ .stopped) (load : loadSlot .tx s.txFill.toNat s = .next d) (free : slotState d = .free)
    (empty : s.qLen = 0#16) (notNull : b ≠ Config.null)
    (mem : Rewritten s.txBase s.txFill.toNat { buf := b, st := statusWord false d.wrap 0#4 len } s.mem m) :
    Pipeline { s with mem := m, txFill := nextTx s.params s.txFill, txRunning := true } f (h + 1) := by
  have hlt := p.held_lt hi.params load free
  have hle := p.finished
  have hb := hi.bases hs
  have hq : s.qLen.toNat = 0 := by rw [empty]; rfl
  exact {
    rxSlots := p.rxSlots_txRewritten hb hi.cursors.fill mem rfl rfl
    finished := by omega
    held := hlt
    txSlots := by
      rw [p.fill] at mem
      refine p.txSlots_rewritten hi.params hb hlt mem ?_ fun j hj => phase_congr Iff.rfl (by omega)
      rw [slotState_given notNull]
      exact (phase_eq_hwOwned.2 (by omega)).symm
    fill := nextTx_txSlot hi.params p.fill
    engine := p.engine
    backlog := fun k => absurd k (by show ¬ 0 < s.qLen.toNat; omega)
    busy := fun _ => rfl
    entries := p.entries }

/-- DMA_TX_DONE: one more slot finished (R245). -/
theorem Pipeline.transmitted {f h : Nat} (p : Pipeline s f h) (hi : SessionInv s) (hs : s.runState ≠ .stopped)
    (load : loadSlot .tx s.hwTxCur.toNat s = .next d) (owned : slotState d = .hwOwned)
    (mem : Rewritten s.txBase s.hwTxCur.toNat { d with st := setOwn d.st } s.mem m) :
    Pipeline { s with mem := m, pendTxc := true, hwTxCur := nextHw d.wrap s.hwTxCur } (f + 1) h := by
  have hlt := p.finished_lt hi.params load owned
  have hroom := p.held
  have hb := hi.bases hs
  exact {
    rxSlots := p.rxSlots_txRewritten hb hi.cursors.hwTx mem rfl rfl
    finished := hlt
    held := hroom
    txSlots := by
      rw [p.engine] at mem
      refine p.txSlots_rewritten hi.params hb (by omega) mem ?_ fun j hj => phase_congr (by omega) Iff.rfl
      rw [slotState_setOwn owned]
      exact (phase_eq_swCompleted.2 (by omega)).symm
    fill := p.fill
    engine := nextHw_txSlot hi.params p.engine (hi.shaped hs (g := .tx) hi.cursors.hwTx load)
    backlog := p.backlog
    busy := p.busy
    entries := p.entries }

/-- SUBMIT into the overflow queue: the ring is full and stays as it is (R172). -/
theorem Pipeline.queued {f h : Nat} {b : Word} {len : BitVec 14} (p : Pipeline s f h) (hi : SessionInv s)
    (load : loadSlot .tx s.txFill.toNat s = .next d) (full : slotState d ≠ .free ∨ s.qLen ≠ 0#16)
    (room : s.qLen.toNat < s.params.qCap) (notNull : b ≠ Config.null) : Pipeline (enqueue b len s) f h := by
  have hlen := qLen_enqueue hi.params room b len
  have hfull : h = s.params.nTx := full.elim (p.held_eq load) fun k =>
    p.backlog (Nat.pos_of_ne_zero fun e => k (BitVec.eq_of_toNat_eq e))
  have hpos := (params_wellFormed_iff.1 hi.params).2.1.1
  exact {
    rxSlots := p.rxSlots
    finished := p.finished
    held := p.held
    txSlots := p.txSlots
    fill := p.fill
    engine := p.engine
    backlog := fun _ => hfull
    busy := fun _ => p.busy (.inl (by omega))
    entries := fun k hk => by
      rw [entryAt_enqueue hi.queue room (by omega)]
      split
      · exact notNull
      · exact p.entries k (by omega) }

/-- START: every Rx slot given to the engine, every Tx slot free (R225). -/
theorem pipeline_started {bufs : List Word} (hp : s.params.wellFormed = true) (length : bufs.length = s.params.nRx)
    (notNull : Config.null ∉ bufs)
    (rx : ∀ i, ∀ h : i < bufs.length, loadDesc s.rxBase i m =
      .next { buf := bufs[i], st := statusWord false (lastSlot .rx s.params i) 0#4 0#14 })
    (tx : ∀ i, i < s.params.nTx → loadDesc s.txBase i m =
      .next { buf := Config.null, st := statusWord true (lastSlot .tx s.params i) 0#4 0#14 }) :
    Pipeline (openSession { s with mem := m }) 0 0 where
  rxSlots i hi := by
    have hi' : i < bufs.length := length ▸ hi
    refine ⟨_, rx i hi', ?_⟩
    rw [slotState_given fun e => notNull (e ▸ List.getElem_mem hi')]
    decide
  finished := le_rfl
  held := Nat.zero_le _
  txSlots j _ := ⟨_, tx _ (txSlot_lt (s := openSession { s with mem := m }) hp j), by
    rw [slotState_emptied]; exact (phase_eq_free.2 (by omega)).symm⟩
  fill := (Nat.zero_mod _).symm
  engine := (Nat.zero_mod _).symm
  backlog k := absurd k (Nat.lt_irrefl 0)
  busy k := absurd k (by rintro (k | k) <;> exact Nat.lt_irrefl 0 k)
  entries _ k := absurd k (Nat.not_lt_zero _)

end

end Sys2Proof.Proofs
end

section
/-! O56: every effect keeps the invariant of R65, hence every step. -/

namespace Sys2Proof.Safety
open Sys2Proof.Machine Sys2Proof.Proofs

/-- A shape read through `bare` (R65 items 2 to 6). -/
theorem RunningShape.of_bare {s t : State} (r : RunningShape s) (hp : s.params.wellFormed = true) (e : Proofs.bare t = Proofs.bare s) :
    RunningShape t :=
  r.congr hp (congrArg transmitSide e :) fun g i _ => loadSlot_of_bare e g i

theorem RunInv.effect {duty : Prop} {s t : State} (h : RunInv s) (k : Effect duty s t) : RunInv t := by
  have hi := h.session
  have hp := hi.params
  refine ⟨hi.effect k, fun ht => ?_⟩
  cases k with
  | quiet result => exact (h.shape ((congrArg State.runState result).symm.trans ht)).of_bare hp result
  | pending a b idle result =>
    have r := h.shape ((congrArg State.runState result).symm.trans ht)
    exact r.congr hp (congrArg transmitSide result :) fun g i _ => loadSlot_congr (congrArg slotSide result :) g i
  | filter ref bits bcast shape result =>
    have r := h.shape ((congrArg State.runState result).symm.trans ht)
    exact r.congr hp (congrArg transmitSide result :) fun g i _ => loadSlot_congr (congrArg slotSide result :) g i
  | bases rx tx idle result => exact absurd (idle.symm.trans ((congrArg State.runState result).symm.trans ht)) (by decide)
  | stored m wf rings result =>
    have running : s.runState = .running := (congrArg State.runState result).symm.trans ht
    refine (h.shape running).congr hp (congrArg transmitSide result :) fun g i hin => ?_
    rw [loadSlot_of_bare result, loadSlot_withMem, rings (ne_stopped running) g i hin]
  | reset result => exact nomatch (congrArg State.runState result).symm.trans ht
  | started bufs m idle bases length nodup notNull wf rx tx result =>
    have p := pipeline_started hp length notNull rx tx
    exact (p.runningShape fun e => nomatch e).of_bare hp result
  | stopped m f wf queue result => exact nomatch (congrArg State.runState result).symm.trans ht
  | raised c g slot n running cause result => exact nomatch (congrArg State.runState result).symm.trans ht
  | advanced running result =>
    exact (h.shape running).congr hp (congrArg transmitSide result :) fun g i _ =>
      loadSlot_congr (congrArg slotSide result :) g i
  | taken d m running load completed mem result =>
    have valid : slotState { d with buf := Config.null } ≠ .invalid := by
      rw [slotState_taken completed]; decide
    have r := (h.shape running).rxRewritten hp (hi.bases (ne_stopped running)) hi.cursors.rx valid mem
    exact r.congr hp (congrArg transmitSide result :) fun g i _ => loadSlot_congr (congrArg slotSide result :) g i
  | installed i d b m rx running inRing cursor load notNull fresh mem result =>
    have valid : slotState { buf := b, st := statusWord false d.wrap 0#4 0#14 } ≠ .invalid := by
      rw [slotState_given notNull]; decide
    have r := (h.shape running).rxRewritten hp (hi.bases (ne_stopped running)) inRing valid mem
    exact r.congr hp (congrArg transmitSide result :) fun g i _ => loadSlot_congr (congrArg slotSide result :) g i
  | submitted d b len m running load free empty notNull fresh mem result =>
    have p := pipeline_of_runningShape (h.shape running)
    exact ((p.submitted hi (ne_stopped running) load free empty notNull mem).runningShape fun _ =>
      .inl (Nat.succ_pos _)).of_bare hp result
  | queued d b len running load full room notNull fresh result =>
    have p := (pipeline_of_runningShape (h.shape running)).queued (len := len) hi load full room notNull
    refine (p.runningShape fun _ => .inr ?_).of_bare hp result
    rw [qLen_enqueue hp room]
    exact Nat.succ_pos _
  | drained u running drain result =>
    have hs := ne_stopped running
    obtain ⟨f, k, p⟩ := (pipeline_of_runningShape (h.shape running)).drain hi hs drain
    have hu := (hi.drain hs drain).params
    rw [p.txHeld_eq] at result
    split at result
    · next none =>
      obtain ⟨rfl, hq⟩ := none
      have hq0 : u.qLen.toNat = 0 := by rw [hq]; rfl
      have p' : Pipeline { u with txRunning := false } f 0 :=
        ⟨p.rxSlots, p.finished, p.held, p.txSlots, p.fill, p.engine, p.backlog,
          fun k => absurd k (by show ¬ (0 < 0 ∨ 0 < u.qLen.toNat); omega), p.entries⟩
      exact (p'.runningShape fun e => nomatch e).of_bare hu result
    · next some =>
      refine (p.runningShape fun _ => ?_).of_bare hu result
      by_contra none
      exact some ⟨by omega, BitVec.eq_of_toNat_eq (by simp; omega)⟩
  | drainFaulted u v slot n running drain last result => exact nomatch (congrArg State.runState result).symm.trans ht
  | received d len err m session load owned mem result =>
    have running : s.runState = .running := (congrArg State.runState result).symm.trans ht
    have valid : slotState { d with st := statusWord true d.wrap err len } ≠ .invalid := by
      rw [slotState_received owned]; decide
    have r := (h.shape running).rxRewritten hp (hi.bases session) hi.cursors.hwRx valid mem
    exact r.congr hp (congrArg transmitSide result :) fun g i _ => loadSlot_congr (congrArg slotSide result :) g i
  | transmitted d m session load owned mem result =>
    have running : s.runState = .running := (congrArg State.runState result).symm.trans ht
    have r := h.shape running
    exact (((pipeline_of_runningShape r).transmitted hi session load owned mem).runningShape r.running.1).of_bare hp result

theorem RunInv.effects {duty : Prop} {s t : State} (h : RunInv s) (k : Effects duty s t) : RunInv t := by
  induction k with
  | refl => exact h
  | tail _ he ih => exact ih.effect he

end Sys2Proof.Safety

namespace Sys2Proof.Proofs
open Sys2Proof.Machine Sys2Proof.Safety

/-- Settles O56: every effect moves the two counts of `Pipeline` as the ring does. -/
theorem everyStepKeepsRunInv : Obligations.EveryStepKeepsRunInv :=
  fun _ _ h hstep => h.effects ((step_effects h.session).of_eq_next hstep)

end Sys2Proof.Proofs
end

section
/-! SUPPORT. R65 item 8 under a change of state, place by place: buffers stay or go, move to other places, or one new buffer comes in. -/

namespace Sys2Proof.Proofs
open Sys2Proof.Machine Sys2Proof.Safety

theorem heldOnce_of_stopped {s : State} (hs : s.runState = .stopped) : HeldOnce s := by
  rw [HeldOnce, heldRefs_of_stopped hs]; exact List.nodup_nil

section
variable {s t : State} (hs : s.runState ≠ .stopped) (ht : t.runState ≠ .stopped)
include hs ht

/-- Where every buffer held afterwards was held before, at a place of its own, none comes to be held twice. -/
theorem heldOnce_of_moved {φ : Place → Place} (inj : φ.Injective) (move : ∀ b p, Holds t b p → Holds s b (φ p)) (held : HeldOnce s) :
    HeldOnce t :=
  (heldOnce_iff ht).2 fun b p q hp hq => inj ((heldOnce_iff hs).1 held b _ _ (move b p hp) (move b q hq))

theorem heldOnce_of_kept (kept : ∀ b p, Holds t b p → Holds s b p) (held : HeldOnce s) : HeldOnce t :=
  heldOnce_of_moved hs ht Function.injective_id kept held

/-- A buffer held nowhere may come in at one place. -/
theorem heldOnce_of_placed {c : Word} {r : Place} (fresh : c ∉ heldRefs s)
    (placed : ∀ b p, Holds t b p → (p = r ∧ b = c) ∨ Holds s b p) (held : HeldOnce s) : HeldOnce t := by
  rw [mem_heldRefs hs, not_exists] at fresh
  refine (heldOnce_iff ht).2 fun b p q hp hq => ?_
  rcases placed b p hp with ⟨rfl, rfl⟩ | hp <;> rcases placed b q hq with ⟨rfl, e⟩ | hq
  · rfl
  · exact absurd hq (fresh q)
  · exact absurd (e ▸ hp) (fresh p)
  · exact (heldOnce_iff hs).1 held b p q hp hq

end

/-- What the places of the overflow queue depend on, with the rings' sizes. -/
def queueSide (s : State) : Params × List QEntry × Half × Half := (s.params, s.qEnt, s.qFront, s.qLen)

theorem holds_congr {s t : State} (queue : queueSide t = queueSide s)
    (loads : ∀ g i, InRange g i s → loadSlot g i t = loadSlot g i s) (b : Word) (p : Place) : Holds t b p ↔ Holds s b p := by
  simp only [queueSide, Prod.mk.injEq] at queue
  obtain ⟨e1, e2, e3, e4⟩ := queue
  cases p with
  | slot g i =>
    simp only [Holds, InRange, e1]
    exact and_congr_right fun hi => by rw [loads g i hi]
  | entry k => simp only [Holds, entryAt, e1, e2, e3, e4]

theorem holds_of_sides {s t : State} (queue : queueSide t = queueSide s) (slots : slotSide t = slotSide s) {b : Word} {p : Place}
    (h : Holds t b p) : Holds s b p :=
  (holds_congr queue (fun g i _ => loadSlot_congr slots g i) b p).1 h

/-- A slot rewritten with the buffer it had, or with none, leaves nothing held that was not held there. -/
theorem holds_of_rewritten {s : State} (hb : BasesOk s) {g : Ring} {i : Nat} {d e : Desc} {m : Memory} (hi : InRange g i s)
    (load : loadSlot g i s = .next d) (mem : Rewritten (ringBase g s) i e s.mem m) (buf : e.buf = d.buf ∨ e.buf = Config.null)
    {b : Word} {p : Place} (h : Holds { s with mem := m } b p) : Holds s b p := by
  rw [holds_rewritten hb hi mem] at h
  split at h
  · next hp =>
    obtain ⟨rfl, hne⟩ := h
    exact hp ▸ ⟨hi, d, load, (buf.resolve_right hne).symm, hne⟩
  · exact h

/-- A slot rewritten with the buffer `e.buf` holds that one. -/
theorem holds_or_of_rewritten {s : State} (hb : BasesOk s) {g : Ring} {i : Nat} {e : Desc} {m : Memory} (hi : InRange g i s)
    (mem : Rewritten (ringBase g s) i e s.mem m) {b : Word} {p : Place} (h : Holds { s with mem := m } b p) :
    (p = .slot g i ∧ b = e.buf) ∨ Holds s b p := by
  rw [holds_rewritten hb hi mem] at h
  split at h
  · next hp => exact .inl ⟨hp, h.1.symm⟩
  · exact .inr h

/-! ### The overflow queue and ON_TX_COMPLETE -/

theorem holds_enqueue {s : State} (hi : SessionInv s) (room : s.qLen.toNat < s.params.qCap) {c : Word} {len : BitVec 14} {b : Word}
    {p : Place} (h : Holds (enqueue c len s) b p) : (p = .entry s.qLen.toNat ∧ b = c) ∨ Holds s b p := by
  cases p with
  | slot g i =>
    obtain ⟨hin, d, hd, hbuf⟩ := h
    exact .inr ⟨hin, d, (loadSlot_congr (s := s) rfl g i).symm.trans hd, hbuf⟩
  | entry k =>
    obtain ⟨hk, hbuf⟩ := h
    rw [qLen_enqueue hi.params room] at hk
    rw [entryAt_enqueue hi.queue room (by omega)] at hbuf
    split at hbuf
    · next e => exact .inl ⟨by rw [e], hbuf.symm⟩
    · exact .inr ⟨by omega, hbuf⟩

/-- Where the buffers of a slot refilled from the queue come from: the slot `i` takes entry 0, and the others move up. -/
def refillSource (i : Nat) : Place → Place
  | .slot .rx j => .slot .rx j
  | .slot .tx j => if j = i then .entry 0 else .slot .tx j
  | .entry k => .entry (k + 1)

theorem refillSource_injective (i : Nat) : (refillSource i).Injective := by
  rintro (⟨_ | _, j⟩ | j) (⟨_ | _, k⟩ | k) h <;> simp only [refillSource] at h <;> grind

theorem heldOnce_released {s t : State} (hi : SessionInv s) (hs : s.runState ≠ .stopped) (k : Released s t) (held : HeldOnce s) :
    HeldOnce t := by
  have ht : t.runState ≠ .stopped := k.runState ▸ hs
  obtain ⟨d, m, load, finished, mem, result⟩ := k
  refine heldOnce_of_kept hs ht (fun b p h => ?_) held
  have hm : Holds { s with mem := m } b p := holds_of_sides (congrArg queueSide result :) (congrArg slotSide result :) h
  exact holds_of_rewritten (g := .tx) (hi.bases hs) hi.cursors.reclaim load mem (.inr rfl) hm

theorem heldOnce_refilled {s t : State} (hi : SessionInv s) (hs : s.runState ≠ .stopped) (k : Refilled s t) (held : HeldOnce s) :
    HeldOnce t := by
  have ht : t.runState ≠ .stopped := (Reclaim.refilled k).runState ▸ hs
  obtain ⟨d, m, load, finished, backlog, mem, result⟩ := k
  have hpos : 0 < s.qLen.toNat := Nat.pos_of_ne_zero fun e => backlog (BitVec.eq_of_toNat_eq e)
  have hin : InRange .tx s.txReclaim.toNat s := hi.cursors.reclaim
  refine heldOnce_of_moved hs ht (refillSource_injective s.txReclaim.toNat) (fun b p h => ?_) held
  replace h : Holds (dequeue { s with mem := m }) b p :=
    holds_of_sides (congrArg queueSide result :) (congrArg slotSide result :) h
  cases p with
  | entry k =>
    obtain ⟨hk, hbuf⟩ := h
    rw [qLen_dequeue (s := { s with mem := m }) backlog] at hk
    rw [entryAt_dequeue (s := { s with mem := m }) hi.params] at hbuf
    exact ⟨Nat.add_lt_of_lt_sub hk, hbuf⟩
  | slot g j =>
    have hm : Holds { s with mem := m } b (.slot g j) := by
      obtain ⟨hj, e, he, hbuf⟩ := h
      exact ⟨hj, e, (loadSlot_congr (s := { s with mem := m }) rfl g j).symm.trans he, hbuf⟩
    rw [holds_rewritten (g := .tx) (hi.bases hs) hin mem] at hm
    split at hm
    · next hp =>
      cases hp
      simp only [refillSource, if_true]
      exact ⟨hpos, by rw [← queueHead_eq hi.queue]; exact hm.1⟩
    · next hp =>
      cases g with
      | rx => exact hm
      | tx =>
        rw [refillSource, if_neg fun e => hp (by rw [e])]
        exact hm

theorem heldOnce_drain {s u : State} (hi : SessionInv s) (hs : s.runState ≠ .stopped) (k : Drain s u) (held : HeldOnce s) :
    HeldOnce u := by
  induction k with
  | refl => exact held
  | tail hd hr ih =>
    have hs' := Drain.runState hd ▸ hs
    cases hr with
    | released k empty => exact heldOnce_released (hi.drain hs hd) hs' k ih
    | refilled k => exact heldOnce_refilled (hi.drain hs hd) hs' k ih

end Sys2Proof.Proofs
end

section
/-! O58: every effect keeps R65 item 8 where the host keeps its duty, hence every step. -/

namespace Sys2Proof.Proofs
open Sys2Proof.Machine Sys2Proof.Safety

/-- START puts distinct buffers into the Rx ring and none elsewhere (R224, R225). -/
theorem heldOnce_started {s : State} {bufs : List Word} {m : Memory} (length : bufs.length = s.params.nRx) (nodup : bufs.Nodup)
    (rx : ∀ i, ∀ h : i < bufs.length, loadDesc s.rxBase i m =
      .next { buf := bufs[i], st := statusWord false (lastSlot .rx s.params i) 0#4 0#14 })
    (tx : ∀ i, i < s.params.nTx → loadDesc s.txBase i m =
      .next { buf := Config.null, st := statusWord true (lastSlot .tx s.params i) 0#4 0#14 }) :
    HeldOnce (openSession { s with mem := m }) := by
  have inRx : ∀ b p, Holds (openSession { s with mem := m }) b p → ∃ i, ∃ h : i < bufs.length, p = .slot .rx i ∧ bufs[i] = b := by
    rintro b (⟨_ | _, i⟩ | k) h
    · obtain ⟨hi, d, hd, hbuf, -⟩ := h
      have hi' : i < bufs.length := length ▸ hi
      cases (rx i hi').symm.trans hd
      exact ⟨i, hi', rfl, hbuf⟩
    · obtain ⟨hi, d, hd, hbuf, hne⟩ := h
      cases (tx i hi).symm.trans hd
      exact absurd hbuf.symm hne
    · exact absurd h.1 (Nat.not_lt_zero _)
  refine (heldOnce_iff (ne_stopped rfl)).2 fun b p q hpl hql => ?_
  obtain ⟨i, hi, rfl, hib⟩ := inRx b p hpl
  obtain ⟨j, hj, rfl, hjb⟩ := inRx b q hql
  rw [nodup.getElem_inj_iff.1 (hib.trans hjb.symm)]

section
variable {duty : Prop} {s t : State}

/-- An effect that leaves the slots and the queue alone leaves what is held alone. -/
theorem heldOnce_of_same (e : t.runState = s.runState) (queue : queueSide t = queueSide s)
    (loads : s.runState ≠ .stopped → ∀ g i, InRange g i s → loadSlot g i t = loadSlot g i s) (held : HeldOnce s) : HeldOnce t := by
  by_cases hs : s.runState = .stopped
  · exact heldOnce_of_stopped (e.trans hs)
  · exact heldOnce_of_kept hs (e ▸ hs) (fun b p => (holds_congr queue (loads hs) b p).1) held

/-- A slot rewritten with the buffer it had, with none, or with one held nowhere. -/
theorem heldOnce_of_rewritten (hi : SessionInv s) (hs : s.runState ≠ .stopped) {g : Ring} {i : Nat} {d e : Desc} {m : Memory}
    (hin : InRange g i s) (load : loadSlot g i s = .next d) (mem : Rewritten (ringBase g s) i e s.mem m)
    (buf : e.buf = d.buf ∨ e.buf = Config.null ∨ e.buf ∉ heldRefs s) (run : t.runState = s.runState) (queue : queueSide t = queueSide s)
    (slots : slotSide t = slotSide { s with mem := m }) (held : HeldOnce s) : HeldOnce t := by
  have ht : t.runState ≠ .stopped := run ▸ hs
  have hm {b : Word} {p : Place} (h : Holds t b p) : Holds { s with mem := m } b p :=
    holds_of_sides (s := { s with mem := m }) queue slots h
  rcases or_assoc.2 buf with kept | fresh
  · exact heldOnce_of_kept hs ht (fun b p h => holds_of_rewritten (hi.bases hs) hin load mem kept (hm h)) held
  · exact heldOnce_of_placed hs ht fresh (fun b p h => holds_or_of_rewritten (hi.bases hs) hin mem (hm h)) held

theorem heldOnce_effect (hi : SessionInv s) (own : duty) (k : Effect duty s t) (held : HeldOnce s) : HeldOnce t := by
  cases k with
  | quiet result =>
    rw [HeldOnce, heldRefs_of_bare result]; exact held
  | pending a b idle result =>
    exact heldOnce_of_same (congrArg State.runState result :) (congrArg queueSide result :)
      (fun _ g i _ => loadSlot_congr (congrArg slotSide result :) g i) held
  | filter ref bits bcast shape result =>
    exact heldOnce_of_same (congrArg State.runState result :) (congrArg queueSide result :)
      (fun _ g i _ => loadSlot_congr (congrArg slotSide result :) g i) held
  | bases rx tx idle result => exact heldOnce_of_stopped ((congrArg State.runState result :).trans idle)
  | stored m wf rings result =>
    refine heldOnce_of_same (s := s) (congrArg State.runState result :) (congrArg queueSide result :) (fun hs g i hin => ?_) held
    rw [loadSlot_of_bare result, loadSlot_withMem, rings hs g i hin]
  | reset result => exact heldOnce_of_stopped (congrArg State.runState result :)
  | started bufs m idle bases length nodup notNull wf rx tx result =>
    rw [HeldOnce, heldRefs_of_bare result]
    exact heldOnce_started length nodup rx tx
  | stopped m f wf queue result => exact heldOnce_of_stopped (congrArg State.runState result :)
  | raised c g slot n running cause result =>
    have ht : t.runState = .faulted := (congrArg State.runState result :)
    exact heldOnce_of_kept (ne_stopped running) (by rw [ht]; decide)
      (fun b p => holds_of_sides (congrArg queueSide result :) (congrArg slotSide result :)) held
  | advanced running result =>
    exact heldOnce_of_same (congrArg State.runState result :) (congrArg queueSide result :)
      (fun _ g i _ => loadSlot_congr (congrArg slotSide result :) g i) held
  | taken d m running load completed mem result =>
    exact heldOnce_of_rewritten (g := .rx) hi (ne_stopped running) hi.cursors.rx load mem (.inr (.inl rfl))
      (congrArg State.runState result :) (congrArg queueSide result :) (congrArg slotSide result :) held
  | installed i d b m rx running inRing cursor load notNull fresh mem result =>
    exact heldOnce_of_rewritten hi (ne_stopped running) inRing load mem ((fresh own).imp Eq.symm .inr)
      (congrArg State.runState result :) (congrArg queueSide result :) (congrArg slotSide result :) held
  | submitted d b len m running load free empty notNull fresh mem result =>
    exact heldOnce_of_rewritten (g := .tx) hi (ne_stopped running) hi.cursors.fill load mem (.inr (.inr (fresh own)))
      (congrArg State.runState result :) (congrArg queueSide result :) (congrArg slotSide result :) held
  | queued d b len running load full room notNull fresh result =>
    have run : t.runState = s.runState := (congrArg State.runState result :)
    have hs := ne_stopped running
    refine heldOnce_of_placed (r := .entry s.qLen.toNat) hs (run ▸ hs) (fresh own) (fun c p h => ?_) held
    exact holds_enqueue hi room (holds_of_sides (s := enqueue b len s) (congrArg queueSide result :) (congrArg slotSide result :) h)
  | drained u running drain result =>
    have hu := heldOnce_drain hi (ne_stopped running) drain held
    split at result
    · exact heldOnce_of_same (congrArg State.runState result :) (congrArg queueSide result :)
        (fun _ g i _ => loadSlot_congr (congrArg slotSide result :) g i) hu
    · rw [HeldOnce, heldRefs_of_bare result]; exact hu
  | drainFaulted u v slot n running drain last result =>
    have hs := ne_stopped running
    have hus : u.runState ≠ .stopped := Drain.runState drain ▸ hs
    have hu := heldOnce_drain hi hs drain held
    have ht : t.runState = .faulted := (congrArg State.runState result :)
    have hv : v.runState ≠ .stopped ∧ HeldOnce v := by
      rcases last with rfl | last
      · exact ⟨hus, hu⟩
      · exact ⟨last.runState ▸ hus, heldOnce_released (hi.drain hs drain) hus last hu⟩
    exact heldOnce_of_kept hv.1 (by rw [ht]; decide)
      (fun b p => holds_of_sides (congrArg queueSide result :) (congrArg slotSide result :)) hv.2
  | received d len err m session load owned mem result =>
    exact heldOnce_of_rewritten (g := .rx) hi session hi.cursors.hwRx load mem (.inl rfl)
      (congrArg State.runState result :) (congrArg queueSide result :) (congrArg slotSide result :) held
  | transmitted d m session load owned mem result =>
    exact heldOnce_of_rewritten (g := .tx) hi session hi.cursors.hwTx load mem (.inl rfl)
      (congrArg State.runState result :) (congrArg queueSide result :) (congrArg slotSide result :) held

theorem heldOnce_effects (hi : SessionInv s) (own : duty) (k : Effects duty s t) (held : HeldOnce s) : HeldOnce t := by
  induction k with
  | refl => exact held
  | tail hk he ih => exact heldOnce_effect (hi.effects hk) own he ih

end

/-- Settles O58: a buffer comes to be held at a new place only where the host or the allocator gives one that is held nowhere, or where
the refill of a Tx slot moves the front of the queue into it. -/
theorem heldBuffersStayDistinct : Obligations.HeldBuffersStayDistinct :=
  fun _ _ h held own hstep => heldOnce_effects h.session own ((step_effects h.session).of_eq_next hstep) held

end Sys2Proof.Proofs
end

section
/-! SUPPORT. A status word as its fields in their places (R31), and which memory actions leave a software-owned descriptor
software-owned (R90, R91). -/

namespace Sys2Proof.Proofs
open Sys2Proof.Machine Sys2Proof.Safety

/-- The `OWN` bit of a status word in its place, every other bit 0. -/
theorem ofBool_own_place (own : Bool) :
    (BitVec.ofBool own).setWidth 32 <<< 31 = if own then 0x80000000#32 else 0#32 := by
  cases own <;> rfl

theorem ofBool_wrap_place (d : Desc) : (BitVec.ofBool d.wrap).setWidth 32 <<< 30 = wrapBit d := by
  unfold wrapBit; cases d.wrap <;> rfl

/-- A status word as its fields shifted to their places (R31). -/
theorem statusWord_eq_or (own : Bool) (d : Desc) (err : BitVec 4) (len : BitVec 14) :
    statusWord own d.wrap err len =
      (if own then 0x80000000#32 else 0#32) ||| wrapBit d ||| err.setWidth 32 <<< 16 ||| len.setWidth 32 := by
  rw [← ofBool_own_place, ← ofBool_wrap_place]
  apply BitVec.eq_of_getLsbD_eq
  intro i hi
  simp only [statusWord, BitVec.getLsbD_append, BitVec.getLsbD_or, BitVec.getLsbD_shiftLeft, BitVec.getLsbD_setWidth]
  interval_cases i <;> simp

/-- The descriptor is readable, software-owned, and has `WRAP` as given. -/
def ReadsOwned (base : Word) (i : Nat) (wrap : Bool) (m : Memory) : Prop :=
  ∃ d, loadDesc base i m = .next d ∧ d.own = true ∧ d.wrap = wrap

/-- An action on the descriptor at `a` that does not give it away: it writes word 0, or a status word with `OWN` 1 and `WRAP` as given, or
nothing. -/
def KeepsOwned (a : Nat) (wrap : Bool) : MemAction → Prop
  | .write x v => x = a ∨ (x = a + 4 ∧ v.getLsbD 31 = true ∧ v.getLsbD 30 = wrap)
  | .barrier => True
  | .cacheClean _ _ => True
  | .cacheInvalidate _ _ => True

theorem memAction_readsOwned {base : Word} {i : Nat} {wrap : Bool} {m : Memory} {c : MemAction}
    (hc : KeepsOwned (descAddr base i) wrap c) (h : ReadsOwned base i wrap m) :
    ∃ m', memAction c m = .next m' ∧ ReadsOwned base i wrap m' := by
  cases c with
  | write x v =>
    obtain ⟨d, load, own, wr⟩ := h
    have top := descAddr_of_loadDesc load
    obtain rfl | ⟨rfl, vown, vwrap⟩ := hc
    · exact ⟨_, storeWord_eq_next.2 ⟨by omega, rfl⟩, _, (rewritten_writeBuf v load).desc, own, wr⟩
    · exact ⟨_, storeWord_eq_next.2 ⟨by omega, rfl⟩, _, (rewritten_writeStatus v load).desc, vown, vwrap⟩
  | barrier => exact ⟨m, rfl, h⟩
  | cacheClean x n => exact ⟨m, rfl, h⟩
  | cacheInvalidate x n => exact ⟨m, rfl, h⟩

theorem memActions_readsOwned {base : Word} {i : Nat} {wrap : Bool} :
    ∀ {cs : List MemAction} {m : Memory}, (∀ c ∈ cs, KeepsOwned (descAddr base i) wrap c) → ReadsOwned base i wrap m →
      ∃ m', memActions cs m = .next m' ∧ ReadsOwned base i wrap m'
  | [], m, _, h => ⟨m, rfl, h⟩
  | c :: cs, _, hcs, h => by
    obtain ⟨hc, hrest⟩ := List.forall_mem_cons.1 hcs
    obtain ⟨m1, e1, h1⟩ := memAction_readsOwned hc h
    obtain ⟨m2, e2, h2⟩ := memActions_readsOwned hrest h1
    exact ⟨m2, andThen_eq_next.2 ⟨m1, e1, e2⟩, h2⟩

/-- The first four actions of a hand-over, that is all before its last write, keep the descriptor software-owned (R90). -/
theorem handOverActions_keepsOwned (a : Nat) (wrap : Bool) (b : Word) (len : BitVec 14) {k : Nat} (hk : k ≤ 4) :
    ∀ c ∈ (handOverActions a wrap b len).take k, KeepsOwned a wrap c := by
  intro c hc
  have first_four : c ∈ (handOverActions a wrap b len).take 4 := List.take_subset_take_left _ hk hc
  simp only [handOverActions, List.take_succ_cons, List.take_zero, List.mem_cons, List.not_mem_nil, or_false] at first_four
  obtain rfl | rfl | rfl | rfl := first_four
  · exact .inl rfl
  · exact .inr ⟨rfl, statusWord_own _ _ _ _, statusWord_wrap _ _ _ _⟩
  · trivial
  · trivial

end Sys2Proof.Proofs
end

section
/-! The statements about the hash functions, the hand-over and host stores: O45, O53, O15. -/

namespace Sys2Proof.Proofs
open Sys2Proof.Machine Sys2Proof.Safety

/-! ### The hand-over (R90, R91) -/

/-- The three writes of a hand-over, in order (R90). -/
theorem writesOf_handOverActions (a : Nat) (wrap : Bool) (b : Word) (len : BitVec 14) :
    writesOf (handOverActions a wrap b len) =
      [(a, b), (a + 4, statusWord true wrap 0#4 len), (a + 4, statusWord false wrap 0#4 len)] := rfl

/-- Settles O53: no action before the last write gives the descriptor away, and the whole list leaves it `handedOver`. -/
theorem handOverNeverExposesHalfWritten : Obligations.HandOverNeverExposesHalfWritten := by
  intro base i m d b len load own
  have given : statusWord false d.wrap 0#4 len = wrapBit d ||| len.setWidth 32 := by simp [statusWord_eq_or]
  have held : statusWord true d.wrap 0#4 len = 0x80000000#32 ||| wrapBit d ||| len.setWidth 32 := by simp [statusWord_eq_or]
  have top := descAddr_of_loadDesc load
  have done := rewritten_handedOver top d.wrap b len m
  refine ⟨fun k hk => ?_, ⟨_, handOverActions_eq_next.2 ⟨top, rfl⟩, given ▸ done.desc, done.outside⟩, ?_⟩
  · obtain ⟨m', run, d', load', own', wrap'⟩ :=
      memActions_readsOwned (handOverActions_keepsOwned _ d.wrap b len hk) ⟨d, load, own, rfl⟩
    exact ⟨m', d', run, load', own', wrap'⟩
  · rw [writesOf_handOverActions, given, held]

/-! ### Host stores (R104, R230) -/

/-- When a host store is refused (U4). -/
theorem hostStoreByte_refused {addr : Word} {v : Byte} {s : State} (hs : s.runState ≠ .stopped)
    (hin : inRing .rx addr.toNat s = true ∨ inRing .tx addr.toNat s = true) :
    hostStoreByte addr v s = .refused (.hostStoreInSession addr.toNat) := by
  rw [hostStoreByte, if_pos]
  rw [inSession_eq_true.2 hs, Bool.true_and, Bool.or_eq_true]
  exact hin

/-- When a host store is a plain memory write (R230, log 9). -/
theorem hostStoreByte_plain {addr : Word} {v : Byte} {s : State}
    (h : s.runState = .stopped ∨ (inRing .rx addr.toNat s = false ∧ inRing .tx addr.toNat s = false)) :
    hostStoreByte addr v s = .next { s with mem := writeByte addr.toNat v s.mem } := by
  rw [hostStoreByte, if_neg]
  obtain hs | ⟨hrx, htx⟩ := h
  · simp [inSession_eq_false.2 hs]
  · simp [hrx, htx]

/-- Settles O15. -/
theorem hostStoresStayOutOfTheRings : Obligations.HostStoresStayOutOfTheRings := by
  intro addr v s
  refine ⟨fun ⟨hs, hin⟩ => hostStoreByte_refused hs hin, fun h => ⟨_, hostStoreByte_plain h, ?_, fun c hc => ?_⟩⟩
  · exact readByte_writeByte_same addr.toNat v s.mem
  · exact readByte_writeByte_other (by omega) v s.mem

/-! ### The hash functions (R203 to R206) -/

/-- A bit of a 6-bit group is the address bit at the group's place (R203). -/
theorem getLsbD_macGroup (a : Mac) (k : Nat) {i : Nat} (hi : i < 6) : (macGroup a k).getLsbD i = a.getLsbD (6 * k + i) := by
  simp [macGroup, hi]

/-- The bit formula of `XOR6`, for every address (R203). -/
theorem getLsbD_xor6 (a : Mac) {i : Nat} (hi : i < 6) :
    (xor6 a).getLsbD i = (a.getLsbD i ^^ a.getLsbD (i + 6) ^^ a.getLsbD (i + 12) ^^ a.getLsbD (i + 18) ^^ a.getLsbD (i + 24) ^^
      a.getLsbD (i + 30) ^^ a.getLsbD (i + 36) ^^ a.getLsbD (i + 42)) := by
  simp only [xor6, BitVec.getLsbD_xor, getLsbD_macGroup a _ hi, Nat.add_comm i, Nat.reduceMul, Nat.zero_add]

/-- Settles O45: the bit formula for every address; the worked values row by row, by evaluation from the operand registers, which are all of
a state that a row reads. -/
theorem hashFunctionsAsWorked : Obligations.HashFunctionsAsWorked := by
  refine ⟨fun a i hi => getLsbD_xor6 a hi, ?check, ?rows, by decide, ?bcastCrc⟩
  case check => simp [crc32, crcByte, crcBit]
  case bcastCrc => simp [bcastBucket, hashFn, crc6, macBytes, macByte, crc32, crcByte, crcBit]
  case rows =>
    intro r hr s h0 h1
    rw [macOperand, h0, h1]
    clear h0 h1
    simp only [List.mem_cons, List.not_mem_nil, or_false] at hr
    obtain rfl | rfl | rfl | rfl | rfl | rfl | rfl | rfl | rfl | rfl | rfl := hr
    all_goals simp [xor6, macGroup, crc6, macBytes, macByte, crc32, crcByte, crcBit]

end Sys2Proof.Proofs
end

section
/-! SUPPORT. A command word as its three fields (R111, R112), and the decoder's two parts, the opcode map and the format check, each said
once; together, which words decode and to what (R116). -/

namespace Sys2Proof.Proofs
open Sys2Proof.Machine Sys2Proof.Safety

/-! ### The fields of a word -/

theorem append_eq_append_iff {m n : Nat} {a c : BitVec m} {b d : BitVec n} : a ++ b = c ++ d ↔ a = c ∧ b = d := by
  constructor
  · intro h
    have hl := congrArg (BitVec.extractLsb' n m) h
    have hr := congrArg (BitVec.extractLsb' 0 n) h
    rw [BitVec.extractLsb'_append_eq_left, BitVec.extractLsb'_append_eq_left] at hl
    rw [BitVec.extractLsb'_append_eq_right, BitVec.extractLsb'_append_eq_right] at hr
    exact ⟨hl, hr⟩
  · rintro ⟨rfl, rfl⟩
    rfl

/-- The bits above the opcode are the top byte and the slot field. -/
theorem extractLsb'_above_opcode (w : Word) : w.extractLsb' 8 24 = w.extractLsb' 24 8 ++ slotOf w :=
  (BitVec.extractLsb'_append_extractLsb'_eq_extractLsb' (x := w) (start₁ := 8) (len₁ := 16) (len₂ := 8) rfl).symm

theorem word_eq_fields (w : Word) : w = w.extractLsb' 24 8 ++ slotOf w ++ opcodeOf w := by
  have hwhole : w.extractLsb' 8 24 ++ w.extractLsb' 0 8 = w.extractLsb' 0 32 :=
    BitVec.extractLsb'_append_extractLsb'_eq_extractLsb' rfl
  rw [← extractLsb'_above_opcode, opcodeOf, hwhole, BitVec.extractLsb'_eq_self]

/-- Both formats ask for a zero top byte, format N for a zero slot field too (R111, R116). -/
theorem formatOk_iff {f : Format} {w : Word} :
    formatOk f w = true ↔ w.extractLsb' 24 8 = 0#8 ∧ (f = .n → slotOf w = 0#16) := by
  cases f with
  | n =>
    have hzero : (0#24 : BitVec 24) = 0#8 ++ 0#16 := rfl
    rw [formatOk, beq_iff_eq, extractLsb'_above_opcode, hzero, append_eq_append_iff]
    simp
  | s => simp [formatOk]

/-! ### The opcode map -/

/-- The format column of R110. -/
def formatOf : Instr → Format
  | .replenish _ => .s
  | _ => .n

/-- The command that `i`'s row gives for a word with slot field `slot`: only REPLENISH takes it (R112). -/
def withSlot (slot : Half) : Instr → Instr
  | .replenish _ => .replenish slot.toNat
  | i => i

@[simp] theorem opcode_withSlot (slot : Half) (i : Instr) : (withSlot slot i).opcode = i.opcode := by
  cases i <;> rfl

@[simp] theorem formatOf_withSlot (slot : Half) (i : Instr) : formatOf (withSlot slot i) = formatOf i := by
  cases i <;> rfl

@[simp] theorem withSlot_withSlot (slot : Half) (i : Instr) : withSlot slot (withSlot slot i) = withSlot slot i := by
  cases i <;> rfl

theorem wellFormed_withSlot (slot : Half) (i : Instr) : (withSlot slot i).wellFormed = true := by
  cases i with
  | replenish n => exact decide_eq_true slot.isLt
  | start | stop | submit | onTxComplete | harvest | rxService | onRxReady | mcAdd | mcRemove | mcLookup => rfl

/-- The slot field of a command taken from a word is the word's, where the format leaves none it is 0. -/
theorem slotField_withSlot (slot : Half) (i : Instr) :
    (withSlot slot i).slotField = if formatOf i = .n then 0#16 else slot := by
  cases i with
  | replenish n => exact BitVec.ofNat_toNat 16 slot |>.trans (BitVec.setWidth_eq slot)
  | start | stop | submit | onTxComplete | harvest | rxService | onRxReady | mcAdd | mcRemove | mcLookup => rfl

/-- One row of an opcode map: its entry, or what the rows after it give. -/
theorem row_or_rest {α : Type} {op code : Byte} {x y : α} {rest : Option α} (h : (if op = code then some x else rest) = some y) :
    (code = op ∧ x = y) ∨ rest = some y := by
  split at h
  · next hop => exact .inl ⟨hop.symm, Option.some.inj h⟩
  · exact .inr h

/-- The opcode map row by row, and that it has no other rows (R110). -/
theorem opcodeRow_eq_some {op : Byte} {slot : Half} {f : Format} {i : Instr} :
    opcodeRow op slot = some (f, i) ↔ i.opcode = op ∧ formatOf i = f ∧ withSlot slot i = i := by
  constructor
  · intro h
    unfold opcodeRow at h
    iterate 11
      obtain ⟨rfl, e⟩ | rest := row_or_rest h
      · cases e
        exact ⟨rfl, rfl, rfl⟩
      replace h := rest
    cases h
  · rintro ⟨rfl, rfl, hi⟩
    rw [← hi]
    cases i <;> rfl

/-! ### The decoder -/

/-- Which words decode, and to what (R116). -/
theorem decode_eq_ok_iff {w : Word} {i : Instr} :
    decode w = .ok i ↔ i.opcode = opcodeOf w ∧ formatOk (formatOf i) w = true ∧ withSlot (slotOf w) i = i := by
  constructor
  · intro h
    unfold decode at h
    split at h
    · cases h
    · next f j hrow =>
      split at h
      · next hf =>
        cases h
        obtain ⟨hop, rfl, hslot⟩ := opcodeRow_eq_some.1 hrow
        exact ⟨hop, hf, hslot⟩
      · cases h
  · rintro ⟨hop, hf, hslot⟩
    simp only [decode, opcodeRow_eq_some.2 ⟨hop, rfl, hslot⟩, hf, if_true]

/-- A word decodes where some row has its opcode and accepts its must-be-zero bits (R116). -/
theorem exists_decode_eq_ok_iff {w : Word} :
    (∃ i, decode w = .ok i) ↔ ∃ i : Instr, i.opcode = opcodeOf w ∧ formatOk (formatOf i) w = true := by
  simp only [decode_eq_ok_iff]
  constructor
  · rintro ⟨i, hop, hf, -⟩
    exact ⟨i, hop, hf⟩
  · rintro ⟨i, hop, hf⟩
    exact ⟨withSlot (slotOf w) i, by simpa using hop, by simpa using hf, by simp⟩

theorem encode_of_decode {w : Word} {i : Instr} (h : decode w = .ok i) : encode i = w := by
  obtain ⟨hop, hformat, hslot⟩ := decode_eq_ok_iff.1 h
  obtain ⟨htop, hzero⟩ := formatOk_iff.1 hformat
  have hfield : i.slotField = slotOf w := by
    rw [← hslot, slotField_withSlot]
    split
    · next hn => exact (hzero hn).symm
    · rfl
  rw [word_eq_fields w, encode, htop, hop, hfield]

theorem wellFormed_of_decode {w : Word} {i : Instr} (h : decode w = .ok i) : i.wellFormed = true := by
  obtain ⟨-, -, hslot⟩ := decode_eq_ok_iff.1 h
  exact hslot ▸ wellFormed_withSlot (slotOf w) i

/-- Decoding a word's four bytes, lowest first, is decoding the word (R82). -/
theorem decodeBytes_byteOf (w : Word) : decodeBytes [byteOf w 0, byteOf w 1, byteOf w 2, byteOf w 3] = decode w := by
  rw [decodeBytes, wordOfBytes_byteOf]

/-- The table numbering of a word's 32 bits names the word itself. -/
theorem decodeTableWord_of_decode {w : Word} {i : Instr} (h : decode w = .ok i) : decodeTableWord 32 w.toNat = some i := by
  have hword : BitVec.ofNat 32 (w.toNat % 2 ^ 32) = w := by
    rw [Nat.mod_eq_of_lt w.isLt, BitVec.ofNat_toNat, BitVec.setWidth_eq]
  simp only [decodeTableWord, hword, decodeBytes_byteOf, h]

/-! ### Legal words (R116) -/

/-- The listed opcodes are those of the commands (R110). -/
theorem exists_opcode_eq_iff {op : Byte} :
    (∃ i : Instr, i.opcode = op) ↔
      op ∈ [0x01#8, 0x02#8, 0x10#8, 0x11#8, 0x20#8, 0x21#8, 0x22#8, 0x23#8, 0x30#8, 0x31#8, 0x32#8] := by
  constructor
  · rintro ⟨i, rfl⟩
    cases i <;> simp [Instr.opcode]
  · intro h
    simp only [List.mem_cons, List.not_mem_nil, or_false] at h
    obtain rfl | rfl | rfl | rfl | rfl | rfl | rfl | rfl | rfl | rfl | rfl := h
    exacts [⟨.start, rfl⟩, ⟨.stop, rfl⟩, ⟨.submit, rfl⟩, ⟨.onTxComplete, rfl⟩, ⟨.harvest, rfl⟩, ⟨.replenish 0, rfl⟩,
      ⟨.rxService, rfl⟩, ⟨.onRxReady, rfl⟩, ⟨.mcAdd, rfl⟩, ⟨.mcRemove, rfl⟩, ⟨.mcLookup, rfl⟩]

/-- REPLENISH alone has format S, so the opcode tells the format (R111). -/
theorem formatOf_eq (i : Instr) : formatOf i = if i.opcode = 0x21#8 then .s else .n := by
  cases i <;> rfl

/-- R116's sentence as the decoder's two parts. -/
theorem legalWord_iff {w : Word} :
    legalWord w ↔ ∃ i : Instr, i.opcode = opcodeOf w ∧ formatOk (formatOf i) w = true := by
  have hformat : (if opcodeOf w = 0x21#8 then w.extractLsb' 24 8 = 0#8 else w.extractLsb' 8 24 = 0#24) ↔
      formatOk (if opcodeOf w = 0x21#8 then .s else .n) w = true := by
    split <;> simp only [formatOk, beq_iff_eq]
  calc legalWord w ↔ (∃ i : Instr, i.opcode = opcodeOf w) ∧ formatOk (if opcodeOf w = 0x21#8 then .s else .n) w = true :=
        and_congr exists_opcode_eq_iff.symm hformat
    _ ↔ ∃ i : Instr, i.opcode = opcodeOf w ∧ formatOk (formatOf i) w = true := by
        rw [← exists_and_right]
        exact exists_congr fun i => and_congr_right fun hop => by rw [formatOf_eq, hop]

theorem exists_decode_iff_legalWord {w : Word} : (∃ i, decode w = .ok i) ↔ legalWord w :=
  exists_decode_eq_ok_iff.trans legalWord_iff.symm

/-- The mask of a format: every bit but the slot field where the format has one. -/
def maskOf : Format → Word
  | .n => 0xFFFFFFFF#32
  | .s => 0xFF0000FF#32

/-- The row of R116 for a command. -/
def rowOf (i : Instr) : Word × Word := (maskOf (formatOf i), 0#8 ++ 0#16 ++ i.opcode)

theorem mem_commandRows_iff {r : Word × Word} : r ∈ commandRows ↔ ∃ i, r = rowOf i := by
  constructor
  · intro h
    simp only [commandRows, List.mem_cons, List.not_mem_nil, or_false] at h
    obtain rfl | rfl | rfl | rfl | rfl | rfl | rfl | rfl | rfl | rfl | rfl := h
    exacts [⟨.start, rfl⟩, ⟨.stop, rfl⟩, ⟨.submit, rfl⟩, ⟨.onTxComplete, rfl⟩, ⟨.harvest, rfl⟩, ⟨.replenish 0, rfl⟩,
      ⟨.rxService, rfl⟩, ⟨.onRxReady, rfl⟩, ⟨.mcAdd, rfl⟩, ⟨.mcRemove, rfl⟩, ⟨.mcLookup, rfl⟩]
  · rintro ⟨i, rfl⟩
    cases i <;> simp [commandRows, rowOf, maskOf, formatOf, Instr.opcode]

/-- Mask and match, field by field: the top byte, the slot field where the format has none, and the opcode. -/
theorem and_maskOf_eq_iff {f : Format} {w : Word} {op : Byte} :
    w &&& maskOf f = 0#8 ++ 0#16 ++ op ↔ op = opcodeOf w ∧ formatOk f w = true := by
  have hmask : maskOf f = 0xFF#8 ++ (if f = .n then 0xFFFF#16 else 0#16) ++ 0xFF#8 := by cases f <;> rfl
  have hslot : slotOf w &&& (if f = .n then 0xFFFF#16 else 0#16) = 0#16 ↔ (f = .n → slotOf w = 0#16) := by
    have hkeep : slotOf w &&& 0xFFFF#16 = slotOf w := BitVec.and_allOnes
    split <;> simp [*]
  have hones (x : Byte) : x &&& 0xFF#8 = x := BitVec.and_allOnes
  have hfields : w &&& maskOf f =
      w.extractLsb' 24 8 ++ (slotOf w &&& if f = .n then 0xFFFF#16 else 0#16) ++ opcodeOf w := by
    conv_lhs => rw [word_eq_fields w, hmask, BitVec.and_append, BitVec.and_append, hones, hones]
  rw [hfields, append_eq_append_iff, append_eq_append_iff, hslot, formatOk_iff, and_comm, eq_comm (b := op)]

/-- A word meets a command's row where it has the command's opcode and the format's zero bits. -/
theorem meets_rowOf_iff {w : Word} {i : Instr} :
    w &&& (rowOf i).1 = (rowOf i).2 ↔ i.opcode = opcodeOf w ∧ formatOk (formatOf i) w = true :=
  and_maskOf_eq_iff

theorem rowOf_eq_of_opcode_eq {i j : Instr} (h : i.opcode = j.opcode) : rowOf i = rowOf j := by
  rw [rowOf, rowOf, formatOf_eq, formatOf_eq, h]

theorem legalWord_iff_meets_row {w : Word} : legalWord w ↔ ∃ r ∈ commandRows, w &&& r.1 = r.2 := by
  rw [legalWord_iff]
  constructor
  · rintro ⟨i, h⟩
    exact ⟨rowOf i, mem_commandRows_iff.2 ⟨i, rfl⟩, meets_rowOf_iff.2 h⟩
  · rintro ⟨r, hr, h⟩
    obtain ⟨i, rfl⟩ := mem_commandRows_iff.1 hr
    exact ⟨i, meets_rowOf_iff.1 h⟩

/-- Both rows have the opcode of the word, so they are one. -/
theorem row_eq_of_meets {w : Word} {r r' : Word × Word} (hr : r ∈ commandRows) (hr' : r' ∈ commandRows)
    (h : w &&& r.1 = r.2) (h' : w &&& r'.1 = r'.2) : r = r' := by
  obtain ⟨i, rfl⟩ := mem_commandRows_iff.1 hr
  obtain ⟨j, rfl⟩ := mem_commandRows_iff.1 hr'
  obtain ⟨hi, -⟩ := meets_rowOf_iff.1 h
  obtain ⟨hj, -⟩ := meets_rowOf_iff.1 h'
  exact rowOf_eq_of_opcode_eq (hi.trans hj.symm)

/-- A word that is not legal is answered, whatever the state (R117). -/
theorem runCommand_of_not_legalWord {w : Word} (h : ¬ legalWord w) (s : State) :
    runCommand w s = .next (illegalCommand s) := by
  unfold runCommand
  split
  · next i hi => exact absurd (exists_decode_iff_legalWord.1 ⟨i, hi⟩) h
  · rfl

end Sys2Proof.Proofs
end

section
/-! The statements about command words, O1 to O5, and SUBMIT's operand test, O37. -/

namespace Sys2Proof.Proofs
open Sys2Proof.Machine Sys2Proof.Safety

/-- Settles O2: the bytes and the table numbering name the word, and the word decodes. -/
theorem decodeOfEncode : Obligations.DecodeOfEncode := by
  intro i h
  have hdecode := decode_encode h
  exact ⟨hdecode, (decodeBytes_byteOf _).trans hdecode, decodeTableWord_of_decode hdecode⟩

/-- Settles O3. -/
theorem encodeOfDecode : Obligations.EncodeOfDecode :=
  fun _ _ h => ⟨encode_of_decode h, wellFormed_of_decode h⟩

/-- Settles O4: legal words, words that decode and words that meet a row are each those with a command's opcode and its format's zeros. -/
theorem legalWordsAreTheElevenPatterns : Obligations.LegalWordsAreTheElevenPatterns := by
  intro w
  refine ⟨exists_decode_iff_legalWord, legalWord_iff_meets_row, fun r hr r' hr' => row_eq_of_meets hr hr', fun i h => ?_⟩
  obtain ⟨hop, -, -⟩ := decode_eq_ok_iff.1 h
  exact hop

/-- Settles O5: the write reaches `CMD`, no lifecycle state is looked at, and the response is the result code alone. -/
theorem illegalWordsOnlyAnswer : Obligations.IllegalWordsOnlyAnswer := by
  intro w s h
  calc hostWrite .word 0x00 w s = runCommand w s := runTransition_write_cmd w s
    _ = .next (illegalCommand s) := runCommand_of_not_legalWord h s

/-- Settles O1: the words are closed, and the decoder computes each. -/
theorem tableWordsDecode : Obligations.TableWordsDecode :=
  ⟨rfl, rfl, rfl, rfl, rfl, rfl, rfl, rfl, rfl, rfl, rfl, rfl⟩

/-- A length operand is refused below 1 and above `LEN_MAX` (R113, R170). -/
theorem lengthOk_eq_false_iff {l : Word} : lengthOk l = false ↔ l.toNat < 1 ∨ 16383 < l.toNat := by
  rw [lengthOk, Bool.and_eq_false_iff, decide_eq_false_iff_not, decide_eq_false_iff_not, Nat.not_le, Nat.not_le, Config.lenMax]

/-- Settles O37: the gate lets a running DRC through, and the operand test comes before the slot is read. -/
theorem submitRefusesBadOperands : Obligations.SubmitRefusesBadOperands := by
  intro s hr hbad
  have htest : bufferOperand s = Config.null ∨ lengthOk (lengthOperand s) = false :=
    hbad.imp_right lengthOk_eq_false_iff.2
  calc exec .submit s = execSubmit s := rfl
    _ = .next (respondOnly .badArg s) := by rw [execSubmit, ringGate_running hr, if_pos htest]

end Sys2Proof.Proofs
end

section
/-! SUPPORT. What the ring commands of a running DRC come to by the slot they meet: HARVEST and RX_SERVICE where there is no frame,
REPLENISH in every case of its operands and its slot, SUBMIT with legal operands, ON_TX_COMPLETE at an `Invalid` slot. -/

namespace Sys2Proof.Proofs
open Sys2Proof.Machine Sys2Proof.Safety

/-! ### HARVEST and RX_SERVICE without a frame (R144, R147, R151) -/

section
variable {s : State} {d : Desc} (hr : s.runState = .running) (hd : loadSlot .rx s.rxCur.toNat s = .next d)
include hr hd

theorem execHarvest_empty (hc : slotState d = .hwOwned) :
    execHarvest s = .next (respond .empty false s.rxCur 0#32 0#32 s) := by
  rw [execHarvest, ringGate_running hr, harvestCore_empty hd hc, andThen_next]

theorem execRxService_empty (hc : slotState d = .hwOwned) :
    execRxService s = .next (respond .empty false s.rxCur 0#32 0#32 s) := by
  rw [execRxService, ringGate_running hr, harvestCore_empty hd hc, andThen_next]

theorem execHarvest_undecodable (hc : slotState d = .free ∨ slotState d = .invalid) :
    execHarvest s = .next (raiseDeviceFault .rxDecode .rx s.rxCur 0#32 s) := by
  rw [execHarvest, ringGate_running hr, harvestCore_undecodable hd hc, andThen_next]

theorem execRxService_undecodable (hc : slotState d = .free ∨ slotState d = .invalid) :
    execRxService s = .next (raiseDeviceFault .rxDecode .rx s.rxCur 0#32 s) := by
  rw [execRxService, ringGate_running hr, harvestCore_undecodable hd hc, andThen_next]

end

/-! ### REPLENISH (R148) -/

theorem slotOk_eq_true {p : Params} {slot : Nat} : slotOk p slot = true ↔ slot < p.nRx := decide_eq_true_iff

section
variable {s : State} {slot : Nat} (hr : s.runState = .running)
include hr

theorem execReplenish_outside (h : s.params.nRx ≤ slot) : execReplenish slot s = .next (respondOnly .badArg s) := by
  rw [execReplenish, ringGate_running hr, if_neg (by rw [slotOk_eq_true]; exact Nat.not_lt.2 h)]

theorem execReplenish_null (h : slot < s.params.nRx) (h0 : s.arg0 = Config.null) :
    execReplenish slot s = .next (respond .badArg false (BitVec.ofNat 16 slot) 0#32 0#32 s) := by
  rw [execReplenish, ringGate_running hr, if_pos (slotOk_eq_true.2 h), bufferOperand, if_pos h0]

theorem execReplenish_of_loadSlot {d : Desc} (h : slot < s.params.nRx) (h0 : s.arg0 ≠ Config.null)
    (hd : loadSlot .rx slot s = .next d) : execReplenish slot s = replenishSlot slot s.arg0 d s := by
  rw [execReplenish, ringGate_running hr, if_pos (slotOk_eq_true.2 h), bufferOperand, if_neg h0, hd, andThen_next]

end

section
variable {s : State} {slot : Nat} {b : Word} {d : Desc}

/-- `OWN` 0 is a violation whether or not the slot names a buffer. -/
theorem replenishSlot_not_own (h : d.own = false) :
    replenishSlot slot b d s = .next (raiseDeviceFault .ownership .rx (BitVec.ofNat 16 slot) 0#32 s) := by
  by_cases hbuf : d.buf = Config.null
  · simp only [replenishSlot, slotState_eq_invalid.2 ⟨h, hbuf⟩]
  · simp only [replenishSlot, slotState_eq_hwOwned.2 ⟨h, hbuf⟩]

theorem replenishSlot_other (hc : slotState d = .swCompleted) (h : d.buf ≠ b) :
    replenishSlot slot b d s = .next (respond .badArg false (BitVec.ofNat 16 slot) 0#32 0#32 s) := by
  simp only [replenishSlot, hc, if_neg h]

theorem replenishSlot_install (h : slotState d = .free ∨ (slotState d = .swCompleted ∧ d.buf = b)) :
    replenishSlot slot b d s =
      andThen (installRx slot b s) fun t => .next (respond .ok false (BitVec.ofNat 16 slot) 0#32 0#32 t) := by
  rcases h with hc | ⟨hc, hb⟩
  · simp only [replenishSlot, hc]
  · simp only [replenishSlot, hc, if_pos hb]

/-- InstallRx on a readable slot rewrites that descriptor alone, keeping `WRAP` (R143). -/
theorem installRx_of_loadSlot (b : Word) (hd : loadSlot .rx slot s = .next d) :
    ∃ m, installRx slot b s = .next { s with mem := m } ∧ Rewritten s.rxBase slot { buf := b, st := wrapBit d } s.mem m := by
  rw [wrapBit_eq]
  exact handOver_of_loadSlot b 0#14 hd

end

/-! ### SUBMIT and ON_TX_COMPLETE at a slot (R170, R176) -/

section
variable {s : State} {d : Desc} (hr : s.runState = .running)
include hr

theorem execSubmit_of_loadSlot (h0 : s.arg0 ≠ Config.null) (hl : 1 ≤ s.arg1.toNat ∧ s.arg1.toNat ≤ 16383)
    (hd : loadSlot .tx s.txFill.toNat s = .next d) : execSubmit s = submitOn d s.arg0 s.arg1 s := by
  have legal : ¬ (bufferOperand s = Config.null ∨ lengthOk (lengthOperand s) = false) := by
    rw [lengthOk_eq_false_iff, bufferOperand, lengthOperand]
    rintro (h | h)
    · exact h0 h
    · omega
  rw [execSubmit, ringGate_running hr, if_neg legal, hd, andThen_next, bufferOperand, lengthOperand]

omit hr in
theorem reclaimLoop_invalid (fuel : Nat) (n : Word) (hd : loadSlot .tx s.txReclaim.toNat s = .next d)
    (hc : slotState d = .invalid) : reclaimLoop (fuel + 1) n s = .next (.faulted s.txReclaim, n, s) := by
  simp only [reclaimLoop, hd, andThen_next, hc]

/-- The loop meets the slot at once, with the pending bit already cleared (R181) and nothing reclaimed. -/
theorem execOnTxComplete_invalid (hd : loadSlot .tx s.txReclaim.toNat s = .next d) (hc : slotState d = .invalid) :
    execOnTxComplete s = .next (raiseDeviceFault .ownership .tx s.txReclaim 0#32 { s with pendTxc := false }) := by
  have hloop : reclaimLoop (s.params.nTx + 2) 0#32 { s with pendTxc := false } = _ :=
    reclaimLoop_invalid (s.params.nTx + 1) 0#32 (s := { s with pendTxc := false }) hd hc
  rw [execOnTxComplete, ringGate_running (show ({ s with pendTxc := false } : State).runState = .running from hr), hloop, andThen_next]

end

end Sys2Proof.Proofs
end

section
/-! SUPPORT. The commands and the lifecycle state: which begin with the gate of R140, and that the multicast commands neither read nor
write `run_state` (R201). -/

namespace Sys2Proof.Proofs
open Sys2Proof.Machine Sys2Proof.Safety

/-- SUBMIT, HARVEST, RX_SERVICE and REPLENISH are gated before they change anything (R140). -/
theorem exec_eq_ringGate {i : Instr} (h : i = .submit ∨ i = .harvest ∨ i = .rxService ∨ ∃ slot, i = .replenish slot) (s : State) :
    ∃ k, exec i s = ringGate s k := by
  rcases h with rfl | rfl | rfl | ⟨slot, rfl⟩
  · exact ⟨_, by rw [exec, execSubmit]⟩
  · exact ⟨_, by rw [exec, execHarvest]⟩
  · exact ⟨_, by rw [exec, execRxService]⟩
  · exact ⟨_, by rw [exec, execReplenish]⟩

/-! The two interrupt commands clear their pending bit ahead of the gate (R153, R181). -/

theorem exec_onTxComplete_eq_ringGate (s : State) : ∃ k, exec .onTxComplete s = ringGate { s with pendTxc := false } k :=
  ⟨_, by rw [exec, execOnTxComplete]⟩

theorem exec_onRxReady_eq_ringGate (s : State) : ∃ k, exec .onRxReady s = ringGate { s with pendRxr := false } k :=
  ⟨_, by rw [exec, execOnRxReady]⟩

/-- What a gated command answers outside `RUNNING`, field by field (R140, R268). -/
theorem ringGate_outside_running {o : Res State} {s : State} (h : ∃ k, o = ringGate s k) :
    (s.runState = .stopped → o = .next { s with resp0 := 8#32, resp1 := 0#32, resp2 := 0#32 }) ∧
      (s.runState = .faulted → o = .next { s with resp0 := 6#32, resp1 := 0#32, resp2 := 0#32 }) := by
  obtain ⟨k, rfl⟩ := h
  exact ⟨fun hs => ringGate_stopped hs, fun hs => ringGate_faulted hs⟩

theorem execStart_of_session {s : State} (h : s.runState ≠ .stopped) : execStart s = .next (respondOnly .badState s) := by
  unfold execStart
  cases hs : s.runState with
  | stopped => exact absurd hs h
  | running => rfl
  | faulted => rfl

theorem execStop_of_stopped {s : State} (h : s.runState = .stopped) : execStop s = .next (respondOnly .ok s) := by
  simp only [execStop, h]

section
variable (s : State) (r : RunState) (b : Bucket)

theorem addRef_withRunState : addRef b { s with runState := r } = { addRef b s with runState := r } := by
  show (if refCount s b = 0#8 then _ else _) = { (if refCount s b = 0#8 then _ else _ : State) with runState := r }
  split <;> rfl

theorem dropRef_withRunState : dropRef b { s with runState := r } = { dropRef b s with runState := r } := by
  show (if refCount s b = 1#8 ∧ bcastHolds b s = false then _ else _) =
    { (if refCount s b = 1#8 ∧ bcastHolds b s = false then _ else _ : State) with runState := r }
  split <;> rfl

theorem execMcAdd_withRunState :
    execMcAdd { s with runState := r } = andThen (execMcAdd s) fun t => .next { t with runState := r } := by
  show (if refCount s (operandBucket s) = Config.refMax then _ else
      (.next (respondBucket .ok (operandBucket s) (addRef (operandBucket s) { s with runState := r })) : Res State)) = _
  rw [addRef_withRunState, execMcAdd]
  split <;> rfl

theorem execMcRemove_withRunState :
    execMcRemove { s with runState := r } = andThen (execMcRemove s) fun t => .next { t with runState := r } := by
  show (if refCount s (operandBucket s) = 0#8 then _ else
      (.next (respondBucket .ok (operandBucket s) (dropRef (operandBucket s) { s with runState := r })) : Res State)) = _
  rw [dropRef_withRunState, execMcRemove]
  split <;> rfl

end

end Sys2Proof.Proofs
end

section
/-! The statements about the Rx ring and the lifecycle gate: O26, O29, O21, O22, O25, O28, O30, O34. -/

namespace Sys2Proof.Proofs
open Sys2Proof.Machine Sys2Proof.Safety

/-- Settles O26: HARVEST answers what HarvestCore left at the good frame, and the one memory access of that is the write of word 0. -/
theorem harvestHandsOverGoodFrame : Obligations.HarvestHandsOverGoodFrame := by
  intro s d e hr hd hc hf he
  refine ⟨(emptied s).mem, ?_, (rewritten_emptied hd).desc, fun _ ha => readByte_writeWord_other _ _ ha⟩
  exact execHarvest_good hd hc he hr hf

/-- Settles O29: both slot states lead to InstallRx. -/
theorem replenishInstallsBuffer : Obligations.ReplenishInstallsBuffer := by
  intro s slot d hr hslot h0 hd hc
  obtain ⟨m, hi, hm⟩ := installRx_of_loadSlot s.arg0 hd
  refine ⟨m, ?_, hm.desc, hm.outside⟩
  show execReplenish slot s = _
  rw [execReplenish_of_loadSlot hr hslot h0 hd, replenishSlot_install hc, hi, andThen_next]
  rfl

/-- Settles O21: the gate answers for the ring commands; START, STOP and the multicast commands have no gate. -/
theorem commandsOutsideTheirLifecycleState : Obligations.CommandsOutsideTheirLifecycleState := by
  refine ⟨fun s i hi => ringGate_outside_running (exec_eq_ringGate hi s),
    fun s => ringGate_outside_running (exec_onTxComplete_eq_ringGate s), fun s hs => execStart_of_session hs,
    fun s hs => execStop_of_stopped hs, fun s r i hi => ?_⟩
  rcases hi with rfl | rfl | rfl
  · exact execMcAdd_withRunState s r
  · exact execMcRemove_withRunState s r
  · rfl

/-- Settles O22: each command raises the fault on the state it was given, ON_TX_COMPLETE on that without its pending bit. -/
theorem ownershipViolationsRaiseDeviceFault : Obligations.OwnershipViolationsRaiseDeviceFault := by
  refine ⟨fun s slot d hr hslot h0 hd hown => ?_, fun s d hr h0 h1 hmax hd hc => ?_, fun s d hr hd hc => ?_⟩
  · exact (execReplenish_of_loadSlot hr hslot h0 hd).trans (replenishSlot_not_own hown)
  · show execSubmit s = _
    rw [execSubmit_of_loadSlot hr h0 ⟨h1, hmax⟩ hd]
    simp only [submitOn, hc]
    rfl
  · exact execOnTxComplete_invalid hr hd hc

/-- Settles O25. -/
theorem noFrameIsAnsweredEmpty : Obligations.NoFrameIsAnsweredEmpty :=
  fun _ _ hr hd hc => ⟨execHarvest_empty hr hd hc, execRxService_empty hr hd hc⟩

/-- Settles O28. -/
theorem undecodableSlotFaults : Obligations.UndecodableSlotFaults := by
  rintro s d i (rfl | rfl) hr hd hc
  · exact execHarvest_undecodable hr hd hc
  · exact execRxService_undecodable hr hd hc

/-- Settles O30: the three tests in the order of R270. -/
theorem replenishRefusesBadOperands : Obligations.ReplenishRefusesBadOperands := by
  refine fun s slot hr => ⟨fun h => ?_, fun h h0 => ?_, fun d h h0 hd hc hb => ?_⟩
  · exact execReplenish_outside hr h
  · exact execReplenish_null hr h h0
  · exact (execReplenish_of_loadSlot hr h h0 hd).trans (replenishSlot_other hc hb)

/-- Settles O34: the bit is cleared before the gate, and what it was decides on the signal behind the gate. -/
theorem onRxReadyClearsAndSignals : Obligations.OnRxReadyClearsAndSignals := by
  refine ⟨rfl, fun s => ⟨fun hr => ?_, ringGate_outside_running (exec_onRxReady_eq_ringGate s)⟩⟩
  show execOnRxReady s = _
  rw [execOnRxReady, ringGate_running (show ({ s with pendRxr := false } : State).runState = .running from hr)]
  cases s.pendRxr with
  | true => rfl
  | false => simp only [Bool.false_eq_true, if_false, List.append_nil]; rfl

end Sys2Proof.Proofs
end

section
/-! SUPPORT. SUBMIT with legal operands by the slot at `tx_fill`, each outcome as the state it answers, and the word a filled slot holds. -/

namespace Sys2Proof.Proofs
open Sys2Proof.Machine Sys2Proof.Safety

/-- A length operand in range loses nothing in the 14 bits of `LEN` (R31, R170). -/
theorem setWidth_lengthField {l : Word} (h : l.toNat ≤ 16383) : (lengthField l).setWidth 32 = l := by
  apply BitVec.eq_of_toNat_eq
  rw [lengthField, BitVec.toNat_setWidth, BitVec.toNat_setWidth]
  omega

/-- The status word of a slot given to the engine (R171). -/
theorem statusWord_given (d : Desc) (len : BitVec 14) : statusWord false d.wrap 0#4 len = wrapBit d ||| len.setWidth 32 := by
  simp [statusWord_eq_or]

/-- The status word of a slot freed (R177). -/
theorem statusWord_freed (d : Desc) : statusWord true d.wrap 0#4 0#14 = 0x80000000#32 ||| wrapBit d := by
  simp [statusWord_eq_or]

/-- The idle engine is restarted, the running one left alone (R183). -/
theorem restartTx_eq (s : State) :
    restartTx s = { s with txRunning := true, trace := s.trace ++ if s.txRunning then [] else [.dmaTxStart] } := by
  unfold restartTx
  split
  · next h => rw [List.append_nil, ← h]
  · rfl

theorem queueHasRoom_eq_true {s : State} : queueHasRoom s = true ↔ s.qLen.toNat < s.params.qCap := decide_eq_true_iff

/-- The state SUBMIT leaves when the ring takes the buffer, `m` being descriptor memory with the slot filled. -/
def afterFill (m : Memory) (s : State) : State :=
  { s with
    mem := m
    txFill := nextTx s.params s.txFill
    txRunning := true
    trace := s.trace ++ if s.txRunning then [] else [.dmaTxStart]
    resp0 := resp0Word .ok false s.txFill
    resp1 := 0#32
    resp2 := 0#32 }

section
variable {s : State} {d : Desc}

theorem submitToRing_of_loadSlot (b l : Word) (hd : loadSlot .tx s.txFill.toNat s = .next d) :
    ∃ m, submitToRing b l s = .next (afterFill m s) ∧
      Rewritten s.txBase s.txFill.toNat { buf := b, st := statusWord false d.wrap 0#4 (lengthField l) } s.mem m := by
  obtain ⟨m, hi, hm⟩ := handOver_of_loadSlot b (lengthField l) hd
  refine ⟨m, ?_, hm⟩
  rw [submitToRing, fillTx, hi, andThen_next, restartTx_eq]
  rfl

theorem submitOn_free (b l : Word) (hc : slotState d = .free) (hq : s.qLen = 0#16) : submitOn d b l s = submitToRing b l s := by
  simp only [submitOn, hc, queueEmpty_eq_true.2 hq, if_true]

/-- No free slot, or a backlog: the queue decides (R170). -/
theorem submitOn_queue (b l : Word) (hv : slotState d ≠ .invalid) (hf : slotState d ≠ .free ∨ s.qLen ≠ 0#16) :
    submitOn d b l s = .next (submitToQueue b l s) := by
  unfold submitOn
  split
  · next hc => exact absurd hc hv
  · next hc =>
    rw [if_neg]
    rw [queueEmpty_eq_true]
    exact hf.resolve_left (not_not_intro hc)
  · rfl
  · rfl

theorem submitToQueue_room (b l : Word) (h : s.qLen.toNat < s.params.qCap) :
    submitToQueue b l s = respondOnly .queued (enqueue b (lengthField l) s) := by
  rw [submitToQueue, if_pos (queueHasRoom_eq_true.2 h)]

theorem submitToQueue_full (b l : Word) (h : s.params.qCap ≤ s.qLen.toNat) : submitToQueue b l s = respondOnly .busy s := by
  rw [submitToQueue, if_neg (by rw [queueHasRoom_eq_true]; omega)]

variable (hr : s.runState = .running) (h0 : s.arg0 ≠ Config.null) (hl : 1 ≤ s.arg1.toNat ∧ s.arg1.toNat ≤ 16383)
  (hd : loadSlot .tx s.txFill.toNat s = .next d)
include hr h0 hl hd

theorem execSubmit_free (hc : slotState d = .free) (hq : s.qLen = 0#16) : ∃ m, execSubmit s = .next (afterFill m s) ∧
    Rewritten s.txBase s.txFill.toNat { buf := s.arg0, st := statusWord false d.wrap 0#4 (lengthField s.arg1) } s.mem m := by
  rw [execSubmit_of_loadSlot hr h0 hl hd, submitOn_free _ _ hc hq]
  exact submitToRing_of_loadSlot _ _ hd

theorem execSubmit_queued (hv : slotState d ≠ .invalid) (hf : slotState d ≠ .free ∨ s.qLen ≠ 0#16)
    (h : s.qLen.toNat < s.params.qCap) :
    execSubmit s = .next (respondOnly .queued (enqueue s.arg0 (lengthField s.arg1) s)) := by
  rw [execSubmit_of_loadSlot hr h0 hl hd, submitOn_queue _ _ hv hf, submitToQueue_room _ _ h]

theorem execSubmit_busy (hv : slotState d ≠ .invalid) (hf : slotState d ≠ .free ∨ s.qLen ≠ 0#16)
    (h : s.params.qCap ≤ s.qLen.toNat) : execSubmit s = .next (respondOnly .busy s) := by
  rw [execSubmit_of_loadSlot hr h0 hl hd, submitOn_queue _ _ hv hf, submitToQueue_full _ _ h]

end

/-- Settles O35: the slot is handed over, and nothing else of memory is written. -/
theorem submitFillsFreeSlot : Obligations.SubmitFillsFreeSlot := by
  intro s d hr h0 h1 hmax hd hc hq
  obtain ⟨m, hx, hm⟩ := execSubmit_free hr h0 ⟨h1, hmax⟩ hd hc hq
  rw [statusWord_given, setWidth_lengthField hmax] at hm
  exact ⟨m, hx, hm.desc, hm.outside⟩

/-- Settles O36. -/
theorem submitQueuesOrAnswersBusy : Obligations.SubmitQueuesOrAnswersBusy :=
  fun _ _ hr h0 h1 hmax hd hv hf =>
    ⟨execSubmit_queued hr h0 ⟨h1, hmax⟩ hd hv hf, execSubmit_busy hr h0 ⟨h1, hmax⟩ hd hv hf⟩

end Sys2Proof.Proofs
end

section
/-! SUPPORT. One iteration of ON_TX_COMPLETE as the state it leaves: what the ring and the queue come to is `Reclaim`, and off them the
iteration is the post of the buffer. -/

namespace Sys2Proof.Proofs
open Sys2Proof.Machine Sys2Proof.Safety

/-- The state without what ON_TX_COMPLETE's loop itself writes: descriptor memory, the trace, its two cursors and the queue's front and
length. -/
def offLoop (s : State) : State :=
  { s with mem := [], trace := [], txReclaim := 0#16, txFill := 0#16, qFront := 0#16, qLen := 0#16 }

/-- A state is known from what `offLoop` keeps and the fields it leaves out. -/
theorem eq_of_offLoop {s t : State} (h : offLoop t = offLoop s) :
    t = { s with mem := t.mem, trace := t.trace, txReclaim := t.txReclaim, txFill := t.txFill, qFront := t.qFront, qLen := t.qLen } :=
  (congrArg (fun x : State => { x with
    mem := t.mem, trace := t.trace, txReclaim := t.txReclaim, txFill := t.txFill, qFront := t.qFront, qLen := t.qLen }) h :)

/-- A post as one update (R61, log 4). -/
theorem post_eq (b : Word) (s : State) : post b s =
    { s with
      trace := s.trace ++ [.post b]
      bpIn := s.bpIn.tail
      inputSeq := if s.bpIn = [] then s.inputSeq + 1 else s.inputSeq
      cntPostBp := if s.bpIn.headD (Config.backpressure s.inputSeq) then s.cntPostBp + 1#32 else s.cntPostBp } := by
  obtain ⟨listed, free⟩ := postTakesOneBackpressureBit b s
  cases h : s.bpIn with
  | nil => simp [free h, h]
  | cons bp rest => simp [listed bp rest h]

theorem offLoop_post_congr {s t : State} (b : Word) (h : offLoop t = offLoop s) : offLoop (post b t) = offLoop (post b s) := by
  have reads (u : State) : offLoop (post b u) = offLoop (post b (offLoop u)) := by rw [post_eq, post_eq]; rfl
  rw [reads t, h, ← reads]

theorem post_withMem (b : Word) (m : Memory) (s : State) : post b { s with mem := m } = { post b s with mem := m } := by
  rw [post_eq, post_eq]

theorem post_withPendTxc (b : Word) (v : Bool) (s : State) :
    post b { s with pendTxc := v } = { post b s with pendTxc := v } := by
  rw [post_eq, post_eq]

section
variable {s : State} {d : Desc}

/-- The state once the finished slot at `tx_reclaim` is free and its buffer posted, `m` being descriptor memory then (R176, R177). -/
def afterReclaim (d : Desc) (m : Memory) (s : State) : State :=
  { post d.buf s with mem := m, trace := s.trace ++ [.post d.buf, .txAvail], txReclaim := nextTx s.params s.txReclaim }

theorem reclaimSlot_of_loadSlot (hd : loadSlot .tx s.txReclaim.toNat s = .next d) :
    ∃ m, reclaimSlot d s = .next (afterReclaim d m s) ∧
      Rewritten s.txBase s.txReclaim.toNat { buf := Config.null, st := statusWord true d.wrap 0#4 0#14 } s.mem m := by
  obtain ⟨m1, h1, k1⟩ := storeBuf_of_loadSlot Config.null hd
  have hd1 : loadSlot .tx s.txReclaim.toNat { s with mem := m1 } = .next { d with buf := Config.null } := k1.desc
  obtain ⟨m2, h2, k2⟩ := storeStatus_of_loadSlot (statusWord true d.wrap 0#4 0#14) hd1
  refine ⟨m2, ?_, k1.trans k2⟩
  have htrace : s.trace ++ [.post d.buf, .txAvail] = (post d.buf s).trace ++ [.txAvail] := by simp
  have hpost : post d.buf { s with mem := m2 } = { post d.buf s with mem := m2 } := post_withMem _ _ s
  rw [reclaimSlot, h1, andThen_next, h2, andThen_next, hpost, afterReclaim, htrace]
  rfl

theorem offLoop_afterReclaim (d : Desc) (m : Memory) (s : State) : offLoop (afterReclaim d m s) = offLoop (post d.buf s) := rfl

theorem bare_afterReclaim (d : Desc) (m : Memory) (s : State) :
    bare (afterReclaim d m s) = bare { s with mem := m, txReclaim := nextTx s.params s.txReclaim } :=
  bare_congr (fun x => { x with mem := m, txReclaim := nextTx s.params s.txReclaim }) (fun _ => rfl) (bare_post d.buf s)

/-- With `tx_fill` elsewhere the loop ends in a fault, the one reclaim done (R176). -/
theorem reclaimLoop_elsewhere (fuel : Nat) (n : Word) (hd : loadSlot .tx s.txReclaim.toNat s = .next d)
    (hc : slotState d = .swCompleted) (hq : s.qLen ≠ 0#16) (hf : s.txFill ≠ s.txReclaim) :
    ∃ m, reclaimLoop (fuel + 1) n s = .next (.faulted s.txReclaim, n + 1#32, afterReclaim d m s) ∧
      Rewritten s.txBase s.txReclaim.toNat { buf := Config.null, st := statusWord true d.wrap 0#4 0#14 } s.mem m := by
  obtain ⟨m, ht, hm⟩ := reclaimSlot_of_loadSlot hd
  refine ⟨m, ?_, hm⟩
  have hqt : ¬ queueEmpty (afterReclaim d m s) = true := by
    rw [queueEmpty_eq_true]
    exact (post_qLen d.buf s).trans_ne hq
  have hft : ¬ (afterReclaim d m s).txFill = s.txReclaim := (post_txFill d.buf s).trans_ne hf
  simp only [reclaimLoop, hd, andThen_next, hc, ht, if_neg hqt, if_neg hft]

end

/-- Settles O23: the loop ends at its first slot, on the state without the pending bit. -/
theorem refillElsewhereRaisesDeviceFault : Obligations.RefillElsewhereRaisesDeviceFault := by
  intro s d hr hd hc hq hf
  obtain ⟨m, hx, hm⟩ := reclaimLoop_elsewhere (s := { s with pendTxc := false }) (s.params.nTx + 1) 0#32 hd hc hq hf
  refine ⟨m, ?_, statusWord_freed d ▸ hm.desc, hm.outside⟩
  show execOnTxComplete s = _
  rw [execOnTxComplete, ringGate_running (show ({ s with pendTxc := false } : State).runState = .running from hr), hx, andThen_next,
    afterReclaim, post_withPendTxc]
  rfl

end Sys2Proof.Proofs
end

section
/-! SUPPORT. What the transmit side holds, indexed oldest first: number `i` is in the ring below the count of held slots and in the queue
from there on. Each effect on the transmit side is an effect on the list `txPipeline`. -/

namespace Sys2Proof.Proofs
open Sys2Proof.Machine Sys2Proof.Safety

/-! ### Lists given by their indices -/

theorem map_range_succ_eq_cons {α : Type} {f g : Nat → α} {n : Nat} (h : ∀ i, i < n → f (i + 1) = g i) :
    (List.range (n + 1)).map f = f 0 :: (List.range n).map g := by
  rw [List.range_succ_eq_map, List.map_cons, List.map_map]
  exact congrArg _ (List.map_congr_left fun i hi => h i (List.mem_range.1 hi))

theorem map_range_succ_eq_concat {α : Type} {f g : Nat → α} {n : Nat} (h : ∀ i, i < n → g i = f i) :
    (List.range (n + 1)).map g = (List.range n).map f ++ [g n] := by
  rw [List.range_succ, List.map_append, List.map_singleton]
  exact congrArg (· ++ [g n]) (List.map_congr_left fun i hi => h i (List.mem_range.1 hi))

/-! ### The transmit pipeline (R175) -/

/-- The buffer and length in Tx slot number `j`. -/
def slotItem (s : State) (j : Nat) : Word × BitVec 14 :=
  match loadSlot .tx (txSlot s j) s with
  | .next d => (d.buf, d.len)
  | .fault _ => (Config.null, 0#14)
  | .refused _ => (Config.null, 0#14)

/-- The buffer and length in overflow entry number `k` from the front. -/
def entryItem (s : State) (k : Nat) : Word × BitVec 14 := ((entryAt s k).buf, (entryAt s k).len)

/-- Number `i` of what the transmit side holds while `h` slots of the ring are held. -/
def pipelineItem (s : State) (h i : Nat) : Word × BitVec 14 := if i < h then slotItem s i else entryItem s (i - h)

section
variable {s t : State} {f h : Nat} {d : Desc} {m : Memory}

theorem slotItem_of_load {j : Nat} (hd : loadSlot .tx (txSlot s j) s = .next d) : slotItem s j = (d.buf, d.len) := by
  simp only [slotItem, hd]

theorem slotItem_congr {i j : Nat} (hl : loadSlot .tx (txSlot t i) t = loadSlot .tx (txSlot s j) s) : slotItem t i = slotItem s j := by
  simp only [slotItem, hl]

theorem pipelineItem_slot {i : Nat} (hi : i < h) : pipelineItem s h i = slotItem s i := if_pos hi

theorem pipelineItem_entry (k : Nat) : pipelineItem s h (h + k) = entryItem s k := by
  rw [pipelineItem, if_neg (by omega), Nat.add_sub_cancel_left]

/-- A held slot has its buffer and length in the pipeline, a free one nothing. -/
theorem Pipeline.slotLoad_eq (p : Pipeline s f h) {j : Nat} (hj : j < s.params.nTx) :
    slotLoad .tx (txSlot s j) s = if j < h then some (slotItem s j) else none := by
  obtain ⟨d, hd, hc⟩ := p.txSlots j hj
  have hheld : d.buf ≠ Config.null ↔ j < h := by
    have hle := p.finished
    rw [← bne_iff_ne, buf_ne_null_iff, hc, phase_eq_swCompleted, phase_eq_hwOwned]
    omega
  by_cases hlt : j < h
  · simp only [slotLoad, hd, if_neg (hheld.2 hlt), if_pos hlt, slotItem_of_load hd]
  · simp only [slotLoad, hd, if_pos (not_not.1 (mt hheld.1 hlt)), if_neg hlt]

/-- The transmit pipeline by its indices. -/
theorem Pipeline.txPipeline_eq (p : Pipeline s f h) : txPipeline s = (List.range (h + s.qLen.toNat)).map (pipelineItem s h) := by
  have hring : (List.range s.params.nTx).filterMap (fun j => slotLoad .tx (txSlot s j) s) = (List.range h).map (slotItem s) := by
    obtain ⟨free, hfree⟩ := Nat.exists_eq_add_of_le p.held
    have hload (j : Nat) (hj : j < h + free) := p.slotLoad_eq (hfree ▸ hj)
    rw [hfree, List.range_add, List.filterMap_append, List.filterMap_map]
    have hheld : (List.range h).filterMap (fun j => slotLoad .tx (txSlot s j) s) = (List.range h).map (slotItem s) := by
      rw [← List.filterMap_eq_map]
      refine List.filterMap_congr fun j hj => ?_
      have hj := List.mem_range.1 hj
      rw [hload j (by omega), if_pos hj]
      rfl
    have hnone : (List.range free).filterMap ((fun j => slotLoad .tx (txSlot s j) s) ∘ (h + ·)) = [] := by
      refine List.filterMap_eq_nil_iff.2 fun j hj => ?_
      have hj := List.mem_range.1 hj
      rw [Function.comp, hload (h + j) (by omega), if_neg (by omega)]
    rw [hheld, hnone, List.append_nil]
  rw [txPipeline, hring, queueEntries_eq, List.map_map, List.range_add, List.map_append, List.map_map]
  congr 1
  · exact List.map_congr_left fun j hj => (pipelineItem_slot (List.mem_range.1 hj)).symm
  · exact List.map_congr_left fun k _ => (pipelineItem_entry k).symm

theorem Pipeline.txPipeline_length (p : Pipeline s f h) : (txPipeline s).length = h + s.qLen.toNat := by
  rw [p.txPipeline_eq, List.length_map, List.length_range]

/-- What the transmit pipeline reads of the state beside the Tx slots themselves. -/
def pipelineSide (s : State) : Params × Half × List QEntry × Half × Half := (s.params, s.txReclaim, s.qEnt, s.qFront, s.qLen)

/-- The two views depend on the slots of the Tx ring and on `pipelineSide`. -/
theorem txViews_congr (hp : s.params.wellFormed = true) (side : pipelineSide t = pipelineSide s)
    (loads : ∀ i, InRange .tx i s → loadSlot .tx i t = loadSlot .tx i s) :
    txPipeline t = txPipeline s ∧ txFinished t = txFinished s := by
  simp only [pipelineSide, Prod.mk.injEq] at side
  obtain ⟨e1, e2, e3, e4, e5⟩ := side
  have hslot (j : Nat) : txSlot t j = txSlot s j := by rw [txSlot, e1, e2]; rfl
  have hqueue : queueEntries t = queueEntries s := by simp only [queueEntries, e1, e3, e4, e5]
  constructor
  · rw [txPipeline, hqueue, e1]
    refine congrArg (· ++ _) (List.filterMap_congr fun j _ => ?_)
    rw [slotLoad, hslot, loads _ (txSlot_lt hp j), slotLoad]
  · rw [txFinished, txFinished, countSlots, countSlots]
    refine congrArg List.length ?_
    show (List.range (ringSize .tx t.params)).filter _ = _
    rw [e1]
    refine List.filter_congr fun i hi => ?_
    rw [slotIs, loads i (List.mem_range.1 hi), slotIs]

/-! ### The effects on it -/

/-- SUBMIT into the ring puts the buffer behind the others: the queue is empty. -/
theorem Pipeline.txPipeline_submitted {b : Word} {len : BitVec 14} (p : Pipeline s f h) (hi : SessionInv s)
    (hs : s.runState ≠ .stopped) (load : loadSlot .tx s.txFill.toNat s = .next d) (free : slotState d = .free)
    (empty : s.qLen = 0#16) (notNull : b ≠ Config.null)
    (mem : Rewritten s.txBase s.txFill.toNat { buf := b, st := statusWord false d.wrap 0#4 len } s.mem m) :
    txPipeline { s with mem := m, txFill := nextTx s.params s.txFill, txRunning := true } = txPipeline s ++ [(b, len)] := by
  have hlt := p.held_lt hi.params load free
  have hq : s.qLen.toNat = 0 := by rw [empty]; rfl
  have p' := p.submitted hi hs load free empty notNull mem
  rw [p.fill] at mem
  have hload (j : Nat) (hj : j < s.params.nTx) := loadSlot_txSlot_rewritten hi.params (hi.bases hs) hlt hj mem
  rw [p.txPipeline_eq, p'.txPipeline_eq, hq, Nat.add_zero, Nat.add_zero, map_range_succ_eq_concat (f := pipelineItem s h)]
  · congr 2
    rw [pipelineItem_slot (Nat.lt_succ_self h)]
    refine (slotItem_of_load ((hload h hlt).trans (if_pos rfl))).trans ?_
    rw [Desc.len, statusWord_len]
  · intro i hi'
    rw [pipelineItem_slot (by omega), pipelineItem_slot hi']
    exact slotItem_congr ((hload i (by omega)).trans (if_neg (by omega)))

/-- SUBMIT into the overflow queue. -/
theorem Pipeline.txPipeline_queued {b : Word} {len : BitVec 14} (p : Pipeline s f h) (hi : SessionInv s)
    (load : loadSlot .tx s.txFill.toNat s = .next d) (full : slotState d ≠ .free ∨ s.qLen ≠ 0#16)
    (room : s.qLen.toNat < s.params.qCap) (notNull : b ≠ Config.null) :
    txPipeline (enqueue b len s) = txPipeline s ++ [(b, len)] := by
  have p' : Pipeline (enqueue b len s) f h := p.queued hi load full room notNull
  rw [p.txPipeline_eq, p'.txPipeline_eq, qLen_enqueue hi.params room, ← Nat.add_assoc,
    map_range_succ_eq_concat (f := pipelineItem s h)]
  · congr 2
    rw [pipelineItem_entry, entryItem, entryAt_enqueue hi.queue room le_rfl, if_pos rfl]
  · intro i hi'
    unfold pipelineItem
    split
    · exact slotItem_congr (loadSlot_congr rfl _ _)
    · rw [entryItem, entryAt_enqueue hi.queue room (by omega), if_neg (by omega), entryItem]

/-- DMA_TX_DONE leaves every buffer and length in place. -/
theorem Pipeline.txPipeline_transmitted (p : Pipeline s f h) (hi : SessionInv s) (hs : s.runState ≠ .stopped)
    (load : loadSlot .tx s.hwTxCur.toNat s = .next d) (owned : slotState d = .hwOwned)
    (mem : Rewritten s.txBase s.hwTxCur.toNat { d with st := setOwn d.st } s.mem m) :
    txPipeline { s with mem := m, pendTxc := true, hwTxCur := nextHw d.wrap s.hwTxCur } = txPipeline s := by
  have hlt := p.finished_lt hi.params load owned
  have hroom := p.held
  have p' := p.transmitted hi hs load owned mem
  rw [p.engine] at mem load
  have hload (j : Nat) (hj : j < s.params.nTx) :=
    loadSlot_txSlot_rewritten hi.params (hi.bases hs) (by omega : f < s.params.nTx) hj mem
  have hlen : ({ d with st := setOwn d.st } : Desc).len = d.len := by
    apply BitVec.eq_of_getLsbD_eq
    intro i hi
    simp only [Desc.len, BitVec.getLsbD_extractLsb', setOwn_other d.st (show 0 + i ≠ 31 by omega)]
  rw [p.txPipeline_eq, p'.txPipeline_eq]
  refine List.map_congr_left fun i _ => ?_
  unfold pipelineItem
  split
  · next hih =>
    by_cases hif : i = f
    · subst hif
      rw [slotItem_of_load load, ← hlen]
      exact slotItem_of_load ((hload i (by omega)).trans (if_pos rfl))
    · exact slotItem_congr ((hload i (by omega)).trans (if_neg hif))
  · rfl

/-- The slot at the engine's cursor holds what is to be sent next. -/
theorem Pipeline.drop_finished (p : Pipeline s f h) (hi : SessionInv s) (load : loadSlot .tx s.hwTxCur.toNat s = .next d)
    (owned : slotState d = .hwOwned) : (txPipeline s).drop f = (d.buf, d.len) :: (txPipeline s).drop (f + 1) := by
  have hlt := p.finished_lt hi.params load owned
  have hlen : f < (txPipeline s).length := by rw [p.txPipeline_length]; omega
  rw [p.engine] at load
  rw [List.drop_eq_getElem_cons hlen]
  congr 1
  simp only [p.txPipeline_eq, List.getElem_map, List.getElem_range]
  rw [pipelineItem_slot hlt, slotItem_of_load load]

end

end Sys2Proof.Proofs
end

section
/-! O39: SUBMIT by the number of buffers held. -/

namespace Sys2Proof.Proofs
open Sys2Proof.Machine Sys2Proof.Safety

section
variable {s : State} {f h : Nat} {d : Desc}

/-- No Tx slot is `Invalid` where the invariant of R65 holds. -/
theorem Pipeline.fill_valid (p : Pipeline s f h) (hp : s.params.wellFormed = true)
    (load : loadSlot .tx s.txFill.toNat s = .next d) : slotState d ≠ .invalid := by
  have hpos := (params_wellFormed_iff.1 hp).2.1.1
  obtain ⟨j, hj, hslot⟩ : ∃ j, j < s.params.nTx ∧ txSlot s h = txSlot s j := by
    rcases Nat.lt_or_eq_of_le p.held with hlt | heq
    · exact ⟨h, hlt, rfl⟩
    · exact ⟨0, hpos, heq ▸ txSlot_size s⟩
  rw [p.fill, hslot] at load
  rw [(p.txSlots j hj).of_load load]
  unfold phase
  split_ifs <;> decide

/-- The ring takes a buffer exactly while fewer than `N_TX` are held. -/
theorem Pipeline.takes_iff (p : Pipeline s f h) (hp : s.params.wellFormed = true) (load : loadSlot .tx s.txFill.toNat s = .next d) :
    slotState d = .free ∧ s.qLen = 0#16 ↔ (txPipeline s).length < s.params.nTx := by
  rw [p.txPipeline_length]
  constructor
  · rintro ⟨free, empty⟩
    have hq : s.qLen.toNat = 0 := by rw [empty]; rfl
    have := p.held_lt hp load free
    omega
  · intro hlt
    refine ⟨by_contra fun hfull => ?_, BitVec.eq_of_toNat_eq (by_contra fun hne => ?_)⟩
    · have := p.held_eq load hfull
      omega
    · have := p.backlog (Nat.pos_of_ne_zero hne)
      omega

/-- Where the ring takes no buffer it is full. -/
theorem Pipeline.length_of_full (p : Pipeline s f h) (load : loadSlot .tx s.txFill.toNat s = .next d)
    (full : slotState d ≠ .free ∨ s.qLen ≠ 0#16) : (txPipeline s).length = s.params.nTx + s.qLen.toNat := by
  rw [p.txPipeline_length]
  exact congrArg (· + _) (full.elim (p.held_eq load) fun hq => p.backlog (Nat.pos_of_ne_zero fun e => hq (BitVec.eq_of_toNat_eq e)))

end

/-- SUBMIT with legal operands in a state of the invariant: the three answers, by what the ring and the queue have room for. -/
inductive Submits (s t : State) : Prop
  | filled (m : Memory) (room : (txPipeline s).length < s.params.nTx) (result : t = afterFill m s)
      (appended : txPipeline t = txPipeline s ++ [(s.arg0, lengthField s.arg1)]) (finished : txFinished t = txFinished s)
  | queued (full : s.params.nTx ≤ (txPipeline s).length) (room : (txPipeline s).length < s.params.nTx + s.params.qCap)
      (result : t = respondOnly .queued (enqueue s.arg0 (lengthField s.arg1) s))
      (appended : txPipeline t = txPipeline s ++ [(s.arg0, lengthField s.arg1)]) (finished : txFinished t = txFinished s)
  | busy (full : (txPipeline s).length = s.params.nTx + s.params.qCap) (result : t = respondOnly .busy s)

theorem execSubmit_submits {s : State} (h : RunInv s) (hr : s.runState = .running) (h0 : s.arg0 ≠ Config.null)
    (hl : 1 ≤ s.arg1.toNat ∧ s.arg1.toNat ≤ 16383) : ∃ t, execSubmit s = .next t ∧ Submits s t := by
  have hi := h.session
  have hs := ne_stopped hr
  have p := pipeline_of_runningShape (h.shape hr)
  obtain ⟨d, hd, -⟩ := hi.slot hs (g := .tx) hi.cursors.fill
  by_cases takes : slotState d = .free ∧ s.qLen = 0#16
  · obtain ⟨free, empty⟩ := takes
    obtain ⟨m, hx, hm⟩ := execSubmit_free hr h0 hl hd free empty
    have p' := p.submitted hi hs hd free empty h0 hm
    exact ⟨_, hx, .filled m ((p.takes_iff hi.params hd).1 ⟨free, empty⟩) rfl
      (p.txPipeline_submitted hi hs hd free empty h0 hm) p'.txFinished_eq⟩
  · have hroom := mt (p.takes_iff hi.params hd).2 takes
    have hfull : slotState d ≠ .free ∨ s.qLen ≠ 0#16 := not_and_or.1 takes
    have hlen := p.length_of_full hd hfull
    have hv := p.fill_valid hi.params hd
    by_cases hq : s.qLen.toNat < s.params.qCap
    · have p' := p.queued (len := lengthField s.arg1) hi hd hfull hq h0
      exact ⟨_, execSubmit_queued hr h0 hl hd hv hfull hq, .queued (Nat.not_lt.1 hroom) (by omega) rfl
        (p.txPipeline_queued hi hd hfull hq h0) p'.txFinished_eq⟩
    · have hcap := hi.queue.len
      exact ⟨_, execSubmit_busy hr h0 hl hd hv hfull (Nat.not_lt.1 hq), .busy (by omega) rfl⟩

theorem resp0Word_code (res : ResultCode) (more : Bool) (slot : Half) : (resp0Word res more slot).extractLsb' 0 4 = res.code := by
  apply BitVec.eq_of_getLsbD_eq
  intro i hi
  simp only [resp0Word, BitVec.getLsbD_extractLsb', BitVec.getLsbD_append, Nat.zero_add, hi, if_true, decide_true, Bool.true_and]

/-- Settles O39: at each number of held buffers one of the three answers remains. -/
theorem submitAppendsToPipeline : Obligations.SubmitAppendsToPipeline := by
  intro s h hr h0 h1 hmax
  obtain ⟨t, hx, ht⟩ := execSubmit_submits h hr h0 ⟨h1, hmax⟩
  refine ⟨t, hx, ?_⟩
  have hcap := (params_wellFormed_iff.1 h.session.params).2.2.1.1
  cases ht with
  | filled m room result appended =>
    subst result
    exact ⟨fun _ => ⟨resp0Word_code _ _ _, appended⟩, fun k => by omega, fun k => by omega⟩
  | queued full room result appended =>
    subst result
    exact ⟨fun k => by omega, fun _ _ => ⟨resp0Word_code _ _ _, appended⟩, fun k => by omega⟩
  | busy full result =>
    exact ⟨fun k => by omega, fun _ k => by omega, fun _ => ⟨full, result⟩⟩

end Sys2Proof.Proofs
end

section
/-! SUPPORT. One iteration of ON_TX_COMPLETE's loop where R65 holds: the oldest buffer leaves the pipeline, the oldest queue entry moves
into its slot. -/

namespace Sys2Proof.Proofs
open Sys2Proof.Machine Sys2Proof.Safety

/-- What a finished slot comes to hold: the queue entry it is refilled with, or the form START gave it (R177, R178). -/
def reclaimedDesc (d : Desc) : Option QEntry → Desc
  | none => { buf := Config.null, st := statusWord true d.wrap 0#4 0#14 }
  | some e => { buf := e.buf, st := statusWord false d.wrap 0#4 e.len }

/-- The loop takes the finished slot with descriptor `d` and goes on from `t`. -/
structure Iteration (d : Desc) (s t : State) : Prop where
  reclaim : Reclaim s t
  load : loadSlot .tx s.txReclaim.toNat s = .next d
  finished : slotState d = .swCompleted
  mem : Rewritten s.txBase s.txReclaim.toNat (reclaimedDesc d (queueEntries s).head?) s.mem t.mem
  trace : t.trace = s.trace ++ [.post d.buf, .txAvail]
  cursor : t.txReclaim = nextTx s.params s.txReclaim
  fill : t.txFill = if s.qLen = 0#16 then s.txFill else nextTx s.params s.txFill
  front : t.qFront = if s.qLen = 0#16 then s.qFront else nextQ s.params s.qFront
  len : t.qLen = if s.qLen = 0#16 then 0#16 else s.qLen - 1#16
  off : offLoop t = offLoop (post d.buf s)

/-! ### The loop's own steps -/

section
variable {s : State} {d : Desc} {m : Memory}

theorem queueEntries_head?_empty (h : s.qLen = 0#16) : (queueEntries s).head? = none := by
  rw [queueEntries_eq, h]; rfl

theorem queueEntries_head?_backlog (hq : QueueShape s) (h : s.qLen ≠ 0#16) : (queueEntries s).head? = some (queueHead s) := by
  obtain ⟨n, hn⟩ := Nat.exists_eq_succ_of_ne_zero fun e : s.qLen.toNat = 0 => h (BitVec.eq_of_toNat_eq e)
  rw [queueEntries_eq, hn, List.range_succ_eq_map, List.map_cons, List.head?_cons, queueHead_eq hq]

theorem released_afterReclaim (hd : loadSlot .tx s.txReclaim.toNat s = .next d) (hc : slotState d = .swCompleted)
    (hm : Rewritten s.txBase s.txReclaim.toNat { buf := Config.null, st := statusWord true d.wrap 0#4 0#14 } s.mem m) :
    Released s (afterReclaim d m s) :=
  .intro d m hd hc hm (bare_afterReclaim d m s)

/-- The state once the freed slot is refilled, `m` being descriptor memory then (R178). -/
def afterRefill (d : Desc) (m : Memory) (s : State) : State :=
  { dequeue (afterReclaim d m s) with txFill := nextTx s.params s.txReclaim }

theorem offLoop_refill (c : Half) (s : State) : offLoop { dequeue s with txFill := c } = offLoop s := rfl

theorem offLoop_afterRefill (d : Desc) (m : Memory) (s : State) : offLoop (afterRefill d m s) = offLoop (post d.buf s) :=
  (offLoop_refill _ (afterReclaim d m s)).trans (offLoop_afterReclaim d m s)

theorem refillSlot_of_loadSlot (hm : Rewritten s.txBase s.txReclaim.toNat { buf := Config.null, st := statusWord true d.wrap 0#4 0#14 }
    s.mem m) : ∃ m', refillSlot s.txReclaim (afterReclaim d m s) = .next (afterRefill d m' s) ∧
      Rewritten s.txBase s.txReclaim.toNat { buf := (queueHead s).buf, st := statusWord false d.wrap 0#4 (queueHead s).len } s.mem m' := by
  have hbare := bare_afterReclaim d m s
  have hbase : (afterReclaim d m s).txBase = s.txBase := (congrArg State.txBase hbare :)
  have hhead : queueHead (afterReclaim d m s) = queueHead s := (queueHead_of_bare hbare).trans rfl
  have hload : loadSlot .tx s.txReclaim.toNat (dequeue (afterReclaim d m s)) =
      .next { buf := Config.null, st := statusWord true d.wrap 0#4 0#14 } := by
    show loadDesc (afterReclaim d m s).txBase _ m = _
    rw [hbase]
    exact hm.desc
  obtain ⟨m', hx, hm'⟩ := handOver_of_loadSlot (queueHead s).buf (queueHead s).len hload
  have hm' : Rewritten (afterReclaim d m s).txBase s.txReclaim.toNat
      { buf := (queueHead s).buf, st := statusWord false ((statusWord true d.wrap 0#4 0#14).getLsbD 30) 0#4 (queueHead s).len } m m' := hm'
  rw [hbase, statusWord_wrap] at hm'
  refine ⟨m', ?_, hm.trans hm'⟩
  rw [refillSlot, hhead, fillTx, hx, andThen_next, params_of_bare hbare]
  rfl

theorem refilled_afterRefill (hd : loadSlot .tx s.txReclaim.toNat s = .next d) (hc : slotState d = .swCompleted) (hq : s.qLen ≠ 0#16)
    (hm : Rewritten s.txBase s.txReclaim.toNat
      { buf := (queueHead s).buf, st := statusWord false d.wrap 0#4 (queueHead s).len } s.mem m) : Refilled s (afterRefill d m s) :=
  .intro d m hd hc hq hm
    (bare_congr (fun x => { dequeue x with txFill := nextTx s.params s.txReclaim }) (fun _ => rfl) (bare_afterReclaim d m s))

/-- With an empty queue the slot stays free. -/
theorem reclaimLoop_release (hd : loadSlot .tx s.txReclaim.toNat s = .next d) (hc : slotState d = .swCompleted)
    (hq : s.qLen = 0#16) : ∃ t, Iteration d s t ∧ ∀ fuel n, reclaimLoop (fuel + 1) n s = reclaimLoop fuel (n + 1#32) t := by
  obtain ⟨m, ht, hm⟩ := reclaimSlot_of_loadSlot hd
  have hbare := bare_afterReclaim d m s
  refine ⟨afterReclaim d m s, ?_, fun fuel n => ?_⟩
  · exact {
      reclaim := .released (released_afterReclaim hd hc hm) hq
      load := hd
      finished := hc
      mem := by rw [queueEntries_head?_empty hq]; exact hm
      trace := rfl
      cursor := rfl
      fill := by rw [if_pos hq]; exact (congrArg State.txFill hbare :)
      front := by rw [if_pos hq]; exact (congrArg State.qFront hbare :)
      len := by rw [if_pos hq, ← hq]; exact (congrArg State.qLen hbare :)
      off := offLoop_afterReclaim d m s }
  · have hqt : queueEmpty (afterReclaim d m s) = true := queueEmpty_eq_true.2 ((qLen_of_bare hbare).trans hq)
    simp only [reclaimLoop, hd, andThen_next, hc, ht, if_pos hqt]

/-- With a backlog and `tx_fill` at the slot it is refilled. -/
theorem reclaimLoop_refill (hs : QueueShape s) (hd : loadSlot .tx s.txReclaim.toNat s = .next d) (hc : slotState d = .swCompleted)
    (hq : s.qLen ≠ 0#16) (hf : s.txFill = s.txReclaim) :
    ∃ t, Iteration d s t ∧ ∀ fuel n, reclaimLoop (fuel + 1) n s = reclaimLoop fuel (n + 1#32) t := by
  obtain ⟨m, ht, hm⟩ := reclaimSlot_of_loadSlot hd
  obtain ⟨m', hu, hm'⟩ := refillSlot_of_loadSlot hm
  have hbare := bare_afterReclaim d m s
  have href := refilled_afterRefill hd hc hq hm'
  have hres : bare (afterRefill d m' s) = bare { dequeue s with
      mem := m', txReclaim := nextTx s.params s.txReclaim, txFill := nextTx s.params s.txReclaim } :=
    bare_congr (fun x => { dequeue x with txFill := nextTx s.params s.txReclaim }) (fun _ => rfl) (bare_afterReclaim d m' s)
  refine ⟨afterRefill d m' s, ?_, fun fuel n => ?_⟩
  · exact {
      reclaim := .refilled href
      load := hd
      finished := hc
      mem := by rw [queueEntries_head?_backlog hs hq]; exact hm'
      trace := rfl
      cursor := rfl
      fill := by rw [if_neg hq, hf]; rfl
      front := by rw [if_neg hq]; exact (congrArg State.qFront hres :)
      len := by rw [if_neg hq]; exact (congrArg State.qLen hres :)
      off := offLoop_afterRefill d m' s }
  · have hqt : ¬ queueEmpty (afterReclaim d m s) = true := by
      rw [queueEmpty_eq_true]
      exact (qLen_of_bare hbare).trans_ne hq
    have hft : (afterReclaim d m s).txFill = s.txReclaim := (congrArg State.txFill hbare :).trans hf
    simp only [reclaimLoop, hd, andThen_next, hc, ht, if_neg hqt, if_pos hft, hu]

/-- The loop ends at a slot that is not finished. -/
theorem reclaimLoop_done (fuel : Nat) (n : Word) (hd : loadSlot .tx s.txReclaim.toNat s = .next d)
    (hc : slotState d = .free ∨ slotState d = .hwOwned) : reclaimLoop (fuel + 1) n s = .next (.done, n, s) := by
  rcases hc with hc | hc <;> simp only [reclaimLoop, hd, andThen_next, hc]

end

/-! ### The effect on the pipeline -/

section
variable {s t : State} {f h : Nat} {d : Desc}

/-- Where a backlog waits the ring is full, so `tx_fill` stands at the slot to be reclaimed (R178). -/
theorem Pipeline.fill_eq_reclaim (p : Pipeline s f h) (hi : SessionInv s) (hq : s.qLen ≠ 0#16) : s.txFill = s.txReclaim := by
  have hfull := p.backlog (Nat.pos_of_ne_zero fun e => hq (BitVec.eq_of_toNat_eq e))
  apply BitVec.eq_of_toNat_eq
  rw [p.fill, hfull, txSlot_size, txSlot_zero hi.cursors.reclaim]

/-- The loop goes on from a finished slot. -/
theorem Pipeline.iterates (p : Pipeline s f h) (hi : SessionInv s) (hd : loadSlot .tx s.txReclaim.toNat s = .next d)
    (hc : slotState d = .swCompleted) :
    ∃ t, Iteration d s t ∧ ∀ fuel n, reclaimLoop (fuel + 1) n s = reclaimLoop fuel (n + 1#32) t := by
  by_cases hq : s.qLen = 0#16
  · exact reclaimLoop_release hd hc hq
  · exact reclaimLoop_refill hi.queue hd hc hq (p.fill_eq_reclaim hi hq)

theorem Iteration.params (k : Iteration d s t) : t.params = s.params :=
  (congrArg State.params k.off :).trans (post_params d.buf s)

theorem Iteration.txBase (k : Iteration d s t) : t.txBase = s.txBase :=
  (congrArg State.txBase k.off :).trans (post_txBase d.buf s)

theorem Iteration.qEnt (k : Iteration d s t) : t.qEnt = s.qEnt :=
  (congrArg State.qEnt k.off :).trans (post_qEnt d.buf s)

theorem Iteration.qLen_toNat (k : Iteration d s t) : t.qLen.toNat = s.qLen.toNat - 1 := by
  rw [k.len]
  split
  · next hq => rw [hq]; rfl
  · next hq => exact qLen_dequeue hq

/-- A Tx slot after the iteration: only the one at `tx_reclaim` has changed. -/
theorem Iteration.loadSlot_eq (k : Iteration d s t) (hi : SessionInv s) (hs : s.runState ≠ .stopped) {i : Nat} (hi' : InRange .tx i s) :
    loadSlot .tx i t =
      if i = s.txReclaim.toNat then .next (reclaimedDesc d (queueEntries s).head?) else loadSlot .tx i s := by
  have hin : InRange .tx s.txReclaim.toNat s := hi.cursors.reclaim
  have hload := loadSlot_rewritten (hi.bases hs) hin hi' k.mem
  simp only [Prod.mk.injEq, true_and] at hload
  rw [← hload, loadSlot_withMem]
  show loadDesc t.txBase i t.mem = _
  rw [k.txBase]
  rfl

theorem Iteration.entryAt_eq (k : Iteration d s t) (hp : s.params.wellFormed = true) (hq : s.qLen ≠ 0#16) (i : Nat) :
    entryAt t i = entryAt s (i + 1) := by
  rw [← entryAt_dequeue hp, entryAt, entryAt, k.front, if_neg hq, k.qEnt, k.params]
  rfl

/-- The queue's entries move up by one. -/
theorem Iteration.queueEntries_eq_tail (k : Iteration d s t) (hp : s.params.wellFormed = true) :
    queueEntries t = (queueEntries s).tail := by
  rw [queueEntries_eq, queueEntries_eq, k.qLen_toNat]
  by_cases hq : s.qLen = 0#16
  · rw [hq]; rfl
  · obtain ⟨n, hn⟩ := Nat.exists_eq_succ_of_ne_zero fun e : s.qLen.toNat = 0 => hq (BitVec.eq_of_toNat_eq e)
    rw [hn, List.range_succ_eq_map, List.map_cons, List.map_map]
    exact List.map_congr_left fun i _ => k.entryAt_eq hp hq i

/-- The slots of `t` in ring order are those of `s` from number 1 on, then the one just reclaimed. -/
theorem Iteration.slotItem_eq (k : Iteration d s t) (hi : SessionInv s) (hs : s.runState ≠ .stopped) {j : Nat}
    (hj : j + 1 < s.params.nTx) : slotItem t j = slotItem s (j + 1) := by
  refine slotItem_congr ?_
  rw [txSlot_reclaimed hi.params k.cursor k.params, k.loadSlot_eq hi hs (txSlot_lt hi.params _), if_neg]
  rw [← txSlot_zero hi.cursors.reclaim]
  exact fun e => Nat.succ_ne_zero j (txSlot_inj hj (by omega) e)

/-- The slot just reclaimed is the last of them; refilled, it holds the entry that was at the front. -/
theorem Iteration.slotItem_last (k : Iteration d s t) (hi : SessionInv s) (hs : s.runState ≠ .stopped) (hq : s.qLen ≠ 0#16) {j : Nat}
    (hj : j + 1 = s.params.nTx) : slotItem t j = entryItem s 0 := by
  have hload : loadSlot .tx (txSlot t j) t = .next (reclaimedDesc d (some (queueHead s))) := by
    rw [txSlot_reclaimed hi.params k.cursor k.params, hj, txSlot_size, txSlot_zero hi.cursors.reclaim,
      k.loadSlot_eq hi hs hi.cursors.reclaim, if_pos rfl, queueEntries_head?_backlog hi.queue hq]
  rw [slotItem_of_load hload, entryItem, queueHead_eq hi.queue, reclaimedDesc, Desc.len, statusWord_len]

/-- The oldest buffer leaves the pipeline, the others stay in their order. -/
theorem Iteration.pipeline_eq (k : Iteration d s t) (p : Pipeline s f h) (hi : SessionInv s) (hs : s.runState ≠ .stopped) :
    txPipeline s = (d.buf, d.len) :: txPipeline t := by
  have hroom := p.held
  have hload := k.load
  rw [← txSlot_zero hi.cursors.reclaim] at hload
  have hpos : 0 < h := lt_of_lt_of_le (p.finished_pos hi k.load k.finished) p.finished
  have cons {n h' : Nat} (ht : txPipeline t = (List.range n).map (pipelineItem t h')) (hn : h + s.qLen.toNat = n + 1)
      (hitem : ∀ i, i < n → pipelineItem s h (i + 1) = pipelineItem t h' i) : txPipeline s = (d.buf, d.len) :: txPipeline t := by
    rw [p.txPipeline_eq, ht, hn, map_range_succ_eq_cons hitem, pipelineItem_slot hpos, slotItem_of_load hload]
  cases k.reclaim with
  | released kr empty =>
    have hq : s.qLen.toNat = 0 := by rw [empty]; rfl
    have hqt : t.qLen.toNat = 0 := by rw [k.qLen_toNat, hq]
    have p' := p.released hi hs kr empty
    refine cons p'.txPipeline_eq (by omega) fun i hi' => ?_
    rw [pipelineItem_slot (by omega), pipelineItem_slot (by omega), k.slotItem_eq hi hs (by omega)]
  | refilled kr =>
    have p' := p.refilled hi hs kr
    obtain ⟨_, _, -, -, backlog, -, -⟩ := kr
    have hq : 0 < s.qLen.toNat := Nat.pos_of_ne_zero fun e => backlog (BitVec.eq_of_toNat_eq e)
    obtain rfl := p.backlog hq
    have hqt := k.qLen_toNat
    refine cons p'.txPipeline_eq (by omega) fun i hi' => ?_
    by_cases hlt : i + 1 < s.params.nTx
    · rw [pipelineItem_slot hlt, pipelineItem_slot (by omega), k.slotItem_eq hi hs hlt]
    · obtain ⟨e, he⟩ := Nat.exists_eq_add_of_le (Nat.not_lt.1 hlt)
      rw [he, pipelineItem_entry]
      cases e with
      | zero =>
        rw [pipelineItem_slot (by omega), k.slotItem_last hi hs backlog he]
      | succ e =>
        obtain rfl : i = s.params.nTx + e := by omega
        rw [pipelineItem_entry, entryItem, entryItem, k.entryAt_eq hi.params backlog]

end

end Sys2Proof.Proofs
end

section
/-! SUPPORT. ON_TX_COMPLETE's loop as a whole: `Drained s k u` says all that `k` iterations from `s` have come to at `u`, each iteration
goes from `k` to `k + 1`, and the loop ends at `k = txFinished s`. -/

namespace Sys2Proof.Proofs
open Sys2Proof.Machine Sys2Proof.Safety

/-- The events of one completion (R176). -/
def completion (e : Word × BitVec 14) : List Event := [.post e.1, .txAvail]

/-- The state `u` is reached from `s` by `k` iterations of ON_TX_COMPLETE's loop. -/
structure Drained (s : State) (k : Nat) (u : State) : Prop where
  le : k ≤ txFinished s
  session : SessionInv u
  running : u.runState = .running
  shape : ∃ h, Pipeline u (txFinished s - k) h
  params : u.params = s.params
  txBase : u.txBase = s.txBase
  reclaim : u.txReclaim.toNat = txSlot s k
  fill : u.txFill.toNat = (s.txFill.toNat + min k s.qLen.toNat) % s.params.nTx
  front : u.qFront.toNat = (s.qFront.toNat + min k s.qLen.toNat) % s.params.qCap
  len : u.qLen.toNat = s.qLen.toNat - k
  entries : queueEntries u = (queueEntries s).drop k
  held : txPipeline u = (txPipeline s).drop k
  trace : u.trace = s.trace ++ ((txPipeline s).take k).flatMap completion
  kept : ∀ j, k ≤ j → j < s.params.nTx → loadSlot .tx (txSlot s j) u = loadSlot .tx (txSlot s j) s
  done : ∀ j d, j < k → loadSlot .tx (txSlot s j) s = .next d →
    loadSlot .tx (txSlot s j) u = .next (reclaimedDesc d (queueEntries s)[j]?)
  outside : ∀ a, inRing .tx a s = false → readByte u.mem a = readByte s.mem a
  off : offLoop u = offLoop (postAll (((txPipeline s).take k).map Prod.fst) s)

/-- A list taken apart behind its first `k` elements. -/
theorem take_drop_succ_of_drop {α : Type} {l r : List α} {x : α} {k : Nat} (h : l.drop k = x :: r) :
    l.take (k + 1) = l.take k ++ [x] ∧ l.drop (k + 1) = r := by
  constructor
  · rw [List.take_add, h]; rfl
  · rw [← List.drop_drop, h]; rfl

theorem txFinished_le (s : State) : txFinished s ≤ s.params.nTx :=
  (List.length_filter_le _ _).trans_eq List.length_range

theorem postAll_concat (bs : List Word) (b : Word) (s : State) : postAll (bs ++ [b]) s = post b (postAll bs s) := by
  simp [postAll]

section
variable {s u t : State} {k : Nat} {d : Desc}

theorem drained_zero (h : RunInv s) (hr : s.runState = .running) : Drained s 0 s where
  le := Nat.zero_le _
  session := h.session
  running := hr
  shape := ⟨_, pipeline_of_runningShape (h.shape hr)⟩
  params := rfl
  txBase := rfl
  reclaim := (txSlot_zero h.session.cursors.reclaim).symm
  fill := by rw [Nat.zero_min, Nat.add_zero, Nat.mod_eq_of_lt h.session.cursors.fill]
  front := by rw [Nat.zero_min, Nat.add_zero, Nat.mod_eq_of_lt h.session.queue.front]
  len := rfl
  entries := rfl
  held := rfl
  trace := (List.append_nil _).symm
  kept _ _ _ := rfl
  done _ _ hj := absurd hj (Nat.not_lt_zero _)
  outside _ _ := rfl
  off := rfl

/-- The next iteration is on slot number `k`. -/
theorem Drained.succ (D : Drained s k u) (hi : SessionInv s) (it : Iteration d u t) : Drained s (k + 1) t := by
  have hs := ne_stopped D.running
  obtain ⟨h, p⟩ := D.shape
  have hpos := p.finished_pos D.session it.load it.finished
  have hle : k + 1 ≤ txFinished s := by omega
  have hk : k < s.params.nTx := by
    have := txFinished_le s
    omega
  have hq : u.qLen = 0#16 ↔ s.qLen.toNat ≤ k := by
    rw [← BitVec.toNat_inj, D.len]
    exact Nat.sub_eq_zero_iff_le
  have hcons : (txPipeline s).drop k = (d.buf, d.len) :: txPipeline t := D.held ▸ it.pipeline_eq p D.session hs
  obtain ⟨htake, hdrop⟩ := take_drop_succ_of_drop hcons
  have hload (j : Nat) (hj : j < s.params.nTx) : loadSlot .tx (txSlot s j) t =
      if j = k then .next (reclaimedDesc d (queueEntries u).head?) else loadSlot .tx (txSlot s j) u := by
    have hin : InRange .tx (txSlot s j) u := by rw [InRange, D.params]; exact txSlot_lt hi.params j
    rw [it.loadSlot_eq D.session hs hin, D.reclaim]
    by_cases e : j = k
    · rw [if_pos e, if_pos (by rw [e])]
    · rw [if_neg e, if_neg fun k' => e (txSlot_inj hj hk k')]
  exact {
    le := hle
    session := D.session.reclaim hs it.reclaim
    running := it.reclaim.runState.trans D.running
    shape := by
      rw [← Nat.sub_sub]
      cases it.reclaim with
      | released kr empty => exact ⟨_, p.released D.session hs kr empty⟩
      | refilled kr => exact ⟨_, p.refilled D.session hs kr⟩
    params := it.params.trans D.params
    txBase := it.txBase.trans D.txBase
    reclaim := by rw [it.cursor, D.params, nextTx_txSlot hi.params D.reclaim]
    fill := by
      rw [it.fill]
      split
      · next h0 =>
        have := hq.1 h0
        rw [D.fill, Nat.min_eq_right this, Nat.min_eq_right (by omega)]
      · next h0 =>
        have := mt hq.2 h0
        rw [D.params, nextTx_toNat hi.params, D.fill, Nat.mod_add_mod, Nat.min_eq_left (by omega), Nat.min_eq_left (by omega),
          Nat.add_assoc]
    front := by
      obtain ⟨-, -, ⟨h1, h2⟩, -⟩ := params_wellFormed_iff.1 hi.params
      rw [it.front]
      split
      · next h0 =>
        have := hq.1 h0
        rw [D.front, Nat.min_eq_right this, Nat.min_eq_right (by omega)]
      · next h0 =>
        have := mt hq.2 h0
        rw [D.params, nextQ, nextIndex_toNat h1 h2, D.front, Nat.mod_add_mod, Nat.min_eq_left (by omega), Nat.min_eq_left (by omega),
          Nat.add_assoc]
    len := by rw [it.qLen_toNat, D.len, Nat.sub_sub]
    entries := by rw [it.queueEntries_eq_tail D.session.params, D.entries, List.tail_drop]
    held := hdrop.symm
    trace := by
      rw [it.trace, D.trace, htake, List.flatMap_append, List.flatMap_singleton, List.append_assoc]
      rfl
    kept := fun j hj hjn => by
      rw [hload j hjn, if_neg (by omega), D.kept j (by omega) hjn]
    done := fun j e hj he => by
      rw [hload j (by omega)]
      split
      · next hjk =>
        subst hjk
        have hl := it.load
        rw [D.reclaim, D.kept j le_rfl hk, he, Host.Outcome.next.injEq] at hl
        rw [hl, D.entries, List.head?_drop]
      · exact D.done j e (by omega) he
    outside := fun a ha => by
      rw [← D.outside a ha]
      refine it.mem.outside a fun ⟨h1, h2⟩ => ?_
      have hin : inRing .tx a u = true := inRing_of_desc (g := .tx) D.session.cursors.reclaim h1 h2
      rw [inRing, ringBase, D.txBase, D.params] at hin
      exact absurd (hin.symm.trans ha) (by decide)
    off := by
      rw [it.off, htake, List.map_append, List.map_singleton, postAll_concat]
      exact offLoop_post_congr d.buf D.off }

/-- The loop ends with every finished slot reclaimed, the fuel being more than their number. -/
theorem reclaimLoop_drains (hi : SessionInv s) (fuel : Nat) : ∀ {k : Nat} {u : State}, Drained s k u → txFinished s < k + fuel →
    ∃ t, reclaimLoop fuel (BitVec.ofNat 32 k) u = .next (.done, BitVec.ofNat 32 (txFinished s), t) ∧ Drained s (txFinished s) t := by
  induction fuel with
  | zero => intro k u D hf; exact absurd D.le (by omega)
  | succ fuel ih =>
    intro k u D hf
    obtain ⟨h, p⟩ := D.shape
    obtain ⟨d, hd, -⟩ := D.session.slot (ne_stopped D.running) (g := .tx) D.session.cursors.reclaim
    have hstate : slotState d = phase (txFinished s - k) h 0 := by
      have hpos : 0 < u.params.nTx := Nat.zero_lt_of_lt D.session.cursors.reclaim
      rw [← txSlot_zero D.session.cursors.reclaim] at hd
      exact (p.txSlots 0 hpos).of_load hd
    by_cases hc : slotState d = .swCompleted
    · obtain ⟨t, it, hloop⟩ := p.iterates D.session hd hc
      rw [hloop, ← BitVec.ofNat_add]
      exact ih (D.succ hi it) (by omega)
    · have hk : k = txFinished s := by
        have := D.le
        rw [hstate, phase_eq_swCompleted] at hc
        omega
      have hend : slotState d = .free ∨ slotState d = .hwOwned := by
        rw [hstate, hk]
        rcases Nat.eq_zero_or_pos h with h0 | h0
        · exact .inl (phase_eq_free.2 (by omega))
        · exact .inr (phase_eq_hwOwned.2 (by omega))
      subst hk
      exact ⟨u, reclaimLoop_done fuel _ hd hend, D⟩

end

end Sys2Proof.Proofs
end

section
/-! O38: ON_TX_COMPLETE is its loop on the state without the pending bit, then the idle mark and the answer. -/

namespace Sys2Proof.Proofs
open Sys2Proof.Machine Sys2Proof.Safety

section
variable {s u : State} {f h : Nat}

theorem Pipeline.txPipeline_eq_nil_iff (p : Pipeline s f h) : txPipeline s = [] ↔ h = 0 ∧ queueEmpty s = true := by
  rw [← List.length_eq_zero_iff, p.txPipeline_length, Nat.add_eq_zero_iff, queueEmpty_eq_true, ← BitVec.toNat_inj]
  rfl

/-- The engine is marked idle where nothing is held; elsewhere its mark was set already (R179). -/
theorem markIdle_eq (p : Pipeline s f h) (hi : SessionInv s) (hs : s.runState ≠ .stopped) :
    markIdle s = .next { s with txRunning := decide (txPipeline s ≠ []) } := by
  rw [markIdle, txLevel_of_session hi hs, andThen_next, p.txHeld_eq]
  by_cases hidle : txPipeline s = []
  · rw [if_pos (p.txPipeline_eq_nil_iff.1 hidle), decide_eq_false (not_not_intro hidle)]
  · have hrun : s.txRunning = true := p.busy <| by
      have := List.length_pos_iff.2 hidle
      rw [p.txPipeline_length] at this
      omega
    rw [if_neg (mt p.txPipeline_eq_nil_iff.2 hidle), decide_eq_true hidle, ← hrun]

theorem postAll_withPendTxc (bs : List Word) (v : Bool) (s : State) :
    postAll bs { s with pendTxc := v } = { postAll bs s with pendTxc := v } := by
  induction bs generalizing s with
  | nil => rfl
  | cons b bs ih =>
    calc postAll bs (post b { s with pendTxc := v }) = postAll bs { post b s with pendTxc := v } := by rw [post_withPendTxc]
      _ = { postAll bs (post b s) with pendTxc := v } := ih (post b s)

/-- Every Tx slot has a number in ring order. -/
theorem exists_txSlot_eq (hr : s.txReclaim.toNat < s.params.nTx) {i : Nat} (hi : i < s.params.nTx) :
    ∃ j, j < s.params.nTx ∧ txSlot s j = i := by
  by_cases h : s.txReclaim.toNat ≤ i
  · exact ⟨i - s.txReclaim.toNat, by omega, by rw [txSlot, Nat.add_sub_cancel' h, Nat.mod_eq_of_lt hi]⟩
  · refine ⟨i + s.params.nTx - s.txReclaim.toNat, by omega, ?_⟩
    rw [txSlot, Nat.add_sub_cancel' (by omega), Nat.add_mod_right, Nat.mod_eq_of_lt hi]

/-- A Tx slot is finished where its number is below the count of finished slots. -/
theorem Pipeline.swCompleted_iff (p : Pipeline s f h) {j : Nat} {d : Desc} (hj : j < s.params.nTx)
    (hd : loadSlot .tx (txSlot s j) s = .next d) : slotState d = .swCompleted ↔ j < f := by
  rw [(p.txSlots j hj).of_load hd, phase_eq_swCompleted]

/-- The state ON_TX_COMPLETE answers once the loop has ended at `u`, `n` slots reclaimed. -/
def afterDrain (n : Nat) (u : State) : State :=
  respond .ok false 0#16 0#32 (BitVec.ofNat 32 n) { u with txRunning := decide (txPipeline u ≠ []) }

theorem execOnTxComplete_drains (h : RunInv s) (hr : s.runState = .running) :
    ∃ u, Drained { s with pendTxc := false } (txFinished s) u ∧ execOnTxComplete s = .next (afterDrain (txFinished s) u) := by
  have clear : Effect True s { s with pendTxc := false } :=
    .pending s.pendRxr false (fun k => ⟨(h.session.idle k).pendRxr, rfl⟩) rfl
  have h0 : RunInv { s with pendTxc := false } := h.effect clear
  have hle : txFinished s ≤ s.params.nTx := txFinished_le s
  obtain ⟨u, hloop, D⟩ := reclaimLoop_drains h0.session (s.params.nTx + 2) (drained_zero h0 hr)
    (show txFinished s < 0 + (s.params.nTx + 2) by omega)
  obtain ⟨k, p⟩ := D.shape
  refine ⟨u, D, ?_⟩
  rw [execOnTxComplete, ringGate_running (show ({ s with pendTxc := false } : State).runState = .running from hr)]
  show andThen (reclaimLoop (s.params.nTx + 2) (BitVec.ofNat 32 0) { s with pendTxc := false }) _ = _
  rw [hloop, andThen_next]
  show andThen (markIdle u) _ = _
  rw [markIdle_eq p D.session (ne_stopped D.running), andThen_next]
  rfl

end

/-- Settles O38: the loop's end and every field of it are those of `Drained` at the count of finished slots. -/
theorem onTxCompleteDrainsInOrder : Obligations.OnTxCompleteDrainsInOrder := by
  intro s h hr
  obtain ⟨u, D, hx⟩ := execOnTxComplete_drains h hr
  have p := pipeline_of_runningShape (h.shape hr)
  have hi := h.session
  obtain ⟨k, pu⟩ := D.shape
  refine ⟨afterDrain (txFinished s) u, hx, D.trace, D.held, ?none, D.len, D.reclaim, D.fill, D.front, rfl,
    ?kept, ?done, D.outside, ?frame⟩
  case none => exact pu.txFinished_eq.trans (Nat.sub_self _)
  case kept =>
    intro i hin d hd hc
    obtain ⟨j, hj, rfl⟩ := exists_txSlot_eq hi.cursors.reclaim hin
    rw [Ne, p.swCompleted_iff hj hd, Nat.not_lt] at hc
    exact (D.kept j hc hj).trans hd
  case done =>
    intro i hin d hd hc
    obtain ⟨j, hj, rfl⟩ := exists_txSlot_eq hi.cursors.reclaim hin
    have hjf := (p.swCompleted_iff hj hd).1 hc
    have hl : loadSlot .tx (txSlot s j) (afterDrain (txFinished s) u) = .next (reclaimedDesc d (queueEntries s)[j]?) :=
      D.done j d hjf hd
    refine ⟨j, hjf, rfl, fun hq => ?_, fun hq => ?_⟩
    · have hnone : (queueEntries s)[j]? = none := List.getElem?_eq_none (by rw [queueEntries_eq]; simpa using hq)
      rw [hl, hnone, reclaimedDesc, statusWord_freed]
    · rw [hl, List.getElem?_eq_getElem hq, reclaimedDesc, statusWord_given]
  case frame =>
    have hu := eq_of_offLoop D.off
    rw [postAll_withPendTxc] at hu
    exact congrArg (fun x : State => respond .ok false 0#16 0#32 (BitVec.ofNat 32 (txFinished s))
      { x with txRunning := decide (txPipeline u ≠ []) }) hu

end Sys2Proof.Proofs
end

section
/-! SUPPORT. The transitions that leave the transmit side alone: its slots, its queue, the posts and the sends. -/

namespace Sys2Proof.Proofs
open Sys2Proof.Machine Sys2Proof.Safety

/-- Nothing is posted, sent, taken from the transmit side or put there. -/
structure TxKept (s t : State) : Prop where
  side : pipelineSide t = pipelineSide s
  posts : posted t.trace = posted s.trace
  sends : t.sent = s.sent
  loads : ∀ i, InRange .tx i s → loadSlot .tx i t = loadSlot .tx i s

theorem posted_append (a b : List Event) : posted (a ++ b) = posted a ++ posted b := List.filterMap_append

@[simp] theorem posted_frameAvailIf (more : Bool) : posted (frameAvailIf more) = [] := by cases more <;> rfl

/-- A signal of a received frame is no post. -/
theorem posted_append_frameAvailIf (tr : List Event) (more : Bool) : posted (tr ++ frameAvailIf more) = posted tr := by
  rw [posted_append, posted_frameAvailIf, List.append_nil]

theorem TxKept.of_slotSide {s t : State} (side : pipelineSide t = pipelineSide s) (posts : posted t.trace = posted s.trace)
    (sends : t.sent = s.sent) (slots : slotSide t = slotSide s) : TxKept s t :=
  ⟨side, posts, sends, fun i _ => loadSlot_congr slots .tx i⟩

theorem TxKept.refl (s : State) : TxKept s s := .of_slotSide rfl rfl rfl rfl

section
variable {s t : State} {d e : Desc} {m : Memory}

/-- A response leaves the transmit side alone, and so does a fault raised. -/
theorem TxKept.respond (k : TxKept s t) (res : ResultCode) (more : Bool) (slot : Half) (r1 r2 : Word) :
    TxKept s (respond res more slot r1 r2 t) := ⟨k.side, k.posts, k.sends, k.loads⟩

theorem TxKept.raise (k : TxKept s t) (c : FaultCause) (g : Ring) (slot : Half) (n : Word) :
    TxKept s (raiseDeviceFault c g slot n t) := ⟨k.side, k.posts, k.sends, k.loads⟩

/-- A write of an Rx slot is apart from the Tx ring (R222). -/
theorem txKept_rxRewritten {i : Nat} (hb : BasesOk s) (hin : InRange .rx i s) (mem : Rewritten s.rxBase i d s.mem m)
    (side : pipelineSide t = pipelineSide s) (slots : slotSide t = slotSide { s with mem := m })
    (posts : posted t.trace = posted s.trace) (sends : t.sent = s.sent) : TxKept s t :=
  ⟨side, posts, sends, fun j hj => by
    rw [loadSlot_congr slots, loadSlot_rewritten (g := .rx) hb hin hj mem, if_neg (by simp)]⟩

/-! ### Rx ring -/

theorem posted_afterBad (d e : Desc) (s : State) : posted (afterBad d e s).trace = posted s.trace :=
  posted_append_frameAvailIf _ _

theorem posted_afterGood (e : Desc) (s : State) : posted (afterGood e s).trace = posted s.trace :=
  posted_append_frameAvailIf _ _

theorem txKept_afterBad (d e : Desc) (s : State) : TxKept s (afterBad d e s) :=
  .of_slotSide (congrArg pipelineSide (bare_afterBad d e s) :) (posted_afterBad d e s) rfl (congrArg slotSide (bare_afterBad d e s) :)

theorem txKept_afterBad_withMem {i : Nat} (hb : BasesOk s) (hin : InRange .rx i s) (mem : Rewritten s.rxBase i d s.mem m)
    (frame e : Desc) : TxKept s { afterBad frame e s with mem := m } :=
  have result := bare_afterBad_withMem frame e s m
  txKept_rxRewritten hb hin mem (congrArg pipelineSide result :) (congrArg slotSide result :) (posted_afterBad frame e s) rfl

theorem txKept_afterGood_withMem {i : Nat} (hb : BasesOk s) (hin : InRange .rx i s) (mem : Rewritten s.rxBase i d s.mem m)
    (e : Desc) : TxKept s { afterGood e s with mem := m } :=
  have result := bare_afterGood_withMem e s m
  txKept_rxRewritten hb hin mem (congrArg pipelineSide result :) (congrArg slotSide result :) (posted_afterGood e s) rfl

/-- What RX_SERVICE takes from the allocator and counts is nothing of the transmit side. -/
theorem TxKept.afterAnswers (k : TxKept s t) (n : Nat) (c : Word) :
    TxKept s { Proofs.afterAnswers n t with cntRxNobuf := c } := ⟨k.side, k.posts, k.sends, k.loads⟩

variable (h : SessionInv s) (hr : s.runState = .running)
include h hr

theorem execHarvest_txKept : Answers (execHarvest s) (TxKept s) := by
  obtain ⟨⟨d, hd⟩, e, he⟩ := harvest_slots h hr
  cases hc : slotState d with
  | hwOwned => exact .of_eq (execHarvest_empty hr hd hc) ((TxKept.refl s).respond _ _ _ _ _)
  | free => exact .of_eq (execHarvest_undecodable hr hd (.inl hc)) ((TxKept.refl s).raise _ _ _ _)
  | invalid => exact .of_eq (execHarvest_undecodable hr hd (.inr hc)) ((TxKept.refl s).raise _ _ _ _)
  | swCompleted =>
    by_cases hf : goodFrame s.params d
    · have kept := txKept_afterGood_withMem (h.bases (ne_stopped hr)) h.cursors.rx (rewritten_emptied hd) e
      exact .of_eq (execHarvest_good hd hc he hr hf) (kept.respond _ _ _ _ _)
    · exact .of_eq (execHarvest_bad hd hc he hr hf) ((txKept_afterBad d e s).respond _ _ _ _ _)

theorem execRxService_txKept : Answers (execRxService s) (TxKept s) := by
  have hb := h.bases (ne_stopped hr)
  obtain ⟨⟨d, hd⟩, e, he⟩ := harvest_slots h hr
  cases hc : slotState d with
  | hwOwned => exact .of_eq (execRxService_empty hr hd hc) ((TxKept.refl s).respond _ _ _ _ _)
  | free => exact .of_eq (execRxService_undecodable hr hd (.inl hc)) ((TxKept.refl s).raise _ _ _ _)
  | invalid => exact .of_eq (execRxService_undecodable hr hd (.inr hc)) ((TxKept.refl s).raise _ _ _ _)
  | swCompleted =>
    by_cases hf : goodFrame s.params d
    · cases ha : answerAt s 0 with
      | none =>
        obtain ⟨m, hm, hx⟩ := execRxService_none hd hc he hr hf ha
        have kept := txKept_afterGood_withMem hb h.cursors.rx hm e
        exact .of_eq hx ((kept.afterAnswers 1 (s.cntRxNobuf + 1#32)).respond _ _ _ _ _)
      | some b =>
        by_cases breach : b = Config.null ∨ b = d.buf ∨ b ∈ heldRefs (afterGood e s)
        · rw [execRxService_breach hd hc he hr hf ha breach]
          trivial
        · simp only [not_or] at breach
          obtain ⟨h0, h1, h2⟩ := breach
          obtain ⟨m, hm, hx⟩ := execRxService_some hd hc he hr hf ha h0 h1 h2
          have kept := txKept_afterGood_withMem hb h.cursors.rx hm e
          exact .of_eq hx ((kept.afterAnswers 1 (afterGood e s).cntRxNobuf).respond _ _ _ _ _)
    · obtain ⟨m, hm, hx⟩ := execRxService_bad hd hc he hr hf
      exact .of_eq hx ((txKept_afterBad_withMem hb h.cursors.rx hm d e).respond _ _ _ _ _)

theorem execReplenish_txKept (slot : Nat) : Answers (execReplenish slot s) (TxKept s) := by
  by_cases hslot : slot < s.params.nRx
  · by_cases h0 : s.arg0 = Config.null
    · exact .of_eq (execReplenish_null hr hslot h0) ((TxKept.refl s).respond _ _ _ _ _)
    · obtain ⟨d, hd, -⟩ := h.slot (ne_stopped hr) (g := .rx) hslot
      rw [execReplenish_of_loadSlot hr hslot h0 hd]
      by_cases install : slotState d = .free ∨ (slotState d = .swCompleted ∧ d.buf = s.arg0)
      · obtain ⟨m, hi, hm⟩ := installRx_of_loadSlot s.arg0 hd
        rw [replenishSlot_install install, hi, andThen_next]
        have kept : TxKept s { s with mem := m } := txKept_rxRewritten (h.bases (ne_stopped hr)) hslot hm rfl rfl rfl rfl
        exact kept.respond _ _ _ _ _
      · cases hc : slotState d with
        | free => exact absurd (.inl hc) install
        | swCompleted => exact .of_eq (replenishSlot_other hc fun hb => install (.inr ⟨hc, hb⟩)) ((TxKept.refl s).respond _ _ _ _ _)
        | hwOwned => exact .of_eq (replenishSlot_not_own (slotState_eq_hwOwned.1 hc).1) ((TxKept.refl s).raise _ _ _ _)
        | invalid => exact .of_eq (replenishSlot_not_own (slotState_eq_invalid.1 hc).1) ((TxKept.refl s).raise _ _ _ _)
  · exact .of_eq (execReplenish_outside hr (Nat.not_lt.1 hslot)) ((TxKept.refl s).respond _ _ _ _ _)

omit h in
theorem execOnRxReady_txKept : Answers (execOnRxReady s) (TxKept s) := by
  rw [execOnRxReady, ringGate_running (show ({ s with pendRxr := false } : State).runState = .running from hr)]
  cases s.pendRxr with
  | true => exact .of_slotSide rfl (posted_append_frameAvailIf s.trace true) rfl rfl
  | false => exact .of_slotSide rfl rfl rfl rfl

/-! ### The other transitions -/

omit hr in
theorem dmaRxDone_txKept (len : BitVec 14) (err : BitVec 4) : Answers (dmaRxDone len err s) (TxKept s) := by
  unfold dmaRxDone
  split
  · next he =>
    have hs := session_of_rxEn h he
    obtain ⟨d, hd, -⟩ := h.slot hs (g := .rx) h.cursors.hwRx
    rw [hd, andThen_next]
    split
    · obtain ⟨m, hx, hm⟩ := storeStatus_of_loadSlot (statusWord true d.wrap err len) hd
      rw [dmaRxGiveBack, hx, andThen_next]
      exact txKept_rxRewritten (h.bases hs) h.cursors.hwRx hm rfl rfl rfl rfl
    · exact .refl s
  · exact .refl s

omit h in
/-- Host stores reach no ring while a session is open (R104). -/
theorem hostStoreByte_txKept (addr : Word) (v : Byte) : Answers (hostStoreByte addr v s) (TxKept s) := by
  by_cases hin : inRing .rx addr.toNat s = true ∨ inRing .tx addr.toNat s = true
  · rw [hostStoreByte_refused (ne_stopped hr) hin]
    trivial
  · simp only [not_or, Bool.not_eq_true] at hin
    refine .of_eq (hostStoreByte_plain (.inr hin)) ⟨rfl, rfl, rfl, fun i hi => ?_⟩
    rw [loadSlot_withMem]
    refine loadDesc_congr fun a h1 h2 => readByte_writeByte_other ?_ v s.mem
    rintro rfl
    exact absurd ((inRing_of_desc hi h1 h2).symm.trans hin.2) (by decide)

omit h in
theorem writeReg_txKept (r : Reg) (v : Word) : TxKept s (writeReg r v s) := by
  cases r with
  | mcCtrl =>
    show TxKept s (writeMcCtrl v s)
    unfold writeMcCtrl
    split <;> exact .of_slotSide rfl rfl rfl rfl
  | rxBase =>
    rw [writeReg, if_pos (inSession_eq_true.2 (ne_stopped hr))]
    exact .refl s
  | txBase =>
    rw [writeReg, if_pos (inSession_eq_true.2 (ne_stopped hr))]
    exact .refl s
  | _ => exact .of_slotSide rfl rfl rfl rfl

end

theorem hostRead_txKept (width : AccessWidth) (offset : Nat) (s : State) : Answers (hostRead width offset s) (TxKept s) := by
  unfold hostRead
  split
  · trivial
  · exact (answers_any _).andThen fun v _ => post_next.2 (.of_slotSide rfl rfl rfl rfl)

theorem txKept_addRef (b : Bucket) (s : State) : TxKept s (addRef b s) := by
  unfold addRef
  split <;> exact .of_slotSide rfl rfl rfl rfl

theorem txKept_dropRef (b : Bucket) (s : State) : TxKept s (dropRef b s) := by
  unfold dropRef
  split <;> exact .of_slotSide rfl rfl rfl rfl

end Sys2Proof.Proofs
end

section
/-! O40: over a transition the two orders, of posts and of sends, grow by what the transition accepts. -/

namespace Sys2Proof.Proofs
open Sys2Proof.Machine Sys2Proof.Safety

/-- What is posted and then what is held, and what is sent and then what is to be sent, grow at the end by `acc` (R175, R185). -/
structure Grows (acc : List (Word × BitVec 14)) (s t : State) : Prop where
  posts : posted t.trace ++ (txPipeline t).map Prod.fst = posted s.trace ++ (txPipeline s).map Prod.fst ++ acc.map Prod.fst
  sends : t.sent ++ unsent t = s.sent ++ unsent s ++ acc

/-- What the transition `tr` accepts on its way from `s` to `t`. -/
def acceptedBy (tr : Transition) (s t : State) : List (Word × BitVec 14) :=
  if tr = .write .word 0x00 0x00000010#32 ∧
      (t.resp0.extractLsb' 0 4 = ResultCode.ok.code ∨ t.resp0.extractLsb' 0 4 = ResultCode.queued.code)
  then [(s.arg0, s.arg1.setWidth 14)] else []

/-! ### What is accepted -/

section
variable {s t : State} {tr : Transition} {w : Word}

theorem accepted_eq_acceptedBy {rest : List Transition} (h : s.agenda = tr :: rest) :
    accepted s t = acceptedBy tr { s with agenda := rest } t := by
  simp [accepted, acceptedBy, h]

theorem accepted_of_waiting (h : s.agenda = []) : accepted s t = [] := by
  simp [accepted, h]

/-- Only SUBMIT accepts. -/
theorem acceptedBy_of_ne (h : tr ≠ .write .word 0x00 0x00000010#32) : acceptedBy tr s t = [] :=
  if_neg fun k => h k.1

theorem decode_submit : decode 0x00000010#32 = .ok .submit := rfl

theorem acceptedBy_of_not_submit (h : decode w ≠ .ok .submit) : acceptedBy (.write .word 0x00 w) s t = [] :=
  acceptedBy_of_ne fun e => by
    cases e
    exact h decode_submit

/-- SUBMIT answered `OK` or `QUEUED`. -/
theorem acceptedBy_submit {res : ResultCode} (h : t.resp0.extractLsb' 0 4 = res.code) (hres : res = .ok ∨ res = .queued) :
    acceptedBy (.write .word 0x00 0x00000010#32) s t = [(s.arg0, lengthField s.arg1)] :=
  if_pos ⟨rfl, by rw [h]; rcases hres with rfl | rfl <;> simp⟩

/-- SUBMIT answered otherwise. -/
theorem acceptedBy_submit_refused {res : ResultCode} (h : t.resp0.extractLsb' 0 4 = res.code) (hok : res.code ≠ ResultCode.ok.code)
    (hq : res.code ≠ ResultCode.queued.code) : acceptedBy (.write .word 0x00 0x00000010#32) s t = [] :=
  if_neg fun k => by
    rw [h] at k
    exact k.2.elim hok hq

end

/-! ### How the orders grow -/

section
variable {s t : State} {acc : List (Word × BitVec 14)}

theorem txFinished_le_length (h : RunInv s) (hr : s.runState = .running) : txFinished s ≤ (txPipeline s).length := by
  have p := pipeline_of_runningShape (h.shape hr)
  rw [p.txPipeline_length]
  exact p.finished.trans (Nat.le_add_right _ _)

/-- A transition that posts and sends nothing and puts `acc` behind what is held. -/
theorem grows_of_appended (hle : txFinished s ≤ (txPipeline s).length) (held : txPipeline t = txPipeline s ++ acc)
    (finished : txFinished t = txFinished s) (posts : posted t.trace = posted s.trace) (sends : t.sent = s.sent) : Grows acc s t where
  posts := by rw [held, posts, List.map_append, List.append_assoc]
  sends := by rw [unsent, unsent, held, finished, sends, List.drop_append_of_le_length hle, List.append_assoc]

theorem TxKept.grows (k : TxKept s t) (h : RunInv s) (hr : s.runState = .running) : Grows [] s t := by
  obtain ⟨held, finished⟩ := txViews_congr h.session.params k.side k.loads
  exact grows_of_appended (txFinished_le_length h hr) (by rw [held, List.append_nil]) finished k.posts k.sends

theorem posted_completions (l : List (Word × BitVec 14)) : posted (l.flatMap completion) = l.map Prod.fst := by
  induction l with
  | nil => rfl
  | cons e l ih => rw [List.flatMap_cons, posted_append, ih]; rfl

theorem postAll_sent (bs : List Word) (s : State) : (postAll bs s).sent = s.sent := by
  induction bs generalizing s with
  | nil => rfl
  | cons b bs ih => exact (ih (post b s)).trans (post_sent b s)

/-- ON_TX_COMPLETE posts the finished buffers from the front of what is held (R176). -/
theorem execOnTxComplete_grows (h : RunInv s) (hr : s.runState = .running) : Answers (execOnTxComplete s) (Grows [] s) := by
  obtain ⟨u, D, hx⟩ := execOnTxComplete_drains h hr
  obtain ⟨k, p⟩ := D.shape
  have hfin : txFinished u = 0 := p.txFinished_eq.trans (Nat.sub_self _)
  have hheld : txPipeline u = (txPipeline s).drop (txFinished s) := D.held
  have htrace : u.trace = s.trace ++ ((txPipeline s).take (txFinished s)).flatMap completion := D.trace
  have hsent : u.sent = s.sent := (congrArg State.sent D.off :).trans (postAll_sent _ _)
  have grows : Grows [] s u := by
    constructor
    · rw [htrace, hheld, posted_append, posted_completions, List.append_assoc, ← List.map_append, List.take_append_drop,
        List.map_nil, List.append_nil]
    · rw [unsent, unsent, hfin, hheld, hsent, List.drop_zero, List.append_nil]
  exact .of_eq hx ⟨grows.posts, grows.sends⟩

/-- DMA_TX_DONE sends the oldest frame that is still to be sent (R245). -/
theorem dmaTxDone_grows (h : RunInv s) (hr : s.runState = .running) : Answers (dmaTxDone s) (Grows [] s) := by
  have hi := h.session
  have hs := ne_stopped hr
  have p := pipeline_of_runningShape (h.shape hr)
  have same : Grows [] s s := (TxKept.refl s).grows h hr
  unfold dmaTxDone
  split
  · obtain ⟨d, hd, -⟩ := hi.slot hs (g := .tx) hi.cursors.hwTx
    rw [hd, andThen_next]
    split
    · next owned =>
      obtain ⟨m, hx, hm⟩ := storeStatus_of_loadSlot (setOwn d.st) hd
      have p' := p.transmitted hi hs hd owned hm
      have held := p.txPipeline_transmitted hi hs hd owned hm
      have next := p.drop_finished hi hd owned
      rw [dmaTxGiveBack, hx, andThen_next]
      refine post_next.2 ⟨?_, ?_⟩
      · show posted s.trace ++ (txPipeline { s with mem := m, pendTxc := true, hwTxCur := nextHw d.wrap s.hwTxCur }).map Prod.fst = _
        rw [held, List.map_nil, List.append_nil]
      · show s.sent ++ [(d.buf, d.len)] ++ unsent { s with mem := m, pendTxc := true, hwTxCur := nextHw d.wrap s.hwTxCur } = _
        rw [unsent, held, p'.txFinished_eq, List.append_assoc, List.singleton_append, ← next, List.append_nil, unsent]
    · exact same
  · exact same

theorem posted_restart (tr : List Event) (b : Bool) : posted (tr ++ if b then [] else [.dmaTxStart]) = posted tr := by
  cases b with
  | true => rw [if_pos rfl, List.append_nil]
  | false => rw [posted_append]; exact List.append_nil _

/-- SUBMIT, running afterwards: what it accepts goes behind what is held. -/
theorem execSubmit_grows (h : RunInv s) (hr : s.runState = .running) :
    Answers (execSubmit s) fun t => Grows (acceptedBy (.write .word 0x00 0x00000010#32) s t) s t := by
  have hle := txFinished_le_length h hr
  have refused {res : ResultCode} (hok : res.code ≠ ResultCode.ok.code) (hq : res.code ≠ ResultCode.queued.code) :
      Grows (acceptedBy (.write .word 0x00 0x00000010#32) s (respondOnly res s)) s (respondOnly res s) := by
    rw [acceptedBy_submit_refused (resp0Word_code res false 0#16) hok hq]
    exact ((TxKept.refl s).respond _ _ _ _ _).grows h hr
  by_cases h0 : s.arg0 = Config.null ∨ lengthOk s.arg1 = false
  · have hx : execSubmit s = .next (respondOnly .badArg s) := by
      rw [execSubmit, ringGate_running hr, bufferOperand, lengthOperand, if_pos h0]
    exact .of_eq hx (refused (by decide) (by decide))
  · rw [not_or, lengthOk_eq_false_iff, not_or, Nat.not_lt, Nat.not_lt] at h0
    obtain ⟨hb, hl⟩ := h0
    obtain ⟨t, hx, ht⟩ := execSubmit_submits h hr hb hl
    refine .of_eq hx ?_
    cases ht with
    | filled m room result appended finished =>
      subst result
      rw [acceptedBy_submit (resp0Word_code .ok false s.txFill) (.inl rfl)]
      exact grows_of_appended hle appended finished (posted_restart _ _) rfl
    | queued full room result appended finished =>
      subst result
      rw [acceptedBy_submit (resp0Word_code .queued false 0#16) (.inr rfl)]
      exact grows_of_appended hle appended finished rfl rfl
    | busy full result =>
      subst result
      exact refused (by decide) (by decide)

/-! ### Every transition -/

theorem stopSession_stops (s : State) : Answers (stopSession s) fun t => t.runState = .stopped :=
  (answers_any _).andThen fun _ _ => (answers_any _).andThen fun _ _ => rfl

/-- Commands but SUBMIT accept nothing; STOP ends the session. -/
theorem exec_grows {i : Instr} (h : RunInv s) (hr : s.runState = .running) (hi : i ≠ .submit) :
    Answers (exec i s) fun t => t.runState = .running → Grows [] s t := by
  have kept {o : Res State} (k : Answers o (TxKept s)) : Answers o fun t => t.runState = .running → Grows [] s t :=
    k.mono fun _ kt _ => kt.grows h hr
  cases i with
  | start => exact kept (.of_eq (execStart_of_session (ne_stopped hr)) ((TxKept.refl s).respond _ _ _ _ _))
  | stop =>
    have hx : execStop s = stopSession s := by rw [execStop, hr]
    show Answers (execStop s) _
    rw [hx]
    exact (stopSession_stops s).mono fun t ht hrt => nomatch ht.symm.trans hrt
  | submit => exact absurd rfl hi
  | onTxComplete => exact (execOnTxComplete_grows h hr).mono fun _ g _ => g
  | harvest => exact kept (execHarvest_txKept h.session hr)
  | replenish slot => exact kept (execReplenish_txKept h.session hr slot)
  | rxService => exact kept (execRxService_txKept h.session hr)
  | onRxReady => exact kept (execOnRxReady_txKept hr)
  | mcAdd =>
    refine kept ?_
    show Answers (if _ then _ else _) _
    split
    · exact (TxKept.refl s).respond _ _ _ _ _
    · exact (txKept_addRef _ s).respond _ _ _ _ _
  | mcRemove =>
    refine kept ?_
    show Answers (if _ then _ else _) _
    split
    · exact (TxKept.refl s).respond _ _ _ _ _
    · exact (txKept_dropRef _ s).respond _ _ _ _ _
  | mcLookup => exact kept (.of_eq rfl ((TxKept.refl s).respond _ _ _ _ _))

theorem runCommand_grows (w : Word) (h : RunInv s) (hr : s.runState = .running) :
    Answers (runCommand w s) fun t => t.runState = .running → Grows (acceptedBy (.write .word 0x00 w) s t) s t := by
  by_cases hsub : decode w = .ok .submit
  · obtain rfl : encode .submit = w := encode_of_decode hsub
    rw [runCommand_of_decode_ok hsub]
    exact (execSubmit_grows h hr).mono fun _ g _ => g
  · simp only [acceptedBy_of_not_submit hsub]
    unfold runCommand
    split
    · next i hd => exact exec_grows h hr fun e => hsub (e ▸ hd)
    · exact fun _ => ((TxKept.refl s).respond _ _ _ _ _).grows h hr

theorem runTransition_grows (tr : Transition) (h : RunInv s) (hr : s.runState = .running) :
    Answers (runTransition tr s) fun t => t.runState = .running → Grows (acceptedBy tr s t) s t := by
  have kept {o : Res State} (hne : tr ≠ .write .word 0x00 0x00000010#32) (k : Answers o (TxKept s)) :
      Answers o fun t => t.runState = .running → Grows (acceptedBy tr s t) s t :=
    k.mono fun t kt _ => by
      rw [acceptedBy_of_ne hne]
      exact kt.grows h hr
  cases tr with
  | write width offset v =>
    show Answers (hostWrite width offset v s) _
    unfold hostWrite
    split
    · trivial
    · next r hreg =>
      split
      · next hcmd =>
        obtain ⟨rfl, rfl⟩ := regOf_eq_cmd (hcmd ▸ hreg)
        exact runCommand_grows v h hr
      · next hcmd =>
        refine kept (fun e => ?_) (post_next.2 (writeReg_txKept hr r v))
        cases e
        exact hcmd (Option.some.inj hreg).symm
  | read width offset => exact kept (by simp) (hostRead_txKept width offset s)
  | dmaRxDone len err => exact kept (by simp) (dmaRxDone_txKept h.session len err)
  | dmaTxDone =>
    refine (dmaTxDone_grows h hr).mono fun t g _ => ?_
    rw [acceptedBy_of_ne (by simp)]
    exact g
  | hostStore addr v => exact kept (by simp) (hostStoreByte_txKept hr addr v)
  | reset => exact post_next.2 fun hrt => nomatch hrt

end

/-- Settles O40: the step takes the transition off the agenda, which the two orders do not see. -/
theorem postedThenHeldIsSubmissionOrder : Obligations.PostedThenHeldIsSubmissionOrder := by
  intro s t h hr hstep hrt
  cases ha : s.agenda with
  | nil =>
    rw [step, ha, Host.Outcome.next.injEq] at hstep
    rw [accepted_of_waiting ha, ← hstep]
    have g := (TxKept.refl s).grows h hr
    exact ⟨g.posts, g.sends⟩
  | cons tr rest =>
    have h' : RunInv { s with agenda := rest } := h.effect (duty := True) (.quiet rfl)
    rw [step_of_agenda_cons ha] at hstep
    have g := (runTransition_grows tr h' hr).of_eq_next hstep hrt
    rw [accepted_eq_acceptedBy ha]
    exact ⟨g.posts, g.sends⟩

end Sys2Proof.Proofs
end

section
/-! SUPPORT. The multicast table and the commands on it (R207 to R209): what one more and one fewer reference come to in the bucket
itself, in the other buckets and in the rest of the state; and what a multicast command answers. -/

namespace Sys2Proof.Proofs
open Sys2Proof.Machine

/-! ### One more reference, one fewer -/

section
variable {b c : Bucket} {s : State}

@[simp] theorem refCount_addRef_same : refCount (addRef b s) b = refCount s b + 1#8 := by
  unfold addRef
  split
  · rw [refCount_setBucketBit, refCount_setRefCount_same]
  · rw [refCount_setRefCount_same]

@[simp] theorem bucketBit_addRef_same : bucketBit (addRef b s) b = (refCount s b == 0#8 || bucketBit s b) := by
  unfold addRef
  split
  · next h => rw [bucketBit_setBucketBit_same, beq_iff_eq.2 h, Bool.true_or]
  · next h => rw [bucketBit_setRefCount, beq_eq_false_iff_ne.2 h, Bool.false_or]

theorem addRef_other (h : c ≠ b) : refCount (addRef b s) c = refCount s c ∧ bucketBit (addRef b s) c = bucketBit s c := by
  unfold addRef
  split
  · exact ⟨refCount_setRefCount_other h _ s, bucketBit_setBucketBit_other h true _⟩
  · exact ⟨refCount_setRefCount_other h _ s, rfl⟩

theorem addRef_frame : addRef b s = { s with mcRef := (addRef b s).mcRef, mcBit := (addRef b s).mcBit } := by
  unfold addRef
  split <;> rfl

@[simp] theorem refCount_dropRef_same : refCount (dropRef b s) b = refCount s b - 1#8 := by
  unfold dropRef
  split
  · rw [refCount_setBucketBit, refCount_setRefCount_same]
  · rw [refCount_setRefCount_same]

/-- The bit goes with the last reference, but for the broadcast exception (R208). -/
@[simp] theorem bucketBit_dropRef_same :
    bucketBit (dropRef b s) b = (bucketBit s b && (refCount s b != 1#8 || bcastHolds b s)) := by
  unfold dropRef
  split
  · next h =>
    obtain ⟨hlast, hfree⟩ := h
    rw [bucketBit_setBucketBit_same, hlast, hfree, bne_self_eq_false, Bool.or_self, Bool.and_false]
  · next h =>
    have hstays : (refCount s b != 1#8 || bcastHolds b s) = true := by
      rwa [not_and_or, Bool.not_eq_false, ← ne_eq, ← bne_iff_ne, ← Bool.or_eq_true] at h
    rw [bucketBit_setRefCount, hstays, Bool.and_true]

theorem dropRef_other (h : c ≠ b) : refCount (dropRef b s) c = refCount s c ∧ bucketBit (dropRef b s) c = bucketBit s c := by
  unfold dropRef
  split
  · exact ⟨refCount_setRefCount_other h _ s, bucketBit_setBucketBit_other h false _⟩
  · exact ⟨refCount_setRefCount_other h _ s, rfl⟩

theorem dropRef_frame : dropRef b s = { s with mcRef := (dropRef b s).mcRef, mcBit := (dropRef b s).mcBit } := by
  unfold dropRef
  split <;> rfl

end

/-! ### The response -/

/-- The bucket report of R115 as its two fields shifted to their places. -/
theorem bucketReport_eq_or (b : Bucket) (v : Bool) :
    bucketReport b v = b.setWidth 32 ||| (BitVec.ofBool v).setWidth 32 <<< 8 := by
  apply BitVec.eq_of_getLsbD_eq
  intro i hi
  simp only [bucketReport, BitVec.getLsbD_append, BitVec.getLsbD_or, BitVec.getLsbD_shiftLeft, BitVec.getLsbD_setWidth]
  interval_cases i <;> simp

/-- A multicast response on a state that differs from `s` in the table alone, field by field; `n` is the counter reported. -/
theorem respondBucket_of_frame {s t : State} {b : Bucket} {n : Word} (res : ResultCode)
    (frame : t = { s with mcRef := t.mcRef, mcBit := t.mcBit }) (count : (refCount t b).setWidth 32 = n) :
    respondBucket res b t = { s with
      mcRef := t.mcRef
      mcBit := t.mcBit
      resp0 := resp0Word res false 0#16
      resp1 := b.setWidth 32 ||| (BitVec.ofBool (bucketBit t b)).setWidth 32 <<< 8
      resp2 := n } := by
  rw [respondBucket, bucketReport_eq_or, count, respond]
  generalize bucketBit t b = v
  rw [frame]

@[simp] theorem refCount_respondBucket (res : ResultCode) (b c : Bucket) (s : State) :
    refCount (respondBucket res b s) c = refCount s c := rfl

@[simp] theorem bcastHolds_addRef (b c : Bucket) (s : State) : bcastHolds c (addRef b s) = bcastHolds c s := by
  rw [addRef_frame]; rfl

@[simp] theorem operandBucket_addRef (b : Bucket) (s : State) : operandBucket (addRef b s) = operandBucket s := by
  rw [addRef_frame]; rfl

@[simp] theorem bcastHolds_dropRef (b c : Bucket) (s : State) : bcastHolds c (dropRef b s) = bcastHolds c s := by
  rw [dropRef_frame]; rfl

@[simp] theorem operandBucket_dropRef (b : Bucket) (s : State) : operandBucket (dropRef b s) = operandBucket s := by
  rw [dropRef_frame]; rfl

/-! ### The commands -/

section
variable {s : State} {b : Bucket}

theorem exec_mcAdd_of_full (hb : operandBucket s = b) (h : refCount s b = 255#8) :
    exec .mcAdd s = .next (respondBucket .noResource b s) := by
  subst hb
  exact if_pos h

theorem exec_mcAdd_of_room (hb : operandBucket s = b) (h : refCount s b ≠ 255#8) :
    exec .mcAdd s = .next (respondBucket .ok b (addRef b s)) := by
  subst hb
  exact if_neg h

theorem exec_mcRemove_of_empty (hb : operandBucket s = b) (h : refCount s b = 0#8) :
    exec .mcRemove s = .next (respondBucket .notFound b s) := by
  subst hb
  exact if_pos h

theorem exec_mcRemove_of_held (hb : operandBucket s = b) (h : refCount s b ≠ 0#8) :
    exec .mcRemove s = .next (respondBucket .ok b (dropRef b s)) := by
  subst hb
  exact if_neg h

/-! What the next multicast command on the same address meets: the operand's bucket, its counter, its bit and the broadcast exception. -/

theorem exec_mcAdd_next (hb : operandBucket s = b) (h : refCount s b ≠ 255#8) :
    ∃ t, exec .mcAdd s = .next t ∧ operandBucket t = b ∧ bcastHolds b t = bcastHolds b s ∧
      refCount t b = refCount s b + 1#8 ∧ bucketBit t b = (refCount s b == 0#8 || bucketBit s b) :=
  ⟨_, exec_mcAdd_of_room hb h, (operandBucket_addRef b s).trans hb, bcastHolds_addRef b b s, refCount_addRef_same,
    bucketBit_addRef_same⟩

theorem exec_mcRemove_next (hb : operandBucket s = b) (h : refCount s b ≠ 0#8) :
    ∃ t, exec .mcRemove s = .next t ∧ operandBucket t = b ∧ bcastHolds b t = bcastHolds b s ∧
      refCount t b = refCount s b - 1#8 ∧ bucketBit t b = (bucketBit s b && (refCount s b != 1#8 || bcastHolds b s)) :=
  ⟨_, exec_mcRemove_of_held hb h, (operandBucket_dropRef b s).trans hb, bcastHolds_dropRef b b s, refCount_dropRef_same,
    bucketBit_dropRef_same⟩

end

/-! ### Counters below their bounds -/

theorem setWidth_add_one_of_ne_max {n : BitVec 8} (h : n ≠ 255#8) : (n + 1#8).setWidth 32 = n.setWidth 32 + 1#32 := by
  bv_omega

theorem setWidth_sub_one_of_ne_zero {n : BitVec 8} (h : n ≠ 0#8) : (n - 1#8).setWidth 32 = n.setWidth 32 - 1#32 := by
  bv_omega

end Sys2Proof.Proofs
end

section
/-! The statements about the multicast filter, O41 to O44. -/

namespace Sys2Proof.Proofs
open Sys2Proof.Machine

/-- Settles O43: the response is on the state as it stands, and the filter's decision is the bucket's bit by definition. -/
theorem mcLookupOnlyReports : Obligations.McLookupOnlyReports := by
  refine ⟨rfl, fun s a ha => ⟨?_, rfl⟩⟩
  subst ha
  exact congrArg Host.Outcome.next (respondBucket_of_frame .ok (t := s) rfl rfl)

/-- Settles O41: at 255 the response alone is written, below it one reference is added first. -/
theorem mcAddCountsOneReference : Obligations.McAddCountsOneReference := by
  refine ⟨rfl, fun s b hb => ⟨fun hfull => ?_, fun hroom => ?_⟩⟩
  · rw [exec_mcAdd_of_full hb.symm hfull, respondBucket_of_frame .noResource rfl (congrArg (BitVec.setWidth 32) hfull)]
    rfl
  · refine ⟨_, exec_mcAdd_of_room hb.symm hroom, refCount_addRef_same, bucketBit_addRef_same, fun _ => addRef_other, ?_⟩
    exact respondBucket_of_frame .ok addRef_frame
      ((congrArg (BitVec.setWidth 32) refCount_addRef_same).trans (setWidth_add_one_of_ne_max hroom))

/-- Settles O42: at 0 the response alone is written, above it one reference is taken first. -/
theorem mcRemoveDropsOneReference : Obligations.McRemoveDropsOneReference := by
  refine ⟨rfl, fun s b hb => ⟨fun hempty => ?_, fun hheld => ?_⟩⟩
  · rw [exec_mcRemove_of_empty hb.symm hempty, respondBucket_of_frame .notFound rfl (congrArg (BitVec.setWidth 32) hempty)]
    rfl
  · refine ⟨_, exec_mcRemove_of_held hb.symm hheld, ?_, bucketBit_dropRef_same, fun _ => dropRef_other, ?_⟩
    · rw [refCount_respondBucket, refCount_dropRef_same]
      bv_omega
    · exact respondBucket_of_frame .ok dropRef_frame
        ((congrArg (BitVec.setWidth 32) refCount_dropRef_same).trans (setWidth_sub_one_of_ne_zero hheld))

/-- Settles O44: the counter goes 0, 1, 2, 1, 0, so the first add sets the bit and only the second remove can clear it. -/
theorem twoAddsOneRemoveKeepTheBit : Obligations.TwoAddsOneRemoveKeepTheBit := by
  intro s b hb h0
  obtain ⟨x, addX, hbx, heldX, countX, bitX⟩ := exec_mcAdd_next hb.symm (by rw [h0]; decide)
  rw [h0] at countX bitX
  obtain ⟨y, addY, hby, heldY, countY, bitY⟩ := exec_mcAdd_next hbx (by rw [countX]; decide)
  rw [countX] at countY
  rw [bitX, Bool.or_comm] at bitY
  obtain ⟨t, removeT, hbt, heldT, countT, bitT⟩ := exec_mcRemove_next hby (by rw [countY]; decide)
  rw [countY] at countT
  rw [bitY, countY] at bitT
  obtain ⟨u, removeU, -, -, countU, bitU⟩ := exec_mcRemove_next hbt (by rw [countT]; decide)
  rw [countT] at countU
  rw [bitT, countT, heldT, heldY, heldX] at bitU
  refine ⟨t, u, ?_, countT, bitT, removeU, countU, bitU⟩
  rw [addX, andThen_next, addY, andThen_next, removeT]

end Sys2Proof.Proofs
end

section
/-! SUPPORT. START: its writes (R224) stay inside the rings, followed from word to word, and what its first loop answers. -/

namespace Sys2Proof.Proofs
open Sys2Proof.Machine Sys2Proof.Safety

/-! ### Writes inside the rings -/

/-- From `s` to `u` no byte outside the rings of `s` has changed, and the rings are where they were. -/
structure RingsOnly (s u : State) : Prop where
  params : u.params = s.params
  rxBase : u.rxBase = s.rxBase
  txBase : u.txBase = s.txBase
  outside : sameOutsideRings s u.mem

theorem RingsOnly.refl (s : State) : RingsOnly s s := ⟨rfl, rfl, rfl, fun _ _ _ => rfl⟩

theorem RingsOnly.base {s u : State} (k : RingsOnly s u) : ∀ g, ringBase g u = ringBase g s
  | .rx => k.rxBase
  | .tx => k.txBase

section
variable {s u : State} {g : Ring} {i : Nat}

/-- A byte outside both rings is outside each. -/
theorem inRing_eq_false {a : Nat} (rx : inRing .rx a s = false) (tx : inRing .tx a s = false) : ∀ g, inRing g a s = false
  | .rx => rx
  | .tx => tx

/-- A byte outside both rings is outside every slot. -/
theorem outside_slot {a : Nat} (rx : inRing .rx a s = false) (tx : inRing .tx a s = false) (hi : InRange g i s) :
    ¬ (descAddr (ringBase g s) i ≤ a ∧ a < descAddr (ringBase g s) i + 8) := fun ⟨low, high⟩ =>
  Bool.false_ne_true ((inRing_eq_false rx tx g).symm.trans (inRing_of_desc hi low high))

theorem RingsOnly.writeWord (k : RingsOnly s u) (hi : InRange g i s) {a : Nat} (w : Word) (lo : descAddr (ringBase g u) i ≤ a)
    (top : a + 4 ≤ descAddr (ringBase g u) i + 8) : RingsOnly s { u with mem := writeWord a w u.mem } := by
  refine ⟨k.params, k.rxBase, k.txBase, fun c rx tx => ?_⟩
  have hout := outside_slot rx tx hi
  rw [k.base g] at lo top
  exact (readByte_writeWord_other w u.mem (by omega)).trans (k.outside c rx tx)

theorem initSlot_ringsOnly (k : RingsOnly s u) (hi : InRange g i s) (b st : Word) : Answers (initSlot g i b st u) (RingsOnly s) := by
  have buf : Answers (storeBuf g i b u) (RingsOnly s) := answers_of_next fun t e => by
    obtain ⟨-, rfl⟩ := storeBuf_eq_next.1 e
    exact k.writeWord hi b le_rfl (by omega)
  refine buf.andThen fun t kt => answers_of_next fun v e => ?_
  obtain ⟨-, rfl⟩ := storeStatus_eq_next.1 e
  exact kt.writeWord hi st (by omega) (by omega)

/-- START's writes of descriptors stay inside the two rings (R224). -/
theorem buildSession_ringsOnly {bufs : List Word} (hlen : bufs.length = s.params.nRx) :
    Answers (buildSession bufs s) (RingsOnly s) := by
  have rx : Answers (forEach initRxSlot bufs.zipIdx s) (RingsOnly s) := Post.forEach (.refl s) fun bi hbi u k =>
    initSlot_ringsOnly (g := .rx) k (show bi.2 < s.params.nRx by simpa [hlen] using List.snd_lt_of_mem_zipIdx hbi) _ _
  have tx (t : State) (k : RingsOnly s t) : Answers (forEach initTxSlot (List.range s.params.nTx) t) (RingsOnly s) :=
    Post.forEach k fun i hi u k => initSlot_ringsOnly (g := .tx) k (List.mem_range.1 hi) _ _
  exact rx.andThen fun t kt => (tx t kt).andThen fun u ku => ⟨ku.params, ku.rxBase, ku.txBase, ku.outside⟩

/-! ### The answers of START -/

theorem execStart_of_not_basesFit (hs : s.runState = .stopped) (hb : ¬ basesFit s.params s.rxBase s.txBase) :
    execStart s = .next (respondOnly .badArg s) := by
  simp only [execStart, hs, mt baseOk_eq_true.1 hb]
  rfl

/-- The status word START writes, by the slot's place (R31, R35). -/
theorem statusWord_lastSlot (own : Bool) (g : Ring) (p : Params) (i : Nat) : statusWord own (lastSlot g p i) 0#4 0#14 =
    if i + 1 = ringSize g p then (if own then 0xC0000000#32 else 0x40000000#32) else (if own then 0x80000000#32 else 0#32) := by
  by_cases last : i + 1 = ringSize g p
  · rw [lastSlot, decide_eq_true last, if_pos last]
    cases own <;> rfl
  · rw [lastSlot, decide_eq_false last, if_neg last]
    cases own <;> rfl

section
variable {bufs : List Word} (hs : s.runState = .stopped) (hn : bufs.Nodup) (h0 : Config.null ∉ bufs)
  (ha : ∀ i, ∀ h : i < bufs.length, answerAt s i = some bufs[i])
include hs hn h0 ha

/-- START's first loop has taken the answers that keep the contract. -/
theorem obtainBuffers_of_answers (left : Nat) :
    obtainBuffers (bufs.length + left) [] s = obtainBuffers left bufs (afterAnswers bufs.length s) := by
  simpa using obtainBuffers_append hs left (got := []) hn h0 (by simpa using ha)

theorem obtainBuffers_all (hlen : bufs.length = s.params.nRx) :
    obtainBuffers s.params.nRx [] s = .next (true, bufs, afterAnswers s.params.nRx s) := by
  rw [← hlen]
  exact obtainBuffers_of_answers hs hn h0 ha 0

theorem obtainBuffers_runsOut (hlen : bufs.length < s.params.nRx) (hnone : answerAt s bufs.length = none) :
    obtainBuffers s.params.nRx [] s = .next (false, bufs, afterAnswers (bufs.length + 1) s) := by
  obtain ⟨left, hleft⟩ : ∃ left, s.params.nRx = bufs.length + (left + 1) := ⟨s.params.nRx - bufs.length - 1, by omega⟩
  rw [hleft, obtainBuffers_of_answers hs hn h0 ha, obtainBuffers_none hnone]

end

end

end Sys2Proof.Proofs
end

section
/-! O46 to O48: START on illegal bases, without enough buffers, and with them all. -/

namespace Sys2Proof.Proofs
open Sys2Proof.Machine Sys2Proof.Safety

/-- Settles O48: the model's `baseOk` is the condition, and START tests it before it asks the allocator. -/
theorem startRefusesBadBases : Obligations.StartRefusesBadBases := by
  refine ⟨fun _ _ _ => baseOk_eq_true, fun s hs hb => ?_⟩
  show execStart s = _
  rw [execStart_of_not_basesFit hs hb]
  rfl

/-- Settles O47: the first loop ends early with the buffers obtained so far, and these alone are posted. -/
theorem startWithoutBuffersPostsBack : Obligations.StartWithoutBuffersPostsBack := by
  intro s bufs hs hfit hlen hn h0 ha hnone
  refine ⟨?_, postAll_trace bufs⟩
  show execStart s = _
  rw [execStart_of_basesFit hs hfit, startSession, obtainBuffers_runsOut hs hn h0 ha hlen hnone]
  rfl

/-- Settles O46: with every buffer obtained START writes both rings, whose slots read back as written, and opens the session. -/
theorem startBuildsSession : Obligations.StartBuildsSession := by
  intro s bufs hs _ hfit hlen hn h0 ha
  have hbases : BasesOk (afterAnswers s.params.nRx s) := baseOk_eq_true.2 hfit
  obtain ⟨m, hbuild, -, rx, tx⟩ := buildSession_eq hbases hlen
  have outside := ((buildSession_ringsOnly (s := afterAnswers s.params.nRx s) hlen).of_eq_next hbuild).outside
  refine ⟨m, ?_, fun i hi => (rx i hi).trans ?_, fun i hi => (tx i hi).trans ?_, outside⟩
  · show execStart s = _
    rw [execStart_of_basesFit hs hfit, startSession, obtainBuffers_all hs hn h0 ha hlen]
    exact hbuild
  · rw [statusWord_lastSlot]; rfl
  · rw [statusWord_lastSlot]; rfl

end Sys2Proof.Proofs
end

section
/-! SUPPORT. STOP as one update of the state (R226): what a walk over slots posts and leaves in memory, what the walk over the queue
posts, and that the three walks together post what the DRC holds. -/

namespace Sys2Proof.Proofs
open Sys2Proof.Machine Sys2Proof.Safety

/-! ### Posting a list (R61) -/

/-- An update that each post passes over is passed over by a list of them. -/
theorem postAll_comm {f : State → State} (h : ∀ b u, post b (f u) = f (post b u)) (bs : List Word) (s : State) :
    postAll bs (f s) = f (postAll bs s) :=
  List.foldl_hom f fun u b => h b u

theorem postAll_withMem (bs : List Word) (m : Memory) (s : State) : postAll bs { s with mem := m } = { postAll bs s with mem := m } :=
  postAll_comm (f := fun u => { u with mem := m }) (fun b u => post_withMem b m u) bs s

theorem postAll_disableAll (bs : List Word) (s : State) : postAll bs (disableAll s) = disableAll (postAll bs s) :=
  postAll_comm (fun b u => by rw [post_eq, post_eq]; rfl) bs s

theorem postAll_dequeue (bs : List Word) (s : State) : postAll bs (dequeue s) = dequeue (postAll bs s) :=
  postAll_comm (fun b u => by rw [post_eq, post_eq]; rfl) bs s

theorem postAll_append (as bs : List Word) (s : State) : postAll (as ++ bs) s = postAll bs (postAll as s) := List.foldl_append

theorem ringBase_of_bare {s t : State} (h : bare t = bare s) : ∀ g, ringBase g t = ringBase g s
  | .rx => (congrArg State.rxBase h :)
  | .tx => (congrArg State.txBase h :)

/-- STOP's count and state once it has posted the buffers `bs` and memory has become `m`. -/
def afterPosts (bs : List Word) (m : Memory) (r : Word × State) : Word × State :=
  (r.1 + BitVec.ofNat 32 bs.length, { postAll bs r.2 with mem := m })

theorem afterPosts_nil (m : Memory) (r : Word × State) : afterPosts [] m r = (r.1, { r.2 with mem := m }) := by
  simp [afterPosts, postAll]

theorem afterPosts_append (as bs : List Word) (m m' : Memory) (r : Word × State) :
    afterPosts bs m' (afterPosts as m r) = afterPosts (as ++ bs) m' r := by
  simp only [afterPosts, postAll_withMem, postAll_append, List.length_append, BitVec.ofNat_add, BitVec.add_assoc]

theorem bare_afterPosts (bs : List Word) (m : Memory) (r : Word × State) : bare (afterPosts bs m r).2 = bare { r.2 with mem := m } :=
  bare_congr (fun u => { u with mem := m }) (fun _ => rfl) (bare_postAll bs r.2)

theorem loadSlot_afterPosts (g : Ring) (i : Nat) (bs : List Word) (m : Memory) (r : Word × State) :
    loadSlot g i (afterPosts bs m r).2 = loadDesc (ringBase g r.2) i m :=
  (loadSlot_of_bare (bare_afterPosts bs m r) g i).trans (loadSlot_withMem g i r.2 m)

theorem ringBase_afterPosts (g : Ring) (bs : List Word) (m : Memory) (r : Word × State) :
    ringBase g (afterPosts bs m r).2 = ringBase g r.2 := by
  rw [ringBase_of_bare (bare_afterPosts bs m r)]
  cases g <;> rfl

/-! ### The walk over a ring -/

/-- What STOP leaves of a descriptor (R226, R229). -/
def emptiedDesc (d : Desc) : Desc := { buf := Config.null, st := setOwn d.st }

/-- Memory `m'` is `m` with the listed slots of a ring emptied. -/
structure Emptied (base : Word) (l : List Nat) (m m' : Memory) : Prop where
  descs : ∀ i ∈ l, ∀ d, loadDesc base i m = .next d → loadDesc base i m' = .next (emptiedDesc d)
  outside : ∀ c, (∀ i ∈ l, ¬ (descAddr base i ≤ c ∧ c < descAddr base i + 8)) → readByte m' c = readByte m c

section
variable {base base' : Word} {l : List Nat} {i j : Nat} {m m' m'' : Memory} {d : Desc}

theorem Emptied.nil : Emptied base [] m m := ⟨fun _ h => absurd h List.not_mem_nil, fun _ _ => rfl⟩

theorem Emptied.other (e : Emptied base l m m') (apart : ∀ i ∈ l, Apart base i base' j) :
    loadDesc base' j m' = loadDesc base' j m :=
  loadDesc_congr fun a low high => e.outside a fun i hi => by
    have := apart i hi
    unfold Apart at this
    omega

theorem Emptied.cons (hd : loadDesc base i m = .next d) (first : Rewritten base i (emptiedDesc d) m m') (e : Emptied base l m' m'')
    (hi : i ∉ l) : Emptied base (i :: l) m m'' where
  descs j hj d' hd' := by
    rcases List.mem_cons.1 hj with rfl | hj
    · cases hd.symm.trans hd'
      exact (e.other fun k hk => apart_of_ne (ne_of_mem_of_not_mem hk hi).symm).trans first.desc
    · exact e.descs j hj d' ((first.other (apart_of_ne (ne_of_mem_of_not_mem hj hi))).trans hd')
  outside c hc := (e.outside c fun k hk => hc k (List.mem_cons_of_mem i hk)).trans (first.outside c (hc i List.mem_cons_self))

end

section
variable {g : Ring} {i : Nat} {r : Word × State} {d : Desc}

/-- STOP on one slot posts the buffer it holds, if it holds one, and empties it. -/
theorem drainSlot_eq (hd : loadSlot g i r.2 = .next d) :
    ∃ m, drainSlot g i r = .next (afterPosts (slotRef g i r.2).toList m r) ∧
      Rewritten (ringBase g r.2) i (emptiedDesc d) r.2.mem m := by
  obtain ⟨m, hst, hm⟩ := storeStatus_of_loadSlot (setOwn d.st) hd
  by_cases h0 : d.buf = Config.null
  · have hnone : (slotRef g i r.2).toList = [] := by simp [slotRef, hd, h0]
    refine ⟨m, ?_, by rw [emptiedDesc, ← h0]; exact hm⟩
    rw [drainSlot, hd, andThen_next, hst, andThen_next, postHeld, if_pos h0, hnone, afterPosts_nil]
  · have hsome : (slotRef g i r.2).toList = [d.buf] := by simp [slotRef, hd, h0]
    have hload : loadSlot g i { post d.buf r.2 with mem := m } = .next { d with st := setOwn d.st } :=
      (loadSlot_afterPosts g i [d.buf] m r).trans hm.desc
    obtain ⟨m', hbuf, hm'⟩ := storeBuf_of_loadSlot Config.null hload
    have hbase : ringBase g { post d.buf r.2 with mem := m } = ringBase g r.2 := ringBase_afterPosts g [d.buf] m r
    rw [hbase] at hm'
    refine ⟨m', ?_, hm.trans hm'⟩
    rw [drainSlot, hd, andThen_next, hst, andThen_next, postHeld, if_neg h0, post_withMem, hbuf, andThen_next, hsome]
    rfl

theorem slotRef_congr {j : Nat} {s t : State} (h : loadSlot g i t = loadSlot g j s) : slotRef g i t = slotRef g j s := by
  simp only [slotRef, h]

/-- STOP's walk over different slots of a ring, each readable. -/
theorem forEach_drainSlot (g : Ring) : ∀ {l : List Nat} {r : Word × State}, l.Nodup →
    (∀ i ∈ l, ∃ d, loadSlot g i r.2 = .next d) →
    ∃ m, forEach (drainSlot g) l r = .next (afterPosts (l.filterMap fun i => slotRef g i r.2) m r) ∧
      Emptied (ringBase g r.2) l r.2.mem m
  | [], r, _, _ => ⟨r.2.mem, by rw [forEach_nil, List.filterMap_nil, afterPosts_nil], .nil⟩
  | i :: l, r, hn, hl => by
    obtain ⟨hi, hn⟩ := List.nodup_cons.1 hn
    obtain ⟨d, hd⟩ := hl i List.mem_cons_self
    obtain ⟨m, hfirst, hm⟩ := drainSlot_eq hd
    have kept (j : Nat) (hj : j ∈ l) : loadSlot g j (afterPosts (slotRef g i r.2).toList m r).2 = loadSlot g j r.2 :=
      (loadSlot_afterPosts g j _ m r).trans (hm.other (apart_of_ne (ne_of_mem_of_not_mem hj hi)))
    obtain ⟨m', hrest, hm'⟩ := forEach_drainSlot g (r := afterPosts (slotRef g i r.2).toList m r) hn
      fun j hj => by rw [kept j hj]; exact hl j (List.mem_cons_of_mem i hj)
    rw [ringBase_afterPosts] at hm'
    refine ⟨m', ?_, .cons hd hm hm' hi⟩
    rw [forEach_cons, hfirst, andThen_next, hrest, List.filterMap_congr fun j hj => slotRef_congr (kept j hj), afterPosts_append]
    rw [List.filterMap_eq_flatMap_toList, List.filterMap_eq_flatMap_toList, List.flatMap_cons]

end

/-! ### The walk over the queue -/

section
variable {s : State}

/-- The oldest entry stands before those a `Dequeue()` leaves (R173). -/
theorem queueEntries_eq_cons (h : QueueShape s) (hp : s.params.wellFormed = true) (hq : s.qLen ≠ 0#16) :
    queueEntries s = queueHead s :: queueEntries (dequeue s) := by
  have hpos : 0 < s.qLen.toNat := Nat.pos_of_ne_zero fun e => hq (BitVec.eq_of_toNat_eq e)
  rw [queueEntries_eq, queueEntries_eq, qLen_dequeue hq, queueHead_eq h]
  obtain ⟨k, hk⟩ := Nat.exists_eq_add_of_le' hpos
  rw [hk]
  exact map_range_succ_eq_cons fun i _ => (entryAt_dequeue hp i).symm

theorem queueShape_of_bare_eq {s t : State} (h : QueueShape s) (e : bare t = bare s) : QueueShape t :=
  queueShape_of_bare (e ▸ queueShape_bare h)

theorem queueEntries_of_bare {s t : State} (h : bare t = bare s) : queueEntries t = queueEntries s :=
  (congrArg queueEntries h :)

/-- The queue given up: empty, its front where its back is. -/
def emptyQueue (s : State) : State := { s with qFront := s.qBack, qLen := 0#16 }

/-- STOP's walk posts the queue front to back and leaves it empty. -/
theorem drainQueue_eq : ∀ (k : Nat) {n : Word} {s : State}, QueueShape s → s.params.wellFormed = true → s.qLen.toNat = k →
    drainQueue k (n, s) = (n + BitVec.ofNat 32 ((queueEntries s).map QEntry.buf).length,
      emptyQueue (postAll ((queueEntries s).map QEntry.buf) s))
  | 0, n, s, h, _, hk => by
    have hnone : queueEntries s = [] := by rw [queueEntries_eq, hk]; rfl
    have hlen : s.qLen = 0#16 := BitVec.eq_of_toNat_eq hk
    have hfront : s.qBack = s.qFront := BitVec.eq_of_toNat_eq (by rw [h.back, hk, Nat.add_zero, Nat.mod_eq_of_lt h.front])
    have hs : emptyQueue s = s :=
      (congrArg₂ (fun front len => { s with qFront := front, qLen := len }) hfront hlen.symm :)
    rw [drainQueue, hnone]
    exact Prod.ext (BitVec.add_zero n).symm hs.symm
  | k + 1, n, s, h, hp, hk => by
    have hq : s.qLen ≠ 0#16 := fun e => by rw [e] at hk; cases hk
    obtain ⟨-, -, ⟨-, hcap⟩, -⟩ := params_wellFormed_iff.1 hp
    have hbare : bare (post (queueHead s).buf (dequeue s)) = bare (dequeue s) := bare_post _ _
    have hshape := queueShape_of_bare_eq (h.dequeue hq hcap) hbare
    have hlen : (post (queueHead s).buf (dequeue s)).qLen.toNat = k := by rw [qLen_of_bare hbare, qLen_dequeue hq, hk]; rfl
    have hrec := drainQueue_eq k (n := n + 1#32) hshape (by rw [params_of_bare hbare]; exact hp) hlen
    have hpost : post (queueHead s).buf (dequeue s) = dequeue (post (queueHead s).buf s) := postAll_dequeue [(queueHead s).buf] s
    rw [queueEntries_of_bare hbare, hpost, postAll_dequeue, ← hpost] at hrec
    refine hrec.trans ?_
    rw [queueEntries_eq_cons h hp hq, List.map_cons, List.length_cons, Nat.add_comm _ 1, BitVec.ofNat_add, ← BitVec.add_assoc]
    rfl

/-! ### STOP as a whole -/

/-- STOP's three walks, as `stopRefs` counts what they post. -/
theorem stopRefs_eq (s : State) : stopRefs s =
    ringRefs .rx s ++ (txWalk s).filterMap (fun i => slotRef .tx i s) ++ (queueEntries s).map QEntry.buf := by
  have hslot (i : Nat) : (slotLoad .tx i s).map Prod.fst = slotRef .tx i s := by
    unfold slotLoad slotRef
    cases loadSlot .tx i s with
    | next d => by_cases h : d.buf = Config.null <;> simp [h]
    | fault r => rfl
    | refused r => rfl
  have hwalk : txWalk s = (List.range s.params.nTx).map (txSlot s) := rfl
  rw [stopRefs, txPipeline, List.map_append, List.map_filterMap, List.map_map, hwalk, List.filterMap_map, List.append_assoc]
  simp only [hslot]
  rfl

/-- The walk over the Tx ring meets every slot once. -/
theorem txWalk_perm (h : SessionInv s) : (txWalk s).Perm (List.range s.params.nTx) := by
  have hn : (txWalk s).Nodup := List.Nodup.map_on
    (fun j hj k hk e => txSlot_inj (List.mem_range.1 hj) (List.mem_range.1 hk) e) List.nodup_range
  refine (List.perm_ext_iff_of_nodup hn List.nodup_range).2 fun i =>
    ⟨fun hi => List.mem_range.2 (txWalk_lt h.params hi), fun hi => ?_⟩
  obtain ⟨j, hj, e⟩ := exists_txSlot_eq h.cursors.reclaim (List.mem_range.1 hi)
  exact List.mem_map.2 ⟨j, List.mem_range.2 hj, e⟩

theorem stopRefs_perm (h : SessionInv s) (hs : s.runState ≠ .stopped) : (stopRefs s).Perm (heldRefs s) := by
  rw [stopRefs_eq, heldRefs_of_session hs]
  exact (((txWalk_perm h).filterMap _).append_left _).append_right _

/-- The walk over the queue, once the walks over the rings have posted `bs`. -/
theorem drainQueue_afterPosts (h : SessionInv s) {bs refs : List Word} (hrefs : (queueEntries s).map QEntry.buf = refs) (m : Memory)
    {q : Word × State} (hq : q = afterPosts bs m (0#32, disableAll s)) :
    drainQueue q.2.qLen.toNat q =
      (BitVec.ofNat 32 (bs ++ refs).length, emptyQueue { disableAll (postAll (bs ++ refs) s) with mem := m }) := by
  have hbare : bare q.2 = bare { disableAll s with mem := m } := hq ▸ bare_afterPosts bs m (0#32, disableAll s)
  have hkept : QueueShape { disableAll s with mem := m } := h.queue.congr rfl rfl rfl rfl rfl
  have hshape : QueueShape q.2 := queueShape_of_bare_eq hkept hbare
  have hwalk := drainQueue_eq q.2.qLen.toNat (n := q.1) hshape (by rw [params_of_bare hbare]; exact h.params) rfl
  have hentries : (queueEntries q.2).map QEntry.buf = refs := (congrArg _ (queueEntries_of_bare hbare)).trans hrefs
  rw [hentries] at hwalk
  refine hwalk.trans (Prod.ext ?count (congrArg emptyQueue ?state))
  case count => rw [hq, afterPosts, BitVec.zero_add, List.length_append, BitVec.ofNat_add]
  case state =>
    rw [hq, ← postAll_disableAll, postAll_append]
    exact postAll_withMem refs m (postAll bs (disableAll s))

/-- STOP of a session: every held buffer posted, both rings emptied, the queue given up, the session closed. -/
theorem stopSession_eq (h : SessionInv s) (hs : s.runState ≠ .stopped) :
    ∃ m m', stopSession s = .next (closeSession (BitVec.ofNat 32 (stopRefs s).length,
        emptyQueue { disableAll (postAll (stopRefs s) s) with mem := m' })) ∧
      Emptied s.rxBase (List.range s.params.nRx) s.mem m ∧ Emptied s.txBase (txWalk s) m m' := by
  have hb := h.bases hs
  have readable {g : Ring} {i : Nat} (hi : InRange g i s) : ∃ d, loadSlot g i (disableAll s) = .next d :=
    (h.slot hs hi).imp fun _ k => by cases g <;> exact k.1
  obtain ⟨m, hrx, emptyRx⟩ := forEach_drainSlot .rx (r := (0#32, disableAll s)) (List.nodup_range (n := s.params.nRx))
    fun i hi => readable (g := .rx) (List.mem_range.1 hi)
  have hrefs : (List.range s.params.nRx).filterMap (fun i => slotRef .rx i (disableAll s)) = ringRefs .rx s := rfl
  rw [hrefs] at hrx
  have kept (i : Nat) (hi : i ∈ txWalk s) :
      loadSlot .tx i (afterPosts (ringRefs .rx s) m (0#32, disableAll s)).2 = loadSlot .tx i s :=
    (loadSlot_afterPosts .tx i _ m _).trans (emptyRx.other fun j hj =>
      hb.apart (g := .rx) (g' := .tx) (List.mem_range.1 hj) (txWalk_lt h.params hi) (by rintro ⟨⟩))
  obtain ⟨m', htx, emptyTx⟩ := forEach_drainSlot .tx (r := afterPosts (ringRefs .rx s) m (0#32, disableAll s))
    ((txWalk_perm h).nodup_iff.2 List.nodup_range)
    fun i hi => by rw [kept i hi]; exact readable (g := .tx) (txWalk_lt h.params hi)
  rw [List.filterMap_congr fun i hi => slotRef_congr (kept i hi), afterPosts_append] at htx
  rw [ringBase_afterPosts] at emptyTx
  refine ⟨m, m', ?_, emptyRx, emptyTx⟩
  rw [stopSession, hrx, andThen_next, htx, andThen_next, drainQueue_afterPosts h rfl m' rfl, stopRefs_eq]

end

end Sys2Proof.Proofs
end

section
/-! O49: STOP of a session. -/

namespace Sys2Proof.Proofs
open Sys2Proof.Machine Sys2Proof.Safety

theorem execStop_of_session {s : State} (hs : s.runState ≠ .stopped) : execStop s = stopSession s := by
  unfold execStop
  cases h : s.runState with
  | stopped => exact absurd h hs
  | running => rfl
  | faulted => rfl

/-- Settles O49: the Rx ring is emptied first, the Tx ring then, and neither walk reaches the other ring's descriptors. -/
theorem stopPostsEveryHeldBufferOnce : Obligations.StopPostsEveryHeldBufferOnce := by
  intro s h hs
  obtain ⟨m, m', hstop, rx, tx⟩ := stopSession_eq h hs
  have hb := h.bases hs
  have rxIn {i : Nat} (hi : i ∈ List.range s.params.nRx) : InRange .rx i s := List.mem_range.1 hi
  have txIn {i : Nat} (hi : i ∈ txWalk s) : InRange .tx i s := txWalk_lt h.params hi
  refine ⟨m', ?_, fun g i d hi hd => ?_, fun a outRx outTx => ?_, stopRefs_perm h hs⟩
  · have hback : (postAll (stopRefs s) s).qBack = s.qBack := (congrArg State.qBack (bare_postAll (stopRefs s) s) :)
    show execStop s = _
    rw [execStop_of_session hs, hstop, ← hback]
    rfl
  · cases g with
    | rx =>
      have kept : loadDesc s.rxBase i m' = loadDesc s.rxBase i m :=
        tx.other fun j hj => hb.apart (g := .tx) (g' := .rx) (txIn hj) hi (by rintro ⟨⟩)
      exact kept.trans (rx.descs i (List.mem_range.2 hi) d hd)
    | tx =>
      have kept : loadDesc s.txBase i m = loadDesc s.txBase i s.mem :=
        rx.other fun j hj => hb.apart (g := .rx) (g' := .tx) (rxIn hj) hi (by rintro ⟨⟩)
      exact tx.descs i ((txWalk_perm h).mem_iff.2 (List.mem_range.2 hi)) d (kept.trans hd)
  · exact (tx.outside a fun i hi => outside_slot outRx outTx (txIn hi)).trans
      (rx.outside a fun i hi => outside_slot outRx outTx (rxIn hi))

end Sys2Proof.Proofs
end

section
/-! SUPPORT. The steps of the DMA engine by whether their guards hold (R242, R243, R245, R246), and the one write of an enabled step. -/

namespace Sys2Proof.Proofs
open Sys2Proof.Machine Sys2Proof.Safety

variable {s : State} {d : Desc}

/-- The write of a status word alone: `storeStatus_of_loadSlot` with the frame of four bytes, word 0 outside it. -/
theorem storeStatus_writes_status {g : Ring} {i : Nat} (st : Word) (h : loadSlot g i s = .next d) :
    ∃ m, storeStatus g i st s = .next { s with mem := m } ∧ loadDesc (ringBase g s) i m = .next { d with st := st } ∧
      sameOutside (descAddr (ringBase g s) i + 4) 4 s.mem m :=
  ⟨_, storeStatus_eq_next.2 ⟨by have := descAddr_of_loadDesc h; omega, rfl⟩, (rewritten_writeStatus st h).desc,
    fun _ ha => readByte_writeWord_other st s.mem (by omega)⟩

/-! ### Enabled -/

theorem dmaRxDone_of_enabled (en : s.rxEn = true) (hd : loadSlot .rx s.hwRxCur.toNat s = .next d) (hc : slotState d = .hwOwned)
    (len : BitVec 14) (err : BitVec 4) : dmaRxDone len err s = dmaRxGiveBack len err d s := by
  rw [dmaRxDone, if_pos en, hd, andThen_next, if_pos hc]

theorem dmaTxDone_of_enabled (en : s.txEn = true) (run : s.txRunning = true) (hd : loadSlot .tx s.hwTxCur.toNat s = .next d)
    (hc : slotState d = .hwOwned) : dmaTxDone s = dmaTxGiveBack d s := by
  rw [dmaTxDone, if_pos (Bool.and_eq_true_iff.2 ⟨en, run⟩), hd, andThen_next, if_pos hc]

/-! ### Not enabled -/

theorem dmaRxDone_of_rxEn_false (en : s.rxEn = false) (len : BitVec 14) (err : BitVec 4) : dmaRxDone len err s = .next s := by
  rw [dmaRxDone, if_neg (Bool.eq_false_iff.1 en)]

/-- The engine waits at a slot that it does not own (R243), whether or not it is enabled. -/
theorem dmaRxDone_of_not_hwOwned (hd : loadSlot .rx s.hwRxCur.toNat s = .next d) (hc : slotState d ≠ .hwOwned)
    (len : BitVec 14) (err : BitVec 4) : dmaRxDone len err s = .next s := by
  rw [dmaRxDone, hd, andThen_next, if_neg hc, ite_self]

theorem dmaTxDone_of_guard_false (guard : (s.txEn && s.txRunning) = false) : dmaTxDone s = .next s := by
  rw [dmaTxDone, if_neg (Bool.eq_false_iff.1 guard)]

/-- The engine waits at a slot that it does not own (R246), whether or not it is enabled and running. -/
theorem dmaTxDone_of_not_hwOwned (hd : loadSlot .tx s.hwTxCur.toNat s = .next d) (hc : slotState d ≠ .hwOwned) :
    dmaTxDone s = .next s := by
  rw [dmaTxDone, hd, andThen_next, if_neg hc, ite_self]

end Sys2Proof.Proofs
end

section
/-! The statements about the DMA engine, O50 to O52. -/

namespace Sys2Proof.Proofs
open Sys2Proof.Machine Sys2Proof.Safety

/-- Settles O50: the enabled step is one write of the status word, whose fields stand in their places by `statusWord_eq_or`. -/
theorem dmaRxDoneGivesSlotBack : Obligations.DmaRxDoneGivesSlotBack := by
  intro s len err d en hd hc
  obtain ⟨m, store, load, outside⟩ := storeStatus_writes_status (statusWord true d.wrap err len) hd
  refine ⟨m, ?_, ?_, outside⟩
  · show dmaRxDone len err s = _
    rw [dmaRxDone_of_enabled en hd hc, dmaRxGiveBack, store, andThen_next]
    rfl
  · rw [statusWord_eq_or] at load
    exact load

/-- Settles O51: the enabled step is one write of the status word with `OWN` set in it. -/
theorem dmaTxDoneGivesSlotBack : Obligations.DmaTxDoneGivesSlotBack := by
  intro s d en run hd hc
  obtain ⟨m, store, load, outside⟩ := storeStatus_writes_status (setOwn d.st) hd
  refine ⟨m, ?_, load, outside⟩
  show dmaTxDone s = _
  rw [dmaTxDone_of_enabled en run hd hc, dmaTxGiveBack, store, andThen_next]
  rfl

/-- Settles O52: one case for each part of the two guards that can fail. -/
theorem disabledDmaStepsChangeNothing : Obligations.DisabledDmaStepsChangeNothing := by
  refine fun s len err => ⟨fun rx => ?_, fun tx => ?_⟩
  · show dmaRxDone len err s = .next s
    obtain en | ⟨d, hd, hc⟩ := rx
    · exact dmaRxDone_of_rxEn_false en len err
    · exact dmaRxDone_of_not_hwOwned hd hc len err
  · show dmaTxDone s = .next s
    obtain en | run | ⟨d, hd, hc⟩ := tx
    · exact dmaTxDone_of_guard_false (by rw [en, Bool.false_and])
    · exact dmaTxDone_of_guard_false (by rw [run, Bool.and_false])
    · exact dmaTxDone_of_not_hwOwned hd hc

end Sys2Proof.Proofs
end

section
/-! SUPPORT. How a transition can change the lifecycle state, in every state of the machine: `LifecycleMove tr s t` lists the ways of R282,
and every transition is one of them. -/

namespace Sys2Proof.Proofs
open Sys2Proof.Machine Sys2Proof.Safety

/-- What raising a DeviceFault leaves: `FAULTED`, a cause in the latch and the answer `DEVICE_FAULT` (R266). -/
structure Raised (t : State) : Prop where
  runState : t.runState = .faulted
  cause : t.fault.cause ≠ .none
  result : t.resp0.extractLsb' 0 4 = ResultCode.deviceFault.code

theorem raised_raiseDeviceFault {c : FaultCause} (hc : c ≠ .none) (g : Ring) (slot : Half) (n : Word) (s : State) :
    Raised (raiseDeviceFault c g slot n s) := ⟨rfl, hc, resp0Word_code .deviceFault false slot⟩

/-- The ways of R282, and the one that every other transition takes. -/
inductive LifecycleMove : Transition → State → State → Prop
  | kept {tr : Transition} {s t : State} (h : t.runState = s.runState) : LifecycleMove tr s t
  | raised {tr : Transition} {s t : State} (hs : s.runState = .running) (h : Raised t) : LifecycleMove tr s t
  | started {s t : State} (hs : s.runState = .stopped) (ht : t.runState = .running) (ok : t.resp0 = 0#32) :
      LifecycleMove (.write .word 0x00 0x00000001#32) s t
  | stopped {s t : State} (ht : t.runState = .stopped) (ok : t.resp0 = 0#32) :
      LifecycleMove (.write .word 0x00 0x00000002#32) s t
  | reset {s t : State} (ht : t.runState = .stopped) : LifecycleMove .reset s t

section
variable {tr : Transition} {s t u : State}

theorem Core.move_respond (h : Core s t) (res : ResultCode) (more : Bool) (slot : Half) (r1 r2 : Word) :
    LifecycleMove tr s (respond res more slot r1 r2 t) := .kept h.runState

theorem move_raise (hs : s.runState = .running) {c : FaultCause} (hc : c ≠ .none) (g : Ring) (slot : Half) (n : Word) :
    LifecycleMove tr s (raiseDeviceFault c g slot n t) := .raised hs (raised_raiseDeviceFault hc g slot n t)

/-! ### Ring commands -/

/-- Only behind the gate, that is while `RUNNING`, can a ring command change the lifecycle state. -/
theorem ringGate_move {k : State → Res State} (hu : Core s u)
    (h : s.runState = .running → Answers (k u) (LifecycleMove tr s)) : Answers (ringGate u k) (LifecycleMove tr s) := by
  unfold ringGate
  split
  · exact hu.move_respond _ _ _ _ _
  · exact hu.move_respond _ _ _ _ _
  · next hr => exact h (hu.runState ▸ hr)

theorem execHarvest_move : Answers (execHarvest s) (LifecycleMove tr s) :=
  ringGate_move (.refl s) fun hs => (harvestCore_core s).andThen fun r hr => by
    cases r.1 with
    | undecodable slot => exact move_raise hs (by decide) _ _ _
    | empty slot | bad more slot buf st | good more slot buf len => exact hr.move_respond _ _ _ _ _

theorem serviceFrame_move (hu : Core s u) (more : Bool) (slot : Half) (buf : Word) (len : BitVec 14) :
    Answers (serviceFrame more slot buf len u) (LifecycleMove tr s) := by
  refine (allocGet_core [buf] u).andThen fun a ha => ?_
  have taken := hu.trans ha
  split
  · exact (handOver_core _ _ _ _ _).andThen fun t ht => .kept (ht.runState.trans taken.runState)
  · exact (handOver_core _ _ _ _ _).andThen fun t ht => (taken.trans ht).move_respond _ _ _ _ _

theorem execRxService_move : Answers (execRxService s) (LifecycleMove tr s) :=
  ringGate_move (.refl s) fun hs => (harvestCore_core s).andThen fun r hr => by
    cases r.1 with
    | undecodable slot => exact move_raise hs (by decide) _ _ _
    | empty slot => exact hr.move_respond _ _ _ _ _
    | bad more slot buf st => exact (handOver_core _ _ _ _ r.2).andThen fun t ht => (hr.trans ht).move_respond _ _ _ _ _
    | good more slot buf len => exact serviceFrame_move hr more slot buf len

theorem replenishSlot_move (hs : s.runState = .running) (slot : Nat) (b : Word) (d : Desc) :
    Answers (replenishSlot slot b d s) (LifecycleMove tr s) := by
  have install : Answers (andThen (installRx slot b s) fun t => .next (respond .ok false (BitVec.ofNat 16 slot) 0#32 0#32 t))
      (LifecycleMove tr s) := (handOver_core _ _ _ _ s).andThen fun t ht => ht.move_respond _ _ _ _ _
  unfold replenishSlot
  cases slotState d with
  | hwOwned | invalid => exact move_raise hs (by decide) _ _ _
  | free => exact install
  | swCompleted =>
    show Answers (if _ then _ else _) _
    split
    · exact install
    · exact (Core.refl s).move_respond _ _ _ _ _

theorem execReplenish_move (slot : Nat) : Answers (execReplenish slot s) (LifecycleMove tr s) := by
  refine ringGate_move (.refl s) fun hs => ?_
  split
  · split
    · exact (Core.refl s).move_respond _ _ _ _ _
    · exact (answers_any _).andThen fun d _ => replenishSlot_move hs slot _ d
  · exact (Core.refl s).move_respond _ _ _ _ _

theorem execOnRxReady_move : Answers (execOnRxReady s) (LifecycleMove tr s) :=
  ringGate_move ⟨rfl, rfl, rfl, rfl, rfl, rfl⟩ fun _ => by
    refine Core.move_respond (t := if s.pendRxr then _ else _) ?_ .ok false 0#16 0#32 0#32
    split <;> exact ⟨rfl, rfl, rfl, rfl, rfl, rfl⟩

theorem submitToQueue_move (b l : Word) : LifecycleMove tr s (submitToQueue b l s) := by
  unfold submitToQueue
  split <;> exact .kept rfl

theorem submitOn_move (hs : s.runState = .running) (d : Desc) (b l : Word) :
    Answers (submitOn d b l s) (LifecycleMove tr s) := by
  unfold submitOn
  cases slotState d with
  | invalid => exact move_raise hs (by decide) _ _ _
  | hwOwned | swCompleted => exact submitToQueue_move b l
  | free =>
    show Answers (if _ then _ else _) _
    split
    · exact (handOver_core _ _ _ _ s).andThen fun t ht => .kept ((restartTx_runState _).trans ht.runState)
    · exact submitToQueue_move b l

theorem execSubmit_move : Answers (execSubmit s) (LifecycleMove tr s) := by
  refine ringGate_move (.refl s) fun hs => ?_
  split
  · exact (Core.refl s).move_respond _ _ _ _ _
  · exact (answers_any _).andThen fun d _ => submitOn_move hs d _ _

theorem execOnTxComplete_move : Answers (execOnTxComplete s) (LifecycleMove tr s) := by
  refine ringGate_move ⟨rfl, rfl, rfl, rfl, rfl, rfl⟩ fun hs => (reclaimLoop_core _ _ _).andThen fun r hr => ?_
  cases r.1 with
  | faulted slot => exact move_raise hs (by decide) _ _ _
  | done => exact (markIdle_core r.2.2).andThen fun t ht => .kept (ht.runState.trans hr.runState)

/-! ### START and STOP -/

/-- START enters `RUNNING` from `STOPPED` and answers `OK` there; its other answers keep the lifecycle state (R220, R223). -/
theorem execStart_move : Answers (execStart s) (LifecycleMove (.write .word 0x00 0x00000001#32) s) := by
  cases hs : s.runState with
  | running | faulted =>
    exact .of_eq (execStart_of_session (by rw [hs]; decide)) ((Core.refl s).move_respond _ _ _ _ _)
  | stopped =>
    simp only [execStart, hs]
    split
    · refine (obtainBuffers_core _ _ s).andThen fun r hr => ?_
      split
      · exact (answers_any _).andThen fun t _ => (answers_any _).andThen fun u _ => .started hs rfl rfl
      · exact (hr.trans (.of_bare (bare_postAll r.2.1 r.2.2))).move_respond _ _ _ _ _
    · exact (Core.refl s).move_respond _ _ _ _ _

/-- STOP enters `STOPPED` from both other states and answers `OK` (R226). -/
theorem execStop_move : Answers (execStop s) (LifecycleMove (.write .word 0x00 0x00000002#32) s) := by
  by_cases hs : s.runState = .stopped
  · exact .of_eq (execStop_of_stopped hs) ((Core.refl s).move_respond _ _ _ _ _)
  · rw [execStop_of_session hs]
    exact (answers_any _).andThen fun r _ => (answers_any _).andThen fun q _ => .stopped rfl rfl

/-! ### All transitions -/

theorem exec_move (i : Instr) : Answers (exec i s) (LifecycleMove (.write .word 0x00 (encode i)) s) := by
  cases i with
  | start => exact execStart_move
  | stop => exact execStop_move
  | submit => exact execSubmit_move
  | onTxComplete => exact execOnTxComplete_move
  | harvest => exact execHarvest_move
  | replenish slot => exact execReplenish_move slot
  | rxService => exact execRxService_move
  | onRxReady => exact execOnRxReady_move
  | mcAdd =>
    show Answers (if _ then _ else _) _
    split
    · exact .kept rfl
    · exact .kept (congrArg State.runState (bare_addRef (operandBucket s) s) :)
  | mcRemove =>
    show Answers (if _ then _ else _) _
    split
    · exact .kept rfl
    · exact .kept (congrArg State.runState (bare_dropRef (operandBucket s) s) :)
  | mcLookup => exact .kept rfl

theorem runCommand_move (w : Word) : Answers (runCommand w s) (LifecycleMove (.write .word 0x00 w) s) := by
  unfold runCommand
  split
  · next i hd => exact encode_of_decode hd ▸ exec_move i
  · exact (Core.refl s).move_respond _ _ _ _ _

theorem writeReg_runState (r : Reg) (v : Word) (s : State) : (writeReg r v s).runState = s.runState := by
  cases r with
  | mcCtrl =>
    show (writeMcCtrl v s).runState = _
    unfold writeMcCtrl
    split <;> rfl
  | rxBase | txBase =>
    show (if inSession s = true then s else _).runState = _
    split <;> rfl
  | _ => rfl

theorem hostWrite_move (width : AccessWidth) (offset : Nat) (v : Word) :
    Answers (hostWrite width offset v s) (LifecycleMove (.write width offset v) s) := by
  unfold hostWrite
  split
  · trivial
  · next r hreg =>
    split
    · next hcmd =>
      obtain ⟨rfl, rfl⟩ := regOf_eq_cmd (hcmd ▸ hreg)
      exact runCommand_move v
    · exact .kept (writeReg_runState r v s)

theorem dmaRxDone_move (len : BitVec 14) (err : BitVec 4) : Answers (dmaRxDone len err s) (LifecycleMove tr s) := by
  unfold dmaRxDone
  split
  · refine (answers_any _).andThen fun d _ => ?_
    split
    · exact (storeStatus_core _ _ _ s).andThen fun t ht => .kept ht.runState
    · exact .kept rfl
  · exact .kept rfl

theorem dmaTxDone_move : Answers (dmaTxDone s) (LifecycleMove tr s) := by
  unfold dmaTxDone
  split
  · refine (answers_any _).andThen fun d _ => ?_
    split
    · exact (storeStatus_core _ _ _ s).andThen fun t ht => .kept ht.runState
    · exact .kept rfl
  · exact .kept rfl

theorem hostRead_move (width : AccessWidth) (offset : Nat) : Answers (hostRead width offset s) (LifecycleMove tr s) := by
  unfold hostRead
  split
  · trivial
  · exact (answers_any _).andThen fun v _ => .kept rfl

theorem hostStoreByte_move (addr : Word) (v : Byte) : Answers (hostStoreByte addr v s) (LifecycleMove tr s) := by
  unfold hostStoreByte
  split
  · trivial
  · exact .kept rfl

theorem runTransition_move (tr : Transition) : Answers (runTransition tr s) (LifecycleMove tr s) := by
  cases tr with
  | write width offset v => exact hostWrite_move width offset v
  | read width offset => exact hostRead_move width offset
  | dmaRxDone len err => exact dmaRxDone_move len err
  | dmaTxDone => exact dmaTxDone_move
  | hostStore addr v => exact hostStoreByte_move addr v
  | reset => exact .reset rfl

end

end Sys2Proof.Proofs
end

section
/-! The statements about the entry into a device fault and the lifecycle: O18 and O20. -/

namespace Sys2Proof.Proofs
open Sys2Proof.Machine Sys2Proof.Safety

/-- Settles O18: what is to be shown is the layout of `RESP0` for this answer. -/
theorem deviceFaultEntry : Obligations.DeviceFaultEntry := by
  intro c g slot n s
  have word : resp0Word .deviceFault false slot = 6#32 ||| slot.setWidth 32 <<< 8 := append_slot_bit_code slot false 6#4
  rw [← word]
  rfl

/-- Settles O20: the transition of the step moves as `runTransition_move` lists; the agenda is not the lifecycle state. -/
theorem lifecycleChangesOnlyAsListed : Obligations.LifecycleChangesOnlyAsListed := by
  intro s t hstep hne
  cases ha : s.agenda with
  | nil =>
    rw [step, ha, Host.Outcome.next.injEq] at hstep
    exact absurd (congrArg State.runState hstep.symm) hne
  | cons tr rest =>
    rw [step_of_agenda_cons ha] at hstep
    cases (runTransition_move tr).of_eq_next hstep with
    | kept h => exact absurd h hne
    | raised hs h => exact .inr (.inr (.inl ⟨hs, h.runState, h.cause, h.result⟩))
    | started hs ht ok => exact .inr (.inl ⟨congrArg List.head? ha, hs, ht, ok⟩)
    | stopped ht ok => exact .inr (.inr (.inr ⟨congrArg List.head? ha, ht, ok⟩))
    | reset ht => exact .inl ⟨congrArg List.head? ha, ht⟩

end Sys2Proof.Proofs
end

section
/-! The statement about hardware reset: O17. -/

namespace Sys2Proof.Proofs
open Sys2Proof.Machine

/-- Of the state it finds, reset keeps the parameters, the agenda and the inputs still to come (R300, log 12). -/
@[simp] theorem runTransition_reset (s : State) : runTransition .reset s = .next { State.resetWith s.params with
    agenda := s.agenda, allocIn := s.allocIn, bpIn := s.bpIn, inputSeq := s.inputSeq } := rfl

/-- Settles O17: the step takes the reset off the agenda and then runs it, so of the agenda it keeps `rest`. -/
theorem hardwareResetRestoresResetState : Obligations.HardwareResetRestoresResetState := by
  intro s rest hagenda
  calc step s = runTransition .reset { s with agenda := rest } := step_of_agenda_cons hagenda
    _ = .next { State.resetWith s.params with
          agenda := rest, allocIn := s.allocIn, bpIn := s.bpIn, inputSeq := s.inputSeq } := runTransition_reset _

end Sys2Proof.Proofs
end
